-- ==== Sys2Proof/Word.lean ====
section
/-! DEFINITION. The words of the Renhal Fliser and their plainest arithmetic (R2–R4), and the raw fields of an
instruction word (R78, R79, R83, R87). Nothing here gives an instruction a meaning. -/

namespace Sys2Proof

/-- A byte of memory, scratch or a headrace (R3). -/
abbrev Byte := BitVec 8

/-- A word: 32 bits wherever the text names no other width (R4). -/
abbrev Word := BitVec 32

/-- A doubleword: s registers, addresses, register pairs. -/
abbrev DWord := BitVec 64

/-- One bit per lane of a gang (R9). -/
abbrev Mask := BitVec 32

/-- A sparse table from keys to n-bit values: keys strictly rising, and no entry equal to what an unlisted key
reads as. Memory is such a table of `Host.Cell`s. -/
abbrev Table (n : Nat) := List (Nat × BitVec n)

/-- The MOD prefix word, field by field (R87). -/
structure ModWord where
  rsv   : BitVec 2
  stype : BitVec 5
  type  : BitVec 5
  negc  : Bool
  absb  : Bool
  negb  : Bool
  absa  : Bool
  nega  : Bool
  ftz   : Bool
  sat   : Bool
  rm    : BitVec 3
  deriving DecidableEq, Repr

/-- The fields of a format A or U instruction (R78, R79) with its MOD prefix and literal words (R82, R130). -/
structure AWord where
  b   : BitVec 7
  a   : BitVec 8
  d   : BitVec 7
  nxt : BitVec 2
  pre : Option ModWord := none
  la  : Option Word := none
  lb  : Option Word := none
  lt  : Option Word := none
  deriving DecidableEq, Repr

/-- The fields of a format M instruction, two words (R83), with its MOD prefix. -/
structure MWord where
  w    : BitVec 3
  base : BitVec 8
  data : BitVec 7
  la   : BitVec 4
  nxt  : BitVec 2
  ofs  : BitVec 19
  hint : BitVec 2
  sc   : BitVec 3
  idx  : BitVec 8
  pre  : Option ModWord := none
  deriving DecidableEq, Repr

/-- Fills m with one copy of a flag in all n bits. -/
def fill (n : Nat) (b : Bool) : BitVec n := if b then BitVec.allOnes n else 0#n

/-- The number of set bits (`popc`, R8). -/
def popc {n : Nat} (x : BitVec n) : Nat := (List.range n).countP x.getLsbD

/-- The exclusive-or of all bits (`parity`, R8). -/
def parity {n : Nat} (x : BitVec n) : Bool := popc x % 2 == 1

/-- The least multiple count: ceil(a / b). -/
def ceilDiv (a b : Nat) : Nat := (a + b - 1) / b

/-- ceil(log2 n), 0 for n ≤ 1. -/
def ceilLog2 (n : Nat) : Nat := if n ≤ 1 then 0 else Nat.log2 (n - 1) + 1

end Sys2Proof
end

