-- ==== Sys2Proof/Config.lean ====
section
/-! DEFINITION. What an implementation fixes, and the FREE VALUES: constants without a body, so that nothing can be
proved of their values. Each is applied to what it depends on, or to the counter `fresh` of the state. -/

namespace Sys2Proof.Config

/-- Free: whether the part is KRF4096-M, which carries LPDDR6, tier 1 (R1, R385). -/
opaque moduleForm : Bool

/-- Free: whether a new scratch allocation finds at a position the byte that its context left there, or zero (R44). -/
opaque leftStands : Nat → Nat → Bool

/-- Free: which of the free FIFO units of its cluster the next unit of a headrace is, or of the free scratch units the next of a team (R17,
R232); it is taken modulo their number. -/
opaque unitPick : Nat → Nat → Nat

/-- Free: the placement offset q0 (R48); it is taken modulo 4. -/
opaque placement : Nat → Nat

/-- Free: whether a SEALED pattern of more than eight bytes in error lies within eight bytes of another codeword, and the correction that
leads from the pattern to it: positions and what is exclusive-ored there, of which the first eight count (R259). -/
opaque miscorrects : List Byte → Bool
opaque correction : List Byte → List (Nat × Byte)

/-- Free: which set of its slice a line falls into, taken modulo 1,024 (R18); which of the ways free to it a line takes, and which line of a
full set leaves; which CACHE bank a cluster-cache line takes, and which line of a full cluster cache leaves (R15). Each choice is taken
modulo the number of candidates. -/
opaque scSet : Nat → Nat
opaque wayPick : Nat → Nat → Nat
opaque victimPick : Nat → Nat → Nat

/-- Free: a byte of a line stored under one key as it reads under another (R323): the marks of the keys, the line, its bytes, the byte's place. -/
opaque recrypt : (old now line : Nat) → List Byte → Nat → Byte

/-- Free: a byte of a block of 16 bytes of a line whose stored ciphertext has errors, as its decryption gives it (R296): the key's mark, the line, the
block's bytes, the errors, the byte's place. -/
opaque garbled : (key line : Nat) → (block errors : List Byte) → Nat → Byte

/-- Free: a byte of a line as it stands outside the device, encrypted under a key (R296). -/
opaque cipher : (key line : Nat) → List Byte → Nat → Byte

/-- Free: the estimate of a die's power and of its energy (R381, R383), for which the manual gives no formula. -/
opaque diePower : Nat → Nat → Nat
opaque dieEnergy : Nat → Nat → Nat

/-- Free: how the shares of a die's energy, which R383 puts in proportion, are rounded. -/
opaque energyRound : Nat → Nat → Nat

/-- Free: whether a staged firmware image passes its checks, and its version (R379): the key is not given. -/
opaque imageGood : List Byte → Bool
opaque imageVersion : List Byte → Nat

/-- Free: what the manual gives no value of in an attestation report (R380): the digest of the ROM, the digest of a firmware image (none:
the one the part came with), the public key, and the signature over the rest. -/
opaque romDigest : Nat → Byte
opaque imageDigest : Option (List Byte) → Nat → Byte
opaque publicKey : Nat → Byte
opaque signature : List Byte → Nat → Nat → Byte

/-- Free: a byte of a team's scratch that a relay reads after the team has ended and given the scratch back (R162): the relay, the offset. -/
opaque goneByte : Nat → Nat → Byte

/-- Free: the frame the placement engine chooses, among those R290 admits, and the home slice that `lay.place` reports of a page in storage, which has no
frame (R155). -/
opaque frameChoice : Nat → Nat → Nat → Nat

/-- Free: whether the old bank, in bring-up, fails verification or a die link fails training (R26, R384). -/
opaque bringUpFails : Nat → Bool

/-- Free: a byte of a line whose dirty copy a slice discards: what the line last held outside the slice (R324). -/
opaque staleByte : Nat → Nat → Byte

/-- Free: what a CXL.io configuration request reads, where the manual refers to the CXL specification (R358). -/
opaque configSpace : Nat → Word

/-- Free: what a request of a part that is not supported is answered with, where the manual refers to the CXL specification (R358). -/
opaque unsupportedReply : Nat → List Byte

/-- Free: a byte that the host's storage holds under a handle that the device never stored (R374). -/
opaque storedByte : Nat → Nat → Byte

/-- Free: the code of a kind of log record, and its data where the manual names none (R378). -/
opaque logKind : Nat → Nat

/-- Free: the high bits of a lateral handle beyond its uniqueness (R352) are given by a counter; this is its start. -/
opaque handleStart : Nat → Nat

/-- Free: whether infinity times zero plus a quiet NaN is an invalid operation: IEEE 754-2019, which R135 follows,
leaves it to the implementation. -/
opaque fmaNanInvalid : Bool

end Sys2Proof.Config
end

