-- ==== Sys2Proof/Syntax.lean ====
section
/-! DEFINITION. The steps of the Renhal Fliser, one constructor for every row of spec/opcode_table.json: the instruction
words (formats U and A carry an `AWord`, format M an `MWord`), then the device steps (events)
that carry data the outside world or a register write supplies, then the device steps whose object is named by the state's
field `obj` (an operation, gang, team, task, relay, entry or unit number): these have no argument. -/

namespace Sys2Proof

/-- One constructor per row of the opcode table; the docstring of each gives the row's mnemonic and rule. -/
inductive Instr where
  /-- SADD (R120) -/
  | sadd (w : AWord)
  /-- SSUB (R120) -/
  | ssub (w : AWord)
  /-- SMUL (R120) -/
  | smul (w : AWord)
  /-- SMULH (R120) -/
  | smulh (w : AWord)
  /-- SAND (R120) -/
  | sand (w : AWord)
  /-- SOR (R120) -/
  | sor (w : AWord)
  /-- SXOR (R120) -/
  | sxor (w : AWord)
  /-- SSHL (R120) -/
  | sshl (w : AWord)
  /-- SSHR (R120) -/
  | sshr (w : AWord)
  /-- SSAR (R120) -/
  | ssar (w : AWord)
  /-- SMIN (R120) -/
  | smin (w : AWord)
  /-- SMAX (R120) -/
  | smax (w : AWord)
  /-- SCMP (R120) -/
  | scmp (w : AWord)
  /-- SMOV (R120) -/
  | smov (w : AWord)
  /-- SBFX (R120) -/
  | sbfx (w : AWord)
  /-- SCLZ (R120) -/
  | sclz (w : AWord)
  /-- SPOP (R120) -/
  | spop (w : AWord)
  /-- SLD (R120) -/
  | sld (w : AWord)
  /-- MEET (R122) -/
  | meet (w : AWord)
  /-- SETLC (R122) -/
  | setlc (w : AWord)
  /-- NOP (R122) -/
  | nop (w : AWord)
  /-- YIELD (R122) -/
  | yield (w : AWord)
  /-- EXIT (R122) -/
  | exit (w : AWord)
  /-- COMPACT (R54) -/
  | compact (w : AWord)
  /-- SLEEP_UNTIL (R122) -/
  | sleepUntil (w : AWord)
  /-- SLEEP_R (R125) -/
  | sleepR (w : AWord)
  /-- BRK (R122) -/
  | brk (w : AWord)
  /-- TRAP (R122) -/
  | trap (w : AWord)
  /-- ADD (R126) -/
  | add (w : AWord)
  /-- SUB (R126) -/
  | sub (w : AWord)
  /-- ADDS (R126) -/
  | adds (w : AWord)
  /-- SUBS (R126) -/
  | subs (w : AWord)
  /-- ADDC (R126) -/
  | addc (w : AWord)
  /-- MUL_LO (R126) -/
  | mulLo (w : AWord)
  /-- MUL_HI (R126) -/
  | mulHi (w : AWord)
  /-- MAD (R126) -/
  | mad (w : AWord)
  /-- MIN (R126) -/
  | min (w : AWord)
  /-- MAX (R126) -/
  | max (w : AWord)
  /-- ABS (R126) -/
  | abs (w : AWord)
  /-- AND (R126) -/
  | and (w : AWord)
  /-- OR (R126) -/
  | or (w : AWord)
  /-- XOR (R126) -/
  | xor (w : AWord)
  /-- NOT (R126) -/
  | not (w : AWord)
  /-- SHL (R127) -/
  | shl (w : AWord)
  /-- SHR (R127) -/
  | shr (w : AWord)
  /-- SAR (R127) -/
  | sar (w : AWord)
  /-- ROT (R127) -/
  | rot (w : AWord)
  /-- BFX (R127) -/
  | bfx (w : AWord)
  /-- BFI (R127) -/
  | bfi (w : AWord)
  /-- POPC (R126) -/
  | popc (w : AWord)
  /-- CLZ (R126) -/
  | clz (w : AWord)
  /-- CTZ (R126) -/
  | ctz (w : AWord)
  /-- BREV (R126) -/
  | brev (w : AWord)
  /-- SEL (R126) -/
  | sel (w : AWord)
  /-- CMP (R126) -/
  | cmp (w : AWord)
  /-- DOT4 (R126) -/
  | dot4 (w : AWord)
  /-- DOT2 (R126) -/
  | dot2 (w : AWord)
  /-- HMIX (R129) -/
  | hmix (w : AWord)
  /-- LUT3 (R130) -/
  | lut3 (w : AWord)
  /-- FADD (R131) -/
  | fadd (w : AWord)
  /-- FSUB (R131) -/
  | fsub (w : AWord)
  /-- FMUL (R131) -/
  | fmul (w : AWord)
  /-- FFMA (R131) -/
  | ffma (w : AWord)
  /-- FMIN (R132) -/
  | fmin (w : AWord)
  /-- FMAX (R132) -/
  | fmax (w : AWord)
  /-- FCMP (R133) -/
  | fcmp (w : AWord)
  /-- FDIV (R131) -/
  | fdiv (w : AWord)
  /-- FRCP (R131) -/
  | frcp (w : AWord)
  /-- FSQRT (R131) -/
  | fsqrt (w : AWord)
  /-- FRSQ (R131) -/
  | frsq (w : AWord)
  /-- FEXP2 (R131) -/
  | fexp2 (w : AWord)
  /-- FLOG2 (R131) -/
  | flog2 (w : AWord)
  /-- FCLASS (R134) -/
  | fclass (w : AWord)
  /-- FSCALE (R131) -/
  | fscale (w : AWord)
  /-- FRND (R131) -/
  | frnd (w : AWord)
  /-- FFRAC (R131) -/
  | ffrac (w : AWord)
  /-- FABSDIFF (R131) -/
  | fabsdiff (w : AWord)
  /-- FSUM4 (R131) -/
  | fsum4 (w : AWord)
  /-- CVT (R136) -/
  | cvt (w : AWord)
  /-- CVT_SR (R137) -/
  | cvtSr (w : AWord)
  /-- PACK (R138) -/
  | pack (w : AWord)
  /-- UNPACK (R139) -/
  | unpack (w : AWord)
  /-- QDEQ (R140) -/
  | qdeq (w : AWord)
  /-- QENC (R140) -/
  | qenc (w : AWord)
  /-- BEXP (R141) -/
  | bexp (w : AWord)
  /-- BSCALE (R142) -/
  | bscale (w : AWord)
  /-- SHFL_IDX (R143) -/
  | shflIdx (w : AWord)
  /-- SHFL_XOR (R143) -/
  | shflXor (w : AWord)
  /-- SHFL_UP (R143) -/
  | shflUp (w : AWord)
  /-- SHFL_DN (R143) -/
  | shflDn (w : AWord)
  /-- VOTE_ANY (R143) -/
  | voteAny (w : AWord)
  /-- VOTE_ALL (R143) -/
  | voteAll (w : AWord)
  /-- VOTE_BAL (R143) -/
  | voteBal (w : AWord)
  /-- VOTE_CNT (R143) -/
  | voteCnt (w : AWord)
  /-- LRED_ADD (R144) -/
  | lredAdd (w : AWord)
  /-- LRED_MIN (R144) -/
  | lredMin (w : AWord)
  /-- LRED_MAX (R144) -/
  | lredMax (w : AWord)
  /-- LSCAN_ADD (R143) -/
  | lscanAdd (w : AWord)
  /-- LMATCH (R143) -/
  | lmatch (w : AWord)
  /-- KAND (R145) -/
  | kand (w : AWord)
  /-- KOR (R145) -/
  | kor (w : AWord)
  /-- KXOR (R145) -/
  | kxor (w : AWord)
  /-- KNOT (R145) -/
  | knot (w : AWord)
  /-- KMOV (R145) -/
  | kmov (w : AWord)
  /-- KPOP (R145) -/
  | kpop (w : AWord)
  /-- KFFS (R145) -/
  | kffs (w : AWord)
  /-- K2S (R145) -/
  | k2s (w : AWord)
  /-- S2K (R145) -/
  | s2k (w : AWord)
  /-- LD (R207) -/
  | ld (w : MWord)
  /-- ST (R207) -/
  | st (w : MWord)
  /-- LDU (R209) -/
  | ldu (w : MWord)
  /-- LDS (R207) -/
  | lds (w : MWord)
  /-- STS (R207) -/
  | sts (w : MWord)
  /-- PREF (R211) -/
  | pref (w : MWord)
  /-- ATOM_ADD (R213) -/
  | atomAdd (w : MWord)
  /-- ATOM_MIN (R213) -/
  | atomMin (w : MWord)
  /-- ATOM_MAX (R213) -/
  | atomMax (w : MWord)
  /-- ATOM_AND (R213) -/
  | atomAnd (w : MWord)
  /-- ATOM_OR (R213) -/
  | atomOr (w : MWord)
  /-- ATOM_XOR (R213) -/
  | atomXor (w : MWord)
  /-- ATOM_XCHG (R213) -/
  | atomXchg (w : MWord)
  /-- ATOM_CAS (R213) -/
  | atomCas (w : MWord)
  /-- ATOM_FADD (R215) -/
  | atomFadd (w : MWord)
  /-- ATOM_BINC (R213) -/
  | atomBinc (w : MWord)
  /-- ATOM_BFINS (R213) -/
  | atomBfins (w : MWord)
  /-- ATOM_FFCS (R213) -/
  | atomFfcs (w : MWord)
  /-- ATOM_PLSET (R213) -/
  | atomPlset (w : MWord)
  /-- ST_ACC (R216) -/
  | stAcc (w : MWord)
  /-- WEIR (R218) -/
  | weir (w : MWord)
  /-- FENCE_REL (R221) -/
  | fenceRel (w : MWord)
  /-- FENCE_ACQ (R221) -/
  | fenceAcq (w : MWord)
  /-- CLEAN (R222) -/
  | clean (w : MWord)
  /-- INVAL (R222) -/
  | inval (w : MWord)
  /-- CLEAN_DISCARD (R222) -/
  | cleanDiscard (w : MWord)
  /-- STN (R223) -/
  | stn (w : MWord)
  /-- STN_BLK (R223) -/
  | stnBlk (w : MWord)
  /-- RLQ (R226) -/
  | rlq (w : MWord)
  /-- PIN (R227) -/
  | pin (w : MWord)
  /-- UNPIN (R228) -/
  | unpin (w : MWord)
  /-- LDT (R230) -/
  | ldt (w : MWord)
  /-- STT (R230) -/
  | stt (w : MWord)
  /-- HR_BIND (R234) -/
  | hrBind (w : MWord)
  /-- HR_FREE (R234) -/
  | hrFree (w : MWord)
  /-- MMA (R241) -/
  | mma (w : MWord)
  /-- MMA_THIN (R242) -/
  | mmaThin (w : MWord)
  /-- MMA_Q (R243) -/
  | mmaQ (w : MWord)
  /-- ACC_INIT (R248) -/
  | accInit (w : MWord)
  /-- ACC_DROP (R251) -/
  | accDrop (w : MWord)
  /-- CIS_ARM (R254) -/
  | cisArm (w : MWord)
  /-- CIS_SUB (R254) -/
  | cisSub (w : MWord)
  /-- CIS_WAIT (R255) -/
  | cisWait (w : MWord)
  /-- CIS_RD (R254) -/
  | cisRd (w : MWord)
  /-- CIS_REARM (R254) -/
  | cisRearm (w : MWord)
  /-- LAY_SET (R171) -/
  | laySet (w : MWord)
  /-- LAY_GET (R172) -/
  | layGet (w : MWord)
  /-- LAY_CHK (R172) -/
  | layChk (w : MWord)
  /-- LAY_PLACE (R173) -/
  | layPlace (w : MWord)
  /-- LAY_FREE (R174) -/
  | layFree (w : MWord)
  /-- RELAY_MV (R156) -/
  | relayMv (w : MWord)
  /-- RELAY_CP (R163) -/
  | relayCp (w : MWord)
  /-- RELAY_GX (R164) -/
  | relayGx (w : MWord)
  /-- RELAY_WAIT (R176) -/
  | relayWait (w : MWord)
  /-- BAR_INIT (R331) -/
  | barInit (w : MWord)
  /-- BAR_ARR (R332) -/
  | barArr (w : MWord)
  /-- BAR_ARD (R332) -/
  | barArd (w : MWord)
  /-- BAR_C (R337) -/
  | barC (w : MWord)
  /-- AMSG_SEND (R341) -/
  | amsgSend (w : MWord)
  /-- AMSG_PAY (R342) -/
  | amsgPay (w : MWord)
  /-- CNL_RES (R348) -/
  | cnlRes (w : MWord)
  /-- CNL_PUB (R348) -/
  | cnlPub (w : MWord)
  /-- CNL_TAKE (R348) -/
  | cnlTake (w : MWord)
  /-- CNL_REL (R348) -/
  | cnlRel (w : MWord)
  /-- LAT_SUB (R352) -/
  | latSub (w : MWord)
  /-- LAT_END (R353) -/
  | latEnd (w : MWord)
  /-- SYSRD (R312) -/
  | sysrd (w : MWord)
  /-- SYSWR (R312) -/
  | syswr (w : MWord)
  /-- LAUNCH (R355) -/
  | launch (w : MWord)
  /-- TRET (R308) -/
  | tret (w : MWord)
  /-- TREC (R310) -/
  | trec (w : MWord)
  /-- BNK_MODE (R322) -/
  | bnkMode (w : MWord)
  /-- KEY_NEW (R323) -/
  | keyNew (w : MWord)
  /-- KEY_DEL_DRAIN (R324) -/
  | keyDelDrain (w : MWord)
  /-- KEY_DEL_SCUTTLE (R324) -/
  | keyDelScuttle (w : MWord)
  /-- ERRB_RD (R325) -/
  | errbRd (w : MWord)
  /-- ERRB_SET (R325) -/
  | errbSet (w : MWord)
  /-- CTX_SAVE_INSTR (R320) -/
  | ctxSaveInstr (w : MWord)
  /-- CTX_LOAD_INSTR (R321) -/
  | ctxLoadInstr (w : MWord)
  /-- MEMWR (R359) -/
  | memwr (addr : Nat) (bytes : List Byte)
  /-- MEMWRPTL (R359) -/
  | memwrptl (addr : Nat) (bytes : List (Option Byte))
  /-- CONFIG_REQUEST (R358) -/
  | configRequest (reg : Nat) (val : Option Word)
  /-- MSIX_TABLE_ACCESS (R358) -/
  | msixTableAccess (off : Nat) (val : Option Word)
  /-- PEER_ACCESS (R373) -/
  | peerAccess (port addr op w ty : Nat) (g0 g1 : DWord) (bytes : List (Option Byte))
  /-- STACK_LOAD_REPORT (R270) -/
  | stackLoadReport (loads : List Nat)
  /-- PEER_MESSAGE (R373) -/
  | peerMessage (port : Nat) (send : Bool) (core : Nat) (team target ctl gts : DWord) (bytes : List Byte)
  /-- RWR_WRITE (R21) -/
  | rwrWrite (slice : Nat) (val : Word)
  /-- TINV_WRITE (R284) -/
  | tinvWrite (val : DWord)
  /-- IRC_RESHAPE (R294) -/
  | ircReshape (val : Word)
  /-- QUEUE_ENABLE (R362) -/
  | queueEnable (q : Nat) (val : DWord)
  /-- POOL_ENABLE (R269) -/
  | poolEnable (inst : Nat) (val : DWord)
  /-- POOL_DISABLE (R269) -/
  | poolDisable (inst : Nat) (val : DWord)
  /-- CANAL_ENABLE (R347) -/
  | canalEnable (c : Nat) (val : DWord)
  /-- CANAL_DISABLE (R347) -/
  | canalDisable (c : Nat) (val : DWord)
  /-- STORAGE_RING_ENABLE (R374) -/
  | storageRingEnable (val : DWord)
  /-- STORAGE_REQUEST_WRITE (R374) -/
  | storageRequestWrite (op size : Nat) (host handle : DWord)
  /-- CTX_CREATE (R361) -/
  | ctxCreate (ctx : Nat) (sup : Bool)
  /-- CTX_LOAD (R376) -/
  | ctxLoad (core ctx : Nat) (sw : Bool)
  /-- FW_STAGE (R379) -/
  | fwStage (total off : Nat) (piece : List Byte)
  /-- ATTEST (R380) -/
  | attest (nonce : List Byte)
  /-- SOFT_ERROR (R262) -/
  | softError (place key : Nat) (flip : Byte)
  /-- THERMAL_LIMIT (R378) -/
  | thermalLimit (loc : Nat) (data : DWord)
  /-- CLAUSE_ISSUE (R75) -/
  | clauseIssue
  /-- LONG_LATENCY_TIMEOUT (R51) -/
  | longLatencyTimeout
  /-- ACTIVE_SET_FILL (R51) -/
  | activeSetFill
  /-- STARVATION (R53) -/
  | starvation
  /-- EXCHANGE_BY_WAITING (R53) -/
  | exchangeByWaiting
  /-- GANG_END (R37) -/
  | gangEnd
  /-- TEAM_END (R37) -/
  | teamEnd
  /-- COMPACT_REPACK (R54) -/
  | compactRepack
  /-- TEAM_DISPATCH (R57) -/
  | teamDispatch
  /-- MIGRATION_ADVERTISE (R62) -/
  | migrationAdvertise
  /-- MIGRATION_OFFER (R62) -/
  | migrationOffer
  /-- MIGRATION_ARRIVAL (R62) -/
  | migrationArrival
  /-- QUEUE_TAIL_UPDATE (R363) -/
  | queueTailUpdate
  /-- RECORD_FETCH (R363) -/
  | recordFetch
  /-- LAUNCH_RECORD_START (R367) -/
  | launchRecordStart
  /-- EDGE_DONE_WAKE (R367) -/
  | edgeDoneWake
  /-- GRID_WORD_RESOLVE (R367) -/
  | gridWordResolve
  /-- RESIDENCY_LEASE_GRANT (R286) -/
  | residencyLeaseGrant
  /-- PAGE_PROMOTION (R286) -/
  | pagePromotion
  /-- TASK_COMPLETION (R372) -/
  | taskCompletion
  /-- ORPHAN_CAUSE (R307) -/
  | orphanCause
  /-- HOME_LOAD (R181) -/
  | homeLoad
  /-- LOAD_REPLY (R183) -/
  | loadReply
  /-- HOME_STORE (R182) -/
  | homeStore
  /-- ATOMIC_AT_HOME (R214) -/
  | atomicAtHome
  /-- STORE_TIME_RETURN (R183) -/
  | storeTimeReturn
  /-- WEIR_POLL (R218) -/
  | weirPoll
  /-- LINE_FETCH (R259) -/
  | lineFetch
  /-- EVICTION_WRITEBACK (R190) -/
  | evictionWriteback
  /-- MOVED_REPLY (R189) -/
  | movedReply
  /-- MEMRD (R359) -/
  | memrd
  /-- SNPINV (R358) -/
  | snpinv
  /-- SNPDATA (R358) -/
  | snpdata
  /-- SNPCUR (R358) -/
  | snpcur
  /-- UNSUPPORTED_REQUEST (R358) -/
  | unsupportedRequest
  /-- RELAY_ACCEPT (R196) -/
  | relayAccept
  /-- RELAY_SECTOR_LAND (R158) -/
  | relaySectorLand
  /-- RELAY_PASS_COMPLETE (R158) -/
  | relayPassComplete
  /-- RELAY_COMPLETION (R168) -/
  | relayCompletion
  /-- SLEEP_WAKE (R125) -/
  | sleepWake
  /-- MMA_ACCEPT (R240) -/
  | mmaAccept
  /-- MMA_COMPLETION (R244) -/
  | mmaCompletion
  /-- CONTRIBUTION_ARRIVAL (R249) -/
  | contributionArrival
  /-- CONTRIBUTION_REPLY (R216) -/
  | contributionReply
  /-- ACC_INIT_SLICE (R248) -/
  | accInitSlice
  /-- ACC_INIT_REPLY (R248) -/
  | accInitReply
  /-- ACC_DROP_SLICE (R251) -/
  | accDropSlice
  /-- HEADRACE_RELEASE (R234) -/
  | headraceRelease
  /-- NAMELESS_STORE_CHOICE (R270) -/
  | namelessStoreChoice
  /-- NAME_RETURN (R224) -/
  | nameReturn
  /-- RLQ_APPLY (R271) -/
  | rlqApply
  /-- PIN_PROMOTION (R227) -/
  | pinPromotion
  /-- WINDOW_FADE (R228) -/
  | windowFade
  /-- LATERAL_BATCH_TIMEOUT (R274) -/
  | lateralBatchTimeout
  /-- LATERAL_BATCH_APPLY (R274) -/
  | lateralBatchApply
  /-- LATERAL_SUB_REPLY (R352) -/
  | lateralSubReply
  /-- COHORT_ARRIVAL (R338) -/
  | cohortArrival
  /-- COHORT_COMPLETION_DELIVERY (R338) -/
  | cohortCompletionDelivery
  /-- MESSAGE_SEND (R344) -/
  | messageSend
  /-- INBOX_ACCEPT (R344) -/
  | inboxAccept
  /-- HANDLER_SPAWN (R345) -/
  | handlerSpawn
  /-- PAYLOAD_DELIVERY (R342) -/
  | payloadDelivery
  /-- TRAP_ENTRY (R302) -/
  | trapEntry
  /-- WATCHDOG (R327) -/
  | watchdog
  /-- EXT_TIMEOUT (R328) -/
  | extTimeout
  /-- SPILL_COMPLETE (R319) -/
  | spillComplete
  /-- FILL_COMPLETE (R316) -/
  | fillComplete
  /-- DEFERRED_TEAM_PLACEMENT (R319) -/
  | deferredTeamPlacement
  /-- BANK_MODE_COMPLETE (R322) -/
  | bankModeComplete
  /-- RWR_CHANGE_COMPLETE (R21) -/
  | rwrChangeComplete
  /-- TLB_WALK (R283) -/
  | tlbWalk
  /-- TINV_COMPLETE (R284) -/
  | tinvComplete
  /-- DEMOTION (R289) -/
  | demotion
  /-- HOT_PAGE_PROMOTION (R289) -/
  | hotPagePromotion
  /-- ACCESS_COUNT_INTERVAL (R289) -/
  | accessCountInterval
  /-- PAGE_MOVE (R290) -/
  | pageMove
  /-- CLASS_CHANGE_MIGRATION (R267) -/
  | classChangeMigration
  /-- RESHAPE_HANDOFF (R294) -/
  | reshapeHandoff
  /-- STORAGE_ACK (R374) -/
  | storageAck
  /-- POWER_ARBITRATION (R381) -/
  | powerArbitration
  /-- ENERGY_CHARGE (R383) -/
  | energyCharge
  /-- POWER_ON_RESET (R384) -/
  | powerOnReset
  /-- CTX_DESTROY (R376) -/
  | ctxDestroy
  /-- CTX_SAVE (R376) -/
  | ctxSave
  /-- LOG_READ (R377) -/
  | logRead
  /-- FW_ACTIVATE (R379) -/
  | fwActivate
  /-- MAILBOX_UNKNOWN_COMMAND (R375) -/
  | mailboxUnknownCommand
  /-- POWER_LOSS (R379) -/
  | powerLoss
  /-- ACC_DROP_REPLY (R251) -/
  | accDropReply
  /-- KEY_DEL_COMPLETE (R324) -/
  | keyDelComplete
  /-- WRITEBACK_AT_HOME (R191) -/
  | writebackAtHome
  /-- PEER_PORT_ACCEPT (R344) -/
  | peerPortAccept
  deriving DecidableEq, Repr

end Sys2Proof
end

