-- ==== Sys2Proof/Machine/State.lean ====
section
/-! DEFINITION. The state of the Renhal Fliser as plain data: everything INVENTORY.md lists under State, and the state
right after reset. -/

namespace Sys2Proof.Machine

/-- A fault of the model: the machine stops. -/
inductive Fault where
  /-- Raised by `step` when the package has no power (POWER_LOSS) or never left reset (R26, R384): nothing runs. Safe. -/
  | noPower
  deriving DecidableEq, Repr

/-- A refusal: no meaning. -/
inductive Refusal where
  /-- Raised by an arm of `exec` whose instruction has no meaning yet. Safe. -/
  | notModelled (mnemonic : String)
  deriving DecidableEq, Repr

/-- The causes of R299. -/
inductive Cause where
  | illegalOpcode | illegalClause | illegalOperand | privileged | doubleTrap | trapInstr | breakpoint
  | outOfLease | misaligned | rights | scratchRange | tableInvalid | writebackDenied | keyAbsent
  | rlqFree | poolEmpty | poolInvalid | pinLimit
  | layoutSingular | indexOutsideExtent | relayWriteLocked | layoutInvalid | slotBusy | slotEmpty | relayInvalid
  | barInvalid | barScope | barOver | cisternOverfill | watchdog | extTimeout | canalInvalid
  | lateralInvalid | lateralFull | promiseMissed | headraceInvalid | headraceSpace | matrixInvalid
  | mergeInvalid | mergeSpace | mergeAbsent | mergeMismatch | messageInvalid | launchInvalid
  | dataError | errorBudget
  deriving DecidableEq, Repr

/-- Four doublewords: a trap header (R300) or record (R301). -/
structure TrapRec where
  dw0 : DWord := 0
  dw1 : DWord := 0
  dw2 : DWord := 0
  dw3 : DWord := 0
  deriving DecidableEq, Repr

/-- What is known of a cause when it is raised: its records, the failing lanes, n of `trap #n`, and for a cause taken
later the clause address and word index of the causing word (R300). -/
structure Raised where
  cause : Cause
  lanes : Mask := 0
  trapn : BitVec 8 := 0
  recs  : List TrapRec := []
  lost  : Nat := 0
  cpc   : DWord := 0
  cwi   : Nat := 0
  deriving DecidableEq, Repr

/-- The wait a gang is in (R51, R326), with its object. -/
inductive Wait where
  | none
  /-- `weir`: word address, width code, condition, unsigned, comparand, page BULK, page EXTSIG, virtual address -/
  | weir (pa w cond : Nat) (uns : Bool) (cmp : DWord) (bulk ext : Bool) (va : DWord)
  /-- `cis.wait`: offset and the phase to wait past -/
  | cistern (off phase : Nat)
  /-- `bar.arr`, `bar.c`: offset and the phase arrived at -/
  | barrier (off phase : Nat)
  /-- `cnl.take`: canal, destination register -/
  | canal (c dst : Nat)
  | compact
  | sleepUntil (t : DWord)
  | sleepR (receipt : DWord)
  | relay (ticket : Nat)
  | hrFree (h : Nat)
  /-- a relay at its word until a place among 64 is free (R166), or a matrix form while 8 are accepted (R240), or a
  message while 16 are unsent (R344): nothing has been done yet -/
  | room
  /-- a clause whose header's WAIT names operations that are outstanding (R70) -/
  | clause (hdr : Word)
  /-- a form that holds the gang at its word until replies have come: the number of its entry, lateral, operation or key -/
  | reply (what : Nat)
  deriving DecidableEq, Repr

/-- Where a gang or team stands (R316, R319, R62). -/
inductive Place where
  | undispatched | running | shadow | saved | moving | ended
  deriving DecidableEq, Repr

/-- The clause a gang is issuing (R75, R92, R93). `x = 0` says that none is in progress. -/
structure ClauseState where
  addr  : DWord := 0
  hdr   : Word := 0
  words : List Word := []
  x     : Nat := 0
  set   : Mask := 0
  fired : Bool := false
  loop  : Option Bool := none
  deriving DecidableEq, Repr

/-- A gang: R34, R35, R41, R49–R53, R84, R300, R318. -/
structure Gang where
  gid      : Nat := 0
  team     : Nat := 0
  num      : Nat := 0
  regs     : Nat := 8
  quarter  : Nat := 0
  place    : Place := .ended
  v        : Table 32 := []
  s        : Table 64 := []
  k        : Table 32 := []
  lc       : BitVec 32 := 0
  pc       : Table 64 := []
  meet     : Table 64 := []
  lk       : Table 64 := []
  live     : Mask := 0
  marks    : Mask := 0
  streak   : Nat := 0
  yieldPt  : DWord := 0
  gts      : Nat := 0
  fmode    : BitVec 32 := 1
  fstat    : BitVec 32 := 0
  cl       : ClauseState := {}
  prio     : Bool := false
  inH      : Bool := false
  hpc      : DWord := 0
  kept     : ClauseState := {}
  area     : TrapRec := {}
  recs     : List TrapRec := []
  pending  : List Raised := []
  wait     : Wait := .none
  waitNxt  : BitVec 2 := 0
  waitLen  : Nat := 0
  waitFrom : Nat := 0
  wake     : Option Nat := none
  issued   : Nat := 0
  engTime  : Nat := 0     -- largest time of its completed engine operations not yet joined (R187)
  active   : Bool := false
  age      : Nat := 0
  entered  : Nat := 0     -- when it entered the active set, plus one
  entry    : Nat := 0     -- how it entered: 0 for another gang's dependence or at trap priority, 1 into room, 2 by waiting (R51–R53)
  readyFrom : Option Nat := none   -- since when it has been ready without issuing, where it now stands (R53)
  starved  : Bool := false
  issueAt  : Nat := 0
  lastIssue : Nat := 0    -- when it last issued, plus one (R50)
  longLat  : Bool := false   -- it has just met a long-latency dependence (R51)
  deriving DecidableEq, Repr

/-- What an operation is (R70). -/
inductive OpKind where
  | load | store | atomic | pref | stAcc | stn | rlq | relay | mma | message | fence | other
  deriving DecidableEq, Repr

/-- One lane's access: its addresses, size, the bytes it stores with a bit mask each, its operands, the bytes it got. -/
structure LaneReq where
  lane : Nat
  va   : DWord
  pa   : Nat
  size : Nat
  bytes : List Byte := []
  mask : Byte := 0xFF
  g0   : DWord := 0
  g1   : DWord := 0
  got  : List Byte := []
  pre  : List (Byte × Byte) := []   -- a BULK load's bytes that its cluster held dirty at its issue, each with its dirty bits (R190)
  deriving DecidableEq, Repr

/-- One line an operation touches, with what its page says of it, and what its home has answered. -/
structure LineReq where
  line    : Nat
  va      : Nat := 0         -- virtual line number of a context's access
  bulk    : Bool
  cls     : Nat
  dm      : Bool
  dom     : Nat
  lo      : Nat := 0        -- the block asked for: first byte, and the byte after the last (R29, R205)
  hi      : Nat := 128
  sentAt  : Nat := 0        -- its place in the order of sending; 0 before it is sent (R25)
  arrived : Bool := false   -- it has reached its home
  fetched : Bool := false   -- its fetch met an uncorrectable error: served once from the bytes as read (R259)
  granted : Bool := false
  time    : Nat := 0
  lease   : Nat := 0
  deriving DecidableEq, Repr

/-- An error event an operation has met, to be charged when it replies (R260, R264): line, class, whether it was
uncorrectable, whether it came from on-chip SRAM. -/
structure Event where
  line : Nat
  va   : Nat := 0          -- virtual line number
  cls  : Nat
  bad  : Bool
  sram : Bool := false
  store : Bool := false    -- an engine's write met it, not its read
  place : Nat := 0         -- of on-chip SRAM: the core or slice that holds it (R378)
  deriving DecidableEq, Repr

/-- A line held in an SC slice (R18, R180), with what its page said of it. -/
structure ScLine where
  line  : Nat
  slice : Nat
  way   : Nat := 0
  valid : BitVec 8 := 0xFF   -- its 16-byte halves that are held
  dirty : BitVec 4 := 0      -- its 32-byte sectors that are dirty
  held  : Bool := false      -- a pinned window holds it (R227)
  bulk  : Bool := false
  cls   : Nat
  dm    : Bool
  dom   : Nat
  ctx   : Nat
  va    : Nat
  deriving DecidableEq, Repr

/-- A format M operation that is outstanding (R70, R84). -/
structure Op where
  id    : Nat
  gang  : Nat
  kind  : OpKind
  ctx   : Nat
  cpc   : DWord
  cwi   : Nat
  la    : Nat
  seq   : Nat
  code  : Nat := 0      -- opcode, for atomics and fences
  w     : Nat := 0      -- width code
  ty    : Nat := 0      -- TYPE, for sign extension and the atomics' types
  dst   : Nat := 0      -- destination register
  uni   : Bool := false -- one s register receives the value
  wr    : Bool := false -- it writes a register
  ho    : Bool := false -- copies are not used (R208)
  na    : Bool := false
  split : Nat := 0
  gts   : Nat := 0
  name  : Nat := 0           -- the chunk a nameless store was given
  gen   : Nat := 0           -- of an element load: which `lay.set` its slot had its descriptor from (R146)
  pool  : Nat := 0
  lanes : List LaneReq := []
  lines : List LineReq := []
  sent  : Bool := false
  events : List Event := []
  refused : List (Nat × DWord × Cause) := []   -- refused contributions: lane, address, cause (R249)
  deriving DecidableEq, Repr

/-- A cached copy of a line in a cluster cache or in the remote ways of a slice (R18, R180, R190, R194). -/
structure Copy where
  remote : Bool          -- false: cluster cache `holder`; true: remote ways of slice `holder`
  holder : Nat
  line   : Nat
  ctx    : Nat
  bulk   : Bool
  cls    : Nat
  dm     : Bool
  dom    : Nat
  va     : DWord
  slot   : Nat := 0      -- the CACHE bank, or the reserved way, that holds it (R15, R18)
  bytes  : Table 8       -- within the line
  valid  : BitVec 128 := BitVec.allOnes 128   -- bytes held
  dirty  : Table 8 := [] -- position → its dirty bits
  wts    : Nat := 0
  rts    : Nat := 0
  writer : Nat := 0      -- gang that last wrote it
  quarantined : Bool := false
  deriving DecidableEq, Repr

/-- An entry of a core's refused write-back buffer (R194). -/
structure Refused where
  core : Nat
  copy : Copy
  deriving DecidableEq, Repr

/-- An armed monitor (R218). -/
structure Monitor where
  gang : Nat
  pa   : Nat
  w    : Nat
  slice : Nat
  dom  : Nat := 0        -- of its page, by which its line is homed
  deriving DecidableEq, Repr

/-- A leaf held in a TLB (R283). -/
structure TlbEntry where
  core : Nat
  ctx  : Nat
  va   : Nat
  size : Nat
  leaf : DWord
  deriving DecidableEq, Repr

/-- A layout slot (R147, R148). Column j of M is a number whose bit i is M[i][j]. -/
structure Slot where
  fmt   : Nat
  eszc  : Nat
  rank  : Nat
  res   : Nat
  phase : Bool
  pp    : Bool
  ext   : List Nat
  base0 : DWord
  base1 : DWord
  cols  : List Nat
  gen   : Nat := 0           -- the model's own: which `lay.set` wrote it; a relay keeps it (R146)
  deriving DecidableEq, Repr

/-- A pinned window on one die (R227, R228). -/
structure Pin where
  die : Nat
  lo : Nat
  hi : Nat
  reload : Nat
  fade : Nat
  hit : Bool
  deriving DecidableEq, Repr

/-- A context (R9, R361): residence, level, key, layout table, budget, floor, basin maps, pinned windows. -/
structure Context where
  id     : Nat := 0
  sup    : Bool := false
  key    : Bool := false
  keyGen : Nat := 0
  slots  : List (Nat × Slot) := []
  errb   : BitVec 32 := 0xFFFF_FFFF
  floor  : Nat := 0
  taken  : List (Nat × Nat × List Nat) := []   -- pool → how many chunks it was enabled with, and those taken, rising (R269, R270)
  pins   : List Pin := []
  handles : Nat := 0
  deriving DecidableEq, Repr

/-- A headrace (R232). -/
structure Headrace where
  num : Nat
  cap : Nat
  bytes : Table 8
  units : List Nat := []   -- its FIFO units: 8·bank + unit of the bank, in order of position
  deriving DecidableEq, Repr

/-- One arrival at `compact` (R54, R56). -/
structure CompactArr where
  gang : Nat
  lane : Nat
  tgt  : DWord
  deriving DecidableEq, Repr

/-- A team (R44, R166, R232, R318). -/
structure Team where
  uid    : Nat := 0
  task   : Nat := 0
  ctx    : Nat := 0
  idx    : Nat := 0
  core   : Nat := 0
  place  : Place := .ended
  placed : Bool := true            -- its scratch and headraces hold space in its cluster (R319)
  msgr   : Bool := false           -- a message-handler gang's team (R345)
  scratch : Table 8 := []
  scr    : Nat := 0
  units  : List Nat := []          -- the scratch units of 256 bytes that hold it: 128·bank + unit of the bank, in order of position (R17)
  bare   : Bool := false           -- its scratch has not held space yet: it is not placed (R44, R343)
  races  : List Headrace := []
  ticket : Nat := 0
  outst  : List Nat := []
  times  : Table 64 := []           -- completion times of tickets (R168)
  cohorts : List (Nat × Bool) := []
  arrivals : List CompactArr := []
  begun  : Bool := false           -- it has been dispatched (R57)
  reserved : Bool := false         -- it holds a reservation in its context's save area (R320)
  count  : Nat := 1                -- gangs of the team: as dispatched, or as `compact` left them (R56, R81)
  since  : Nat := 0
  deriving DecidableEq, Repr

/-- A declared range (R285). -/
structure Range where
  base : Nat
  len  : Nat
  r : Bool
  w : Bool
  x : Bool
  deriving DecidableEq, Repr

/-- Steps of a launch record (R367). -/
inductive Stage where
  | edges | grid | lease | running | ended | done
  deriving DecidableEq, Repr

/-- A task: its launch record (R366) and what has become of it (R367–R372). -/
structure Task where
  id     : Nat := 0
  ctx    : Nat := 0
  q      : Nat := 0
  stage  : Stage := .done
  entry  : DWord := 0
  tx     : Nat := 1
  ty     : Nat := 1
  tz     : Nat := 1
  regs   : Nat := 8
  scr    : Nat := 0
  gx     : Nat := 0
  gy     : Nat := 0
  gz     : Nat := 0
  gmem   : Bool := false
  gsnt   : Bool := false
  gaddr  : DWord := 0
  sent   : Word := 0
  floorC : Nat := 0
  strict : Bool := false
  coha   : DWord := 0
  cba    : DWord := 0
  cmpa   : DWord := 0
  taskid : DWord := 0
  msix   : DWord := 0
  args   : List DWord := []
  ranges : List Range := []
  prefs  : List (DWord × Nat × Nat) := []
  edges  : List (DWord × List Nat) := []
  cohorts : List (Nat × List Nat) := []
  next   : Nat := 0          -- next team to dispatch
  placedN : Nat := 0         -- teams dispatched
  status : Nat := 0
  cause  : Nat := 0
  hdr    : TrapRec := {}
  orph   : Nat := 0
  oCause : Nat := 0          -- the first cause counted in `orph`, and its header (R307)
  oHdr   : TrapRec := {}
  orphans : List Raised := []
  floor  : Nat := 0          -- largest `gts` of its ended gangs (R187)
  startT : Nat := 0          -- time floor of its start (R368)
  n      : Nat := 0          -- its record's count in its queue
  recId  : Nat := 0          -- its record (R364)
  since  : Nat := 0          -- CLK when it became dispatchable
  lease  : Bool := false
  seen   : Nat := 0          -- edges whose completion record has read DONE (R367, step 2)
  edgeBad : Bool := false    -- one of them was not OK
  clusters : List Nat := []  -- where its teams ran (R193)
  cores  : List Nat := []    -- where it has started (R67)
  failed : Bool := false     -- a page of its lease could not be fetched (R374)
  deriving DecidableEq, Repr

/-- Kinds of relay. -/
inductive RelayKind where
  | mv | cp | gx
  deriving DecidableEq, Repr

/-- A relay, from its issue to its completion (R156–R168). -/
structure Relay where
  id     : Nat
  gang   : Nat
  team   : Nat
  ctx    : Nat
  kind   : RelayKind
  op     : Nat
  src    : Nat
  dst    : Nat
  passes : List (List Nat) := []
  cis    : Option Nat := none
  scl    : Bool := false
  scla   : DWord := 0
  org    : List Nat := []
  tbl    : DWord := 0
  tscr   : Bool := false
  reg    : Nat := 0
  accepted : Bool := false
  ticket : Nat := 0
  sector : Nat := 0
  t0     : Nat := 0
  tmax   : Nat := 0
  promise : Nat := 0
  cpc    : DWord := 0
  cwi    : Nat := 0
  lane   : Nat := 0
  touched : List Nat := []   -- lines of its source that it has read (R160)
  events : List Event := []
  deriving DecidableEq, Repr

/-- The matrix parameter block (R238). -/
structure MParams where
  fa : Nat := 0
  fb : Nat := 0
  act : Nat := 0
  srnd : Bool := false
  gq : Nat := 0
  ha : Nat := 0
  hb : Nat := 0
  split : Nat := 0
  nch : Nat := 0
  caddr : DWord := 0
  ldc : Nat := 0
  sca : Nat := 0
  scb : Nat := 0
  spa : Nat := 0
  deriving DecidableEq, Repr

/-- A matrix operation (R240–R244). -/
structure MmaOp where
  id   : Nat
  gang : Nat
  team : Nat
  core : Nat
  form : Nat              -- 0 mma, 1 mma.thin, 2 mma.q
  op   : Nat
  sv   : Nat := 0
  zv   : Nat := 0
  bsel : Nat := 0
  off  : Nat := 0
  p    : MParams := {}
  blk  : Nat := 0         -- scratch offset of its parameter block
  regs : Table 32 := []
  la   : Nat := 0
  seq  : Nat := 0
  reads : List Nat := []   -- v registers it has yet to read (R84)
  accepted : Bool := false
  computed : Bool := false
  t0   : Nat := 0
  cpc  : DWord := 0
  cwi  : Nat := 0
  refused : List (Nat × DWord × Cause) := []
  deriving DecidableEq, Repr

/-- One partial for one element (R249). -/
structure Contrib where
  order : Nat             -- tile order, or lane
  pa    : Nat
  va    : DWord
  bits  : DWord
  deriving DecidableEq, Repr

/-- The contributions of one request to one line (R216, R244, R249). -/
structure ContribReq where
  id   : Nat
  op   : Nat
  mma  : Bool
  line : Nat
  ctx  : Nat
  width : Nat
  act  : Option Nat
  split : List Nat
  t    : Nat
  elems : List Contrib
  dom  : Nat := 0         -- of the line's page
  cluster : Nat := 0      -- that sends it
  sentAt : Nat := 0       -- its place in the order of sending; 0 before it is sent (R25)
  came : Bool := false    -- it has reached its home
  refused : List (Nat × DWord × Cause) := []
  arrived : Bool := false -- it has been answered there
  deriving DecidableEq, Repr

/-- The merge state of one element (R114–R116, R249, R250). -/
structure MergeElem where
  pa    : Nat
  count : Nat := 0
  splits : List Nat := []
  held  : List (Nat × DWord) := []
  next  : Nat := 0
  sum   : Int := 0
  pinf  : Bool := false
  ninf  : Bool := false
  nan   : Bool := false
  allNeg : Bool := true
  value : DWord := 0
  deriving DecidableEq, Repr

/-- A merge entry (R247–R251). -/
structure Merge where
  id    : Nat
  gang  : Nat
  ctx   : Nat
  caddr : DWord
  etype : Nat
  mode  : Nat
  init  : Bool
  nc    : Nat
  donea : Nat             -- physical address, 0 for none
  done  : LineReq := { line := 0, bulk := false, cls := 2, dm := false, dom := 0 }   -- its line
  lines : List LineReq
  homes : List (Nat × Nat)             -- line → slice that is asked for it, or holds it for the entry
  replies : List (Nat × Option Cause)  -- line → what its slice replied
  waiting : List Nat      -- slices yet to reply
  isOpen : Bool := false
  elems : List MergeElem := []
  times : List (Nat × Nat) := []       -- line → largest time among its accepted contributions and its start
  written : List Nat := []
  t0    : Nat := 0
  events : List Event := []            -- met at its opening, charged with the reply (R260)
  dropping : Bool := false
  sentAt : Nat := 0                    -- its requests' place in the order of sending (R25)
  came  : List Nat := []               -- slices that they have reached
  deriving DecidableEq, Repr

/-- A message of R341, R342. -/
structure Msg where
  send : Bool
  core : Nat              -- sender's core
  team : DWord            -- sender's sv.team
  ctx  : Nat
  task : Nat
  op   : Nat
  target : DWord
  ctl  : DWord
  gts  : Nat
  bytes : List Byte
  deriving DecidableEq, Repr

/-- The message unit and the inbox of one core (R344); core 4,096 stands for the headworks, which hold payloads for teams that
are not placed (R343). -/
structure Post where
  core : Nat
  unsent : List Msg := []
  sent : List Msg := []       -- sent, and not yet accepted at their target
  inbox : List Msg := []
  deriving DecidableEq, Repr

/-- A batch of a lateral entry (R274). -/
structure Batch where
  sector : Nat
  bytes : Table 9         -- bit 8 set: the byte is in the mask
  opened : Nat
  no : Nat := 0           -- its place in the order in which batches closed
  deriving DecidableEq, Repr

/-- A lateral entry (R272–R275, R352). -/
structure Lateral where
  handle : Nat
  ctx : Nat
  pub : Nat               -- team uids
  sub : Nat
  po : Nat
  so : Nat
  len : Nat
  batch : Option Batch := none
  closed : List Batch := []
  deriving DecidableEq, Repr

/-- A lateral subscription awaiting its reply (R352). -/
structure SubReq where
  gang : Nat
  pub : Nat
  sub : Nat
  po : Nat
  so : Nat
  len : Nat
  reg : Nat
  blk : Nat := 0          -- the block's scratch offset
  deriving DecidableEq, Repr

/-- A team's cohort arrival on its way, counted, or completed (R338). -/
structure CohortArr where
  team : Nat
  task : Nat
  coh  : Nat
  off  : Nat
  maxt : Nat
  drop : Bool
  counted : Bool := false
  complete : Option Nat := none
  deriving DecidableEq, Repr

/-- A launch record that its headworks has read (R363), or that `launch` appended (R365). -/
structure Rec where
  id : Nat := 0
  q : Nat
  n : Nat
  bytes : Table 8
  floor : Nat := 0
  started : Bool := false
  pinned : List Nat := []    -- its prefetch regions that have been pinned or skipped (R371)
  gone : Bool := false       -- it may retire (R364)
  stale : Bool := false      -- its queue has been enabled again since: its count is no longer the queue's (R362)
  deriving DecidableEq, Repr

/-- A bank change that has been accepted and not completed (R322). -/
structure BankChange where
  cluster : Nat
  bank : Nat
  mode : Nat
  gang : Nat
  reg : Nat
  deriving DecidableEq, Repr

/-- A dispatch visit in progress on a die (R58). -/
structure Visit where
  die : Nat
  cls : Nat
  left : Nat
  deriving DecidableEq, Repr

/-- A frame the device has given a device-managed page, with its class: a row of the frame table (R290, R291). -/
structure Frame where
  ctx : Nat
  va : Nat
  pa : Nat
  size : Nat
  cls : Nat
  tier : Nat
  deriving DecidableEq, Repr

/-- A storage request that is wanted (`n` none), or written and not yet acknowledged (R374). -/
structure StorageReq where
  n : Option Nat := none
  op : Nat
  size : Nat
  ctx : Nat
  va : Nat
  host : DWord
  handle : DWord
  deriving DecidableEq, Repr

/-- A page that the host keeps in storage, under its handle: its bytes, errors, codes and key marks, and its lines' times (R189, R258, R296, R374), by
their places in the page. -/
structure Stored where
  handle : Nat
  cls : Nat := 2             -- the class its lines are written under (R267)
  bytes : Table 8
  flips : Table 8
  code : Table 8
  key : Table 64
  rts : Table 64
  deriving DecidableEq, Repr

/-- A record of Headgate's log (R378). -/
structure LogRec where
  clk : Nat
  kind : Nat
  loc : DWord
  data : DWord
  deriving DecidableEq, Repr

/-- Headgate: mailbox, log and firmware (R375–R380). -/
structure Headgate where
  cmd : DWord := 0
  sts : DWord := 0
  arg : Table 8 := []
  buf : Table 8 := []
  log : List LogRec := []
  logFirst : Nat := 0
  lost : Nat := 0
  bank : Nat := 0
  version : List Nat := [0, 0]
  valid : List Bool := [true, true]
  staged : List Byte := []
  image : List (Option (List Byte)) := [none, none]   -- what the banks hold; none: the image the part came with
  rollback : Nat := 0
  next : Option Nat := none
  deriving DecidableEq, Repr

/-- Key deletions under way (R324). -/
structure KeyDel where
  ctx : Nat
  drain : Bool
  gang : Option Nat
  reg : Nat
  deriving DecidableEq, Repr

/-- A reply with data to the host or a peer: its data, or none for the poison indication, and the meta-data that goes with it (R358, R359). -/
structure Answer where
  data : Option (List Byte)
  metaData : Nat := 0
  deriving DecidableEq, Repr

/-- Which agent moves next: the schedule is data that a state holds. -/
inductive Choice where
  /-- a gang issues -/
  | issue (g : Nat)
  /-- the k-th due step of the agenda is taken -/
  | due (k : Nat)
  /-- the outside world, or an agent of the device, makes a step -/
  | event (e : Instr) (a b : Nat)
  /-- the host writes its own memory (space 2): a line the device holds is snooped away first (R363) -/
  | host (pa : Nat) (bytes : List Byte)
  /-- the host reads n bytes of BAR0, or writes some: Headgate's mailbox (R358, R375) -/
  | barRead (off n : Nat)
  | barWrite (off : Nat) (bytes : List Byte)
  /-- cc pass -/
  | tick (n : Nat)
  /-- a core drops instruction-cache sectors, or TLB entries: neither is a step of the table -/
  | dropCode (core : Nat)
  | dropTlb (core : Nat)
  deriving DecidableEq, Repr

/-- The machine. `g` is the gang that moves; every other gang is in `gangs`. -/
structure State where
  clk     : Nat := 0
  power   : Bool := true
  mem     : Table 8 := []
  wts     : Table 64 := []
  rts     : Table 64 := []
  mt      : Table 64 := []
  sc      : List ScLine := []
  lineCode : Table 8 := []     -- code a line's stored copy carries: 0 OPEN, 1 SEALED, 2 CHECKED
  flips   : Table 8 := []
  lineKey : Table 64 := []
  copies  : List Copy := []
  refused : List Refused := []
  monitors : List Monitor := []
  tlb     : List TlbEntry := []
  icache  : List (Nat × Nat × List Byte) := []
  sysregs : Table 64 := []
  staged  : Table 64 := []
  g       : Gang := {}
  gangs   : List Gang := []
  ops     : List Op := []
  teams   : List Team := []
  tasks   : List Task := []
  ctxs    : List Context := []
  relays  : List Relay := []
  tfree   : Table 64 := []
  mmas    : List MmaOp := []
  merges  : List Merge := []
  contribs : List ContribReq := []
  posts   : List Post := []
  laterals : List Lateral := []
  subReqs : List SubReq := []
  cohorts : List CohortArr := []
  canals  : Table 2 := []
  commits : Table 64 := []       -- 2048·canal + slot: time of the slot's commit; 2048·canal + 1024: the canal's own time
  takers  : List (Nat × Nat) := []
  recs    : List Rec := []
  banks   : List BankChange := []
  visits  : List Visit := []
  classIn : Table 8 := []        -- 512·die + queue → the class in force there (R362)
  scrap   : Table 8 := []        -- bytes that scratch units hold while no team does: 256·(4096·cluster + unit) + byte (R17, R44)
  scrapCtx : Table 64 := []      -- 4096·cluster + unit → the context that last held it, plus one
  fifo    : Table 8 := []        -- bytes that FIFO units hold while no headrace does: 4096·(256·cluster + unit) + byte (R232)
  fifoCtx : Table 64 := []       -- 256·cluster + unit → the context that last held it, plus one
  adv     : Table 64 := []       -- free team capacity a die last advertised (R62)
  offers  : Table 64 := []       -- CLK of the last offer to a die, plus one (R62)
  counts  : Table 32 := []
  frames  : List Frame := []
  demoting : List Nat := []       -- demotion engines at work: 4·die + tier (R289)
  storage : List StorageReq := []
  stored  : List Stored := []
  qread   : Table 32 := []        -- records read, per queue (R363)
  reports : List Nat := []
  shares  : List Nat := []
  busy    : Table 64 := []       -- 64·die + context → cc that the die's cores have run it since the last energy charge (R383)
  busyTo  : Nat := 0             -- CLK up to which they are counted
  keyDels : List KeyDel := []
  hg      : Headgate := {}
  msix    : Table 32 := []
  msgs    : List Nat := []
  answers : List Answer := []
  mapBefore : Table 64 := []     -- the registers before the switch of the reshape that runs (R294)
  hostLines : List Nat := []
  hostStores : List (Nat × List Byte) := []   -- the host's stores to its own memory that wait, each within a line (R160)
  fresh   : Nat := 0
  nextId  : Nat := 1
  obj     : Nat × Nat := (0, 0)
  agenda  : List (Instr × Nat × Nat) := []
  sched   : List Choice := []
  turn    : Bool := false
  deriving DecidableEq, Repr

/-- The machine right after bring-up (R384): every line and every SRAM array zero, every register at its reset value,
READY set. No context exists and no gang is resident. The system registers list nothing, so each reads as its reset
value (`regReset`). -/
def State.reset : State :=
  { hg := { sts := 0x8000_0000_0000_0000 } }

end Sys2Proof.Machine
end

