-- ==== Sys2Proof/Machine/Table.lean ====
section
/-! DEFINITION. Reading and writing sparse tables and little-endian byte strings (R3): memory, scratch, headraces,
register files, and every other table of the state. -/

namespace Sys2Proof.Machine

variable {n : Nat}

/-- What key k holds, where an unlisted key k reads as `d k`. -/
def tget (d : Nat → BitVec n) : Table n → Nat → BitVec n
  | [], k => d k
  | (k', v) :: t, k => if k = k' then v else tget d t k

/-- Writes v at key k, keeping keys rising and listing no entry that reads as an unlisted one. -/
def tset (d : Nat → BitVec n) : Table n → Nat → BitVec n → Table n
  | [], k, v => if v = d k then [] else [(k, v)]
  | (k', v') :: t, k, v =>
    if k < k' then (if v = d k then (k', v') :: t else (k, v) :: (k', v') :: t)
    else if k = k' then (if v = d k then t else (k, v) :: t)
    else (k', v') :: tset d t k v

/-- An unlisted key of most tables reads as zero (R36, R384). -/
def zeros (_ : Nat) : BitVec n := 0#n

/-- `tget` and `tset` where an unlisted key reads as zero. -/
abbrev get0 (t : Table n) (k : Nat) : BitVec n := tget zeros t k
abbrev set0 (t : Table n) (k : Nat) (v : BitVec n) : Table n := tset zeros t k v

/-- Every key of a table is at least m, keys rise, and no entry reads as an unlisted one. -/
def wfFrom (d : Nat → BitVec n) : Nat → Table n → Bool
  | _, [] => true
  | m, (k, v) :: t => decide (m ≤ k) && decide (v ≠ d k) && wfFrom d (k + 1) t

/-- The canonical form of a table. -/
def tableWf (d : Nat → BitVec n) (t : Table n) : Bool := wfFrom d 0 t

/-- The canonical form of memory: an unlisted address reads zero (R384). -/
def Memory.wf (m : Table 8) : Bool := tableWf zeros m

/-- The entries whose key satisfies p. -/
def tfilter (p : Nat → Bool) (t : Table n) : Table n := t.filter fun e => p e.1

/-- The bytes at a, a + 1, …, a + z − 1. -/
def readBytes (t : Table 8) (a z : Nat) : List Byte := (List.range z).map fun i => get0 t (a + i)

/-- Writes a byte string at a. -/
def writeBytes : Table 8 → Nat → List Byte → Table 8
  | t, _, [] => t
  | t, a, b :: bs => writeBytes (set0 t a b) (a + 1) bs

/-- The number whose little-endian bytes are given (R3). -/
def leNat : List Byte → Nat
  | [] => 0
  | b :: bs => b.toNat + 256 * leNat bs

/-- The z little-endian bytes of a number. -/
def leBytes : Nat → Nat → List Byte
  | 0, _ => []
  | z + 1, v => BitVec.ofNat 8 v :: leBytes z (v / 256)

/-- The z-byte little-endian value at a. -/
def readLe (t : Table 8) (a z : Nat) : Nat := leNat (readBytes t a z)

/-- Writes the low z bytes of v at a. -/
def writeLe (t : Table 8) (a z v : Nat) : Table 8 := writeBytes t a (leBytes z v)

/-- A byte with the bits of m replaced. -/
def mergeByte (old new m : Byte) : Byte := (old &&& ~~~m) ||| (new &&& m)

/-- Bit field [hi:lo] of a number (`bits`, R8). -/
def field (x hi lo : Nat) : Nat := x / 2 ^ lo % 2 ^ (hi + 1 - lo)

/-- The w-bit value x sign-extended to 64 bits (`sext`, R8). -/
def sext64 (x w : Nat) : DWord := (BitVec.ofNat w x).signExtend 64

/-- The lanes of a mask, ascending (R8). -/
def lanesOf (m : Mask) : List Nat := (List.range 32).filter m.getLsbD

/-- The mask of the lanes that satisfy p. -/
def maskOf (p : Nat → Bool) : Mask :=
  (List.range 32).foldl (fun m l => if p l then m ||| (1#32 <<< l) else m) 0#32

/-- The lowest lane of a mask, 32 if it is empty. -/
def lowLane (m : Mask) : Nat := (lanesOf m).headD 32

/-- Changes the first element that p picks. -/
def modFirst {α : Type} (p : α → Bool) (f : α → α) : List α → List α
  | [] => []
  | x :: xs => if p x then f x :: xs else x :: modFirst p f xs

/-- x in a rising list of numbers without repeats. -/
def insertNat (x : Nat) : List Nat → List Nat
  | [] => [x]
  | y :: ys => if x < y then x :: y :: ys else if x = y then y :: ys else y :: insertNat x ys

/-- The elements without repeats, first occurrences kept. -/
def dedup (l : List Nat) : List Nat := l.foldl (fun a x => if a.contains x then a else a ++ [x]) []

end Sys2Proof.Machine
end

