-- ==== Sys2Proof/Machine/Num.lean ====
section
/-! DEFINITION. Number formats, exact values and the one rounding function `rnd` (R96–R105). A value is a NaN, an
infinity or a sign and an exact quotient of natural numbers; nothing is rounded until `rnd`. -/

namespace Sys2Proof.Machine

/-- A floating-point format (R96, R99). `kind`: 0 with infinity, 1 e4m3, 2 e2m1. -/
structure Fmt where
  bits : Nat
  frac : Nat
  bias : Nat
  kind : Nat
  deriving DecidableEq, Repr

def f64 : Fmt := ⟨64, 52, 1023, 0⟩
def f32 : Fmt := ⟨32, 23, 127, 0⟩
def f16 : Fmt := ⟨16, 10, 15, 0⟩
def bf16 : Fmt := ⟨16, 7, 127, 0⟩
def e4m3 : Fmt := ⟨8, 3, 7, 1⟩
def e5m2 : Fmt := ⟨8, 2, 15, 0⟩
def e2m1 : Fmt := ⟨4, 1, 1, 2⟩

/-- The code of infinity without its sign, in a format that has it. -/
def infCode (f : Fmt) : Nat := (2 ^ (f.bits - 1 - f.frac) - 1) * 2 ^ f.frac

/-- The code of the largest finite magnitude (R96, R99). -/
def maxCode (f : Fmt) : Nat :=
  if f.kind = 0 then infCode f - 1 else if f.kind = 1 then 0x7E else 0x7

/-- The canonical NaN (R96, R97, R99); +0 in e2m1, which has none. -/
def nanCode (f : Fmt) : Nat :=
  if f.kind = 0 then infCode f + 2 ^ (f.frac - 1) else if f.kind = 1 then 0x7F else 0

/-- The sign bit. -/
def signBit (f : Fmt) (neg : Bool) : Nat := if neg then 2 ^ (f.bits - 1) else 0

/-- An exact value. `fin neg num den` is ±num/den. -/
inductive Val where
  | nan (signalling : Bool)
  | inf (neg : Bool)
  | fin (neg : Bool) (num den : Nat)
  deriving DecidableEq, Repr

/-- The least normal exponent. -/
def emin (f : Fmt) : Int := 1 - (f.bias : Int)

/-- ±m × 2^e as a value. -/
def scaled (neg : Bool) (m : Nat) (e : Int) : Val :=
  if e ≥ 0 then .fin neg (m * 2 ^ e.toNat) 1 else .fin neg m (2 ^ (-e).toNat)

/-- The value of a code (R96, R99). -/
def decodeF (f : Fmt) (x : Nat) : Val :=
  let neg := (x / 2 ^ (f.bits - 1)) % 2 = 1
  let mag := x % 2 ^ (f.bits - 1)
  let e := mag / 2 ^ f.frac
  let m := mag % 2 ^ f.frac
  if f.kind = 0 ∧ mag = infCode f then .inf neg
  else if f.kind = 0 ∧ mag > infCode f then .nan (decide (m < 2 ^ (f.frac - 1)))
  else if f.kind = 1 ∧ mag = 0x7F then .nan false
  else if e = 0 then scaled neg m (emin f - f.frac)
  else scaled neg (m + 2 ^ f.frac) ((e : Int) - f.bias - f.frac)

/-- Whether a code is subnormal. -/
def isSubnormal (f : Fmt) (x : Nat) : Bool :=
  let mag := x % 2 ^ (f.bits - 1)
  decide (mag ≠ 0) && decide (mag < 2 ^ f.frac)

/-- Rounding modes (R101). -/
inductive RM where
  | rne | rtz | rup | rdn | rna | sr
  deriving DecidableEq, Repr

/-- The mode of a code 1–6 (R101). -/
def rmOf : Nat → Option RM
  | 1 => some .rne | 2 => some .rtz | 3 => some .rup | 4 => some .rdn | 5 => some .rna | 6 => some .sr
  | _ => none

/-- The conditions an instruction raises (R107). -/
structure FFlags where
  sa : Bool := false
  nv : Bool := false
  dz : Bool := false
  of : Bool := false
  uf : Bool := false
  pe : Bool := false
  deriving DecidableEq, Repr

/-- Conditions raised together. -/
def FFlags.or (a b : FFlags) : FFlags :=
  ⟨a.sa || b.sa, a.nv || b.nv, a.dz || b.dz, a.of || b.of, a.uf || b.uf, a.pe || b.pe⟩

/-- floor(log2 (num / den)), for positive num and den. -/
def floorLog2 (num den : Nat) : Int :=
  let e : Int := (Nat.log2 num : Int) - Nat.log2 den
  let lt := if e ≥ 0 then decide (num < den * 2 ^ e.toNat) else decide (num * 2 ^ (-e).toNat < den)
  if lt then e - 1 else e

/-- num / den measured in units of 2^q: whole units, and the remainder over its divisor. -/
def unitsOf (num den : Nat) (q : Int) : Nat × Nat × Nat :=
  let (n, d) := if q ≥ 0 then (num, den * 2 ^ q.toNat) else (num * 2 ^ (-q).toNat, den)
  (n / d, n % d, d)

/-- Whether the neighbour away from zero is taken: whole units lo, remainder rem of div (R102). -/
def roundsUp (mode : RM) (neg : Bool) (lo rem div srb : Nat) : Bool :=
  if rem = 0 then false
  else match mode with
    | .rne => decide (2 * rem > div) || (decide (2 * rem = div) && decide (lo % 2 = 1))
    | .rna => decide (2 * rem ≥ div)
    | .rtz => false
    | .rup => !neg
    | .rdn => neg
    | .sr => decide (rem * 65536 / div + srb ≥ 65536)

/-- The quantum's exponent at a magnitude (R102). -/
def quantumExp (f : Fmt) (num den : Nat) : Int := max (floorLog2 num den) (emin f) - f.frac

/-- D32 of an element: floor(f × 2^32) at format f (R105). -/
def d32Of (f : Fmt) : Val → Nat
  | .fin _ num den =>
    if num = 0 then 0
    else let (_, r, d) := unitsOf num den (quantumExp f num den); r * 2 ^ 32 / d
  | _ => 0

/-- D32 relative to the integral quantum 1 (R105, R131). -/
def d32Int : Val → Nat
  | .fin _ num den => num % den * 2 ^ 32 / den
  | _ => 0

/-- The 16 random bits drawn from the neighbours' D32 (R105). -/
def srbits (a b : Nat) : Nat :=
  let bw : Word := BitVec.ofNat 32 b
  let x : Word := BitVec.ofNat 32 a ^^^ ((bw <<< 13) ||| (bw >>> 19))
  let x := x * 0x85EBCA6B#32
  let x := x ^^^ (x >>> 15)
  let x := x * 0xC2B2AE35#32
  let x := x ^^^ (x >>> 16)
  x.toNat % 65536

/-- The result of an overflow or of an infinite input (R103). -/
def ovf (f : Fmt) (neg : Bool) (mode : RM) (sat infinite : Bool) : Nat × FFlags :=
  let s := signBit f neg
  if sat || f.kind == 2 then
    (s + maxCode f, if infinite then { sa := true } else { sa := true, of := true, pe := true })
  else if infinite then
    if f.kind = 0 then (s + infCode f, {}) else (nanCode f, { nv := true })
  else
    let toMax := mode == .rtz || (mode == .rup && neg) || (mode == .rdn && !neg)
    (if toMax then s + maxCode f else if f.kind = 1 then nanCode f else s + infCode f, { of := true, pe := true })

/-- Whether an inexact magnitude stays below the least normal one when rounded with unbounded exponent (R107). -/
def tiny (f : Fmt) (mode : RM) (neg : Bool) (num den srb : Nat) : Bool :=
  let e := floorLog2 num den
  if e ≥ emin f then false
  else
    let (lo, r, d) := unitsOf num den (e - f.frac)
    let m := if roundsUp mode neg lo r d srb then lo + 1 else lo
    !(decide (e = emin f - 1) && decide (m = 2 ^ (f.frac + 1)))

/-- `rnd` (R102): the code, and the conditions raised. `srb` are the element's random bits under SR. -/
def rnd (f : Fmt) (mode : RM) (sat : Bool) (srb : Nat) : Val → Nat × FFlags
  | .nan _ => (nanCode f, { nv := f.kind == 2 })
  | .inf neg => ovf f neg mode sat true
  | .fin neg num den =>
    if num = 0 then (signBit f neg, {})
    else
      let (lo, r, d) := unitsOf num den (quantumExp f num den)
      let m := if roundsUp mode neg lo r d srb then lo + 1 else lo
      let code := (max (floorLog2 num den) (emin f) + f.bias - 1).toNat * 2 ^ f.frac + m
      if code > maxCode f then ovf f neg mode sat false
      else (signBit f neg + code, { pe := decide (r ≠ 0), uf := decide (r ≠ 0) && tiny f mode neg num den srb })

/-- A result that would be subnormal is written as zero of its sign (R98). -/
def flushResult (f : Fmt) (x : Nat × FFlags) : Nat × FFlags :=
  if isSubnormal f x.1 then (x.1 / 2 ^ (f.bits - 1) * 2 ^ (f.bits - 1), { x.2 with uf := true, pe := true }) else x

/-- A subnormal input is read as zero of its sign (R98). -/
def flushInput (f : Fmt) (x : Nat) : Nat := if isSubnormal f x then x / 2 ^ (f.bits - 1) * 2 ^ (f.bits - 1) else x

/-- The integer nearest to a value under a mode (R104, q = 1), and whether that was inexact. -/
def rndInt (mode : RM) (srb : Nat) (neg : Bool) (num den : Nat) : Int × Bool :=
  let lo := num / den
  let r := num % den
  let m : Nat := if roundsUp mode neg lo r den srb then lo + 1 else lo
  (if neg then -(m : Int) else m, decide (r ≠ 0))

/-- The limits of an integer type of w bits. -/
def intMin (signed : Bool) (w : Nat) : Int := if signed then -(2 ^ (w - 1) : Nat) else 0
def intMax (signed : Bool) (w : Nat) : Int := if signed then (2 ^ (w - 1) : Nat) - 1 else (2 ^ w : Nat) - 1

/-- An integer clamped to a type's range, and whether it was. -/
def clampInt (signed : Bool) (w : Nat) (x : Int) : Int × Bool :=
  if x < intMin signed w then (intMin signed w, true)
  else if x > intMax signed w then (intMax signed w, true) else (x, false)

/-- x modulo 2^w. -/
def modPow (x : Int) (w : Nat) : Nat := (x % (2 ^ w : Nat)).toNat

/-- The integer a w-bit code stands for. -/
def intOf (signed : Bool) (w x : Nat) : Int :=
  let x := x % 2 ^ w
  if signed && decide (x ≥ 2 ^ (w - 1)) then (x : Int) - (2 ^ w : Nat) else x

/-- A value converted to an integer format (R104). -/
def toInt (mode : RM) (signed : Bool) (w srb : Nat) : Val → Nat × FFlags
  | .nan _ => (0, { nv := true })
  | .inf neg => (modPow (if neg then intMin signed w else intMax signed w) w, { nv := true })
  | .fin neg num den =>
    let (x, inexact) := rndInt mode srb neg num den
    let (c, out) := clampInt signed w x
    (modPow c w, if out then { nv := true } else { pe := inexact })

/-- An integer as a value. -/
def ofInt (x : Int) : Val := .fin (decide (x < 0)) x.natAbs 1

/-- The signed numerator of ±num. -/
def sgn (neg : Bool) (n : Nat) : Int := if neg then -(n : Int) else n

/-- The opposite value. -/
def Val.neg : Val → Val
  | .nan s => .nan s
  | .inf b => .inf !b
  | .fin b n d => .fin (!b) n d

/-- Whether a value is a signalling NaN. -/
def Val.isSig : Val → Bool
  | .nan s => s
  | _ => false

def Val.isNan : Val → Bool
  | .nan _ => true
  | _ => false

/-- The exact sum; an exact zero of unlike terms is +0, or −0 when `rdn` (IEEE 754-2019). -/
def vadd (rdn : Bool) : Val → Val → Val × FFlags
  | .nan a, .nan b => (.nan false, { nv := a || b })
  | .nan a, _ => (.nan false, { nv := a })
  | _, .nan b => (.nan false, { nv := b })
  | .inf a, .inf b => if a = b then (.inf a, {}) else (.nan false, { nv := true })
  | .inf a, _ => (.inf a, {})
  | _, .inf b => (.inf b, {})
  | .fin a n d, .fin b m e =>
    let s := sgn a (n * e) + sgn b (m * d)
    if s = 0 then (.fin (if n = 0 ∧ m = 0 ∧ a = b then a else rdn) 0 1, {})
    else (.fin (decide (s < 0)) s.natAbs (d * e), {})

/-- The exact product (IEEE 754-2019). -/
def vmul : Val → Val → Val × FFlags
  | .nan a, .nan b => (.nan false, { nv := a || b })
  | .nan a, _ => (.nan false, { nv := a })
  | _, .nan b => (.nan false, { nv := b })
  | .inf a, .inf b => (.inf (a != b), {})
  | .inf a, .fin b m _ => if m = 0 then (.nan false, { nv := true }) else (.inf (a != b), {})
  | .fin a n _, .inf b => if n = 0 then (.nan false, { nv := true }) else (.inf (a != b), {})
  | .fin a n d, .fin b m e => (.fin (a != b) (n * m) (d * e), {})

/-- The exact quotient with the special inputs of R135. -/
def vdiv : Val → Val → Val × FFlags
  | .nan a, .nan b => (.nan false, { nv := a || b })
  | .nan a, _ => (.nan false, { nv := a })
  | _, .nan b => (.nan false, { nv := b })
  | .inf _, .inf _ => (.nan false, { nv := true })
  | .inf a, .fin b _ _ => (.inf (a != b), {})
  | .fin a _ _, .inf b => (.fin (a != b) 0 1, {})
  | .fin a n d, .fin b m e =>
    if m = 0 then (if n = 0 then (.nan false, { nv := true }) else (.inf (a != b), { dz := true }))
    else (.fin (a != b) (n * e) (d * m), {})

/-- floor(√n), digit by digit: bits below `i`, root so far `r`. -/
def isqrtFrom (n : Nat) : Nat → Nat → Nat
  | 0, r => r
  | i + 1, r => isqrtFrom n i (if (r + 2 ^ i) * (r + 2 ^ i) ≤ n then r + 2 ^ i else r)

/-- floor(√n). -/
def isqrt (n : Nat) : Nat := isqrtFrom n (Nat.log2 n / 2 + 1) 0

/-- √(num/den) to 2^−p relative to 1, with a sticky half unit where it is not exact. -/
def sqrtTo (p num den : Nat) : Nat × Nat :=
  let t := num * 2 ^ (2 * p) / den
  let r := isqrt t
  if r * r * den = num * 2 ^ (2 * p) then (r, 2 ^ p) else (2 * r + 1, 2 ^ (p + 1))

/-- √a (R131, R135). The working precision 1300 leaves more than 200 bits below the last place of any f64 result. -/
def vsqrt : Val → Val × FFlags
  | .nan s => (.nan false, { nv := s })
  | .inf neg => if neg then (.nan false, { nv := true }) else (.inf false, {})
  | .fin neg n d =>
    if n = 0 then (.fin neg 0 1, {})
    else if neg then (.nan false, { nv := true })
    else let (r, q) := sqrtTo 1300 n d; (.fin false r q, {})

/-- 1 / √a (R131, R135). -/
def vrsqrt : Val → Val × FFlags
  | .nan s => (.nan false, { nv := s })
  | .inf neg => if neg then (.nan false, { nv := true }) else (.fin false 0 1, {})
  | .fin neg n d =>
    if n = 0 then (.inf neg, { dz := true })
    else if neg then (.nan false, { nv := true })
    else let (r, q) := sqrtTo 400 d n; (.fin false r q, {})

/-- Π over the set bits of a fraction (its bits from the top, `len` of them) of 2^(2^−i), scaled by 2^600: each factor
is the square root of the one before. -/
def exp2Bits (x : Nat) : Nat → Nat → Nat → Nat
  | 0, _, acc => acc
  | k + 1, c, acc =>
    let c' := isqrt (c * 2 ^ 600)
    exp2Bits x k c' (if x.testBit k then acc * c' / 2 ^ 600 else acc)

/-- 2^a (R131, R135) for dyadic a: 600 fraction bits, and a sticky half unit where a is no integer (2^a is then
irrational, so no tie can be met; DEDUCED, log entry 3). Beyond ±20,000 the result is past every format's range. -/
def vexp2 : Val → Val × FFlags
  | .nan s => (.nan false, { nv := s })
  | .inf neg => if neg then (.fin false 0 1, {}) else (.inf false, {})
  | .fin neg n d =>
    let a := sgn neg n
    let w := a / (d : Int)
    let r := (a % (d : Int)).toNat
    let w := if w > 20000 then 20000 else if w < -20000 then -20000 else w
    if r = 0 then (scaled false 1 w, {})
    else
      let len := Nat.log2 d
      let m := exp2Bits r len (2 * 2 ^ 600) (2 ^ 600)
      (scaled false (2 * m + 1) (w - 601), {})

/-- 200 bits of log2 of x / 2^600 in [1, 2), by repeated squaring. -/
def log2Bits : Nat → Nat → Nat → Nat
  | 0, _, acc => acc
  | k + 1, x, acc =>
    let y := x * x / 2 ^ 600
    if y ≥ 2 ^ 601 then log2Bits k (y / 2) (2 * acc + 1) else log2Bits k y (2 * acc)

/-- log2 a (R131, R135): 200 fraction bits and a sticky half unit where a is no power of two (log2 a is then irrational;
DEDUCED, log entry 3). -/
def vlog2 : Val → Val × FFlags
  | .nan s => (.nan false, { nv := s })
  | .inf neg => if neg then (.nan false, { nv := true }) else (.inf false, {})
  | .fin neg n d =>
    if n = 0 then (.inf true, { dz := true })
    else if neg then (.nan false, { nv := true })
    else
      let e := floorLog2 n d
      let (x, r, _) := unitsOf n d (e - 600)
      if r = 0 ∧ x = 2 ^ 600 then (ofInt e, {})
      else
        let v : Int := e * (2 ^ 201 : Nat) + (2 * log2Bits 200 x 0 + 1 : Nat)
        (.fin (decide (v < 0)) v.natAbs (2 ^ 201), {})

/-- Order of two values that are no NaN: a < b. −0 is not less than +0. -/
def vlt : Val → Val → Bool
  | .inf a, .inf b => a && !b
  | .inf a, .fin _ _ _ => a
  | .fin _ _ _, .inf b => !b
  | .fin a n d, .fin b m e => decide (sgn a (n * e) < sgn b (m * d))
  | _, _ => false

/-- Whether the sign of a value is negative, zeros included. -/
def Val.isNeg : Val → Bool
  | .nan _ => false
  | .inf a => a
  | .fin a _ _ => a

/-- Equality of two values that are no NaN; zeros are equal. -/
def veq : Val → Val → Bool
  | .inf a, .inf b => a == b
  | .fin a n d, .fin b m e => decide (sgn a (n * e) = sgn b (m * d))
  | _, _ => false

end Sys2Proof.Machine
end

