-- ==== Sys2Proof/Machine/Walk.lean ====
section
/-! DEFINITION. What every layer above reads: system registers (R313), the bytes an access finds at a line's home (R259, R296), and
translation (R279–R283, R301). -/

namespace Sys2Proof.Machine

/-! ## System registers (R313): key = number · 65,536 + instance -/

def regKey (num inst : Nat) : Nat := num * 65536 + inst % 65536

/-- The reset value of every register (R16, R20, R60, R61, R64, R186, R281, R289, R293, R314, R340, R362, R382). TWM0.CAP is 144 GiB in
units of 64 KiB, what a die is wired to (R27, R33); TWM1.CAP is 256 GiB, its share of 2 TiB (R30). -/
def regReset (key : Nat) : DWord :=
  let inst := key % 65536
  match key / 65536 with
  | 0x011 => 0x40
  | 0x013 => 0x000F4240
  | 0x017 => 0x80000001
  | 0x020 => 0x5555000000000000
  | 0x021 => 0x4
  | 0x030 => 0x1
  | 0x031 => 0x8
  | 0x032 => 0x80000004
  | 0x033 => 0x0024000080030040
  | 0x034 => if Config.moduleForm then 0x0040000080030040 else 0x80030040
  | 0x035 => 0x80030040
  | 0x03B => if inst = 0 then 0x8009000000000000 else 0
  | 0x03C => BitVec.ofNat 64 (0x201 * 2 ^ (inst % 16) % 2 ^ 23)
  | 0x043 => 0x0004000000000000
  | 0x080 => 0xE10
  | _ => 0

def regGet (s : State) (num inst : Nat) : DWord := tget regReset s.sysregs (regKey num inst)
def regSet (s : State) (num inst : Nat) (v : DWord) : State :=
  { s with sysregs := tset regReset s.sysregs (regKey num inst) v }
def regField (s : State) (num inst hi lo : Nat) : Nat := field (regGet s num inst).toNat hi lo

/-- Field [hi:lo] of v replaced. -/
def putField (v : DWord) (hi lo x : Nat) : DWord :=
  BitVec.ofNat 64 (v.toNat - field v.toNat hi lo * 2 ^ lo + x % 2 ^ (hi + 1 - lo) * 2 ^ lo)

/-! ## Bytes at a line's home (R257, R259, R296) -/

def scOf (s : State) (line : Nat) : Option ScLine := s.sc.find? (·.line == line)
/-- Whether the slice holds the byte at a physical address. -/
def holdsByte (s : State) (pa : Nat) : Bool :=
  match scOf s (pa / 128) with
  | some x => x.valid.getLsbD (pa % 128 / 16)
  | none => false

/-- Error pattern bytes of a line's stored copy: 128 data bytes, then check bytes (R257). -/
def flipKey (line i : Nat) : Nat := line * 256 + i

/-- All ones mark a line of a device-managed page over which the host has written as it stood (R296). -/
def rawMark : DWord := BitVec.allOnes 64

/-- Byte i of a line's stored copy as it is read under an error pattern. A line that carries a key is stored encrypted in blocks of 16 bytes, so that an
error leaves the whole of its block another one (R296). -/
def storedByte (s : State) (line : Nat) (flip : Nat → Byte) (i : Nat) : Byte :=
  let k := get0 s.lineKey line
  if k = 0 ∨ k = rawMark then get0 s.mem (128 * line + i) ^^^ flip i
  else
    let es := (List.range 16).map fun j => flip (i / 16 * 16 + j)
    if es.all (· == 0) then get0 s.mem (128 * line + i)
    else Config.garbled k.toNat line (readBytes s.mem (128 * line + i / 16 * 16) 16) es (i % 16)

/-- The errors of a line's stored copy. -/
def flipsOf (s : State) (line i : Nat) : Byte := get0 s.flips (flipKey line i)

/-- The bytes of a line as read: its stored copy with its errors. -/
def asRead (s : State) (line : Nat) : List Byte := (List.range 128).map (storedByte s line (flipsOf s line))

/-- The byte an access finds at its home: the slice's, or as read from its stored copy (R259). -/
def homeByte (s : State) (pa : Nat) : Byte :=
  if holdsByte s pa then get0 s.mem pa else storedByte s (pa / 128) (flipsOf s (pa / 128)) (pa % 128)

def homeBytes (s : State) (pa n : Nat) : List Byte := (List.range n).map fun i => homeByte s (pa + i)

/-! ## Codes of stored copies (R257, R259) -/

/-- The code a class writes with a line: 0 OPEN, 1 SEALED, 2 CHECKED. -/
def codeOf (cls : Nat) : Nat := if cls = 2 then 0 else cls + 1

/-- The class whose code a line's stored copy carries, or under which its slice holds it. DEDUCED (log entry 103): it is the class of a line
that the device reaches by its physical address alone, such as a table's. -/
def classAt (s : State) (line : Nat) : Nat :=
  match scOf s line with
  | some x => x.cls
  | none => match (get0 s.lineCode line).toNat with
    | 1 => 0
    | 2 => 1
    | _ => 2

/-- One step of the CRC-32 register over a byte, without its constants: the checksum is linear in the error pattern. -/
def crcByte (c : Word) (b : Byte) : Word :=
  (List.range 8).foldl (fun c _ => if c.getLsbD 0 then (c >>> 1) ^^^ 0xEDB88320#32 else c >>> 1) (c ^^^ b.setWidth 32)

/-- Whether the CRC of a CHECKED line fails under an error pattern (R257). -/
def crcFails (flip : Nat → Byte) : Bool :=
  let c := (List.range 128).foldl (fun c i => crcByte c (flip i)) 0#32
  c != (flip 131 ++ flip 130 ++ flip 129 ++ flip 128)

/-- The error pattern of a SEALED line: its 144 raw bytes. -/
def pattern (s : State) (line : Nat) : List Byte := (List.range 144).map fun i => get0 s.flips (flipKey line i)

/-- What the check of a line finds (R259, R384): 0 nothing, 1 corrected, 2 uncorrectable, 3 miscorrected. DEDUCED (log entry 107): the initial data of a
device-managed page in host memory, which the device has not written, are taken as they stand. -/
def checkLine (s : State) (cls line : Nat) (dm : Bool := false) : Nat :=
  if cls = 2 || (dm && get0 s.lineKey line == 0 && decide (2 ^ 43 ≤ line)) then 0
  else if (get0 s.lineCode line).toNat ≠ codeOf cls then 2
  else if cls = 1 then (if crcFails fun i => get0 s.flips (flipKey line i) then 2 else 0)
  else
    let n := (pattern s line).countP (· != 0)
    if n = 0 then 0 else if n ≤ 8 then 1 else if Config.miscorrects (pattern s line) then 3 else 2

/-- The bytes that a miscorrected line is decoded as: the pattern as read, changed in at most eight bytes (R259). -/
def miscorrected (s : State) (line : Nat) : List Byte :=
  let left := ((Config.correction (pattern s line)).take 8).foldl (fun p c => p.set c.1 (p.getD c.1 0 ^^^ c.2)) (pattern s line)
  (List.range 128).map (storedByte s line fun i => left.getD i 0)

/-- The byte that a load performed at its home would return: errors that the check of the line corrects are corrected (R259, R283). -/
def servedByte (s : State) (pa : Nat) : Byte :=
  let line := pa / 128
  if holdsByte s pa then get0 s.mem pa
  else match checkLine s (classAt s line) line with
    | 1 => get0 s.mem pa
    | 3 => (miscorrected s line).getD (pa % 128) 0
    | _ => homeByte s pa

def servedBytes (s : State) (pa n : Nat) : List Byte := (List.range n).map fun i => servedByte s (pa + i)

/-! ## Translation -/

/-- A 57-bit address in its 64-bit form: bits [63:57] are copies of bit 56 (R279). -/
def canonical (a : DWord) : Bool := (a.truncate 57).signExtend 64 == a

def idmKey : Nat := 0x03B

def pteV (e : Nat) : Bool := e.testBit 63
def pteLeaf (e : Nat) : Bool := e.testBit 62
def pteCls (e : Nat) : Nat := field e 61 60
def pteBulk (e : Nat) : Bool := e.testBit 59
def pteExt (e : Nat) : Bool := e.testBit 58
def pteX (e : Nat) : Bool := e.testBit 57
def pteW (e : Nat) : Bool := e.testBit 56
def pteR (e : Nat) : Bool := e.testBit 55
def pteTier (e : Nat) : Nat := field e 54 53
def pteDm (e : Nat) : Bool := e.testBit 52
def pteFrame (e : Nat) : Nat := field e 51 16 * 65536
def pteDom (e : Nat) : Nat := field e 15 10

/-- Bytes a leaf of a level maps (R280). -/
def leafSize (level : Nat) : Nat := if level = 0 then 2 ^ 16 else if level = 1 then 2 ^ 21 else 2 ^ 30

/-- The index of a level in a virtual address (R280). -/
def levelIndex (level va : Nat) : Nat := if level = 0 then field va 20 16 else field va (11 + 9 * level + 9) (21 + 9 * (level - 1))

/-- Whether a leaf's page is in storage: the field FRAME of a device-managed page in tier 3 is a storage handle, no frame (R282). -/
def inStorage (e : Nat) : Bool := pteDm e && pteTier e == 3

/-- The physical address of a virtual one under a leaf. DEDUCED (log entry 117): a page in storage has none; its lines go by its handle, beyond every
physical address, until a frame holds them, and an access to one waits for that. -/
def paOf (leaf size va : Nat) : Nat := (if inStorage leaf then 2 ^ 70 + field leaf 51 16 * 2 ^ 30 else pteFrame leaf) + va % size

/-- Whether a line lies in storage. -/
def storedLine (line : Nat) : Bool := decide (2 ^ 63 ≤ line)

/-- The class in force for a line of a leaf's page: a frame keeps its class until a migration moves the page to a frame of the leaf's (R267, R291). -/
def clsIn (s : State) (leaf pa : Nat) : Nat :=
  if pteDm leaf then ((s.frames.find? fun f => decide (f.pa ≤ pa) && decide (pa < f.pa + f.size)).map Frame.cls).getD (pteCls leaf) else pteCls leaf

/-- Whether a leaf obeys R282. -/
def leafOk (s : State) (e size : Nat) : Bool :=
  let space := field e 51 49
  pteCls e != 3 && e % 1024 == 0 && (inStorage e || (pteFrame e % size == 0 && decide (space < 4)))
  && (regGet s idmKey (pteDom e)).getLsbD 63 && (pteDm e || decide (space < 2) || pteCls e == 2)

/-- A walk from a table at a level (R280, R282, R283): the leaf and its size, or the cause; and the entries it read. -/
def walkFrom (s : State) (va : Nat) : Nat → Nat → List Nat → Except Cause (Nat × Nat) × List Nat
  | level, table, seen =>
    let ea := table + 8 * levelIndex level va
    let seen := ea :: seen
    if field table 51 49 > 1 then (.error .tableInvalid, seen)
    else
      let e := leNat (servedBytes s ea 8)
      if !pteV e then (.error .outOfLease, seen)
      else if pteLeaf e then
        if level ≤ 2 && leafOk s e (leafSize level) then (.ok (e, leafSize level), seen) else (.error .tableInvalid, seen)
      else match level with
        | 0 => (.error .tableInvalid, seen)
        | l + 1 =>
          if e - 2 ^ 63 - field e 51 12 * 4096 ≠ 0 then (.error .tableInvalid, seen)
          else walkFrom s va l (field e 51 12 * 4096) seen

/-- A walk of a context's page table; with CPTB.EN = 0 every access is out of lease (R281). -/
def walk (s : State) (ctx va : Nat) : Except Cause (Nat × Nat) × List Nat :=
  let c := (regGet s 0x010 ctx).toNat
  if c.testBit 63 then walkFrom s va 4 (field c 51 12 * 4096) [] else (.error .outOfLease, [])

/-- The TLB entry of a core that holds a page (R283). -/
def tlbOf (s : State) (core ctx va : Nat) : Option TlbEntry :=
  s.tlb.find? fun t => t.core == core && t.ctx == ctx && t.va == va / t.size * t.size

/-- The leaf of an address: a TLB entry's while the table is in use, or a fresh walk's (R281, R283). -/
def leafOf (s : State) (core ctx va : Nat) : Except Cause (Nat × Nat) :=
  match tlbOf s core ctx va with
  | some t => if (regGet s 0x010 ctx).getLsbD 63 then .ok (t.leaf.toNat, t.size) else .error .outOfLease
  | none => (walk s ctx va).1

/-- The class of the page that maps an address, 0 where none does (R301). -/
def clsOf (s : State) (core ctx va : Nat) : Nat :=
  match leafOf s core ctx va with
  | .ok (e, z) => clsIn s e (paOf e z va)
  | .error _ => 0

end Sys2Proof.Machine
end

