-- ==== Sys2Proof/Machine/Ops.lean ====
section
/-! DEFINITION. The named operations over registers, lookups, system registers, traps, returns, exits and waits. Taking an
exception (`takeTrap`, R302) and returning from one (`doTret`, R308) stand here once, for every meaning. -/

namespace Sys2Proof.Machine

abbrev Out := Host.Outcome State Fault Refusal

/-! ## Causes (R298, R299) -/

def causeCode : Cause → Nat
  | .illegalOpcode => 0x01 | .illegalClause => 0x02 | .illegalOperand => 0x03 | .privileged => 0x04
  | .doubleTrap => 0x0F | .trapInstr => 0x10 | .breakpoint => 0x11
  | .outOfLease => 0x21 | .misaligned => 0x22 | .rights => 0x23 | .scratchRange => 0x24 | .tableInvalid => 0x25
  | .writebackDenied => 0x26 | .keyAbsent => 0x27 | .rlqFree => 0x28 | .poolEmpty => 0x29 | .poolInvalid => 0x2A
  | .pinLimit => 0x2B
  | .layoutSingular => 0x41 | .indexOutsideExtent => 0x42 | .relayWriteLocked => 0x43 | .layoutInvalid => 0x44
  | .slotBusy => 0x45 | .slotEmpty => 0x46 | .relayInvalid => 0x47
  | .barInvalid => 0x50 | .barScope => 0x51 | .barOver => 0x52 | .cisternOverfill => 0x53 | .watchdog => 0x54
  | .extTimeout => 0x55 | .canalInvalid => 0x56 | .lateralInvalid => 0x57 | .lateralFull => 0x58
  | .promiseMissed => 0x61 | .headraceInvalid => 0x62 | .headraceSpace => 0x63 | .matrixInvalid => 0x64
  | .mergeInvalid => 0x65 | .mergeSpace => 0x66 | .mergeAbsent => 0x67 | .mergeMismatch => 0x68
  | .messageInvalid => 0x69 | .launchInvalid => 0x6A | .dataError => 0x71 | .errorBudget => 0x72

/-- Task-ending causes (R299); every other is recoverable. -/
def taskEnding : Cause → Bool
  | .privileged | .doubleTrap | .outOfLease | .rights | .tableInvalid | .keyAbsent | .watchdog => true
  | _ => false

/-- A cause with no record of its own. -/
def plain (c : Cause) : Raised := { cause := c }

/-- ILLEGAL_OPERAND (R76). -/
def bad : Raised := plain .illegalOperand

/-- A check at issue: a cause when it fails. -/
def need (r : Raised) (ok : Bool) : Except Raised Unit := if ok then .ok () else .error r

/-- A record of R301. -/
def mkRec (c : Cause) (addr : Nat) (lane acc cls count aux : Nat) (sram : Bool := false) : TrapRec :=
  { dw0 := BitVec.ofNat 64 addr
    dw1 := BitVec.ofNat 64 (count % 2 ^ 32 * 2 ^ 32 + (if sram then 2 ^ 18 else 0) + cls % 4 * 2 ^ 16 + acc % 8 * 2 ^ 13
      + lane % 32 * 2 ^ 8 + causeCode c)
    dw2 := BitVec.ofNat 64 aux }

/-- A cause with one record. -/
def one (c : Cause) (addr : Nat) (lanes : Mask := 0) (acc aux count : Nat := 0) : Raised :=
  { cause := c, lanes := lanes, recs := [mkRec c addr (lowLane lanes % 32) acc 0 count aux] }

/-! ## Finding things -/

def teamOf (s : State) (t : Nat) : Team := (s.teams.find? (·.uid == t)).getD {}
def taskOf (s : State) (k : Nat) : Task := (s.tasks.find? (·.id == k)).getD {}
def ctxOf (s : State) (c : Nat) : Context := (s.ctxs.find? (·.id == c)).getD { id := c }
def opOf (s : State) (o : Nat) : Option Op := s.ops.find? (·.id == o)
def relayOf (s : State) (r : Nat) : Option Relay := s.relays.find? (·.id == r)

def setTeam (s : State) (t : Team) : State := { s with teams := modFirst (·.uid == t.uid) (fun _ => t) s.teams }
def setTask (s : State) (k : Task) : State := { s with tasks := modFirst (·.id == k.id) (fun _ => k) s.tasks }
def setCtx (s : State) (c : Context) : State := { s with ctxs := modFirst (·.id == c.id) (fun _ => c) s.ctxs }
def setOp (s : State) (o : Op) : State := { s with ops := modFirst (·.id == o.id) (fun _ => o) s.ops }
def setRelay (s : State) (r : Relay) : State := { s with relays := modFirst (·.id == r.id) (fun _ => r) s.relays }

/-- The store kinds of WAIT (R70). -/
def isStoreKind : OpKind → Bool
  | .store | .atomic | .stAcc | .stn | .rlq => true
  | _ => false

/-- Operations of a gang that are outstanding. -/
def opsOf (s : State) (g : Nat) : List Op := s.ops.filter (·.gang == g)

/-- Every gang, the moving one first. -/
def allGangs (s : State) : List Gang := s.g :: s.gangs

def gangOf (s : State) (g : Nat) : Option Gang := (allGangs s).find? (·.gid == g)

/-- Changes gang g. -/
def onGang (s : State) (g : Nat) (f : Gang → Gang) : State :=
  if s.g.gid == g then { s with g := f s.g } else { s with gangs := modFirst (·.gid == g) f s.gangs }

/-- Changes every gang that p picks. -/
def onGangs (s : State) (p : Gang → Bool) (f : Gang → Gang) : State :=
  let h := fun x => if p x then f x else x
  { s with g := h s.g, gangs := s.gangs.map h }

/-- Makes gang g the one that moves. -/
def switchTo (s : State) (g : Nat) : State :=
  if s.g.gid == g then s
  else match s.gangs.find? (·.gid == g) with
    | none => s
    | some x => { s with g := x, gangs := s.gangs.filter (·.gid != g) ++ (if s.g.gid = 0 then [] else [s.g]) }

def myTeam (s : State) : Team := teamOf s s.g.team
def myTask (s : State) : Task := taskOf s (myTeam s).task
def myCtx (s : State) : Context := ctxOf s (myTeam s).ctx
def gangTeam (s : State) (g : Nat) : Team := teamOf s ((gangOf s g).getD {}).team

/-- The gangs of a quarter of a core that are running. -/
def inQuarter (s : State) (core q : Nat) : List Gang :=
  (allGangs s).filter fun g => g.quarter == q && g.place == .running && (teamOf s g.team).core == core

/-- The gangs of the quarter that gang x stands in. -/
def besides (s : State) (x : Gang) : List Gang := inQuarter s (teamOf s x.team).core x.quarter

def oldest (gs : List Gang) : Option Gang :=
  gs.foldl (fun m x => match m with | none => some x | some y => if x.age < y.age then some x else some y) none

def youngest (gs : List Gang) : Option Gang :=
  gs.foldl (fun m x => match m with | none => some x | some y => if y.age ≤ x.age then some x else some y) none

def gangsOf (s : State) (t : Nat) : List Gang := (allGangs s).filter fun x => x.team == t && x.place != .ended

/-- Core numbers within the package (R12). -/
def dieOf (core : Nat) : Nat := core / 512
def clusterOf (core : Nat) : Nat := core / 4          -- 128·die + cluster within die
def quadOf (core : Nat) : Nat := core / 128           -- 4·die + quadrant

/-! ## Ends of operations -/

/-- Clean BULK bytes of a context in a cluster, in the virtual lines p picks, are gone: clean lines, and the clean bytes of dirty ones. A byte of which
a nibble alone is dirty is not held (R191, R192). DEDUCED (log entry 102): a dirty line is kept for its dirty bytes alone. -/
def dropClean (cluster ctx : Nat) (p : Nat → Bool) (s : State) : State :=
  { s with copies := s.copies.filterMap fun c =>
      if !c.remote && c.bulk && c.holder == cluster && c.ctx == ctx && p (c.va.toNat / 128) then
        if c.dirty.isEmpty then none else some { c with valid := c.dirty.foldl (fun (m : BitVec 128) e => if e.2 == 0xFF#8 then m ||| (1#128 <<< e.1) else m) 0 }
      else some c }

/-- Whether all that a fence waits for is done: its write-backs, and its gang's earlier stores, or loads (R191). -/
def fenceDone (s : State) (o : Op) : Bool :=
  o.lines.all (·.granted) && !(s.ops.any fun p => p.gang == o.gang && decide (p.id < o.id) && (if o.code = 0xC5 then isStoreKind p.kind else p.kind == .load))

/-- A fence is complete: at DIE scope and above `fence.acq` invalidates what it covers, whose lines its one lane names: all, or [va, pa) (R191). -/
def endFence (o : Op) (s : State) : State :=
  let s := { s with ops := s.ops.filter (·.id != o.id) }
  if o.code = 0xC5 || o.w < 2 then s
  else o.lanes.foldl (fun s l => dropClean (clusterOf (gangTeam s o.gang).core) o.ctx (fun v => l.size == 0 || (decide (l.va.toNat ≤ v) && decide (v < l.pa))) s) s

/-- Fences that nothing holds any more are complete. -/
def endFences (s : State) : State :=
  (s.ops.filter fun o => o.kind == .fence && fenceDone s o).foldl (fun s o => endFence o s) s

/-- An operation is complete, and the fences that waited for it alone. -/
def dropOp (s : State) (o : Nat) : State := endFences { s with ops := s.ops.filter (·.id != o) }

/-- A step that is now due, on the object numbered a (and b). -/
def due (e : Instr) (a : Nat) (s : State) (b : Nat := 0) : State := { s with agenda := s.agenda ++ [(e, a, b)] }

/-- A step that cannot be taken yet stays due on its object. -/
def later (e : Instr) (s : State) : Out := .next (due e s.obj.1 s s.obj.2)

/-- A new number for an operation, gang, team, task, relay or entry. -/
def newId (s : State) : Nat × State := (s.nextId, { s with nextId := s.nextId + 1 })

/-! ## Registers of a gang (R34, R35, R47) -/

def vKey (r lane : Nat) : Nat := r * 32 + lane
def vGet (g : Gang) (r lane : Nat) : Word := get0 g.v (vKey r lane)
def vSet (g : Gang) (r lane : Nat) (x : Word) : Gang := { g with v := set0 g.v (vKey r lane) x }

/-- A 64-bit value in an even–odd pair, low half in the even register (R47, R119). -/
def pairGet (g : Gang) (r lane : Nat) : DWord := vGet g (r + 1) lane ++ vGet g r lane
def pairSet (g : Gang) (r lane : Nat) (x : DWord) : Gang :=
  vSet (vSet g r lane (x.truncate 32)) (r + 1) lane ((x >>> 32).truncate 32)

def sGet (g : Gang) (r : Nat) : DWord := get0 g.s r
def sSet (g : Gang) (r : Nat) (x : DWord) : Gang := { g with s := set0 g.s r x }

/-- k registers: k0 reads as the issue set (R35). -/
def kGet (g : Gang) (r : Nat) : Mask := if r = 0 then g.cl.set else get0 g.k r
def kSet (g : Gang) (r : Nat) (x : Mask) : Gang := if r = 0 then g else { g with k := set0 g.k r x }

def laneSet (t : Table 64) (m : Mask) (x : DWord) : Table 64 := (lanesOf m).foldl (fun t l => set0 t l x) t

/-- A clause address (R66, R123). -/
def clauseAddr (a : DWord) : Bool := canonical a && a.toNat % 4 == 0

/-! ## Header fields of the clause in progress (R68) -/

def hdrN (h : Word) : Nat := field h.toNat 3 0
def hdrEng (h : Word) : Nat := field h.toNat 6 4
def hdrWait (h : Word) : Nat := field h.toNat 10 7
def hdrKp (h : Word) : Nat := field h.toNat 12 11
def hdrKc (h : Word) : Nat := field h.toNat 14 13 + 4
def hdrExk (h : Word) : Nat := field h.toNat 17 15
def hdrOff (h : Word) : DWord := (h.extractLsb' 18 14).signExtend 64

/-- The address of the clause that follows in sequence (R72). -/
def clauseNext (c : ClauseState) : DWord := c.addr + BitVec.ofNat 64 (4 * (hdrN c.hdr + 1))

/-- The KC register of the clause in progress (R74). -/
def kc (g : Gang) : Mask := kGet g (hdrKc g.cl.hdr)

/-- The lanes on which an instruction acts: the issue set within the KP mask (R71). -/
def active (g : Gang) : Mask := if hdrKp g.cl.hdr = 0 then g.cl.set else g.cl.set &&& kGet g (hdrKp g.cl.hdr)

/-! ## Ending gangs and tasks -/

/-- The threads of m are no longer live, and their yield marks with them (R34, R41). A gang with none left is due to end (R37); where
threads of the team wait at `compact`, a thread that ends counts as arrived (R54). -/
def endThreads (m : Mask) (s : State) : State :=
  let g := { s.g with live := s.g.live &&& ~~~m, marks := s.g.marks &&& ~~~m }
  let s := { s with g := g }
  let s := if g.live = 0 then due .gangEnd g.gid s else s
  if (myTeam s).arrivals.isEmpty then s else due .compactRepack g.team s

/-- The headworks stops every gang of task k, whose end is due (R306, R372); no team of it is dispatched any more. Accepted engine
operations run on. -/
def stopTask (k : Nat) (status : Nat) (cause : Nat) (hdr : TrapRec) (s : State) : State :=
  let t := taskOf s k
  if t.stage == .ended || t.stage == .done then s
  else
    let mine := fun (u : Nat) => (teamOf s u).task == k
    let top := (allGangs s).foldl (fun m x => if mine x.team && x.place != .ended then max m x.gts else m) t.floor
    let gone := (s.teams.filter (·.task == k)).map (·.uid)
    let s := onGangs s (fun x => mine x.team) fun x =>
      { x with live := 0, place := .ended, wait := .none, wake := none, prio := false, inH := false, cl := {}, active := false, pending := [] }
    let s := { s with
      monitors := s.monitors.filter (fun m => !(((gangOf s m.gang).map fun x => mine x.team).getD false))
      takers := s.takers.filter (fun e => !(((gangOf s e.2).map fun x => mine x.team).getD false)) }
    let s := gone.foldl (fun s u => due .teamEnd u s) s
    due .taskCompletion k (setTask s { t with stage := .ended, status := status, cause := cause, hdr := hdr, floor := top })

/-! ## Taking a trap (R300–R306) -/

/-- The index of the word in progress as its operations keep it; 16 more says that it issues in the handler (R304). -/
def wordIx (g : Gang) : Nat := g.cl.x + (if g.inH then 16 else 0)

/-- A cause of a word that issued in a handler: DOUBLE_TRAP, whenever it arrives (R304). -/
def fromHandler (r : Raised) : Bool := decide (16 ≤ r.cwi)

/-- A boundary of a gang (R92): clause address, word index, issue set that remains. -/
structure Boundary where
  addr : DWord
  x    : Nat
  set  : Mask
  deriving DecidableEq, Repr

/-- The lowest `pc` of the live threads. -/
def lowestPc (g : Gang) : DWord :=
  (lanesOf g.live).foldl (fun m l => if (get0 g.pc l) < m || m == BitVec.allOnes 64 then get0 g.pc l else m) (BitVec.allOnes 64)

/-! ## The issue set (R38, R41) -/

/-- Lanes of a gang, the moving one unless another is named, that have arrived at `compact` (R54). -/
def arrivedOf (s : State) (g : Gang := s.g) : Mask :=
  let a := (teamOf s g.team).arrivals
  maskOf fun l => a.any fun x => x.gang == g.gid && x.lane == l

def lanePc (g : Gang) (l : Nat) : Nat := (get0 g.pc l).toNat
def laneMeet (g : Gang) (l : Nat) : Nat := (get0 g.meet l).toNat

/-- Whether lane l stands at its meeting point while another live thread with the same one is elsewhere (R38). -/
def heldLane (g : Gang) (l : Nat) : Bool :=
  g.live.getLsbD l && laneMeet g l != 0 && lanePc g l == laneMeet g l &&
  (lanesOf g.live).any fun j => j != l && laneMeet g j == laneMeet g l && lanePc g j != lanePc g l

/-- Lanes released by this evaluation (R38). -/
def releasedLane (g : Gang) (l : Nat) : Bool :=
  g.live.getLsbD l && laneMeet g l != 0 && lanePc g l == laneMeet g l && !heldLane g l

/-- What R38 and R41 choose: the clause address, the issue set, the new yield state, the lanes released. -/
structure Chosen where
  pc     : DWord
  set    : Mask
  marks  : Mask
  streak : Nat
  yieldPt : DWord
  freed  : Mask
  deriving DecidableEq, Repr

def minOf (l : List Nat) : Option Nat := l.foldl (fun m x => match m with | none => some x | some y => some (min x y)) none

/-- The choice for a gang outside its handler; none while every live thread is held or waits (R38). -/
def choose (g : Gang) (waiting : Mask) : Option Chosen :=
  let freed := maskOf (releasedLane g)
  let nh := maskOf fun l => g.live.getLsbD l && !heldLane g l && !waiting.getLsbD l
  let at' := fun (m : Mask) (p : Nat) => maskOf fun l => m.getLsbD l && lanePc g l == p
  match minOf ((lanesOf nh).map (lanePc g)) with
  | none => none
  | some low =>
    if at' nh low = nh then some ⟨BitVec.ofNat 64 low, nh, 0, 0, g.yieldPt, freed⟩
    else
      let marks := if nh &&& ~~~g.marks = 0 then 0 else g.marks
      let pcs := (lanesOf (nh &&& ~~~marks)).map (lanePc g)
      let p := if marks = 0 then (minOf pcs).getD 0
        else (minOf (pcs.filter (· > g.yieldPt.toNat))).getD ((minOf pcs).getD 0)
      let set := at' (nh &&& ~~~marks) p
      if g.streak + 1 ≥ 64 then some ⟨BitVec.ofNat 64 p, set, marks ||| set, 0, BitVec.ofNat 64 p, freed⟩
      else some ⟨BitVec.ofNat 64 p, set, marks, g.streak + 1, g.yieldPt, freed⟩

/-- The boundary a gang stands at, the moving one unless another is named: within a clause, or before the clause that R38 and R41 issue
next, where no issue set remains. DEDUCED (log entry 91): where they issue none, every live thread being held or at `compact`, it is the
lowest `pc` of a live thread. -/
def boundary (s : State) (g : Gang := s.g) : Boundary :=
  if g.cl.x ≠ 0 then ⟨g.cl.addr, g.cl.x, g.cl.set⟩
  else if g.inH then ⟨g.hpc, 1, 0⟩
  else match choose g (arrivedOf s g) with
    | some c => ⟨c.pc, 1, 0⟩
    | none => ⟨if g.live = 0 then 0 else lowestPc g, 1, 0⟩

/-! ## Trap priority in the active set (R52) -/

/-- A trap-priority gang is moved into the active set at once: the youngest ordinary gang leaves a full one; where all its 8 gangs are at
trap priority, it waits (R52). -/
def pinTrap (g : Nat) (s : State) : State :=
  match gangOf s g with
  | none => s
  | some x =>
    if x.active then s
    else
      let act := (besides s x).filter fun y => y.active && y.gid != g
      let enters := fun (z : Gang) => { z with active := true, entered := s.clk + 1, entry := 0, readyFrom := none }
      if act.length < 8 then onGang s g enters
      else match youngest (act.filter fun y => !y.prio) with
        | none => s
        | some y => onGang (onGang s y.gid fun z => { z with active := false, readyFrom := none, starved := false }) g enters

/-- A trap-priority gang of the moving gang's quarter that waits enters as soon as an active one returns, the oldest first (R52). -/
def admitTrap (s : State) : State :=
  match oldest ((besides s s.g).filter fun x => x.prio && !x.active) with
  | none => s
  | some x => pinTrap x.gid s

/-! ## The header and the entry of a trap -/

/-- The header of R300. -/
def trapHeader (r : Raised) (code : Nat) (te late : Bool) (b : Boundary) : TrapRec :=
  { dw0 := BitVec.ofNat 64 (r.lost % 2 ^ 32 * 2 ^ 32 + r.cwi % 16 * 2 ^ 28 + b.x % 16 * 2 ^ 24 + r.trapn.toNat * 2 ^ 16
      + (if late then 2 ^ 14 else 0) + (min r.recs.length 32) * 2 ^ 8 + (if te then 2 ^ 7 else 0) + code)
    dw1 := b.addr
    dw2 := r.cpc
    dw3 := r.lanes ++ b.set }

/-- Taking a cause in the moving gang at boundary b (R302): the area is written whole; at trap priority, or from a word of a handler, it is DOUBLE_TRAP
and ends the task (R305); without a handler the task ends; otherwise the gang enters trap priority with its handler pc
at THA. Thread state, masks, gts, FMODE, FSTAT and yield state stay. -/
def takeTrap (r : Raised) (late : Bool) (b : Boundary) (s : State) : State :=
  let k := (myTeam s).task
  let s := { s with monitors := s.monitors.filter (·.gang != s.g.gid), takers := s.takers.filter (·.2 != s.g.gid) }
  if s.g.prio || fromHandler r then
    let nested := match r.recs with
      | [] => mkRec .doubleTrap 0 (lowLane r.lanes % 32) 0 0 0 (causeCode r.cause)
      | x :: _ => { x with dw1 := BitVec.ofNat 64 (x.dw1.toNat / 128 * 128 + causeCode .doubleTrap),
                           dw2 := BitVec.ofNat 64 (causeCode r.cause) }
    let h := trapHeader { r with recs := [nested], lost := 0 } (causeCode .doubleTrap) true late b
    stopTask k 9 (causeCode .doubleTrap) h { s with g := { s.g with area := h, recs := [nested] } }
  else
    let h := trapHeader r (causeCode r.cause) (taskEnding r.cause) late b
    let tha := regGet s 0x012 (myTeam s).ctx
    let g := { s.g with area := h, recs := r.recs.take 32, wait := .none, wake := none, kept := { s.g.cl with addr := b.addr, x := b.x, set := b.set } }
    if tha = 0 then stopTask k 9 (causeCode r.cause) h { s with g := { g with cl := {} } }
    else pinTrap g.gid { s with g := { g with prio := true, inH := true, hpc := tha, cl := {} } }

/-- A precise cause of the word in progress (mark P): the word has taken no effect (R94). -/
def raised (r : Raised) (s : State) : State :=
  let b := boundary s
  takeTrap { r with cpc := b.addr, cwi := b.x } false b { s with clk := s.clk + 1 }

def raise (r : Raised) (s : State) : Out := .next (raised r s)

/-- MISALIGNED of a clause address that lanes of the moving gang name, with the class of the page it lies in (R301). -/
def targetCause (s : State) (wrong : Mask) (a : DWord) (acc : Nat) : Raised :=
  { cause := .misaligned, lanes := wrong
    recs := [mkRec .misaligned a.toNat (lowLane wrong % 32) acc (clsOf s (myTeam s).core (myTeam s).ctx a.toNat) 0 0] }

/-! ## The exits of a clause (R72–R74, R303) -/

/-- The lanes of the issue set that a next-address selector picks (R74). -/
def exitLanes (g : Gang) (nxt : BitVec 2) : Mask :=
  match nxt.toNat with
  | 0 => 0
  | 1 => g.cl.set
  | 2 => g.cl.set &&& kc g
  | _ => g.cl.set &&& ~~~(kc g)

/-- Whether a word with this selector is refused when it issues (R72, EXK 0 and 6). -/
def exitRefused (g : Gang) (nxt : BitVec 2) : Bool :=
  (hdrExk g.cl.hdr == 0 && nxt != 0) || (hdrExk g.cl.hdr == 6 && nxt != 0 && (nxt != 1 || !g.prio))

/-- The lanes of m receive a `pc`, each its own. -/
def putPcs (m : Mask) (f : Nat → DWord) (g : Gang) : Gang :=
  { g with pc := (lanesOf m).foldl (fun t l => set0 t l (f l)) g.pc }

/-- The lanes of E leave the clause for the addresses f gives; in a handler the whole set does, as its lowest lane of E
says (R303). -/
def leaveTo (e : Mask) (f : Nat → DWord) (g : Gang) : Gang :=
  if g.inH then { g with hpc := f (lowLane e), cl := {} }
  else { putPcs e f g with cl := { g.cl with set := g.cl.set &&& ~~~e, fired := true } }

/-- What a return from a trap restores (R308). -/
def doTret (s : State) : State :=
  let g := s.g
  if g.area.dw0.toNat / 128 % 2 = 1 then
    stopTask (myTeam s).task 9 (g.area.dw0.toNat % 128) g.area s
  else
    let spc := g.area.dw1
    let sset : Mask := g.area.dw3.truncate 32
    let s2 := maskOf fun l => sset.getLsbD l && g.live.getLsbD l && get0 g.pc l == spc
    let swi := field g.area.dw0.toNat 27 24
    let cl : ClauseState := if swi > 1 ∧ s2 ≠ 0 then { g.kept with set := s2 } else {}
    let s := admitTrap { s with g := { g with prio := false, inH := false, cl := cl, kept := {} } }
    if g.pending.isEmpty then s else due .trapEntry g.gid s

/-- The exit of the word in progress, after its own effect (R74, R75). DEDUCED (log entry 92): a RET exit goes to `lk` as it stands, unchecked; of an IND
exit in a handler the target of the lowest lane of E, which R303 lets supply it, is the one checked. -/
def takeExit (nxt : BitVec 2) (s : State) : Except Raised State :=
  let g := s.g
  let e := exitLanes g nxt
  if e = 0 then .ok s
  else
    let c := g.cl
    let next := clauseNext c
    let target := c.addr + (hdrOff c.hdr <<< 2)
    match hdrExk c.hdr with
    | 1 => .ok { s with g := leaveTo e (fun _ => target) g }
    | 2 =>
      let who := if g.inH then c.set else e
      .ok { s with g := leaveTo e (fun _ => target) { g with lk := laneSet g.lk who next } }
    | 3 => .ok { s with g := leaveTo e (fun l => get0 g.lk l) g }
    | 4 =>
      let take := c.loop.getD (g.lc != 0)
      let lc := if c.loop.isNone && g.lc != 0 then g.lc - 1 else g.lc
      .ok { s with g := leaveTo e (fun _ => if take then target else next) { g with lc := lc, cl := { c with loop := some take } } }
    | 5 =>
      let r := field c.hdr.toNat 24 18
      let wrong := maskOf fun l => (if g.inH then l == lowLane e else e.getLsbD l) && (pairGet g r l).toNat % 4 != 0
      if wrong ≠ 0 then .error (targetCause s wrong (pairGet g r (lowLane wrong)) 3)
      else .ok { s with g := leaveTo e (fun l => pairGet g r l) g }
    | 6 => .ok (doTret s)
    | 7 =>
      if g.inH then .ok (endThreads e { s with g := { g with hpc := next, cl := {} } })
      else .ok (endThreads e { s with g := { g with cl := { c with set := c.set &&& ~~~e, fired := true } } })
    | _ => .ok s

/-- The marks of a gang that has just issued a word (R50, R53, R84). -/
def issuedNow (clk : Nat) (g : Gang) : Gang :=
  { g with issued := g.issued + 1, wait := .none, waitFrom := clk, starved := false, readyFrom := none, lastIssue := clk + 1 }

/-- Past a word of `len` words: the clause ends when no lane is left or no word is (R75). -/
def stepOver (len : Nat) (s : State) : State :=
  let g := issuedNow s.clk s.g
  let c := g.cl
  let s := { s with clk := s.clk + 1 }
  if c.x = 0 then { s with g := g }
  else if c.set = 0 then { s with g := { g with cl := {} } }
  else if c.x + len > hdrN c.hdr then
    if g.inH then { s with g := { g with hpc := clauseNext c, cl := {} } }
    else { s with g := { putPcs c.set (fun _ => clauseNext c) g with cl := {} } }
  else { s with g := { g with cl := { c with x := c.x + len } } }

/-- Past a word: a return from the trap puts the gang where R308 says, not after the word. -/
def goOn (len : Nat) (s u : State) : State :=
  if s.g.prio && !u.g.prio then { u with clk := u.clk + 1, g := issuedNow u.clk u.g }
  else stepOver len u

/-- One instruction word: the refusal of its exit, its own effect or its cause, its exit, the next word. DEDUCED (log entry 93): the refusal comes first,
before any cause of the word's own. -/
def word (len : Nat) (nxt : BitVec 2) (s : State) (effect : Except Raised State) : Out :=
  if exitRefused s.g nxt then raise (plain .illegalClause) s
  else match effect with
    | .error r => raise r s
    | .ok t => match takeExit nxt t with
      | .error r => raise r s
      | .ok u => .next (goOn len s u)

/-- A word whose cause stops the gang after it (mark A: R124, R125). -/
def wordThen (len : Nat) (nxt : BitVec 2) (r : Raised) (s : State) : Out :=
  if exitRefused s.g nxt then raise (plain .illegalClause) s
  else match takeExit nxt s with
    | .error e => raise e s
    | .ok u =>
      let t := goOn len s u
      .next (takeTrap { r with cpc := s.g.cl.addr, cwi := wordIx s.g } true (boundary t) t)

/-- The gang waits at its word (R51, R326); the word's exit is taken when it goes on. -/
def startWait (w : Wait) (len : Nat) (nxt : BitVec 2) (s : State) : State :=
  { s with clk := s.clk + 1
           g := { s.g with wait := w, waitLen := len, waitNxt := nxt, waitFrom := s.clk, wake := none } }

/-- The moving gang has met a long-latency dependence: it gives its active place to the oldest ready pending gang of its quarter, if there
is one, before anything else moves (R51). -/
def longLatency (s : State) : State := { s with g := { s.g with longLat := true } }

/-- A waiting word: the refusal of its exit, its cause, or the wait. An IND exit that is misaligned stops the word before its effect
stands (R73). -/
def waitWord (len : Nat) (nxt : BitVec 2) (s : State) (w : Except Raised (State × Wait)) : Out :=
  if exitRefused s.g nxt then raise (plain .illegalClause) s
  else match w with
    | .error r => raise r s
    | .ok (t, .none) => match takeExit nxt t with
      | .error r => raise r s
      | .ok u => .next (goOn len s u)
    | .ok (t, w) => match takeExit nxt t with
      | .error r => raise r s
      | .ok _ => .next (startWait w len nxt t)

/-- The gang cannot go on from its boundary yet: it stays there, waiting for w. -/
def hold (w : Wait) (s : State) : Out :=
  .next { s with clk := s.clk + 1, g := { s.g with wait := w, waitFrom := if s.g.wait == w then s.g.waitFrom else s.clk } }

/-- The word cannot be taken yet (a full table, R166, R240, R344): the gang stays at it and tries again. -/
def stall (s : State) : Out := hold .room s

/-- A word that may have to wait at its place: `none` when it cannot be taken yet. -/
def wordOr (len : Nat) (nxt : BitVec 2) (s : State) (effect : Except Raised (Option State)) : Out :=
  if exitRefused s.g nxt then raise (plain .illegalClause) s
  else match effect with
    | .error r => raise r s
    | .ok none => stall s
    | .ok (some t) => match takeExit nxt t with
      | .error r => raise r s
      | .ok u => .next (goOn len s u)

/-- A waiting word that may first have to wait at its place: `none` when it cannot be taken yet. -/
def waitOr (len : Nat) (nxt : BitVec 2) (s : State) (w : Except Raised (Option (State × Wait))) : Out :=
  if exitRefused s.g nxt then raise (plain .illegalClause) s
  else match w with
    | .error r => raise r s
    | .ok none => stall s
    | .ok (some (t, .none)) => match takeExit nxt t with
      | .error r => raise r s
      | .ok u => .next (goOn len s u)
    | .ok (some (t, w)) => match takeExit nxt t with
      | .error r => raise r s
      | .ok _ => .next (startWait w len nxt t)

/-- A gang is released from its wait with a time (R187, R219): it goes on at its next issue, wherever it is. -/
def wakeGang (g : Nat) (t : Nat) (s : State) : State :=
  onGang s g fun x => if x.wait == .none then x else { x with wake := some t }

/-- The moving gang, released, takes the exit of its waiting word and goes on (R218, R219, R333). -/
def finishWait (s : State) : State :=
  let t := s.g.wake.getD 0
  let g := { s.g with wait := .none, wake := none, gts := max s.g.gts t }
  let u := { s with g := g }
  match takeExit g.waitNxt u with
  | .error r => takeTrap { r with cpc := g.cl.addr, cwi := g.cl.x } false (boundary u) u
  | .ok v => goOn g.waitLen s v

/-- Late causes (marks L and B) held for gang g; taking the first is due (R304). A gang that has ended leaves them to its
task (R307). -/
def pendCause (g : Nat) (r : Raised) (s : State) : State :=
  match gangOf s g with
  | some x => if x.place == .ended then
      let k := taskOf s (teamOf s x.team).task
      due .orphanCause k.id (setTask s { k with orphans := k.orphans ++ [r] })
    else due .trapEntry g (onGang s g fun x => { x with pending := x.pending ++ [r] })
  | none => s

/-- Joining an observed time (R187). -/
def joinTime (t : Nat) (g : Gang) : Gang := { g with gts := max g.gts t }

end Sys2Proof.Machine
end

