-- ==== Sys2Proof/Machine/Operands.lean ====
section
/-! DEFINITION. Every operand form: types (R88), A and B codes (R78–R82), system values (R81), MOD fields (R87, R117),
and the results of format A and U words. -/

namespace Sys2Proof.Machine

/-- Type codes of R88. -/
inductive Ty where
  | i8 | i16 | i32 | i64 | n8 | n16 | n32 | n64 | b32 | b64 | f64 | f32 | f16 | bf16 | e4m3 | e5m2 | e2m1
  | qa4 | qa8 | fx8 | fx4 | ix8
  deriving DecidableEq, Repr

/-- The type of a code 1–22 (R88). -/
def tyOfCode : Nat → Option Ty
  | 1 => some .i8 | 2 => some .i16 | 3 => some .i32 | 4 => some .i64 | 5 => some .n8 | 6 => some .n16 | 7 => some .n32
  | 8 => some .n64 | 9 => some .b32 | 10 => some .b64 | 11 => some .f64 | 12 => some .f32 | 13 => some .f16
  | 14 => some .bf16 | 15 => some .e4m3 | 16 => some .e5m2 | 17 => some .e2m1 | 18 => some .qa4 | 19 => some .qa8
  | 20 => some .fx8 | 21 => some .fx4 | 22 => some .ix8 | _ => none

/-- Bits of one element. -/
def tyBits : Ty → Nat
  | .i8 | .n8 | .e4m3 | .e5m2 | .qa8 | .fx8 | .ix8 => 8
  | .i16 | .n16 | .f16 | .bf16 => 16
  | .i32 | .n32 | .b32 | .f32 => 32
  | .i64 | .n64 | .b64 | .f64 => 64
  | .e2m1 | .qa4 | .fx4 => 4

/-- Whether an integer type is signed; .b is treated as .n (R120). -/
def tySigned : Ty → Bool
  | .i8 | .i16 | .i32 | .i64 | .ix8 => true
  | _ => false

/-- The floating-point format of a type. -/
def tyFmt : Ty → Option Fmt
  | .f64 => some Machine.f64 | .f32 => some Machine.f32 | .f16 => some Machine.f16 | .bf16 => some Machine.bf16
  | .e4m3 => some Machine.e4m3 | .e5m2 => some Machine.e5m2 | .e2m1 => some Machine.e2m1 | _ => none

/-- Which MOD fields an instruction takes (R87, R117). -/
structure Takes where
  ty    : Bool := false
  sty   : Bool := false
  negc  : Bool := false
  aMods : Bool := false
  bMods : Bool := false
  ftz   : Bool := false
  sat   : Bool := false
  rm    : Bool := false
  deriving DecidableEq, Repr

/-- No field that the instruction does not take is non-zero, and RM is no illegal code (R87). -/
def modOk (t : Takes) : Option ModWord → Bool
  | none => true
  | some m =>
    m.rsv == 0 && (t.ty || m.type == 0) && (t.sty || m.stype == 0) && (t.negc || !m.negc) &&
    (t.aMods || (!m.absa && !m.nega)) && (t.bMods || (!m.absb && !m.negb)) && (t.ftz || !m.ftz) && (t.sat || !m.sat) &&
    (t.rm || m.rm == 0) && m.rm != 7

/-- The TYPE code of a word; 0 without a prefix. -/
def typeCode (m : Option ModWord) : Nat := (m.map fun x => x.type.toNat).getD 0
def stypeCode (m : Option ModWord) : Nat := (m.map fun x => x.stype.toNat).getD 0

/-- The type a code selects: the default for 0, one of the allowed types, or none (R87, R88). -/
def pickTy (dflt : Ty) (allowed : List Ty) (code : Nat) : Option Ty :=
  if code = 0 then some dflt else (tyOfCode code).filter fun t => allowed.contains t

def modBit (f : ModWord → Bool) (m : Option ModWord) : Bool := (m.map f).getD false

/-- The rounding mode: the prefix's, or FMODE.RM (R87, R106). -/
def modeOf (s : State) (m : Option ModWord) : RM :=
  let c := (m.map fun x => x.rm.toNat).getD 0
  ((rmOf (if c = 0 then s.g.fmode.toNat % 8 else c))).getD .rne

/-- Whether an instruction that takes the field FTZ flushes (R98, R106). -/
def ftzOf (s : State) (m : Option ModWord) : Bool := modBit (·.ftz) m || s.g.fmode.getLsbD 3

/-! ## System values (R81) -/

/-- Team coordinates from the linear index (R45), and thread coordinates from t (R36). DEDUCED (log entry 98): a message-handler gang, which has no team
index, reads 0 for the team coordinates, and its thread coordinates by the shape of the launch whose message it handles. -/
def sysValue (s : State) (lane code : Nat) : Nat :=
  let t := myTeam s
  let k := myTask s
  let th := 32 * s.g.num + lane
  match code with
  | 224 => lane
  | 225 => s.g.num
  | 226 => if t.msgr then 0 else t.idx % k.gx
  | 227 => if t.msgr then 0 else t.idx / k.gx % k.gy
  | 228 => if t.msgr then 0 else t.idx / (k.gx * k.gy)
  | 229 => if t.msgr then 0xFFFFFFFF else t.idx
  | 230 => th % k.tx
  | 231 => th / k.tx % k.ty
  | 232 => th / (k.tx * k.ty)
  | 233 => t.core
  | 234 => t.core / 4 % 128
  | 235 => dieOf t.core
  | 236 => s.clk
  | 237 => t.count
  | 238 => t.ctx
  | _ => 0

/-! ## Constants (R80) and literals (R82) -/

/-- How an operand is read: an integer or bit operand of a width, or a floating-point operand, packed or not. -/
inductive Kind where
  | int (w : Nat)
  | fp (f : Fmt) (packed : Bool)
  deriving DecidableEq, Repr

/-- Whether an operand of this kind takes an even–odd pair. -/
def Kind.wide : Kind → Bool
  | .int w => w == 64
  | .fp f _ => f.bits == 64

/-- The constant n/4, for both kinds of operand (R80). DESIGN CHOICE, log entry 89: a constant that a narrow format cannot hold is rounded to
nearest even (and saturates where the format has no infinity), and in a format of 8 or 4 bits it stands in element 0 alone. -/
def constant (k : Kind) (neg : Bool) (n : Nat) (real : Bool) : DWord :=
  match k with
  | .int w =>
    if real then BitVec.ofNat 64 ((rnd f32 .rne false 0 (.fin neg n 4)).1)
    else (BitVec.ofInt w (sgn neg (n / 4))).setWidth 64
  | .fp f packed =>
    let c := (rnd f .rne false 0 (.fin neg n 4)).1
    BitVec.ofNat 64 (if packed then c * 65536 + c else c)

/-- An f32 value widened exactly to f64 (R82): a NaN keeps its fraction, so that a signalling one stays one (R97). -/
def widen (x : Nat) : Nat :=
  match decodeF f32 x with
  | .nan _ => x / 2 ^ 31 * 2 ^ 63 + 0x7FF * 2 ^ 52 + x % 2 ^ 23 * 2 ^ 29
  | v => (rnd f64 .rne false 0 v).1

/-- A literal at an operand's kind (R82). -/
def literal (k : Kind) (x : Word) : DWord :=
  match k with
  | .int w => if w = 64 then x.signExtend 64 else x.setWidth 64
  | .fp f _ => if f.bits = 64 then BitVec.ofNat 64 (widen x.toNat) else x.setWidth 64

/-- An A-style inline constant 192–223 (R80). -/
def constA (k : Kind) (c : Nat) : DWord :=
  if c < 208 then constant k false (4 * (c - 192)) false
  else if c < 216 then constant k true (4 * (c - 207)) false
  else constant k (c ≥ 220) (2 * 2 ^ ((c - 216) % 4)) true

/-- A B inline constant 112–123 (R80). -/
def constB (k : Kind) (c : Nat) : DWord :=
  match c with
  | 112 => constant k false 0 false
  | 113 => constant k false 4 false
  | 114 => constant k false 8 false
  | 115 => constant k false 16 false
  | 116 => constant k false 32 false
  | 117 => constant k false 64 false
  | 118 => constant k false 124 false
  | 119 => constant k false 128 false
  | 120 => constant k true 4 false
  | 121 => constant k false 4 true
  | 122 => constant k true 4 true
  | _ => constant k false 2 true

/-! ## Reading A and B -/

/-- A register number, or the first of a pair, within the allocation (R47). -/
def vregOk (regs : Nat) (wide : Bool) (r : Nat) : Bool :=
  if wide then r % 2 == 0 && decide (r + 1 < regs) else decide (r < regs)

/-- Whether an A code is legal: in format A (`vec`) v registers and lane values are, in format U they are not (R78, R79). -/
def okA (regs : Nat) (vec wide : Bool) (c : Nat) : Bool :=
  if c < 128 then vec && vregOk regs wide c
  else if c < 224 then true
  else if c < 239 then vec || !(c == 224 || (230 ≤ c && c ≤ 232))
  else c == 240

/-- Whether a B code is legal (R78, R79). -/
def okB (regs : Nat) (vec wide : Bool) (c : Nat) : Bool :=
  if c < 96 then vec && vregOk regs wide c else decide (c < 125)

/-- The value of an A code in a lane. -/
def readA (s : State) (k : Kind) (lit : Option Word) (lane c : Nat) : DWord :=
  if c < 128 then (if k.wide then pairGet s.g c lane else (vGet s.g c lane).setWidth 64)
  else if c < 192 then
    let x := sGet s.g (c - 128)
    if k.wide then x else (x.truncate 32 : Word).setWidth 64
  else if c < 224 then constA k c
  else if c < 239 then (BitVec.ofNat 32 (sysValue s lane c)).setWidth 64
  else literal k (lit.getD 0)

/-- The value of a B code in a lane. -/
def readB (s : State) (k : Kind) (lit : Option Word) (lane c : Nat) : DWord :=
  if c < 96 then (if k.wide then pairGet s.g c lane else (vGet s.g c lane).setWidth 64)
  else if c < 112 then
    let x := sGet s.g (c - 96)
    if k.wide then x else (x.truncate 32 : Word).setWidth 64
  else if c < 124 then constB k c
  else literal k (lit.getD 0)

/-- Words an A or U instruction takes: prefix, itself, literals (R78, R82, R87). -/
def aLen (w : AWord) : Nat :=
  1 + (if w.pre.isSome then 1 else 0) + (if w.la.isSome then 1 else 0) + (if w.lb.isSome then 1 else 0)
    + (if w.lt.isSome then 1 else 0)

/-- Words a format M instruction takes. -/
def mLen (w : MWord) : Nat := 2 + (if w.pre.isSome then 1 else 0)

/-! ## Writing results -/

/-- A result per lane in D, a single register or a pair. -/
def writeLanes (wide : Bool) (d : Nat) (rs : List (Nat × DWord)) (g : Gang) : Gang :=
  rs.foldl (fun g r => if wide then pairSet g d r.1 r.2 else vSet g d r.1 (r.2.truncate 32)) g

/-- A result of an integer type in an s register: sign-extended for .i, zero-extended for .n and .b (R119). -/
def writeS (t : Ty) (d : Nat) (x : Nat) (g : Gang) : Gang :=
  sSet g d (if tyBits t = 64 then BitVec.ofNat 64 x
    else if tySigned t then (BitVec.ofNat 32 x).signExtend 64 else (BitVec.ofNat 32 x).setWidth 64)

/-- Bits of a k register set lane by lane; other bits keep their values. -/
def writeKLanes (d : Nat) (rs : List (Nat × Bool)) (g : Gang) : Gang :=
  let m := rs.foldl (fun m r => if r.2 then m ||| (1#32 <<< r.1) else m &&& ~~~(1#32 <<< r.1)) (kGet g d)
  kSet g d m

end Sys2Proof.Machine
end

