-- ==== Sys2Proof/Machine/Flags.lean ====
section
/-! DEFINITION. FSTAT and FMODE (R106–R108): what a word's conditions set, and what a write of either register does. -/

namespace Sys2Proof.Machine

/-- The FSTAT bits of a set of conditions (R107). -/
def flagBits (f : FFlags) : BitVec 32 :=
  BitVec.ofNat 32 ((if f.sa then 32 else 0) + (if f.nv then 16 else 0) + (if f.dz then 8 else 0) + (if f.of then 4 else 0)
    + (if f.uf then 2 else 0) + (if f.pe then 1 else 0))

/-- Flags are sticky (R108). -/
def setFlags (f : FFlags) (g : Gang) : Gang := { g with fstat := g.fstat ||| flagBits f }

/-- The conditions any active lane raises (R108). -/
def anyFlags (l : List FFlags) : FFlags := l.foldl FFlags.or {}

/-- A write of FMODE: a mode of 0 or 7 leaves RM unchanged; reserved bits stay zero (R106). -/
def writeFmode (g : Gang) (x : Word) : Gang :=
  let rm := x.toNat % 8
  let rm := if rm = 0 ∨ rm = 7 then g.fmode.toNat % 8 else rm
  { g with fmode := BitVec.ofNat 32 ((if x.getLsbD 3 then 8 else 0) + rm) }

/-- A write of FSTAT clears the flags whose bits are 1 (W1C, R107). -/
def writeFstat (g : Gang) (x : Word) : Gang := { g with fstat := g.fstat &&& ~~~(x &&& 0x3F) }

end Sys2Proof.Machine
end

