-- ==== Sys2Proof/Machine/Uniform.lean ====
section
/-! DEFINITION. Integer functions shared by the uniform and vector forms (R119, R127), and the uniform instructions (R120). -/

namespace Sys2Proof.Machine

/-! ## Integer functions on w-bit codes -/

def addV (w a b : Nat) : Nat := (a + b) % 2 ^ w
def subV (w a b : Nat) : Nat := modPow ((a : Int) - b) w
def mulLoV (w a b : Nat) : Nat := a * b % 2 ^ w

/-- The high w bits of the 2w-bit product, signed or unsigned. -/
def mulHiV (sg : Bool) (w a b : Nat) : Nat := modPow (intOf sg w a * intOf sg w b / (2 ^ w : Nat)) w

def minV (sg : Bool) (w a b : Nat) : Nat := if intOf sg w a ≤ intOf sg w b then a else b
def maxV (sg : Bool) (w a b : Nat) : Nat := if intOf sg w a ≥ intOf sg w b then a else b

/-- Shifts and rotate by the count b[7:0] (R127). -/
def shlV (w a b : Nat) : Nat := let c := b % 256; if c ≥ w then 0 else a * 2 ^ c % 2 ^ w
def shrV (w a b : Nat) : Nat := let c := b % 256; if c ≥ w then 0 else a / 2 ^ c
def sarV (w a b : Nat) : Nat :=
  let c := b % 256
  let x := intOf true w a
  modPow (if c ≥ w then (if x < 0 then -1 else 0) else x / (2 ^ c : Nat)) w
def rotV (w a b : Nat) : Nat :=
  let c := b % 256 % w
  (a * 2 ^ c % 2 ^ w) ||| (a / 2 ^ (w - c))

/-- The field length at a position, cut at the width (R127). -/
def fieldLen (w b : Nat) : Nat := let pos := b % 256; if pos ≥ w then 0 else min (b / 256 % 256) (w - pos)

def bfxV (sg : Bool) (w a b : Nat) : Nat :=
  let len := fieldLen w b
  let f := a / 2 ^ (b % 256) % 2 ^ len
  if len = 0 then 0 else if sg then modPow (intOf true len f) w else f

def bfiV (w d a b : Nat) : Nat :=
  let len := fieldLen w b
  let pos := b % 256
  if len = 0 then d
  else d - d / 2 ^ pos % 2 ^ len * 2 ^ pos + a % 2 ^ len * 2 ^ pos

def popcV (w a : Nat) : Nat := popc (BitVec.ofNat w a)
def clzV (w a : Nat) : Nat := if a = 0 then w else w - 1 - Nat.log2 a
def ctzV (w a : Nat) : Nat := ((List.range w).find? a.testBit).getD w
def brevV (w a : Nat) : Nat := (BitVec.ofNat w a).reverse.toNat
def notV (w a : Nat) : Nat := 2 ^ w - 1 - a

/-- Condition codes 0–5 (R121); none for the illegal ones. -/
def condOf (sg : Bool) (w c a b : Nat) : Option Bool :=
  let x := intOf sg w a
  let y := intOf sg w b
  match c with
  | 0 => some (a == b)
  | 1 => some (a != b)
  | 2 => some (decide (x < y))
  | 3 => some (decide (x ≤ y))
  | 4 => some (decide (x > y))
  | 5 => some (decide (x ≥ y))
  | _ => none

/-! ## Uniform forms -/

def uniTypes : List Ty := [.i64, .n64, .i32, .n32, .b64, .b32]

/-- The checks every uniform form makes, and its type: MOD TYPE only, operands of format U (R79, R87, R120). -/
def uniCheck (w : AWord) (s : State) : Except Raised Ty := do
  need bad (modOk { ty := true } w.pre)
  let t ← (match pickTy .i64 uniTypes (typeCode w.pre) with | some t => .ok t | none => .error bad)
  need bad (okA s.g.regs false false w.a.toNat && okB s.g.regs false false w.b.toNat)
  .ok t

def uniA (w : AWord) (s : State) (t : Ty) : Nat := (readA s (.int (tyBits t)) w.la 0 w.a.toNat).toNat % 2 ^ tyBits t
def uniB (w : AWord) (s : State) (t : Ty) : Nat := (readB s (.int (tyBits t)) w.lb 0 w.b.toNat).toNat % 2 ^ tyBits t
/-- B of a shift or field form: a 32-bit value (R128). -/
def uniB32 (w : AWord) (s : State) : Nat := (readB s (.int 32) w.lb 0 w.b.toNat).toNat

/-- d ← f(a, b). -/
def uni2 (w : AWord) (s : State) (f : Ty → Nat → Nat → Nat) : Out :=
  word (aLen w) w.nxt s do
    let t ← uniCheck w s
    need bad (!w.d.getLsbD 6)
    .ok { s with g := writeS t (w.d.toNat % 64) (f t (uniA w s t) (uniB w s t)) s.g }

/-- d ← f(a, b) with B a shift count or field control. -/
def uniShift (w : AWord) (s : State) (f : Ty → Nat → Nat → Nat) : Out :=
  word (aLen w) w.nxt s do
    let t ← uniCheck w s
    need bad (!w.d.getLsbD 6)
    .ok { s with g := writeS t (w.d.toNat % 64) (f t (uniA w s t) (uniB32 w s)) s.g }

/-- d ← f(a), B unused (R118). -/
def uni1 (w : AWord) (s : State) (f : Ty → Nat → Nat) : Out :=
  word (aLen w) w.nxt s do
    let t ← uniCheck w s
    need bad (!w.d.getLsbD 6 && w.b == 112)
    .ok { s with g := writeS t (w.d.toNat % 64) (f t (uniA w s t)) s.g }

def execSadd (w : AWord) (s : State) : Out := uni2 w s fun t => addV (tyBits t)
def execSsub (w : AWord) (s : State) : Out := uni2 w s fun t => subV (tyBits t)
def execSmul (w : AWord) (s : State) : Out := uni2 w s fun t => mulLoV (tyBits t)
def execSmulh (w : AWord) (s : State) : Out := uni2 w s fun t => mulHiV (tySigned t) (tyBits t)
def execSand (w : AWord) (s : State) : Out := uni2 w s fun _ a b => a &&& b
def execSor (w : AWord) (s : State) : Out := uni2 w s fun _ a b => a ||| b
def execSxor (w : AWord) (s : State) : Out := uni2 w s fun _ a b => a ^^^ b
def execSshl (w : AWord) (s : State) : Out := uniShift w s fun t => shlV (tyBits t)
def execSshr (w : AWord) (s : State) : Out := uniShift w s fun t => shrV (tyBits t)
def execSsar (w : AWord) (s : State) : Out := uniShift w s fun t => sarV (tyBits t)
def execSmin (w : AWord) (s : State) : Out := uni2 w s fun t => minV (tySigned t) (tyBits t)
def execSmax (w : AWord) (s : State) : Out := uni2 w s fun t => maxV (tySigned t) (tyBits t)
def execSmov (w : AWord) (s : State) : Out := uni1 w s fun _ a => a
def execSbfx (w : AWord) (s : State) : Out := uniShift w s fun t => bfxV (tySigned t) (tyBits t)
def execSclz (w : AWord) (s : State) : Out := uni1 w s fun t => clzV (tyBits t)
def execSpop (w : AWord) (s : State) : Out := uni1 w s fun t => popcV (tyBits t)

/-- `scmp`: every bit of a k register (R120, R121). -/
def execScmp (w : AWord) (s : State) : Out :=
  word (aLen w) w.nxt s do
    let t ← uniCheck w s
    let k := w.d.toNat % 8
    need bad (k != 0)
    match condOf (tySigned t) (tyBits t) (w.d.toNat / 8) (uniA w s t) (uniB w s t) with
    | none => .error bad
    | some c => .ok { s with g := kSet s.g k (fill 32 c) }

/-- `sld`: two raw 32-bit fields (R120); it takes no type. -/
def execSld (w : AWord) (s : State) : Out :=
  word (aLen w) w.nxt s do
    need bad (modOk {} w.pre)
    need bad (okA s.g.regs false false w.a.toNat && okB s.g.regs false false w.b.toNat && !w.d.getLsbD 6)
    let lo : Word := (readA s (.int 32) w.la 0 w.a.toNat).truncate 32
    let hi : Word := (readB s (.int 32) w.lb 0 w.b.toNat).truncate 32
    .ok { s with g := sSet s.g (w.d.toNat % 64) (hi ++ lo) }

end Sys2Proof.Machine
end

