-- ==== Sys2Proof/Machine/Control.lean ====
section
/-! DEFINITION. The thread-control instructions (R122–R125). They act on the issue set, whatever the KP mask holds, and
accept no MOD prefix. -/

namespace Sys2Proof.Machine

/-- `meet` (R122, R123). -/
def execMeet (w : AWord) (s : State) : Out :=
  word (aLen w) w.nxt s do
    let c := w.a.toNat
    need bad (w.pre.isNone && w.b == 112)
    need bad (c == 240 || (128 ≤ c && c < 192) || c == 192)
    need bad (w.d.getLsbD 6 || w.d == 0)
    let a : DWord := if c = 240 then s.g.cl.addr + ((w.la.getD 0).signExtend 64 <<< 2)
      else if c = 192 then 0 else sGet s.g (c - 128)
    need bad (clauseAddr a)
    need bad (c != 240 || (let o := (w.la.getD 0).toInt; decide (-8192 ≤ o) && decide (o ≤ 8191)))
    let g := s.g
    let old := get0 g.meet (lowLane g.cl.set)
    let g := { g with meet := laneSet g.meet g.cl.set a }
    .ok { s with g := if w.d.getLsbD 6 then sSet g (w.d.toNat % 64) old else g }

/-- `setlc` (R122). -/
def execSetlc (w : AWord) (s : State) : Out :=
  word (aLen w) w.nxt s do
    need bad (w.pre.isNone && w.b == 112 && w.d == 0 && okA s.g.regs false false w.a.toNat)
    .ok { s with g := { s.g with lc := (readA s (.int 32) w.la 0 w.a.toNat).truncate 32 } }

/-- The operand codes of a form without operands (R118, R122). -/
def noOperands (w : AWord) : Bool := w.pre.isNone && w.d == 0 && w.a == 192 && w.b == 112

/-- `nop` (R122). -/
def execNop (w : AWord) (s : State) : Out :=
  word (aLen w) w.nxt s do
    need bad (noOperands w)
    .ok s

/-- `yield`: a long-latency event (R51, R122). -/
def execYield (w : AWord) (s : State) : Out :=
  word (aLen w) w.nxt s do
    need bad (noOperands w)
    .ok (longLatency s)

/-- `exit`: the threads of the issue set are no longer live (R122); in a handler, every thread of the set (R303). -/
def execExit (w : AWord) (s : State) : Out :=
  word (aLen w) w.nxt s do
    need bad (noOperands w && w.nxt == 0)
    .ok (endThreads s.g.cl.set { s with g := { s.g with cl := { s.g.cl with set := 0 } } })

/-- `compact`: the threads of the issue set arrive with their targets (R54, R122, R123). -/
def execCompact (w : AWord) (s : State) : Out :=
  word (aLen w) w.nxt s do
    need bad (w.pre.isNone && w.b == 112 && w.d == 0 && w.nxt == 0)
    need bad (decide (w.a.toNat < 128) && vregOk s.g.regs true w.a.toNat)
    need bad (!s.g.prio)
    let set := s.g.cl.set
    let wrong := maskOf fun l => set.getLsbD l && (pairGet s.g w.a.toNat l).toNat % 4 != 0
    need (targetCause s wrong (pairGet s.g w.a.toNat (lowLane wrong)) 7) (wrong == 0)
    let t := myTeam s
    let arr := (lanesOf set).map fun l => (⟨s.g.gid, l, pairGet s.g w.a.toNat l⟩ : CompactArr)
    let s := setTeam s { t with arrivals := t.arrivals ++ arr }
    .ok (due .compactRepack t.uid { s with g := { s.g with cl := { s.g.cl with set := 0 }, waitFrom := s.clk } })

/-- `sleep.until`: nothing issues until CLK has reached the value (R122). -/
def execSleepUntil (w : AWord) (s : State) : Out :=
  waitWord (aLen w) w.nxt s do
    need bad (w.pre.isNone && w.b == 112 && w.d == 0)
    need bad (decide (128 ≤ w.a.toNat) && decide (w.a.toNat < 192))
    let t := sGet s.g (w.a.toNat - 128)
    if s.clk ≥ t.toNat then .ok (s, .none)
    else .ok (due .sleepWake s.g.gid (longLatency s), .sleepUntil t)

/-- Whether a receipt's promised cycle has come (R125). -/
def promiseCome (s : State) (receipt : DWord) : Bool :=
  decide (((s.clk : Int) - (receipt.toNat / 65536 : Nat)) % (2 ^ 48 : Nat) < (2 ^ 47 : Nat))

/-- Whether the ticket of a receipt is complete for a team (R166). -/
def ticketDone (t : Team) (receipt : DWord) : Bool := !t.outst.contains (receipt.toNat % 65536)

/-- The moving gang observes the completion of a ticket: its gts joins the relay's completion time (R168, R187). -/
def observe (ticket : Nat) (s : State) : State :=
  { s with g := joinTime (get0 (myTeam s).times ticket).toNat s.g }

/-- PROMISE_MISSED of a gang's `sleep.r` on a receipt (R125, R301). -/
def promiseMissed (g : Gang) (receipt : DWord) : Raised := one .promiseMissed 0 (1#32 <<< lowLane (active g)) 7 receipt.toNat

/-- `sleep.r` (R122, R125): a receipt whose promise lies in the past wakes at once and tests its ticket. -/
def execSleepR (w : AWord) (s : State) : Out :=
  let ok := w.pre.isNone && w.b == 112 && w.d == 0 && decide (128 ≤ w.a.toNat) && decide (w.a.toNat < 192)
  let r := sGet s.g (w.a.toNat - 128)
  if ok && promiseCome s r && !ticketDone (myTeam s) r then
    wordThen (aLen w) w.nxt (promiseMissed s.g r) s
  else
    waitWord (aLen w) w.nxt s do
      need bad ok
      if promiseCome s r then .ok (observe (r.toNat % 65536) s, .none)
      else .ok (due .sleepWake s.g.gid (longLatency s), .sleepR r)

/-- `brk`: BREAKPOINT, its stopping point after the word (R122, R124). -/
def execBrk (w : AWord) (s : State) : Out :=
  if noOperands w && w.nxt == 0 then wordThen (aLen w) 0 (plain .breakpoint) s
  else raise (if exitRefused s.g w.nxt then plain .illegalClause else bad) s

/-- `trap #n`: TRAP_INSTR with n in the record (R122–R124). -/
def execTrap (w : AWord) (s : State) : Out :=
  let c := w.a.toNat
  let n := if c = 240 then (w.la.getD 0).toNat else c - 192
  let ok := w.pre.isNone && w.b == 112 && w.d == 0 && w.nxt == 0 &&
    ((decide (192 ≤ c) && decide (c < 208)) || (c == 240 && decide (n ≤ 255)))
  if ok then wordThen (aLen w) 0 { cause := .trapInstr, trapn := BitVec.ofNat 8 n } s
  else raise (if exitRefused s.g w.nxt then plain .illegalClause else bad) s

end Sys2Proof.Machine
end

