-- ==== Sys2Proof/Machine/Home.lean ====
section
/-! DEFINITION. Home slices: where a line is homed (R292), lines entering and leaving a slice and their codes (R257–R262),
logical times (R180–R182), writes and the monitors they wake (R218), and the charging of error events (R260–R265). -/

namespace Sys2Proof.Machine

/-! ## Where a line is homed (R292, R293) -/

def hmrKey : Nat := 0x03C

/-- The domain that homes the lines of pages naming domain n: n, or the target of an alias. -/
def homeDom (s : State) (n : Nat) : Nat :=
  let v := (regGet s idmKey n).toNat
  if v / 2 ^ 62 % 2 = 1 then field v 61 56 else n

/-- The home slice of a line (a physical address over 128) of domain n (R292). -/
def homeOf (s : State) (dom line : Nat) : Nat :=
  let d := homeDom s dom
  let v := (regGet s idmKey d).toNat
  let b := line % 2 ^ 23
  field v 8 0 + ((List.range (field v 51 48)).map fun k =>
    if popc (BitVec.ofNat 23 (b &&& (regGet s hmrKey (16 * d + k)).toNat)) % 2 = 1 then 2 ^ k else 0).sum

/-- Whether a reshape that runs changes the home of a line (R294). -/
def homeMoves (s : State) (dom line : Nat) : Bool :=
  (regGet s 0x03A 0).getLsbD 30 && homeOf { s with sysregs := s.mapBefore } dom line != homeOf s dom line

/-! ## The SC (R18) -/

def inSc (s : State) (line : Nat) : Bool := (scOf s line).isSome

/-- The 16-byte halves, and the 32-byte sectors, that bytes lo to hi − 1 of a line touch. -/
def halvesOf (lo hi : Nat) : BitVec 8 :=
  (List.range 8).foldl (fun m i => if lo < 16 * i + 16 ∧ 16 * i < hi then m ||| (1#8 <<< i) else m) 0
def sectorsOf (lo hi : Nat) : BitVec 4 :=
  (List.range 4).foldl (fun m i => if lo < 32 * i + 32 ∧ 32 * i < hi then m ||| (1#4 <<< i) else m) 0

/-- Whether a slice holds the block that a request asks for: lines of CHECKED and SEALED pages are held whole (R29). -/
def holds (s : State) (r : LineReq) : Bool :=
  match scOf s r.line with
  | some x => halvesOf r.lo r.hi &&& ~~~x.valid == 0
  | none => false

/-- The slice that serves a line: its home, or while a reshape runs (R294) the slice that holds it. -/
def sliceOf (s : State) (dom line : Nat) : Nat :=
  if (regGet s 0x03A 0).getLsbD 30 then ((scOf s line).map (·.slice)).getD (homeOf s dom line) else homeOf s dom line

/-- A line's times: those it carries in a slice; a line not held starts with its slice's memory time (R180). -/
def wtsOf (s : State) (dom line : Nat) : Nat :=
  if inSc s line then (get0 s.wts line).toNat else (get0 s.mt (homeOf s dom line)).toNat
def rtsOf (s : State) (dom line : Nat) : Nat :=
  if inSc s line then (get0 s.rts line).toNat else (get0 s.mt (homeOf s dom line)).toNat

def putTimes (line w r : Nat) (s : State) : State :=
  { s with wts := set0 s.wts line (BitVec.ofNat 64 w), rts := set0 s.rts line (BitVec.ofNat 64 r) }

/-! ## Stored copies entering a slice (R257, R259, R296) -/

/-- The mark of a context's key, as a line of a device-managed page carries it from its write on (R296, R323); 0 where the device has not written the
line, and all ones where the host has written over it as it stood. -/
def keyMark (s : State) (ctx : Nat) : DWord := BitVec.ofNat 64 (64 * ((ctxOf s ctx).keyGen + 1) + ctx % 64)

def clearFlips (line : Nat) (s : State) : State := { s with flips := tfilter (fun k => k / 256 != line) s.flips }

def putLine (line : Nat) (bs : List Byte) (s : State) : State := { s with mem := writeBytes s.mem (128 * line) bs }

/-- Halves of a line enter a slice as they are read, errors and all (R259, R296). -/
def takeHalves (line : Nat) (m : BitVec 8) (s : State) : State :=
  let mine := fun (k : Nat) => k / 256 == line && decide (k % 256 < 128) && m.getLsbD (k % 256 / 16)
  let hit := (List.range 8).filter fun h => (tfilter mine s.flips).any fun e => e.1 % 256 / 16 == h
  { s with mem := hit.foldl (fun t h => writeBytes t (128 * line + 16 * h) ((List.range 16).map fun i => storedByte s line (flipsOf s line) (16 * h + i))) s.mem
           flips := tfilter (fun k => !mine k) s.flips }

/-- A line of a device-managed page read under its context's key: free bytes where another wrote it (R296, R323). -/
def rekey (ctx line : Nat) (s : State) : State :=
  let now := keyMark s ctx
  let old := get0 s.lineKey line
  let bs := readBytes s.mem (128 * line) 128
  if old = 0 ∨ old = now then s
  else putLine line ((List.range 128).map (Config.recrypt old.toNat now.toNat line bs)) { s with lineKey := set0 s.lineKey line now }

/-- The bytes of a line as they stand outside the device: a line that carries a key is encrypted under it, and its errors are the ciphertext's (R296). -/
def outsideBytes (s : State) (line : Nat) : List Byte :=
  let k := get0 s.lineKey line
  if k = 0 ∨ k = rawMark then asRead s line
  else (List.range 128).map fun i => Config.cipher k.toNat line (readBytes s.mem (128 * line) 128) i ^^^ flipsOf s line i

/-- A line as it stands outside the device from now on, with no code that the device would take for good (R296). -/
def rawLine (line : Nat) (s : State) : State :=
  if get0 s.lineKey line = 0 then s
  else { clearFlips line (putLine line (outsideBytes s line) s) with lineKey := set0 s.lineKey line rawMark, lineCode := set0 s.lineCode line 0 }

/-! ## Room in a slice (R18, R20, R227) -/

/-- Ways of a slice for its own lines: RWR reserves the others for lines of other dies (R18, R20). -/
def remoteWays (s : State) (slice : Nat) : Nat := regField s 0x021 slice 3 0
def localWays (s : State) (slice : Nat) : Nat := 16 - remoteWays s slice

/-- Whether two lines of a slice fall into one set (R18). -/
def sameSet (a b : Nat) : Bool := a == b || Config.scSet a % 1024 == Config.scSet b % 1024

/-- Whether a pinned window on die d covers a virtual line (R227). -/
def Pin.covers (p : Pin) (d line : Nat) : Bool := p.die == d && decide (p.lo ≤ line) && decide (line < p.hi)

/-- Whether a pinned window of a context covers a line on a die (R227). -/
def windowHas (s : State) (ctx die va : Nat) : Bool := (ctxOf s ctx).pins.any fun p => p.covers die va

/-- Whether a pinned window holds a line in its slice: it is never evicted (R227). -/
def pinned (s : State) (x : ScLine) : Bool := x.held && windowHas s x.ctx (x.slice / 64) x.va

/-- Lines that no window covers any more are no longer held (R227): a window that comes later finds them as it finds any line. -/
def releaseHeld (s : State) : State :=
  { s with sc := s.sc.map fun x => if x.held then { x with held := windowHas s x.ctx (x.slice / 64) x.va } else x }

/-- Whether a line of a slice may be held: fewer than 8 lines of its set are (R227). -/
def mayHold (s : State) (slice line : Nat) : Bool :=
  let xs := s.sc.filter fun x => x.slice == slice && x.line != line && pinned s x
  decide (xs.length < 8) || decide (xs.countP (fun x => sameSet x.line line) < 8)

/-- Whether a write-back of a line writes a byte of its stored copy, by the byte's place in the error pattern: all of them where the class has a code, the
dirty sectors of an OPEN line (R18, R258). -/
def freshKey (x : ScLine) (k : Nat) : Bool :=
  k / 256 == x.line && (x.cls != 2 || (decide (k % 256 < 128) && x.dirty.getLsbD (k % 256 / 32) && x.valid.getLsbD (k % 256 / 16)))

/-- A line leaves its slice: the code of a dirty one is written afresh over its stored copy, of which an OPEN one rewrites the sectors it has
changed (R18, R258). MT remembers the lease of an ORDERED line (R180), its new home's too while a reshape has yet to hand the line over (R294). -/
def leaveSlice (line : Nat) (s : State) : State :=
  match scOf s line with
  | none => s
  | some x =>
    let r := (get0 s.rts line).toNat
    let keepMt := fun (t : Table 64) h => set0 t h (BitVec.ofNat 64 (max (get0 t h).toNat r))
    let s := if x.dirty = 0 then s
      else
        { s with
          flips := tfilter (fun k => !freshKey x k) s.flips
          lineCode := set0 s.lineCode line (BitVec.ofNat 8 (codeOf x.cls))
          lineKey := if x.dm then set0 s.lineKey line (keyMark s x.ctx) else s.lineKey }
    { s with sc := s.sc.filter (·.line != line), mt := if x.bulk then s.mt else keepMt (keepMt s.mt x.slice) (homeOf s x.dom line)
             wts := set0 s.wts line 0, rts := set0 s.rts line 0 }

/-- Where a line enters a slice whose set is full, a line that no window holds leaves it. DEDUCED (log entry 43): where windows hold them all, it
enters beside them. -/
def makeRoom (slice line : Nat) (s : State) : State :=
  let xs := s.sc.filter (·.slice == slice)
  if xs.length < localWays s slice then s
  else
    let set := xs.filter fun x => sameSet x.line line
    let may := set.filter fun x => !pinned s x
    if set.length < localWays s slice then s
    else match may[Config.victimPick s.fresh line % may.length]? with
      | some x => leaveSlice x.line { s with fresh := s.fresh + 1 }
      | none => s

/-- The line is held in its home slice from now on: halves and dirty sectors. -/
def holdLine (r : LineReq) (ctx : Nat) (valid : BitVec 8) (dirty : BitVec 4) (s : State) : State :=
  let h := homeOf s r.dom r.line
  let s := makeRoom h r.line s
  let m := (get0 s.mt h).toNat
  let free := (List.range (localWays s h)).filter fun w => !(s.sc.any fun x => x.slice == h && x.way == w && sameSet x.line r.line)
  let x : ScLine := { line := r.line, slice := h, way := free.getD (Config.wayPick s.fresh r.line % free.length) 0, valid := valid, dirty := dirty
                      held := windowHas s ctx (h / 64) r.va && mayHold s h r.line, bulk := r.bulk, cls := r.cls, dm := r.dm, dom := r.dom, ctx := ctx, va := r.va }
  putTimes r.line m m { s with sc := x :: s.sc, fresh := s.fresh + 1 }

/-! ## Lines entering a slice (R29, R258, R259) -/

/-- A block of a line enters its home slice, with its whole line where the class has a code, which is then checked; the event, if one arises. -/
def enterLine (r : LineReq) (ctx : Nat) (s : State) : State × Option Event :=
  if holds s r then (s, none)
  else match scOf s r.line with
  | some x =>
    let new := halvesOf r.lo r.hi &&& ~~~x.valid
    ({ takeHalves r.line new s with sc := modFirst (·.line == r.line) (fun x => { x with valid := x.valid ||| new }) s.sc }, none)
  | none =>
    let found := checkLine s r.cls r.line r.dm
    let s := if r.dm then rekey ctx r.line s else s
    let ev : Event := { line := r.line, va := r.va, cls := r.cls, bad := false }
    match found with
    | 0 =>
      let m := if r.cls = 2 then halvesOf r.lo r.hi else 0xFF
      (holdLine r ctx m 0 (takeHalves r.line m (if r.cls = 2 then s else { s with flips := tfilter (fun k => !(k / 256 == r.line && decide (128 ≤ k % 256))) s.flips })), none)
    | 1 => (holdLine r ctx 0xFF 0xF (clearFlips r.line s), some ev)
    | 2 => (s, some { ev with bad := true })
    | _ => (holdLine r ctx 0xFF 0xF (clearFlips r.line (putLine r.line (miscorrected s r.line) s)), some ev)

/-- The line is in its slice, as what is written to its halves m needs (R18, R29): of an OPEN line those halves alone; a line of a class with a code as
read is combined and takes a new code (R259). -/
def dirtyLine (r : LineReq) (ctx : Nat) (m : BitVec 8) (s : State) : State :=
  match scOf s r.line with
  | some x =>
    { takeHalves r.line (m &&& ~~~x.valid) s with
      sc := modFirst (·.line == r.line) (fun x => { x with valid := x.valid ||| m, bulk := r.bulk, cls := r.cls, dm := r.dm, dom := r.dom, ctx := ctx, va := r.va }) s.sc }
  | none =>
    let s := if r.dm then rekey ctx r.line s else s
    if r.cls = 2 then holdLine r ctx m 0 (takeHalves r.line m s) else holdLine r ctx 0xFF 0xF (clearFlips r.line (takeHalves r.line 0xFF s))

/-! ## Monitors (R217, R218) -/

/-- The comparison of `weir`. -/
def weirTrue (cond : Nat) (uns : Bool) (w : Nat) (v c : Nat) : Bool :=
  let v := v % 2 ^ w
  let c := c % 2 ^ w
  match cond with
  | 0 => v == c
  | 1 => v != c
  | 2 => decide (intOf (!uns) w v < intOf (!uns) w c)
  | 3 => decide (intOf (!uns) w v ≥ intOf (!uns) w c)
  | _ => (v &&& c) != 0

/-- What a gang waits for in `weir`, if it does. -/
def weirHolds (s : State) (g pa : Nat) : Option (Bool × Bool) :=
  match (gangOf s g).map (fun (x : Gang) => x.wait) with
  | some (Wait.weir p w cond uns cmp bulk _ _) =>
    if p = pa then some (weirTrue cond uns (8 * w) (leNat (homeBytes s pa w)) cmp.toNat, bulk) else none
  | _ => none

/-- After a write performed at time t to n bytes at pa: every monitor of a word it touched compares; a true one is
released and its gang woken. The wake of a BULK word carries no time. -/
def notify (pa n t : Nat) (s : State) : State :=
  s.monitors.foldl (fun s m =>
    if m.pa < pa + n ∧ pa < m.pa + m.w then
      match weirHolds s m.gang m.pa with
      | some (true, bulk) => wakeGang m.gang (if bulk then 0 else t) { s with monitors := s.monitors.filter (· != m) }
      | _ => s
    else s) s

/-! ## Performing at the home (R181, R182) -/

/-- An access counts toward its page's accesses (R289), and reloads a pinned window whose held line serves it (R228). -/
def countAccess (r : LineReq) (ctx : Nat) (s : State) : State :=
  let f := r.line / 512
  let hit := ((scOf s r.line).map fun x => (x.slice / 64, x.held)).getD (0, false)
  { s with counts := set0 s.counts f (get0 s.counts f + 1)
           ctxs := s.ctxs.map fun c => if c.id = ctx && hit.2 then { c with pins := c.pins.map fun p => if p.covers hit.1 r.va then { p with hit := true } else p } else c }

/-- A grant to a load: with clock g and lease length L, the line's lease grows (R181). The line's times. -/
def grantLoad (r : LineReq) (g lease : Nat) (s : State) : State × Nat × Nat :=
  let w := wtsOf s r.dom r.line
  let e := max (rtsOf s r.dom r.line) (max (w + lease) (g + lease))
  (if inSc s r.line then putTimes r.line w e s else s, w, e)

/-- The time a store or atomic of clock g takes, and the line's times after it (R182). -/
def takeTime (r : LineReq) (ctx g : Nat) (s : State) : State × Nat :=
  let s := dirtyLine r ctx (halvesOf r.lo r.hi) s
  let t := max g (rtsOf s r.dom r.line + 1)
  (putTimes r.line t t s, t)

/-- Bytes lo to hi − 1 of a line have been changed in its slice. -/
def markDirty (line lo hi : Nat) (s : State) : State :=
  { s with sc := modFirst (·.line == line) (fun x => { x with dirty := x.dirty ||| sectorsOf lo hi }) s.sc }

/-- Bytes written at the home with bit masks, and the monitors told. -/
def pokeBytes (pa : Nat) (bs : List Byte) (mask : Byte) (t : Nat) (s : State) : State :=
  let new := bs.mapIdx fun i b => mergeByte (get0 s.mem (pa + i)) b mask
  notify pa bs.length t (markDirty (pa / 128) (pa % 128) (pa % 128 + bs.length) { s with mem := writeBytes s.mem pa new })

/-- The request for a line, of the bytes that a write of n bytes at pa touches. -/
def LineReq.span (r : LineReq) (pa n : Nat) : LineReq := { r with lo := pa % 128, hi := pa % 128 + n }

/-- An ORDERED write of an agent with clock g at a line's home; its time. -/
def writeHome (r : LineReq) (ctx g pa : Nat) (bs : List Byte) (mask : Byte) (s : State) : State × Nat :=
  let (s, t) := takeTime (r.span pa bs.length) ctx g s
  (pokeBytes pa bs mask t s, t)

/-- A write without a time at a line's home: BULK stores that go home (R190). -/
def writeBulk (r : LineReq) (ctx pa : Nat) (bs : List Byte) (mask : Byte) (s : State) : State :=
  pokeBytes pa bs mask 0 (dirtyLine r ctx (halvesOf (pa % 128) (pa % 128 + bs.length)) s)

/-- A write-back at a line's home, in one action: the dirty bits alone are replaced, and the monitors compare what then stands (R190, R218). -/
def writeDirty (r : LineReq) (ctx : Nat) (bytes dirty : Table 8) (s : State) : State :=
  let s := dirtyLine r ctx (dirty.foldl (fun m e => m ||| halvesOf e.1 (e.1 + 1)) 0) s
  let a := 128 * r.line
  notify a 128 0 (dirty.foldl (fun s e => markDirty r.line e.1 (e.1 + 1) s)
    { s with mem := dirty.foldl (fun m e => set0 m (a + e.1) (mergeByte (get0 m (a + e.1)) (get0 bytes e.1) e.2)) s.mem })

/-! ## Charging error events (R260–R265) -/

/-- The kind of an event's log record: an uncorrectable line, or a double-bit error on chip (R378). -/
def eventKind (e : Event) : Nat := if e.sram then 2 else 3

/-- Where it is logged: the address of a line, or the core or slice of on-chip SRAM (R378). -/
def eventAt (e : Event) : Nat := if e.sram then e.place else 128 * e.line

/-- An event decrements its context's budget; whether it found the budget at its end (R264). -/
def spendBudget (ctx : Nat) (s : State) : State × Bool × Nat :=
  let c := ctxOf s ctx
  let rem := c.errb.toNat - 1
  (setCtx s { c with errb := BitVec.ofNat 32 rem }, decide (rem = 0), rem)

/-- A record among those of its cc, whose locations rise (R378). -/
def insertLog (r : LogRec) : List LogRec → List LogRec
  | [] => [r]
  | x :: xs => if x.clk = r.clk ∧ r.loc < x.loc then r :: x :: xs else x :: insertLog r xs

/-- An event is logged (R378). -/
def logEvent (kind loc data : Nat) (s : State) : State :=
  let h := s.hg
  let log := insertLog ⟨s.clk, kind, BitVec.ofNat 64 loc, BitVec.ofNat 64 data⟩ h.log
  { s with hg := if log.length > 32768 then { h with log := log.drop 1, logFirst := h.logFirst + 1, lost := h.lost + 1 } else { h with log := log } }

/-- Events with no gang only decrement (R264); uncorrectable ones are logged (R378). -/
def chargeCtx (ctx : Nat) (ev : Option Event) (s : State) : State :=
  match ev with
  | none => s
  | some e => let s := (spendBudget ctx s).1
    if e.bad then logEvent (eventKind e) (eventAt e) e.cls s else s

/-- The events of one operation charged to its gang in ascending order of lanes: DATA_ERROR first, then ERROR_BUDGET (R261, R262, R264). `lane` gives
the lowest lane that touched a line; the events of a `pref` raise no DATA_ERROR (R260). -/
def chargeGang (g ctx : Nat) (cpc : DWord) (cwi acc : Nat) (lane : Nat → Nat) (evs : List Event) (s : State) (pref : Bool := false) : State :=
  let strict := (taskOf s (gangTeam s g).task).strict
  let evs := (List.range 33).flatMap fun l => evs.filter fun e => min 32 (lane e.line) == l
  let (s, ends) := evs.foldl (fun (a : State × List (Nat × TrapRec)) e =>
    let (t, out, rem) := spendBudget ctx (if e.bad then logEvent (eventKind e) (eventAt e) e.cls a.1 else a.1)
    (t, if out then a.2 ++ [(lane e.line, mkRec .errorBudget (128 * e.va) (lane e.line) (if e.store then 1 else acc) e.cls rem 0)] else a.2)) (s, [])
  let bad := evs.filter fun e => e.bad && !pref && (strict || e.sram)
  let lanes := fun (es : List Event) => maskOf fun l => es.any fun e => lane e.line == l
  let s := if bad.isEmpty then s else pendCause g
    { cause := .dataError, cpc := cpc, cwi := cwi, lanes := lanes bad, lost := bad.length - 32
      recs := bad.map fun e => mkRec .dataError (128 * e.va) (lane e.line) (if e.store then 1 else acc) e.cls 0 0 e.sram } s
  match ends with
  | [] => s
  | (l, r) :: _ => pendCause g { cause := .errorBudget, cpc := cpc, cwi := cwi, lanes := maskOf (· == l), recs := [r] } s

end Sys2Proof.Machine
end

