-- ==== Sys2Proof/Machine/Layout.lean ====
section
/-! DEFINITION. Layout slots (R147–R154): matrices over GF(2) as lists of columns, places, footprints, descriptors, the plan of
a move (R156, R157), and the footprints that relays lock (R159, R160). -/

namespace Sys2Proof.Machine

/-! ## Matrices over GF(2): a column is a number whose bit i is row i -/

/-- M · x: the exclusive-or of the columns that x selects (R150). -/
def mulVec (cols : List Nat) (x : Nat) : Nat :=
  (cols.zipIdx.foldl (fun acc c => if x.testBit c.2 then acc ^^^ c.1 else acc) 0)

def matMul (a b : List Nat) : List Nat := b.map (mulVec a)

def identity (n : Nat) : List Nat := (List.range n).map fun j => 2 ^ j

/-- One step of elimination on bit i: reduced columns, and those left; each column carries what combination it is. -/
def elimStep (p : List (Nat × Nat) × List (Nat × Nat)) (i : Nat) : List (Nat × Nat) × List (Nat × Nat) :=
  match p.2.find? (fun q => q.1.testBit i) with
  | none => p
  | some q =>
    let clear := fun (x : Nat × Nat) => if x.1.testBit i then (x.1 ^^^ q.1, x.2 ^^^ q.2) else x
    (p.1.map clear ++ [q], (p.2.erase q).map clear)

def eliminate (n : Nat) (cols : List Nat) : List (Nat × Nat) :=
  ((List.range n).foldl elimStep ([], cols.zipIdx.map fun c => (c.1, 2 ^ c.2))).1

/-- The rank of columns of n bits. -/
def rankOf (n : Nat) (cols : List Nat) : Nat := (eliminate n cols).length

/-- The inverse of an invertible n × n matrix. -/
def inverse (n : Nat) (cols : List Nat) : List Nat := (eliminate n cols).map (·.2)

/-! ## Slots (R147, R148) -/

def slotOf (s : State) (ctx n : Nat) : Option Slot := ((ctxOf s ctx).slots.find? (·.1 == n)).map (·.2)

/-- Puts or clears a slot. -/
def setSlot (ctx n : Nat) (x : Option Slot) (s : State) : State :=
  let c := ctxOf s ctx
  let rest := c.slots.filter (·.1 != n)
  setCtx s { c with slots := match x with | none => rest | some y => (n, y) :: rest }

def Slot.eltBits (x : Slot) : Nat := 4 * 2 ^ x.eszc
def Slot.dims (x : Slot) : List Nat := x.ext.map ceilLog2
def Slot.n (x : Slot) : Nat := x.dims.sum
def Slot.w (x : Slot) : Nat := 6 - x.eszc
def Slot.foot (x : Slot) : Nat := max 32 (2 ^ x.n * x.eltBits / 8)
def Slot.base (x : Slot) : DWord := if x.phase then x.base1 else x.base0
def Slot.other (x : Slot) : DWord := if x.phase then x.base0 else x.base1

/-- The natural ESZC of a format (R148). -/
def natEszc (fmt : Nat) : Nat := match tyOfCode fmt with | some t => Nat.log2 (tyBits t / 4) | none => 0

/-- Index bits from indices (R150), and back. -/
def indexBits : List Nat → List Nat → Nat
  | b :: bs, i :: is => i % 2 ^ b + 2 ^ b * indexBits bs is
  | _, _ => 0

def indicesOf : List Nat → Nat → List Nat
  | [], _ => []
  | b :: bs, x => x % 2 ^ b :: indicesOf bs (x / 2 ^ b)

/-- Whether every index lies inside its extent (R151). -/
def inside (ext idx : List Nat) : Bool := (ext.zip idx).all fun p => decide (p.2 < p.1)

def Slot.place (x : Slot) (idx : List Nat) : Nat := mulVec x.cols (indexBits x.dims idx)

/-- Registers a REG footprint occupies (R153). -/
def Slot.regCount (x : Slot) : Nat :=
  if x.eszc = 4 then 2 * ceilDiv (2 ^ x.n) 32 else ceilDiv (2 ^ x.n) (32 * (32 / x.eltBits))

/-- Whether a REG footprint lies below a gang's regs (R153). -/
def Slot.regFits (x : Slot) (regs : Nat) : Bool :=
  decide (x.base0.toNat + x.regCount ≤ regs) && (!x.pp || decide (x.base1.toNat + x.regCount ≤ regs))

/-- Whether an SCR footprint lies within an allocation (R152). -/
def Slot.scrFits (x : Slot) (alloc : Nat) : Bool :=
  decide (x.base0.toNat + x.foot ≤ alloc) && (!x.pp || decide (x.base1.toNat + x.foot ≤ alloc))

def disjoint (a n b m : Nat) : Bool := decide (a + n ≤ b) || decide (b + m ≤ a)

/-- The residency rules of R152 and R153. -/
def Slot.resOk (x : Slot) (regs alloc : Nat) : Bool :=
  let both := fun (p : DWord → Bool) => p x.base0 && (!x.pp || p x.base1)
  match x.res with
  | 0 => both (fun b => canonical b && b.toNat % x.foot == 0) && (!x.pp || x.base0 != x.base1)
  | 1 => both (fun b => b.toNat % 32 == 0 && decide (b.toNat < 2 ^ 32)) && x.scrFits alloc
      && (!x.pp || disjoint x.base0.toNat x.foot x.base1.toNat x.foot)
  | 2 => decide (x.eszc ≤ 4) && both (fun b => decide (b.toNat < 128) && (x.eszc != 4 || b.toNat % 2 == 0)) && x.regFits regs
      && (!x.pp || disjoint x.base0.toNat x.regCount x.base1.toNat x.regCount)
  | _ => decide (x.base0.toNat < 256) && !x.pp

/-! ## Descriptors (R147, R149) -/

/-- The fields of the first 64 bytes of a descriptor, without columns. -/
def descHead (bs : List Byte) : Slot :=
  let at' := fun (o z : Nat) => leNat ((bs.drop o).take z)
  let ctl := at' 0 8
  { fmt := ctl % 32, eszc := ctl / 32 % 8, rank := ctl / 256 % 8, res := ctl / 2048 % 4, phase := ctl / 8192 % 2 = 1,
    pp := ctl / 32768 % 2 = 1, ext := ((List.range 6).map fun k => at' (8 + 4 * k) 4).take (ctl / 256 % 8),
    base0 := BitVec.ofNat 64 (at' 0x20 8), base1 := BitVec.ofNat 64 (at' 0x28 8), cols := [] }

/-- Rules 1 and 2 of R149, on the first 64 bytes; the columns may be read when they hold. -/
def headOk (bs : List Byte) : Bool :=
  let at' := fun (o z : Nat) => leNat ((bs.drop o).take z)
  let x := descHead bs
  at' 0 8 / 2 ^ 16 == 0 && decide (x.fmt ≤ 22) && decide (x.eszc ≤ 5) && (x.fmt == 0 || x.eszc == natEszc x.fmt)
  && decide (1 ≤ x.rank) && decide (x.rank ≤ 6) && at' 0x30 8 == 0 && at' 0x38 8 == 0
  && x.ext.all (fun e => decide (1 ≤ e) && decide (e ≤ 2 ^ 24))
  && ((List.range 6).all fun k => decide (k < x.rank) || at' (8 + 4 * k) 4 == 0) && decide (x.n ≤ 40)

/-- Bytes of a descriptor that are read (R147). -/
def descLen (bs : List Byte) : Nat := if headOk bs then 64 + 8 * (descHead bs).n else 64

/-- The slot a descriptor describes, columns included. -/
def descSlot (bs : List Byte) : Slot :=
  let x := descHead bs
  { x with cols := (List.range x.n).map fun j => leNat ((bs.drop (64 + 8 * j)).take 8) }

/-- A valid descriptor (R149). -/
def descOk (bs : List Byte) (regs alloc : Nat) : Bool :=
  let x := descSlot bs
  headOk bs && x.cols.all (fun c => decide (c < 2 ^ x.n)) && (x.pp || (!x.phase && x.base1 == 0)) && x.resOk regs alloc

/-- A slot as a descriptor (R172). -/
def slotBytes (x : Slot) (busy : Bool) : List Byte :=
  leBytes 8 (x.fmt + 32 * x.eszc + 256 * x.rank + 2048 * x.res + (if x.phase then 8192 else 0) + (if busy then 16384 else 0)
      + (if x.pp then 32768 else 0))
    ++ ((List.range 6).flatMap fun k => leBytes 4 (x.ext.getD k 0)) ++ leBytes 8 x.base0.toNat ++ leBytes 8 x.base1.toNat
    ++ List.replicate 16 0 ++ x.cols.flatMap (leBytes 8)

/-! ## The plan of a move (R156, R157) -/

/-- Whether c lies outside the span of cols. -/
def independent (n : Nat) (cols : List Nat) (c : Nat) : Bool := decide (rankOf n (cols ++ [c]) > rankOf n cols)

/-- Columns of D kept, as R157 chooses them. -/
def keptOf (m : Nat) (d : List Nat) : List Nat × List Bool :=
  d.foldl (fun a c => if independent m a.1 c then (a.1 ++ [c], a.2 ++ [true]) else (a.1, a.2 ++ [false])) ([], [])

/-- `choose_q`: the columns of Q (R157). -/
def chooseQ (m : Nat) (c d : List Nat) : List Nat :=
  let k := keptOf m d
  ((d.zip k.2).foldl (fun (a : List Nat × List Nat) x =>
    if x.2 then (a.1, a.2 ++ [0])
    else
      let i := ((List.range c.length).find? fun i => independent m a.1 (c.getD i 0)).getD 0
      (a.1 ++ [x.1 ^^^ c.getD i 0], a.2 ++ [2 ^ i])) (k.1, [])).2

/-- The passes that carry M to M′ (R156). -/
def planMove (n w : Nat) (m m2 : List Nat) : List (List Nat) :=
  let t := matMul m2 (inverse n m)
  if t = identity n then []
  else if n ≤ w then [t]
  else
    let h := n - w
    let low := t.take w
    let high := t.drop w
    let a := low.map (· % 2 ^ w)
    let b := high.map (· % 2 ^ w)
    let c := low.map (· / 2 ^ w)
    let d := high.map (· / 2 ^ w)
    let q := chooseQ h c d
    let b1 := (q.zip b).map fun x => mulVec a x.1 ^^^ x.2
    let d1 := (q.zip d).map fun x => mulVec c x.1 ^^^ x.2
    let x := matMul b1 (inverse h d1)
    let l0 := identity w ++ q.zipIdx.map fun p => p.1 + 2 ^ (w + p.2)
    let g := (c.zipIdx.map fun p => 2 ^ p.2 + p.1 * 2 ^ w) ++ d1.map (· * 2 ^ w)
    let l1 := ((a.zip c).map fun p => p.1 ^^^ mulVec x p.2) ++ x.zipIdx.map fun p => p.1 + 2 ^ (w + p.2)
    [l0, g, l1].filter (· != identity n)

/-! ## Busy slots and locked footprints (R159, R160) -/

def Relay.writesSlot (r : Relay) (ctx n : Nat) : Bool := r.ctx == ctx && r.dst == n
def Relay.readsSlot (r : Relay) (ctx n : Nat) : Bool := r.ctx == ctx && r.kind != .mv && r.src == n
def writeBusy (s : State) (ctx n : Nat) : Bool := s.relays.any (·.writesSlot ctx n)
def readBusy (s : State) (ctx n : Nat) : Bool := s.relays.any (·.readsSlot ctx n)

/-- A footprint of slot n at a base: the slot, its residency, the first byte or register, and their count. -/
structure Span where
  slot : Nat
  res  : Nat
  lo   : Nat
  len  : Nat
  deriving DecidableEq, Repr

def Slot.span (x : Slot) (n : Nat) (b : DWord) : Span := ⟨n, x.res, b.toNat, if x.res = 2 then x.regCount else x.foot⟩

/-- Whether a span touches n units from a. -/
def Span.hits (p : Span) (a n : Nat) : Bool := !disjoint p.lo p.len a n

/-- The footprints a relay locks (R160). -/
def lockedSpans (s : State) (r : Relay) : List Span :=
  let slot := fun n => (slotOf s r.ctx n).toList
  if r.kind = .mv then (slot r.dst).flatMap fun x => [x.span r.dst x.base0, x.span r.dst x.base1]
  else (slot r.src).map (fun x => x.span r.src x.base) ++ (slot r.dst).map fun x => x.span r.dst x.base

/-- The slot whose footprint a relay locks over n bytes at a MEM address of a context, or at a scratch offset of a team (R160, R177). -/
def lockedMem (s : State) (ctx a n : Nat) : Option Nat :=
  (((s.relays.filter (·.ctx == ctx)).flatMap (lockedSpans s)).find? fun p => p.res == 0 && p.hits a n).map (·.slot)
def lockedScr (s : State) (team a n : Nat) : Option Nat :=
  (((s.relays.filter (·.team == team)).flatMap (lockedSpans s)).find? fun p => p.res == 1 && p.hits a n).map (·.slot)

end Sys2Proof.Machine
end

