-- ==== Sys2Proof/Machine/Translate.lean ====
section
/-! DEFINITION. Translation (R279–R283), declared ranges (R285), and the checks of an access in the order of R204. -/

namespace Sys2Proof.Machine

/-- The length of leases of a context (R186). -/
def leaseOf (s : State) (ctx : Nat) : Nat := field (regGet s 0x011 ctx).toNat 10 0

/-- Table lines are homed by domain 0: no leaf names a domain for them. Their class is the one they carry (R257). -/
def tableReq (s : State) (ea : Nat) : LineReq := { line := ea / 128, bulk := false, cls := classAt s (ea / 128), dm := false, dom := 0 }

/-- The walker reads an entry at its home as a load with an expired lease at clock g; an error event is the context's (R181, R260, R283). -/
def walkRead (ctx g ea : Nat) (s : State) : State :=
  let r := tableReq s ea
  let (s, ev) := enterLine r ctx s
  (grantLoad r g (leaseOf s ctx) (chargeCtx ctx ev s)).1

/-- A step that is now due, unless it is due already. -/
def dueOnce (e : Instr) (a b : Nat) (s : State) : State := if s.agenda.contains (e, a, b) then s else due e a s b

/-- A page in storage that something waits for is wanted in a frame (log entry 117). -/
def wantPage (ctx va : Nat) (s : State) : State := dueOnce .pagePromotion ctx (va / 65536 * 65536) s

/-- Pages in storage of some lines are wanted. -/
def wantLines (ctx : Nat) (rs : List LineReq) (s : State) : State := (rs.filter fun r => storedLine r.line).foldl (fun s r => wantPage ctx (128 * r.va) s) s

/-- The walker fills the TLB, whose oldest entries make room (R283). A page in storage is wanted in a frame (log entry 117). -/
def fillPage (core ctx va g : Nat) (s : State) : State :=
  match tlbOf s core ctx va with
  | some _ => s
  | none =>
    let w := walk s ctx va
    let s := w.2.reverse.foldl (fun s ea => walkRead ctx g ea s) s
    match w.1 with
    | .error _ => s
    | .ok (e, size) =>
      let s := if inStorage e then dueOnce .pagePromotion ctx (va / size * size) s else s
      let mine := s.tlb.filter (·.core == core)
      let other := s.tlb.filter (·.core != core)
      { s with tlb := other ++ (⟨core, ctx, va / size * size, size, BitVec.ofNat 64 e⟩ :: mine).take 2048 }

/-! ## Declared ranges (R285) -/

/-- The combined rights R, W, X of the declared ranges that hold an address; none if no range does. -/
def rangeRights (k : Task) (va : Nat) : Option (Bool × Bool × Bool) :=
  let rs := k.ranges.filter fun r => decide (r.base ≤ va) && decide (va < r.base + r.len)
  if rs.isEmpty then none else some (rs.any (·.r), rs.any (·.w), rs.any (·.x))

/-- What an access needs: read, write, execute. -/
structure Need where
  r : Bool := false
  w : Bool := false
  x : Bool := false
  deriving DecidableEq, Repr

/-- The checks of R204 of one address, from the declared range on: the leaf, its size. -/
def checkPage (s : State) (k : Task) (core : Nat) (n : Need) (va : DWord) : Except Cause (Nat × Nat) :=
  if !canonical va then .error .outOfLease
  else match rangeRights k va.toNat with
    | none => .error .outOfLease
    | some (r, w, x) => match leafOf s core k.ctx va.toNat with
      | .error c => .error c
      | .ok (e, size) =>
        if (n.r && !(r && pteR e)) || (n.w && !(w && pteW e)) || (n.x && !(x && pteX e)) then .error .rights
        else if !(ctxOf s k.ctx).key then .error .keyAbsent
        else .ok (e, size)

/-- What a line's page says of it. -/
def reqOf (s : State) (leaf pa va : Nat) : LineReq :=
  { line := pa / 128, va := va / 128, bulk := pteBulk leaf, cls := clsIn s leaf pa, dm := pteDm leaf, dom := pteDom leaf }

/-- The checks of one lane of a memory access of z bytes, locked footprints included for writing forms. -/
def checkLane (s : State) (n : Need) (va : DWord) (z : Nat) : Except Cause (Nat × Nat) :=
  let t := myTeam s
  let k := taskOf s t.task
  if va.toNat % z ≠ 0 then .error .misaligned
  else match checkPage s k t.core n va with
    | .error c => .error c
    | .ok l => if n.w && (lockedMem s k.ctx va.toNat z).isSome then .error .relayWriteLocked else .ok l

/-- The cause of an instruction whose lanes fail: that of the lowest; the failing lanes; a record for each distinct failing
page in order of lowest lane, or one (R204, R300, R301). -/
def laneCause (s : State) (acc z : Nat) (fails : List (Nat × DWord × Cause)) : Raised :=
  match fails with
  | [] => bad
  | (l, a, c) :: _ =>
    let lanes := maskOf fun i => fails.any (·.1 == i)
    let single := c == .misaligned || c == .scratchRange || c == .poolInvalid
    let pages := fails.filter fun f => f.2.2 != .misaligned && f.2.2 != .poolInvalid && f.2.2 != .relayWriteLocked
    let distinct := pages.foldl (fun (d : List (Nat × DWord × Cause)) f =>
      if d.any fun e => e.2.1.toNat / 65536 == f.2.1.toNat / 65536 then d else d ++ [f]) []
    let cls := fun (a : DWord) => clsOf s (myTeam s).core (myTeam s).ctx a.toNat
    { cause := c, lanes := lanes, lost := distinct.length - 32
      recs := if single then [mkRec c a.toNat l acc (cls a) 0 0]
        else if c == .relayWriteLocked then [mkRec c 0 l acc 0 0 ((lockedMem s (myTeam s).ctx a.toNat z).getD 0)]
        else distinct.map fun f => mkRec f.2.2 f.2.1.toNat f.1 acc (cls f.2.1) 0 0 }

/-- Fills the TLB for the pages of some addresses, as the coalescer looks them up (R205, R283). -/
def fillPages (vas : List DWord) (s : State) : State :=
  let t := myTeam s
  vas.foldl (fun s va => if canonical va && (rangeRights (taskOf s t.task) va.toNat).isSome then fillPage t.core t.ctx va.toNat s.g.gts s else s) s

end Sys2Proof.Machine
end

