-- ==== Sys2Proof/Machine/Scratch.lean ====
section
/-! DEFINITION. A team's scratch (R44, R198), the forwarding of its writes through laterals (R272–R275), the unwritten parts of
relay destinations (R161), and the lines that engines and merge entries own (R196, R197). -/

namespace Sys2Proof.Machine

/-! ## Destinations of running relays -/

/-- Where the running pass of a relay writes: residency, first byte, length (R158, R163). -/
def relayDst (s : State) (r : Relay) : Option (Nat × Nat × Nat) :=
  (slotOf s r.ctx r.dst).map fun x =>
    let b := if r.kind = .mv then x.other else x.base
    (x.res, b.toNat, if x.res = 2 then x.regCount else x.foot)

/-- Registers of a REG footprint that its first k sectors fill (R153). -/
def Slot.regsDone (x : Slot) (k : Nat) : Nat := if x.foot ≤ 32 * k then x.regCount else if x.eszc = 4 then 2 * (k / 8) else k / 4

/-- The part of it that has not been written yet, of an accepted relay. -/
def unwritten (s : State) (r : Relay) : Option (Nat × Nat × Nat) :=
  if r.accepted && !r.passes.isEmpty then (relayDst s r).map fun d => if d.1 = 2 then d else (d.1, d.2.1 + 32 * r.sector, d.2.2 - 32 * r.sector) else none

/-- A scratch range that a relay of the team has yet to write: a read of it waits (R161). -/
def scrOwned (s : State) (team off n : Nat) : Bool :=
  s.relays.any fun r => r.team == team && match unwritten s r with
    | some (1, b, len) => !disjoint b len off n
    | _ => false

/-- A register that a relay of the gang has yet to write, in the pass that runs or comes next: a word that reads it waits (R160, R161). -/
def regOwned (s : State) (g r : Nat) : Bool :=
  s.relays.any fun x => x.gang == g && !x.passes.isEmpty && match slotOf s x.ctx x.dst, relayDst s x with
    | some d, some (2, b, len) => decide (b + d.regsDone x.sector ≤ r) && decide (r < b + len)
    | _, _ => false

/-- A register in a footprint that a relay of the gang locks: a word that writes it waits (R160). -/
def regLocked (s : State) (g r : Nat) : Bool := s.relays.any fun x => x.gang == g && (lockedSpans s x).any fun p => p.res == 2 && p.hits r 1

/-- A memory line of a footprint that a relay moves from has been read: what is stored to it comes after the relay (R160). -/
def relayRead (s : State) (line : Nat) : Bool := s.relays.any fun r => r.touched.contains line

/-- The physical line of a virtual address, as its page table stands. -/
def lineOfVa (s : State) (core ctx va : Nat) : Option Nat :=
  match leafOf s core ctx va with
  | .ok (e, size) => some (paOf e size va / 128)
  | .error _ => none

/-- A line that a relay, other than the one numbered `but`, owns and has not written yet (R195, R196). -/
def engineOwned (s : State) (line : Nat) (but : Nat := 0) : Bool :=
  s.relays.any fun r => r.id != but && match unwritten s r with
    | some (0, b, len) => (List.range (ceilDiv len 128)).any fun i =>
        lineOfVa s (teamOf s r.team).core r.ctx (b + 128 * i) == some line
    | _ => false

/-- A line that a merge entry has reserved and that is not finalised yet (R197, R248). -/
def mergeOwned (s : State) (line : Nat) : Bool :=
  s.merges.any fun m => (m.lines.any fun l => l.line == line && l.granted) && !m.written.contains line

/-- A line that every access waits for; one in storage too. -/
def lineOwned (s : State) (line : Nat) : Bool := storedLine line || engineOwned s line || mergeOwned s line

/-! ## Laterals (R273, R274) -/

def setLateral (l : Lateral) (s : State) : State := { s with laterals := modFirst (·.handle == l.handle) (fun _ => l) s.laterals }

/-- Closes an entry's open batch, whose application is then due. -/
def closeBatch (l : Lateral) (s : State) : State :=
  match l.batch with
  | none => s
  | some b => due .lateralBatchApply l.handle (setLateral { l with batch := none, closed := l.closed ++ [{ b with no := s.nextId }] } { s with nextId := s.nextId + 1 })

/-- Whether two entries lead from one publisher to one subscriber. -/
def samePair (l m : Lateral) : Bool := l.pub == m.pub && l.sub == m.sub

/-- One byte written at x of a publisher's scratch, forwarded through one entry (R274). DEDUCED (log entry 100): the open batch of another entry
between the same two teams closes first, so that their updates apply in the publisher's order of stores (R200). -/
def forwardOne (h x : Nat) (b : Byte) (s : State) : State :=
  match s.laterals.find? (·.handle == h) with
  | none => s
  | some l =>
    if x < l.po ∨ l.po + l.len ≤ x then s
    else
      let s := (s.laterals.filter fun m => samePair l m && m.handle != h).foldl (fun s m => closeBatch m s) s
      let rel := x - l.po
      let v : BitVec 9 := 1#1 ++ b
      let new := fun (s : State) => match s.laterals.find? (·.handle == h) with
        | some l => due .lateralBatchTimeout h (setLateral { l with batch := some ⟨rel / 32, set0 [] (rel % 32) v, s.clk, 0⟩ } s)
        | none => s
      match l.batch with
      | some o => if o.sector = rel / 32 then setLateral { l with batch := some { o with bytes := set0 o.bytes (rel % 32) v } } s else new (closeBatch l s)
      | none => new s

/-- Bytes written at off, forwarded through every entry whose publisher the team is. -/
def forward (team off : Nat) (bs : List Byte) (s : State) : State :=
  (s.laterals.filter (·.pub == team)).foldl (fun s l =>
    (bs.zipIdx.foldl (fun s b => forwardOne l.handle (off + b.2) b.1 s) s)) s

/-! ## Banks of a cluster (R15, R16) -/

/-- Mode of a bank: 0 CACHE, 1 SCRATCH, 2 FIFO. -/
def bankMode (s : State) (cluster b : Nat) : Nat := regField s 0x020 cluster (2 * b + 1) (2 * b)
def banksIn (s : State) (cluster mode : Nat) : Nat := (List.range 32).countP fun b => bankMode s cluster b == mode
def bankList (s : State) (cluster mode : Nat) : List Nat := (List.range 32).filter fun b => bankMode s cluster b == mode

/-- CACHE banks of a cluster that are not about to leave that mode: lines that enter take places in these (R17). -/
def cacheBanks (s : State) (cluster : Nat) : List Nat :=
  (bankList s cluster 0).filter fun b => !s.banks.any fun x => x.cluster == cluster && x.bank == b

/-! ## Units of a cluster's SCRATCH and FIFO banks (R17, R44, R232) -/

/-- Teams whose scratch and headraces hold space in a cluster. -/
def holders (s : State) (cluster : Nat) : List Team :=
  s.teams.filter fun t => clusterOf t.core == cluster && t.placed && (t.place == .running || t.place == .shadow)

/-- n of the free units, freely chosen (R17, R232). -/
def pickUnits (key : Nat) : Nat → List Nat → List Nat
  | 0, _ => []
  | n + 1, l => match l[Config.unitPick key n % l.length]? with
    | none => []
    | some u => u :: pickUnits key n (l.erase u)

/-- Units of z bytes, by their keys, keep the bytes of what has held them. -/
def keepUnits (z : Nat) (ks : List Nat) (bytes t : Table 8) : Table 8 :=
  ks.zipIdx.foldl (fun m e => (tfilter (fun a => a / z == e.2) bytes).foldl (fun m x => set0 m (z * e.1 + x.1 % z) x.2) m)
    (tfilter (fun a => !ks.contains (a / z)) t)

/-- What units of z bytes hold, by the positions of those that p picks. -/
def unitContents (z : Nat) (ks : List Nat) (p : Nat → Bool) (t : Table 8) : Table 8 :=
  if t.isEmpty then [] else ks.zipIdx.flatMap fun e => if p e.1 then (tfilter (fun a => a / z == e.1) t).map fun x => (z * e.2 + x.1 % z, x.2) else []

/-- Units of a context from now on. -/
def ownUnits (ctx : Nat) (ks : List Nat) (t : Table 64) : Table 64 := ks.foldl (fun t k => set0 t k (BitVec.ofNat 64 (ctx + 1))) t

/-- The key of a scratch unit of 256 bytes in a cluster. -/
def scrapKey (cluster u : Nat) : Nat := 4096 * cluster + u

/-- Scratch units of a cluster that no team holds: 128 in a bank. -/
def freeScratch (s : State) (cluster : Nat) : List Nat :=
  let held := (holders s cluster).flatMap (·.units)
  ((bankList s cluster 1).flatMap fun b => (List.range 128).map (128 * b + ·)).filter fun u => !held.contains u

/-- A team's scratch holds units of its cluster from now on. DEDUCED (log entry 15): one that has held none before finds zero at each position, or the
byte last written there where a team of its context held the unit last, freely one or the other (R44); where another context did, it has been
cleared (R17). -/
def placeScratch (team : Nat) (s : State) : State :=
  let t := teamOf s team
  if t.scr = 0 then setTeam s { t with bare := false }
  else
    let us := pickUnits s.fresh (ceilDiv t.scr 256) (freeScratch s (clusterOf t.core))
    let left := unitContents 256 (us.map (scrapKey (clusterOf t.core))) (fun k => (get0 s.scrapCtx k).toNat == t.ctx + 1) s.scrap
    setTeam { s with fresh := s.fresh + 1 } { t with units := us, bare := false, scratch := if t.bare then tfilter (Config.leftStands s.fresh) left else t.scratch }

/-- A team's scratch gives its units back: they keep its bytes for its context (R44). -/
def leaveScratch (t : Team) (s : State) : State :=
  if t.units.isEmpty then s
  else
    let ks := t.units.map (scrapKey (clusterOf t.core))
    { s with scrap := keepUnits 256 ks t.scratch s.scrap, scrapCtx := ownUnits t.ctx ks s.scrapCtx }

/-- A SCRATCH bank of a cluster leaves that mode: what was left in it is gone (R17). -/
def forgetBank (cluster b : Nat) (s : State) : State :=
  let gone := fun (k : Nat) => k / 4096 == cluster && k % 4096 / 128 == b
  { s with scrap := tfilter (fun a => !gone (a / 256)) s.scrap, scrapCtx := tfilter (fun k => !gone k) s.scrapCtx }

/-- A context has ended or begun: what units hold under its number is no context's (R17, R232). -/
def forgetUnits (ctx : Nat) (s : State) : State :=
  let others := fun (t : Table 64) => t.filter fun e => e.2.toNat != ctx + 1
  { s with scrapCtx := others s.scrapCtx, fifoCtx := others s.fifoCtx }

/-! ## Scratch -/

def scrRead (s : State) (team off n : Nat) : List Byte := readBytes (teamOf s team).scratch off n

/-- Bytes put into scratch that no lateral forwards (R273). -/
def scrPut (team off : Nat) (bs : List Byte) (s : State) : State :=
  let t := teamOf s team
  setTeam s { t with scratch := writeBytes t.scratch off bs }

/-- A scratch write, forwarded to subscribers. -/
def scrWrite (team off : Nat) (bs : List Byte) (s : State) : State := forward team off bs (scrPut team off bs s)

end Sys2Proof.Machine
end

