-- ==== Sys2Proof/Machine/Cache.lean ====
section
/-! DEFINITION. Cluster caches and the remote ways of slices (R15, R18, R190, R194, R295): copies, their write-backs and refusals, room for
them; and what an access waits for before it is sent (R25, R194, R205). -/

namespace Sys2Proof.Machine

/-! ## Copies -/

def copyOf (s : State) (cluster ctx line : Nat) : Option Copy :=
  s.copies.find? fun c => !c.remote && c.holder == cluster && c.line == line && c.ctx == ctx

def remoteCopy (s : State) (slice line : Nat) : Option Copy := s.copies.find? fun c => c.remote && c.holder == slice && c.line == line

def dropCopy (cluster ctx line : Nat) (s : State) : State :=
  { s with copies := s.copies.filter fun c => !(!c.remote && c.holder == cluster && c.line == line && c.ctx == ctx) }

/-- Whether two copies are of one line in one place. -/
def Copy.same (c x : Copy) : Bool := x.remote == c.remote && x.holder == c.holder && x.line == c.line && x.ctx == c.ctx

/-- A copy takes the place of what the same cache held of its line. -/
def setCopy (c : Copy) (s : State) : State := { s with copies := modFirst c.same (fun x => { c with slot := x.slot }) s.copies }

/-- Bytes lo to hi − 1 of a line, as a mask. -/
def byteSpan (lo hi : Nat) : BitVec 128 := BitVec.ofNat 128 (2 ^ hi - 2 ^ lo)

/-- The least and the greatest dirty position of a copy, plus one. -/
def Copy.dirtySpan (c : Copy) : Nat × Nat := c.dirty.foldl (fun p e => (min p.1 e.1, max p.2 (e.1 + 1))) (128, 0)

/-- Whether every byte of the line is dirty. -/
def Copy.allDirty (c : Copy) : Bool := c.dirty.length == 128 && c.dirty.all (·.2 == 0xFF#8)

/-- The least aligned block of 16, 32, 64 or 128 bytes that covers bytes lo to hi − 1 of an OPEN line; a line with a code is asked for whole (R29). -/
def blockOf (cls lo hi : Nat) : Nat × Nat :=
  if cls ≠ 2 ∨ hi ≤ lo then (0, 128)
  else
    let z := if lo / 16 = (hi - 1) / 16 then 16 else if lo / 32 = (hi - 1) / 32 then 32 else if lo / 64 = (hi - 1) / 64 then 64 else 128
    (lo / z * z, lo / z * z + z)

/-- The request that names a copy's line, for what it holds dirty. -/
def copyReq (c : Copy) : LineReq :=
  let b := blockOf c.cls c.dirtySpan.1 c.dirtySpan.2
  { line := c.line, va := c.va.toNat / 128, bulk := c.bulk, cls := c.cls, dm := c.dm, dom := c.dom, lo := b.1, hi := b.2 }

/-- Dirty bits of a copy written back to the home (R190, R191): they alone replace the home's. The line stays, valid and clean, where it holds a
byte (R222). -/
def writeBackCopy (c : Copy) (s : State) : State :=
  let r := copyReq c
  let (s, ev) := if c.allDirty then (s, none) else enterLine r c.ctx s
  let s := writeDirty r c.ctx c.bytes c.dirty (chargeCtx c.ctx ev s)
  if c.valid = 0 then dropCopy c.holder c.ctx c.line s else setCopy { c with dirty := [], quarantined := false } s

/-- The core whose gang last wrote a copy (R194). -/
def writerCore (s : State) (c : Copy) : Nat := ((gangOf s c.writer).map fun g => (teamOf s g.team).core).getD (c.holder * 4)

/-- The cluster of an operation's gang. -/
def opCluster (s : State) (o : Op) : Nat := clusterOf (gangTeam s o.gang).core

/-- Whether a `fence.rel` waits for the write-back of a copy. -/
def fenceAwaits (s : State) (c : Copy) : Bool :=
  s.ops.any fun o => o.kind == .fence && o.ctx == c.ctx && opCluster s o == c.holder && o.lines.any fun r => r.line == c.line && !r.granted

/-- Whether a write-back is refused: the page is no longer writable, or the key is absent (R194). DEDUCED (log entry 101): one that a `fence.rel` waits for
was checked as the fence issued, and is refused no more. -/
def refusedWb (s : State) (core : Nat) (c : Copy) : Bool :=
  !fenceAwaits s c && (!(ctxOf s c.ctx).key || match leafOf s core c.ctx c.va.toNat with
    | .ok (e, _) => !pteW e
    | .error _ => true)

/-! ## The order of requests (R25) -/

/-- The stop that a core's request is sent to: its home, where an ORDERED load of a line of another die comes by way of the proxy slice (R24, R295). -/
def stopFor (s : State) (core : Nat) (load : Bool) (r : LineReq) : Nat × Bool :=
  let h := homeOf s r.dom r.line
  (h, load && !r.bulk && h / 64 != dieOf core)

def stopOf (s : State) (o : Op) (r : LineReq) : Nat × Bool := stopFor s (gangTeam s o.gang).core (o.kind == .load || o.kind == .pref) r

/-- Whether a request that a cluster sent earlier to the same stop has not arrived (R25). -/
def behindAt (s : State) (cluster : Nat) (stop : Nat × Bool) (sentAt : Nat) : Bool :=
  let before := fun (n : Nat) => n != 0 && (sentAt == 0 || decide (n < sentAt))
  (s.ops.any fun p => opCluster s p == cluster && p.lines.any fun q => before q.sentAt && !q.arrived && !q.granted && stopOf s p q == stop) ||
  (s.contribs.any fun q => q.cluster == cluster && before q.sentAt && !q.came && (homeOf s q.dom q.line, false) == stop) ||
  s.merges.any fun m => clusterOf (gangTeam s m.gang).core == cluster && before m.sentAt && m.waiting.contains stop.1 && !m.came.contains stop.1 && !stop.2

/-- Whether a read that a core is about to send to a line's home would overtake a request of its cluster to the same stop (R25). -/
def readBehind (s : State) (core : Nat) (r : LineReq) : Bool := behindAt s (clusterOf core) (stopFor s core true r) 0

def behind (s : State) (o : Op) (r : LineReq) : Bool := behindAt s (opCluster s o) (stopOf s o r) r.sentAt
/-- Requests of a cluster for a BULK line that have been sent and not answered. -/
def bulkPending (s : State) (cluster line : Nat) : List Op :=
  s.ops.filter fun o => opCluster s o == cluster && o.kind != .fence && o.lines.any fun r => r.line == line && r.bulk && !r.granted && r.sentAt != 0

/-- Whether dirty bytes of a copy may go home now: no engine or merge entry owns the line, its home is not changing, no earlier request of the cluster
for it is unanswered, and none to its home is on its way, which they would overtake (R25, R190, R196, R294). -/
def wbReady (s : State) (c : Copy) : Bool :=
  !lineOwned s c.line && sliceOf s c.dom c.line == homeOf s c.dom c.line && (bulkPending s c.holder c.line).isEmpty
    && !behindAt s c.holder (homeOf s c.dom c.line, false) 0

/-- Whether a write-back that an atomic, an engine or `acc.init` asks for can be made now. DEDUCED (log entry 104): one that is refused leaves the line
dirty, and what asked for it waits. -/
def wbMay (s : State) (c : Copy) : Bool := c.dirty.isEmpty || (wbReady s c && !c.quarantined && !refusedWb s (c.holder * 4) c)

/-- Whether the refused write-back buffer of a copy's writer has room (R194). -/
def bufferTakes (s : State) (c : Copy) : Bool := decide ((s.refused.filter (·.core == writerCore s c)).length < 8)

/-- A cluster gives up one copy: clean copies go; dirty ones are written back; a refused one goes to its writer's refused
write-back buffer, or stays quarantined when that holds 8 (R190, R194). -/
def evictCopy (c : Copy) (s : State) : State :=
  if c.quarantined then s
  else if c.dirty.isEmpty then dropCopy c.holder c.ctx c.line s
  else if !wbReady s c then s
  else if refusedWb s (c.holder * 4) c then
    if bufferTakes s c then dropCopy c.holder c.ctx c.line { s with refused := s.refused ++ [⟨writerCore s c, c⟩] }
    else setCopy { c with quarantined := true } s
  else dropCopy c.holder c.ctx c.line (writeBackCopy c s)

/-! ## Room (R15, R18) -/

/-- Copies in a cluster cache, and in the remote ways of a slice. -/
def copiesIn (s : State) (cluster : Nat) : List Copy := s.copies.filter fun c => !c.remote && c.holder == cluster
def remotesIn (s : State) (slice : Nat) : List Copy := s.copies.filter fun c => c.remote && c.holder == slice

/-- Whether a cluster cache has places for n more lines: its CACHE banks hold 256 each, and there are always at least 4 (R15, R17). -/
def cacheTakes (s : State) (cluster n : Nat) : Bool :=
  decide ((copiesIn s cluster).length + n ≤ 1024) || decide ((copiesIn s cluster).length + n ≤ 256 * (cacheBanks s cluster).length)

/-- A line may leave a cluster cache now. -/
def mayLeave (s : State) (c : Copy) : Bool := !c.quarantined && (c.dirty.isEmpty || (wbReady s c && (bufferTakes s c || !refusedWb s (c.holder * 4) c)))

/-- A full cluster cache gives up lines, but for those that p picks, from some place on until n more find a place (R190, R194). -/
def cacheRoom (cluster n : Nat) (p : Nat → Bool) (s : State) : State :=
  if cacheTakes s cluster n then s
  else
    let may := (copiesIn s cluster).filter fun c => mayLeave s c && !p c.line
    let k := Config.victimPick s.fresh cluster % may.length
    (may.drop k ++ may.take k).foldl (fun s c => if cacheTakes s cluster n then s else evictCopy c s) { s with fresh := s.fresh + 1 }

/-- The CACHE bank that a line takes, among those with a place (R15). -/
def bankFor (s : State) (cluster line : Nat) : Option Nat :=
  let banks := (cacheBanks s cluster).filter fun b => decide (((copiesIn s cluster).countP (·.slot == b)) < 256)
  banks[Config.wayPick s.fresh line % banks.length]?

/-- A line enters a cluster cache, or takes the place of what it held of it; `must` says that room for it has been made, for what is stored in it
(`storeRoom`), and of any other line that finds none no copy is kept. -/
def putCopy (c : Copy) (s : State) (must : Bool := false) : State :=
  if s.copies.any c.same then setCopy c s
  else
    let s := if must then s else cacheRoom c.holder 1 (fun _ => false) s
    if !must && !cacheTakes s c.holder 1 then s
    else { s with copies := { c with slot := (bankFor s c.holder c.line).getD 0 } :: s.copies, fresh := s.fresh + 1 }

/-- A grant is kept in the reserved ways of a proxy slice, where another copy leaves a full set (R18, R295). -/
def putRemote (c : Copy) (s : State) : State :=
  let c := { c with remote := true }
  if s.copies.any c.same then setCopy c s
  else
    let xs := remotesIn s c.holder
    let n := remoteWays s c.holder
    let set := xs.filter fun x => sameSet x.line c.line
    let s := if xs.length < n ∨ set.length < n then s
      else match set[Config.victimPick s.fresh c.line % set.length]? with
        | some x => { s with copies := s.copies.filter fun y => !x.same y }
        | none => s
    let free := ((List.range n).map (15 - ·)).filter fun w => !((remotesIn s c.holder).any fun x => x.slot == w && sameSet x.line c.line)
    { s with copies := { c with slot := free.getD (Config.wayPick s.fresh c.line % free.length) 15 } :: s.copies, fresh := s.fresh + 1 }

/-! ## Lines that other agents write (R195, R196) -/

/-- The dirty bytes that a cluster holds of a line go home (R195, R214). -/
def collect (cluster ctx line : Nat) (s : State) : State :=
  match copyOf s cluster ctx line with
  | some c => if c.dirty.isEmpty then s else writeBackCopy c s
  | none => s

/-- Whether they can go now. -/
def collectable (s : State) (cluster ctx line : Nat) : Bool := ((copyOf s cluster ctx line).map (wbMay s)).getD true

/-! ## What an access waits for at its issue -/

/-- Whether an access of the context to a line must wait for a refused write-back to be resolved (R194). -/
def refusedLine (s : State) (ctx line : Nat) : Bool := s.refused.any fun r => r.copy.ctx == ctx && r.copy.line == line

/-- Requests that a core's coalescer tracks: one for each line of a lane form that is unanswered (R13, R205). -/
def tracked (s : State) (core : Nat) : Nat :=
  let mine := s.ops.filter fun o => (gangTeam s o.gang).core == core
  (mine.map fun o => if o.uni || o.kind == .fence || o.kind == .stn then 0 else o.lines.countP (!·.granted)).sum
    + s.contribs.countP fun q => !q.mma && mine.any (·.id == q.op)

/-- Whether an access to lines has to wait at its issue: for a refused write-back (R194), or for room among the core's 1,536 requests (R205). -/
def lineWaits (s : State) (lines : List LineReq) (requests : Bool := true) : Bool :=
  let t := myTeam s
  lines.any (fun l => refusedLine s t.ctx l.line) || (requests && !lines.isEmpty && decide (1536 < tracked s t.core + lines.length))

/-- A cluster cache makes room for the BULK lines that a store is about to put into it; none where it has to wait for that (R15, R190). -/
def storeRoom (cluster ctx : Nat) (lines : List LineReq) (s : State) : Option State :=
  let new := lines.countP fun l => l.bulk && (copyOf s cluster ctx l.line).isNone
  let s := cacheRoom cluster new (fun x => lines.any (·.line == x)) s
  if cacheTakes s cluster new then some s else none

end Sys2Proof.Machine
end

