-- ==== Sys2Proof/Machine/Mem.lean ====
section
/-! DEFINITION. Memory operands (R83, R202, R203), operations from their issue to their replies (R179–R185, R190), and the
plain access forms (R207–R211). -/

namespace Sys2Proof.Machine

/-! ## Operands -/

def isS (c : Nat) : Bool := decide (128 ≤ c) && decide (c < 192)

/-- BASE and IDX of a lane address; of a uniform one; of a scratch one (R202). Of the codes 0–239, R78 leaves 239 without a meaning. -/
def idxOk (regs c : Nat) : Bool := decide (c < 239) && (decide (128 ≤ c) || decide (c < regs)) || c == 255
def laneAddrOk (w : MWord) (s : State) : Bool :=
  let b := w.base.toNat
  (if b < 128 then vregOk s.g.regs true b else decide (b ≤ 192)) && idxOk s.g.regs w.idx.toNat
def uniAddrOk (w : MWord) : Bool :=
  let b := w.base.toNat
  let i := w.idx.toNat
  (isS b || b == 192) && (i == 255 || isS i || (decide (192 ≤ i) && decide (i < 216)))
def scrAddrOk (w : MWord) (s : State) : Bool := (isS w.base.toNat || w.base == 192) && idxOk s.g.regs w.idx.toNat

/-- The address a lane forms (R83). -/
def addrOf (w : MWord) (s : State) (l : Nat) : DWord :=
  let c := w.base.toNat
  let b : DWord := if c = 192 then 0 else if c < 128 then pairGet s.g c l else sGet s.g (c - 128)
  let i := w.idx.toNat
  let ix : DWord := if i = 255 then 0 else ((readA s (.int 32) none l i).truncate 32 : Word).signExtend 64
  b + (ix <<< w.sc.toNat) + w.ofs.signExtend 64

/-- Registers of a group of 2^w bytes (R203). -/
def groupLen (w : Nat) : Nat := max 1 (2 ^ w / 4)
def groupOk (regs w data : Nat) : Bool := data % groupLen w == 0 && decide (data + groupLen w ≤ regs)

/-- Byte j of a lane's group (R203). -/
def groupByte (g : Gang) (data l j : Nat) : Byte := (vGet g (data + j / 4) l).extractLsb' (8 * (j % 4)) 8
def groupBytes (g : Gang) (data l z : Nat) : List Byte := (List.range z).map (groupByte g data l)

/-- A loaded value extended to 64 bits (R203, R209): sign-extended under TYPE 1, 2 or 3. -/
def extended (z ty : Nat) (bs : List Byte) : Nat :=
  if ty = 1 ∨ ty = 2 ∨ ty = 3 then (sext64 (leNat bs) (8 * z)).toNat else leNat bs

/-- A lane's group written from bytes. -/
def putGroup (data l z ty : Nat) (bs : List Byte) (g : Gang) : Gang :=
  if z ≤ 4 then vSet g data l (BitVec.ofNat 32 (extended z ty bs))
  else (List.range (z / 4)).foldl (fun g k => vSet g (data + k) l (BitVec.ofNat 32 (leNat ((bs.drop (4 * k)).take 4)))) g

/-- The TYPE a load may carry (R207). -/
def loadTyOk (w : MWord) (uni : Bool) : Bool :=
  let t := typeCode w.pre
  modOk { ty := true } w.pre && (t == 0 || (t == 1 && w.w == 0) || (t == 2 && w.w == 1) || (uni && t == 3 && w.w == 2))

/-- s register in DATA[5:0], DATA[6] = 0. -/
def dataS (w : MWord) : Bool := !w.data.getLsbD 6
def sOfData (w : MWord) : Nat := w.data.toNat % 64

/-! ## Making an operation -/

def clusterOfGang (s : State) : Nat := clusterOf (myTeam s).core

/-- A new operation of the moving gang, in its window (R84). -/
def mkOp (w : MWord) (s : State) (kind : OpKind) : Op :=
  { id := s.nextId, gang := s.g.gid, kind := kind, ctx := (myTeam s).ctx, cpc := s.g.cl.addr, cwi := wordIx s.g, la := w.la.toNat,
    seq := s.g.issued, code := 0, w := w.w.toNat, ty := typeCode w.pre, gts := s.g.gts }

/-- v registers an outstanding operation will write: first and count. Those of a relay are in its footprints (R160). -/
def opWrites (o : Op) : Nat × Nat := if o.wr && !o.uni && o.kind != .relay then (o.dst, max 1 (2 ^ o.w / 4)) else (0, 0)

/-- Whether an operation of the moving gang has yet to write a v register (R85). -/
def regAwaited (s : State) (r : Nat) : Bool :=
  (opsOf s s.g.gid).any fun o => decide ((opWrites o).1 ≤ r) && decide (r < (opWrites o).1 + (opWrites o).2)

/-- The operation is outstanding, and its first steps are due. -/
def addOp (o : Op) (s : State) : State := { s with ops := s.ops ++ [o], nextId := s.nextId + 1 }

/-- The lanes' addresses checked: the physical requests, or the cause (R204). -/
def checkLanes (s : State) (n : Need) (acc z : Nat) (lanes : List (Nat × DWord)) : Except Raised (List (LaneReq × LineReq)) :=
  let rs := lanes.map fun l => (l, checkLane s n l.2 z)
  let fails := rs.filterMap fun r => match r.2 with | .error c => some (r.1.1, r.1.2, c) | .ok _ => none
  if fails.isEmpty then
    .ok (rs.filterMap fun r => match r.2 with
      | .ok (e, size) =>
        let pa := paOf e size r.1.2.toNat
        some ({ lane := r.1.1, va := r.1.2, pa := pa, size := z }, reqOf s e pa r.1.2.toNat)
      | .error _ => none)
  else .error (laneCause s acc z fails)

/-- The distinct lines of requests, in order of lowest lane, each with the block of it that they touch (R29, R205). -/
def distinctLines (rs : List (LaneReq × LineReq)) : List LineReq :=
  (rs.foldl (fun (ls : List LineReq) r => if ls.any (·.line == r.2.line) then ls else ls ++ [r.2]) []).map fun r =>
    let p := (rs.filter (·.2.line == r.line)).foldl (fun p q => (min p.1 (q.1.pa % 128), max p.2 (q.1.pa % 128 + q.1.size))) (128, 0)
    let b := blockOf r.cls p.1 p.2
    { r with lo := b.1, hi := b.2 }

/-- The lowest lane of an operation that touched a line. -/
def lowLaneOf (lanes : List LaneReq) (line : Nat) : Nat := ((lanes.find? fun l => l.pa / 128 == line).map (·.lane)).getD 0

/-! ## Copies -/

/-- Whether a copy holds n bytes at a position. -/
def copyHas (c : Copy) (pos n : Nat) : Bool := (List.range n).all fun i => c.valid.getLsbD (pos + i)

/-- The proxy slice of a die for a line (R295). -/
def proxyOf (s : State) (d : Nat) (r : LineReq) : Nat := 64 * d + homeOf s r.dom r.line % 64

/-- A copy that serves an ORDERED load of clock g of some bytes: the cluster's, or the proxy slice's for a line homed on another die
(R181, R295). -/
def orderedHit (s : State) (core ctx g : Nat) (r : LineReq) (spans : List (Nat × Nat)) : Option Copy :=
  let ok := fun (c : Copy) => !c.bulk && decide (g ≤ c.rts) && spans.all fun p => copyHas c p.1 p.2
  match (copyOf s (clusterOf core) ctx r.line).filter ok with
  | some c => some c
  | none => if homeOf s r.dom r.line / 64 = dieOf core then none
    else (remoteCopy s (proxyOf s (dieOf core) r) r.line).filter ok

/-- A copy that serves a BULK load of some bytes; one of another gang's quarantined lines does not (R190, R194). -/
def bulkHit (s : State) (cluster ctx gang : Nat) (ho : Bool) (line : Nat) (spans : List (Nat × Nat)) : Option Copy :=
  (copyOf s cluster ctx line).filter fun c => c.bulk && (!c.quarantined || c.writer == gang)
    && (if ho then !c.dirty.isEmpty && spans.all fun p => copyHas c p.1 p.2 else spans.all fun p => copyHas c p.1 p.2)

def copyBytes (c : Copy) (pos n : Nat) : List Byte := readBytes c.bytes pos n

/-! ## Loads -/

/-- The lanes of an operation in a line take their bytes. -/
def takeBytes (o : Op) (line : Nat) (rd : Nat → Nat → List Byte) : Op :=
  { o with lanes := o.lanes.map fun l => if l.pa / 128 == line then { l with got := rd (l.pa % 128) l.size } else l }

def onLine (o : Op) (line : Nat) (f : LineReq → LineReq) : Op :=
  { o with lines := o.lines.map fun r => if r.line == line then f r else r }

/-- A load's lane as it is sent for a BULK line: with what its cluster holds dirty of its bytes, so that later stores of the cluster do not enter
its value (R190). -/
def captured (s : State) (cluster : Nat) (o : Op) (l : LaneReq) : LaneReq :=
  { l with pre := match (copyOf s cluster o.ctx (l.pa / 128)).filter fun c => c.bulk && !c.dirty.isEmpty && (!c.quarantined || c.writer == o.gang) with
      | some c => (List.range l.size).map fun i => (get0 c.bytes (l.pa % 128 + i), get0 c.dirty (l.pa % 128 + i))
      | none => [] }

/-- What a lane of a load takes at the home: its bytes there, under those its cluster held dirty. -/
def homeGot (s : State) (l : LaneReq) : List Byte :=
  (homeBytes s l.pa l.size).mapIdx fun i b => match l.pre[i]? with | some p => mergeByte b p.1 p.2 | none => b

/-- A load's line served from a copy at issue, or left for its home (R181, R190, R208): one that an engine owns, and a BULK one that a merge entry owns, is
waited for there (R161, R196, R197), while a lease copy of an accumulator line serves as any (R248). A `pref` asks for a block of its line, or for its
slice alone (R211). -/
def serveLine (s : State) (core : Nat) (o : Op) (r : LineReq) : Op :=
  let spans := if o.kind == .pref then [(r.lo, r.hi - r.lo)] else (o.lanes.filter fun l => l.pa / 128 == r.line).map fun l => (l.pa % 128, l.size)
  let hit := if engineOwned s r.line || (r.bulk && mergeOwned s r.line) || (o.kind == .pref && o.code == 1) then none
    else if r.bulk then bulkHit s (clusterOf core) o.ctx o.gang o.ho r.line spans
    else if o.ho then none else orderedHit s core o.ctx o.gts r spans
  match hit with
  | none => if r.bulk then { o with lanes := o.lanes.map fun l => if l.pa / 128 == r.line then captured s (clusterOf core) o l else l } else o
  | some c => onLine (takeBytes o r.line (copyBytes c)) r.line fun x => { x with granted := true, time := if r.bulk then 0 else max o.gts c.wts, lease := c.rts }

/-- An operation's requests are sent, those of ORDERED stores and atomics once their turn comes (R25, R183); the reply is due when none is left. -/
def dueLines (e reply : Instr) (o : Op) (s : State) : State :=
  let left := o.lines.filter fun r => !r.granted
  if left.isEmpty then due reply o.id s
  else
    let load := o.kind == .load || o.kind == .pref
    let o := { o with lines := o.lines.map fun r => if r.granted then r else { r with sentAt := if load || r.bulk then s.nextId else 0, arrived := false } }
    left.foldl (fun s r => due e o.id s r.line) (setOp { s with nextId := s.nextId + 1 } o)

/-- A load is sent: hits are served, misses go to their homes (R181, R183). -/
def sendLoad (o : Op) (s : State) : State :=
  let core := (gangTeam s o.gang).core
  let o := o.lines.foldl (serveLine s core) o
  dueLines .homeLoad .loadReply o (setOp s o)

/-- `ld` (R207, R208). -/
def execLd (w : MWord) (s : State) : Out :=
  wordOr (mLen w) w.nxt s do
    need bad (loadTyOk w false && laneAddrOk w s && groupOk s.g.regs w.w.toNat w.data.toNat && decide (w.hint.toNat < 3))
    let z := 2 ^ w.w.toNat
    let lanes := (lanesOf (active s.g)).map fun l => (l, addrOf w s l)
    let s := fillPages (lanes.map (·.2)) s
    let rs ← checkLanes s { r := true } 0 z lanes
    let lines := distinctLines rs
    if lineWaits s lines then .ok none
    else if rs.isEmpty then .ok (some s)
    else
      let o := { mkOp w s .load with dst := w.data.toNat, wr := true, na := w.hint == 1, ho := w.hint == 2, lanes := rs.map (·.1), lines := lines }
      .ok (some (sendLoad o (addOp o s)))

/-- `ldu` (R209). -/
def execLdu (w : MWord) (s : State) : Out :=
  wordOr (mLen w) w.nxt s do
    need bad (loadTyOk w true && uniAddrOk w && dataS w && decide (w.w.toNat < 4) && w.hint == 0)
    if active s.g = 0 then .ok (some s)
    else
      let z := 2 ^ w.w.toNat
      let a := addrOf w s 0
      let s := fillPages [a] s
      let rs ← checkLanes s { r := true } 0 z [(lowLane (active s.g), a)]
      let lines := distinctLines rs
      if lineWaits s lines false then .ok none
      else
        let o := { mkOp w s .load with dst := sOfData w, wr := true, uni := true, lanes := rs.map (·.1), lines := lines }
        .ok (some (sendLoad o (addOp o s)))

/-- Whether the cluster issued an earlier request for the same BULK line that is unanswered: they are performed in issue order (R190). -/
def afterOthers (s : State) (o : Op) (r : LineReq) : Bool := r.bulk && (bulkPending s (opCluster s o) r.line).any fun p => decide (p.id < o.id)

/-- One of an operation's lines is answered, and its reply due with the last. -/
def grantLine (o : Op) (line : Nat) (f : LineReq → LineReq) (reply : Instr) (s : State) : State :=
  let o := onLine o line fun x => { f x with granted := true }
  if o.lines.all (·.granted) then due reply o.id (setOp s o) else setOp s o

/-- The bytes of a line that a mask picks, as its home holds them. -/
def lineTable (s : State) (line : Nat) (v : BitVec 128) : Table 8 :=
  (List.range 128).filterMap fun i => let b := homeByte s (128 * line + i); if v.getLsbD i && b != 0 then some (i, b) else none

/-- A copy with what another of the same line holds beside it. -/
def Copy.beside (c k : Copy) : Copy :=
  { c with bytes := (tfilter (fun i => k.valid.getLsbD i && !c.valid.getLsbD i) k.bytes).foldl (fun t e => set0 t e.1 e.2) c.bytes, valid := c.valid ||| k.valid }

/-- What a cluster keeps of a BULK line's grant: the home's bytes, under its own dirty bits, beside what else it holds. -/
def Copy.under (c k : Copy) : Copy :=
  { c.beside k with bytes := k.dirty.foldl (fun t e => set0 t e.1 (mergeByte (get0 t e.1) (get0 k.bytes e.1) e.2)) (c.beside k).bytes
                    dirty := k.dirty, writer := k.writer, quarantined := k.quarantined }

/-- HOME_LOAD: a load, or a prefetch, of one line arrives at its home (R25, R181, R190, R196, R197). The line is granted, and a
copy kept unless the load asks for none; a block not in its slice is fetched first; a line held by a former home moves first. A BULK copy is not
kept while a later store or atomic of the cluster is on its way to the line. -/
def execHomeLoad (s : State) : Out :=
  match opOf s s.obj.1 with
  | none => .next s
  | some o => match o.lines.find? (fun r => r.line == s.obj.2 && !r.granted) with
    | none => .next s
    | some r =>
      if !r.arrived && behind s o r then later .homeLoad s
      else
      let o := onLine o r.line fun x => { x with arrived := true }
      let s := setOp s o
      if lineOwned s r.line then (if o.kind == .pref then .next (grantLine o r.line id .loadReply s) else later .homeLoad s)
      else if afterOthers s o r then later .homeLoad s
      else if sliceOf s r.dom r.line ≠ homeOf s r.dom r.line then .next (due .movedReply o.id s r.line)
      else if !(holds s r || r.fetched) then .next (due .lineFetch o.id s r.line)
      else if o.kind == .pref && o.code == 1 then .next (grantLine o r.line id .loadReply s)
      else
        let s := countAccess r o.ctx s
        let core := (gangTeam s o.gang).core
        let cluster := clusterOf core
        let old := copyOf s cluster o.ctx r.line
        let v := byteSpan r.lo r.hi
        let new : Copy := { remote := false, holder := cluster, line := r.line, ctx := o.ctx, bulk := r.bulk, cls := r.cls, dm := r.dm, dom := r.dom,
                            va := BitVec.ofNat 64 (r.va * 128), bytes := lineTable s r.line v, valid := v }
        let o := { o with lanes := o.lanes.map fun l => if l.pa / 128 == r.line then { l with got := homeGot s l } else l }
        if r.bulk then
          let keep := !r.fetched && !o.na && !((old.map (·.quarantined)).getD false) &&
            (bulkPending s cluster r.line).all fun p => p.kind == .load || p.kind == .pref
          let c := match old.filter (·.bulk) with | some k => new.under k | none => new
          .next (grantLine o r.line id .loadReply (if keep then putCopy c s else s))
        else
          let (s, w, e) := grantLoad r o.gts (leaseOf s o.ctx) s
          let with' := fun (k : Option Copy) => match k.filter fun k => !k.bulk && k.wts == w with
            | some k => { new.beside k with wts := w, rts := e }
            | none => { new with wts := w, rts := e }
          let proxy := proxyOf s (dieOf core) r
          let remote := homeOf s r.dom r.line / 64 != dieOf core && remoteWays s proxy != 0
          let s := if !r.fetched && !o.na then putCopy (with' old) s else s
          let s := if remote && !r.fetched then putRemote { with' (remoteCopy s proxy r.line) with holder := proxy } s else s
          .next (grantLine o r.line (fun x => { x with time := max o.gts w, lease := e }) .loadReply s)

/-- Whether every earlier ORDERED access of the gang has returned its time (R183). -/
def earlierDone (s : State) (o : Op) : Bool :=
  !(s.ops.any fun p => p.gang == o.gang && decide (p.id < o.id) && p.kind != .pref && p.kind != .message && p.kind != .fence
    && (p.kind == .stn || p.kind == .rlq || p.lines.any fun r => !r.bulk))

/-- The bytes a load's lane delivers, as its form says: an element of a slot's nibble, or the value extended. -/
def loadValue (o : Op) (l : LaneReq) : List Byte :=
  if o.split = 1 then leBytes l.size (leNat l.got / 2 ^ l.g0.toNat % 16) else l.got

/-- An element's request through a slot as it stands: its place's bytes, and for a nibble the shift (R152, R230). -/
def elemReq (x : Slot) (lane idx : Nat) : LaneReq :=
  let p := mulVec x.cols idx
  { lane := lane, va := x.base + BitVec.ofNat 64 (p * x.eltBits / 8), pa := 0, size := max 1 (x.eltBits / 8)
    g0 := BitVec.ofNat 64 (if x.eszc = 0 then 4 * (p % 2) else 0), g1 := BitVec.ofNat 64 idx }

/-- An `ldt` in flight whose slot a relay has moved meanwhile: its requests through the slot as it stands now (R161). One whose slot a `lay.set` has written
since goes on as it was sent (R146). -/
def movedElems (s : State) (o : Op) : Option Op :=
  if o.code ≠ 2 then none
  else match slotOf s o.ctx o.pool with
    | none => none
    | some x =>
      if x.gen ≠ o.gen then none
      else
      let core := (gangTeam s o.gang).core
      let rs := o.lanes.filterMap fun l =>
        let q := elemReq x l.lane l.g1.toNat
        match leafOf s core o.ctx q.va.toNat with
        | .ok (e, z) => some ({ q with pa := paOf e z q.va.toNat }, reqOf s e (paOf e z q.va.toNat) q.va.toNat)
        | .error _ => none
      if rs.length = o.lanes.length ∧ x.res = 0 ∧ (rs.map (fun (r : LaneReq × LineReq) => r.1.va)) ≠ o.lanes.map (fun l => l.va) then
        some { o with lanes := rs.map (fun r => r.1), lines := distinctLines rs }
      else none

/-- LOAD_REPLY: the value is accepted once earlier ORDERED accesses have returned, and if every lease it obtained ends at or
after the gang's clock; otherwise it is sent again (R183). Then the registers are written and gts moves on. -/
def execLoadReply (s : State) : Out :=
  match opOf s s.obj.1 with
  | none => .next s
  | some o =>
    if o.lines.any (fun r => !r.granted) then .next s
    else if !earlierDone s o && o.kind != .pref then later .loadReply s
    else
      match movedElems s o with
      | some p => .next (sendLoad { p with gts := ((gangOf s o.gang).getD {}).gts } (setOp s p))
      | none =>
      let g := (gangOf s o.gang).getD {}
      let stale := o.lines.any fun r => !r.bulk && decide (r.lease < g.gts)
      if stale && o.kind != .pref then
        let o := { o with gts := g.gts, lines := o.lines.map fun r => if r.bulk then r else { r with granted := false, fetched := false } }
        .next (sendLoad o (setOp s o))
      else
        let t := o.lines.foldl (fun m r => if r.bulk then m else max m r.time) 0
        let s := onGang s o.gang fun g =>
          let g := if o.kind == .pref then g else joinTime t g
          if !o.wr then g
          else if o.uni then match o.lanes with
            | l :: _ => sSet g o.dst (BitVec.ofNat 64 (extended l.size o.ty l.got))
            | [] => g
          else o.lanes.foldl (fun g l => putGroup o.dst l.lane l.size o.ty (loadValue o l) g) g
        let s := dropOp s o.id
        .next (chargeGang o.gang o.ctx o.cpc o.cwi 0 (lowLaneOf o.lanes) o.events s (o.kind == .pref))

/-- LINE_FETCH: a line enters its home slice for an operation, and its code is checked (R259). An uncorrectable line is not
kept: it is served once as read. -/
def execLineFetch (s : State) : Out :=
  match opOf s s.obj.1 with
  | none => .next s
  | some o => match o.lines.find? (fun r => r.line == s.obj.2 && !r.granted) with
    | none => .next s
    | some r =>
      let (s, ev) := enterLine r o.ctx s
      let o := { o with events := o.events ++ ev.toList }
      let o := if holds s r then o else onLine o r.line fun x => { x with fetched := true }
      let next : Instr := match o.kind with
        | .load | .pref => .homeLoad
        | .atomic => .atomicAtHome
        | _ => .homeStore
      .next (due next o.id (setOp s o) r.line)

/-- MOVED_REPLY: a request that reached a former home is sent again to the new one, which serves the line once the hand-off
has arrived (R189, R294). -/
def execMovedReply (s : State) : Out :=
  match opOf s s.obj.1 with
  | none => .next s
  | some o => match o.lines.find? (fun r => r.line == s.obj.2 && !r.granted) with
    | none => .next s
    | some r =>
      if sliceOf s r.dom r.line ≠ homeOf s r.dom r.line then later .movedReply s
      else
        let next : Instr := match o.kind with
          | .load | .pref => .homeLoad
          | .atomic => .atomicAtHome
          | _ => .homeStore
        let o := onLine o r.line fun x => { x with sentAt := if x.sentAt = 0 then 0 else s.nextId, arrived := false }
        .next (due next o.id (setOp { s with nextId := s.nextId + 1 } o) r.line)

/-! ## Stores -/

/-- Bits stored into a cluster's copy of a BULK line, clean or dirty (R179, R190, R230). A byte is held when all of it is known. A quarantined line remains
that of the gang whose store was refused (R194). -/
def storeCopy (cluster ctx gang : Nat) (r : LineReq) (va : DWord) (pos : Nat) (bs : List Byte) (mask : Byte) (dirty : Bool) (s : State) : State :=
  let c := ((copyOf s cluster ctx r.line).filter (·.bulk)).getD
    { remote := false, holder := cluster, line := r.line, ctx := ctx, bulk := true, cls := r.cls, dm := r.dm, dom := r.dom,
      va := BitVec.ofNat 64 (va.toNat / 128 * 128), bytes := [], valid := 0 }
  let c := bs.zipIdx.foldl (fun (c : Copy) b =>
    let i := pos + b.2
    let d := if dirty then get0 c.dirty i ||| mask else get0 c.dirty i &&& ~~~mask
    { c with bytes := set0 c.bytes i (mergeByte (get0 c.bytes i) b.1 mask), dirty := set0 c.dirty i d
             valid := if mask == 0xFF#8 || d == 0xFF#8 then c.valid ||| (1#128 <<< i) else c.valid }) c
  putCopy { c with writer := if c.quarantined then c.writer else gang } s true

/-- The stores of one instruction: BULK lanes into the cluster's copies in lane order, ORDERED lanes (and write-through ones)
left to their homes (R182–R184, R190, R208). -/
def sendStore (o : Op) (wt : Bool) (rs : List (LaneReq × LineReq)) (s : State) : State :=
  let cluster := clusterOf (gangTeam s o.gang).core
  let s := rs.foldl (fun s r =>
    if r.2.bulk && (!wt || (copyOf s cluster o.ctx r.2.line).isSome)
    then storeCopy cluster o.ctx o.gang r.2 r.1.va (r.1.pa % 128) r.1.bytes r.1.mask (!wt) s else s) s
  let rest := rs.filter fun r => wt || !r.2.bulk
  if rest.isEmpty then s
  else
    let o := { o with lanes := rest.map (·.1), lines := distinctLines rest }
    dueLines .homeStore .storeTimeReturn o (addOp o s)

/-- `st` (R207, R208). -/
def execSt (w : MWord) (s : State) : Out :=
  wordOr (mLen w) w.nxt s do
    need bad (modOk {} w.pre && laneAddrOk w s && groupOk s.g.regs w.w.toNat w.data.toNat && decide (w.hint.toNat < 2))
    let z := 2 ^ w.w.toNat
    let lanes := (lanesOf (active s.g)).map fun l => (l, addrOf w s l)
    let s := fillPages (lanes.map (·.2)) s
    let rs ← checkLanes s { w := true } 1 z lanes
    let rs := rs.map fun r => ({ r.1 with bytes := groupBytes s.g w.data.toNat r.1.lane z }, r.2)
    let lines := distinctLines rs
    if lineWaits s lines then .ok none
    else if w.hint = 1 then .ok (some (sendStore (mkOp w s .store) true rs s))
    else .ok ((storeRoom (clusterOfGang s) (myTeam s).ctx lines s).map (sendStore (mkOp w s .store) false rs))

/-- The bytes of a line that its slice holds. -/
def homeValid (s : State) (line : Nat) : BitVec 128 :=
  match scOf s line with
  | some x => (List.range 8).foldl (fun m i => if x.valid.getLsbD i then m ||| byteSpan (16 * i) (16 * i + 16) else m) 0
  | none => 0

/-- The issuing cluster's copy of an ORDERED line takes the line as it now stands, with lease [t, t] (R182). -/
def refreshCopy (cluster ctx line : Nat) (t : Nat) (s : State) : State :=
  match copyOf s cluster ctx line with
  | none => s
  | some c => if c.bulk then s else
    let v := c.valid &&& homeValid s line
    setCopy { c with bytes := lineTable s line v, valid := v, wts := t, rts := t } s

/-- The gts an operation carries: that of its gang when it is first sent (R183). -/
def sentOp (s : State) (o : Op) : Op :=
  if o.sent then o else { o with sent := true, gts := ((gangOf s o.gang).map (·.gts)).getD o.gts }

/-- The guards of a store's or atomic's arrival: an ORDERED one is sent once the gang's earlier accesses have returned; it arrives after what its
cluster sent before it; an owned line waits, one that a relay has read waits for its end, and a BULK one for earlier requests of the cluster; a moved one is sent again; a block to be fetched is
fetched (R25, R160, R183, R190, R196, R197). `none`: it may be performed. -/
def arrivalGuard (e : Instr) (o : Op) (r : LineReq) (whole : Bool) (s : State) : Option Out :=
  if (!r.bulk && !earlierDone s o) || (!r.arrived && behind s o r) then some (later e s)
  else
    let s := setOp s (onLine (sentOp s o) r.line fun x => { x with arrived := true, sentAt := if x.sentAt = 0 then s.nextId else x.sentAt })
    if lineOwned s r.line || relayRead s r.line || afterOthers s o r then some (later e s)
    else if sliceOf s r.dom r.line ≠ homeOf s r.dom r.line then some (.next (due .movedReply o.id s r.line))
    else if !(holds s r || r.fetched || whole) then some (.next (due .lineFetch o.id s r.line))
    else none

/-- HOME_STORE: the stores of one instruction to one line, in lane order, each taking its time (R182, R184). -/
def execHomeStore (s : State) : Out :=
  match opOf s s.obj.1 with
  | none => .next s
  | some o => match o.lines.find? (fun r => r.line == s.obj.2 && !r.granted) with
    | none => .next s
    | some r =>
      let mine := o.lanes.filter fun l => l.pa / 128 == r.line
      let whole := mine.any fun l => l.size == 128 && l.mask == 0xFF
      match arrivalGuard .homeStore o r whole s with
      | some out => out
      | none =>
        let o := sentOp s o
        let s := countAccess r o.ctx s
        let cluster := clusterOf (gangTeam s o.gang).core
        let (s, t) := mine.foldl (fun (a : State × Nat) l =>
          if r.bulk then (writeBulk r o.ctx l.pa l.bytes l.mask a.1, 0)
          else
            let (s, t) := writeHome r o.ctx o.gts l.pa l.bytes l.mask a.1
            (refreshCopy cluster o.ctx r.line t s, t)) (s, 0)
        .next (grantLine o r.line (fun x => { x with time := t }) (if o.kind == .stn then .nameReturn else .storeTimeReturn) s)

/-- The register group an atomic's result fills (R212). -/
def putResult (o : Op) (g : Gang) : Gang :=
  if o.wr then o.lanes.foldl (fun g l => putGroup o.dst l.lane l.size 0 l.got g) g else g

/-- STORE_TIME_RETURN: the times have returned: gts moves on, an atomic's results are written, the operation is performed
(R179, R183, R214). -/
def execStoreTimeReturn (s : State) : Out :=
  match opOf s s.obj.1 with
  | none => .next s
  | some o =>
    if o.lines.any fun r => !r.granted then .next s
    else
      let t := o.lines.foldl (fun m r => if r.bulk then m else max m r.time) 0
      let s := onGang s o.gang fun g => putResult o (joinTime t g)
      let acc := if o.kind == .atomic then 2 else 1
      .next (chargeGang o.gang o.ctx o.cpc o.cwi acc (lowLaneOf o.lanes) o.events (dropOp s o.id))

/-! ## Scratch accesses (R198, R207, R210) -/

/-- The checks of scratch lanes: alignment, range, and for writers locked footprints (R204). -/
def checkScr (s : State) (wr : Bool) (z : Nat) (lanes : List (Nat × DWord)) : Except Raised Unit :=
  let t := myTeam s
  let fails := lanes.filterMap fun l =>
    if l.2.toNat % z ≠ 0 then some (l.1, l.2, Cause.misaligned)
    else if l.2.toNat + z > t.scr then some (l.1, l.2, Cause.scratchRange)
    else if wr && (lockedScr s t.uid l.2.toNat z).isSome then some (l.1, l.2, Cause.relayWriteLocked)
    else none
  match fails with
  | [] => .ok ()
  | (l, a, c) :: _ =>
    .error { cause := c, lanes := maskOf fun i => fails.any (·.1 == i)
             recs := [if c == .relayWriteLocked then mkRec c 0 l 1 0 0 ((lockedScr s t.uid a.toNat z).getD 0)
               else mkRec c a.toNat l (if wr then 1 else 0) 0 0 0] }

/-- `lds`: read at once; a sector that a relay has yet to write holds it back (R161, R198). -/
def execLds (w : MWord) (s : State) : Out :=
  wordOr (mLen w) w.nxt s do
    need bad (loadTyOk w false && scrAddrOk w s && decide (w.w.toNat < 5) && groupOk s.g.regs w.w.toNat w.data.toNat && w.hint == 0)
    let z := 2 ^ w.w.toNat
    let lanes := (lanesOf (active s.g)).map fun l => (l, addrOf w s l)
    checkScr s false z lanes
    let t := (myTeam s).uid
    if lanes.any (fun l => scrOwned s t l.2.toNat z) then .ok none
    else .ok (some { s with g := lanes.foldl (fun g l => putGroup w.data.toNat l.1 z (typeCode w.pre) (scrRead s t l.2.toNat z) g) s.g })

/-- `sts`: written at once, in lane order (R198, R207). -/
def execSts (w : MWord) (s : State) : Out :=
  word (mLen w) w.nxt s do
    need bad (modOk {} w.pre && scrAddrOk w s && decide (w.w.toNat < 5) && groupOk s.g.regs w.w.toNat w.data.toNat && w.hint == 0)
    let z := 2 ^ w.w.toNat
    let lanes := (lanesOf (active s.g)).map fun l => (l, addrOf w s l)
    checkScr s true z lanes
    .ok (lanes.foldl (fun s l => scrWrite (myTeam s).uid l.2.toNat (groupBytes s.g w.data.toNat l.1 z) s) s)

/-- `pref`: the blocks that the lanes which pass their checks touch are brought in (R29, R211). `code` 1 brings them into their slices alone. -/
def execPref (w : MWord) (s : State) : Out :=
  wordOr (mLen w) w.nxt s do
    need bad (modOk {} w.pre && laneAddrOk w s && w.data == 0 && decide (w.hint.toNat < 2))
    let z := 2 ^ w.w.toNat
    let lanes := (lanesOf (active s.g)).map fun l => (l, addrOf w s l)
    let s := fillPages (lanes.map (·.2)) s
    let ok := lanes.filter fun l => match checkLane s { r := true } l.2 z with | .ok _ => true | .error _ => false
    let rs ← checkLanes s { r := true } 0 z ok
    let lines := (distinctLines rs).filter fun r => !lineOwned s r.line
    if lineWaits s lines then .ok none
    else
    let o := { mkOp w s .pref with code := w.hint.toNat, lanes := rs.map (·.1), lines := lines }
    .ok (some (if lines.isEmpty then s else sendLoad o (addOp o s)))

end Sys2Proof.Machine
end

