-- ==== Sys2Proof/Machine/Atomic.lean ====
section
/-! DEFINITION. Atomics at the home slice (R212–R215) and `weir` (R217–R219). -/

namespace Sys2Proof.Machine

/-! ## Operand groups (R212) -/

/-- Registers of the group G0 (and G1) of an atomic, aligned and allocated. -/
def atomGroupOk (w : MWord) (s : State) (two : Bool) : Bool :=
  let len := (if w.w = 3 then 2 else 1) * (if two then 2 else 1)
  w.data.toNat % len == 0 && decide (w.data.toNat + len ≤ s.g.regs)

def groupVal (g : Gang) (wide : Bool) (r l : Nat) : Nat := if wide then (pairGet g r l).toNat else (vGet g r l).toNat

/-! ## The operations (R213, R215): the new word and the result, from the word and the operands -/

abbrev AtomFun := Nat → Nat → Nat → Nat → Nat × Nat

/-- A float sum, rounded once under RNE; −0 only from two −0 (R215). -/
def faddCode (f : Fmt) (a b : Nat) : Nat := (rnd f .rne false 0 (vadd false (decodeF f a) (decodeF f b)).1).1

/-- The operation of an atomic: opcode, type code, width in bits. -/
def atomFun (code ty : Nat) : AtomFun := fun bits m g0 g1 =>
  let uns := ty == 7 || ty == 8
  match code with
  | 0xB6 => ((m + g0) % 2 ^ bits, m)
  | 0xB7 => (minV (!uns) bits m g0, m)
  | 0xB8 => (maxV (!uns) bits m g0, m)
  | 0xB9 => (m &&& g0, m)
  | 0xBA => (m ||| g0, m)
  | 0xBB => (m ^^^ g0, m)
  | 0xBC => (g0, m)
  | 0xBD => (if m = g0 then g1 else m, m)
  | 0xBE =>
    if ty = 14 then (faddCode bf16 (m % 65536) (g0 % 65536) + 65536 * faddCode bf16 (m / 65536) (g0 / 65536), m)
    else (faddCode (if bits = 64 then f64 else f32) m g0, m)
  | 0xBF => (if m < g0 then m + 1 else m, m)
  | 0xC0 => ((m &&& notV bits g1) ||| (g0 &&& g1), m)
  | 0xC1 =>
    match (List.range 64).find? fun j => !m.testBit j && g0.testBit j with
    | some j => let n := m + 2 ^ j; (n, j + popcV 64 n * 2 ^ 32)
    | none => (m, 64 + popcV 64 m * 2 ^ 32)
  | _ => (if popcV bits (m ||| g0) ≤ g1 % 128 then m ||| g0 else m, m)

/-- The issuing cluster gives up its copies of BULK lines that atomics go to, its dirty bytes first (R214). -/
def yieldLines (lines : List LineReq) (s : State) : State :=
  let t := myTeam s
  (lines.filter (·.bulk)).foldl (fun s r => dropCopy (clusterOf t.core) t.ctx r.line (collect (clusterOf t.core) t.ctx r.line s)) s

/-- Whether it can do so now. -/
def mayYield (s : State) (lines : List LineReq) : Bool :=
  let t := myTeam s
  (lines.filter (·.bulk)).all fun r => collectable s (clusterOf t.core) t.ctx r.line

/-- An atomic's issue: its checks and its operation (R204, R212, R213). `ok` says which TYPE codes may stand with each
width. -/
def atom (code : Nat) (two : Bool) (ok : Nat → Nat → Bool) (w : MWord) (s : State) : Out :=
  wordOr (mLen w) w.nxt s do
    need bad (modOk { ty := true } w.pre && ok w.w.toNat (typeCode w.pre) && laneAddrOk w s && atomGroupOk w s two && decide (w.hint.toNat < 2))
    let z := 2 ^ w.w.toNat
    let wide := w.w == 3
    let lanes := (lanesOf (active s.g)).map fun l => (l, addrOf w s l)
    let s := fillPages (lanes.map (·.2)) s
    let rs ← checkLanes s { r := true, w := true } 2 z lanes
    let lines := distinctLines rs
    if lineWaits s lines || !mayYield s lines then .ok none
    else if rs.isEmpty then .ok (some s)
    else
      let d := w.data.toNat
      let step := if wide then 2 else 1
      let req := fun (r : LaneReq × LineReq) => { r.1 with
        g0 := BitVec.ofNat 64 (groupVal s.g wide d r.1.lane)
        g1 := if two then BitVec.ofNat 64 (groupVal s.g wide (d + step) r.1.lane) else 0 }
      let o := { mkOp w s .atomic with code := code, dst := d, wr := w.hint == 0, lanes := rs.map req, lines := lines }
      .ok (some (dueLines .atomicAtHome .storeTimeReturn o (addOp o (yieldLines lines s))))

def anyW (w ty : Nat) : Bool := (w == 2 || w == 3) && ty == 0
def minmaxW (w ty : Nat) : Bool := (w == 2 && (ty == 0 || ty == 7)) || (w == 3 && (ty == 0 || ty == 8))
def faddW (w ty : Nat) : Bool := (w == 2 && (ty == 0 || ty == 14)) || (w == 3 && ty == 0)

def execAtomAdd (w : MWord) (s : State) : Out := atom 0xB6 false anyW w s
def execAtomMin (w : MWord) (s : State) : Out := atom 0xB7 false minmaxW w s
def execAtomMax (w : MWord) (s : State) : Out := atom 0xB8 false minmaxW w s
def execAtomAnd (w : MWord) (s : State) : Out := atom 0xB9 false anyW w s
def execAtomOr (w : MWord) (s : State) : Out := atom 0xBA false anyW w s
def execAtomXor (w : MWord) (s : State) : Out := atom 0xBB false anyW w s
def execAtomXchg (w : MWord) (s : State) : Out := atom 0xBC false anyW w s
def execAtomCas (w : MWord) (s : State) : Out := atom 0xBD true anyW w s
def execAtomFadd (w : MWord) (s : State) : Out := atom 0xBE false faddW w s
def execAtomBinc (w : MWord) (s : State) : Out := atom 0xBF false anyW w s
def execAtomBfins (w : MWord) (s : State) : Out := atom 0xC0 true anyW w s
def execAtomFfcs (w : MWord) (s : State) : Out := atom 0xC1 false (fun w ty => w == 3 && ty == 0) w s
def execAtomPlset (w : MWord) (s : State) : Out := atom 0xC2 true anyW w s

/-- ATOMIC_AT_HOME: the atomics of one instruction on one line, in lane order, each seeing the word its predecessors left and
taking its own time (R184, R213, R214). -/
def execAtomicAtHome (s : State) : Out :=
  match opOf s s.obj.1 with
  | none => .next s
  | some o => match o.lines.find? (fun r => r.line == s.obj.2 && !r.granted) with
    | none => .next s
    | some r =>
      match arrivalGuard .atomicAtHome o r false s with
      | some out => out
      | none =>
        let o := sentOp s o
        let s := countAccess r o.ctx s
        let cluster := clusterOf (gangTeam s o.gang).core
        let run := fun (a : State × List LaneReq × Nat) (l : LaneReq) =>
          if l.pa / 128 ≠ r.line then (a.1, a.2.1 ++ [l], a.2.2)
          else
            let m := leNat (homeBytes a.1 l.pa l.size)
            let nr := atomFun o.code o.ty (8 * l.size) m l.g0.toNat l.g1.toNat
            let bs := leBytes l.size nr.1
            let (s, t) := if r.bulk then (writeBulk r o.ctx l.pa bs 0xFF a.1, 0)
              else let (s, t) := writeHome r o.ctx o.gts l.pa bs 0xFF a.1
                (refreshCopy cluster o.ctx r.line t s, t)
            (s, a.2.1 ++ [{ l with got := leBytes l.size nr.2 }], t)
        let (s, lanes, t) := o.lanes.foldl run (s, [], 0)
        .next (grantLine { o with lanes := lanes } r.line (fun x => { x with time := t }) .storeTimeReturn s)

/-! ## Waiting on a word -/

/-- Whether a slice has a free monitor (R218). -/
def monitorFree (s : State) (slice : Nat) : Bool := decide ((s.monitors.filter (·.slice == slice)).length < 256)

/-- One read of a waited word at its home: true with the line's write time, or a monitor armed if one is free. -/
def weirRead (g pa w : Nat) (tru bulk : Bool) (r : LineReq) (s : State) : State × Option Nat :=
  if tru then (s, some (if bulk then 0 else wtsOf s r.dom r.line))
  else
    let slice := homeOf s r.dom r.line
    if monitorFree s slice then ({ s with monitors := s.monitors ++ [⟨g, pa, w, slice, r.dom⟩] }, none) else (due .weirPoll g s, none)

/-- Whether every ORDERED access that the moving gang has issued has returned its time, as what it reads at a home at once must come after them
(R183, R185). -/
def allDone (s : State) : Bool := earlierDone s { id := s.nextId, gang := s.g.gid, kind := .other, ctx := 0, cpc := 0, cwi := 0, la := 0, seq := 0 }

/-- `weir` (R217, R218): its first read comes after the gang's earlier ORDERED accesses. -/
def execWeir (w : MWord) (s : State) : Out :=
  waitOr (mLen w) w.nxt s do
    need bad (modOk {} w.pre && (isS w.base.toNat || w.base == 192) && w.idx == 0xFF && (w.w == 2 || w.w == 3) && dataS w && w.la == 0
      && decide (w.sc.toNat < 5) && decide (w.hint.toNat < 2) && (w.hint == 0 || w.sc == 2 || w.sc == 3))
    if active s.g = 0 then .ok (some (s, .none))
    else
      let z := 2 ^ w.w.toNat
      -- SC is the condition here, not a shift; there is no index
      let a := addrOf w s 0
      let s := fillPages [a] s
      let rs ← checkLanes s { r := true } 0 z [(lowLane (active s.g), a)]
      match rs with
      | [] => .ok (some (s, .none))
      | (l, q) :: _ =>
        let b := blockOf q.cls (l.pa % 128) (l.pa % 128 + z)
        let r := { q with lo := b.1, hi := b.2 }
        if !allDone s || lineOwned s r.line || refusedLine s (myTeam s).ctx r.line || readBehind s (myTeam s).core r || sliceOf s r.dom r.line ≠ homeOf s r.dom r.line then .ok none
        else
          let ctx := (myTeam s).ctx
          let (s, ev) := enterLine r ctx s
          let s := countAccess r ctx (chargeGang s.g.gid ctx s.g.cl.addr (wordIx s.g) 0 (fun _ => l.lane) ev.toList s)
          let cmp := sGet s.g (sOfData w)
          let tru := weirTrue w.sc.toNat (w.hint == 1) (8 * z) (leNat (homeBytes s l.pa z)) cmp.toNat
          match leafOf s (myTeam s).core ctx a.toNat with
          | .error _ => .ok (some (s, .none))
          | .ok (e, _) =>
            match weirRead s.g.gid l.pa z tru r.bulk r s with
            | (s, some t) => .ok (some ({ s with g := joinTime t s.g }, .none))
            | (s, none) => .ok (some (longLatency s, .weir l.pa z w.sc.toNat (w.hint == 1) cmp r.bulk (pteExt e) a))

/-- WEIR_POLL: a gang without a monitor repeats its first read, whose error events are charged to it as those of any read (R206, R218, R260). -/
def execWeirPoll (s : State) : Out :=
  let g := s.obj.1
  match (gangOf s g).map (fun (x : Gang) => (x.wait, x.wake, x.team)) with
  | some (Wait.weir _ w cond uns cmp bulk _ va, none, team) =>
    if s.monitors.any (·.gang == g) then .next s
    else
      let t := teamOf s team
      match leafOf s t.core t.ctx va.toNat with
      | .error _ => later .weirPoll s
      | .ok (e, z) =>
        let pa := paOf e z va.toNat
        let s := onGang s g fun x => { x with wait := .weir pa w cond uns cmp bulk (pteExt e) va }
        let q := reqOf s e pa va.toNat
        let b := blockOf q.cls (pa % 128) (pa % 128 + w)
        let r := { q with lo := b.1, hi := b.2 }
        if lineOwned s r.line || readBehind s t.core r || sliceOf s r.dom r.line ≠ homeOf s r.dom r.line then later .weirPoll s
        else
          let x := (gangOf s g).getD {}
          let (s, ev) := enterLine r t.ctx s
          let s := countAccess r t.ctx (chargeGang g t.ctx x.cl.addr (wordIx x) 0 (fun _ => lowLane (active x)) ev.toList s)
          match weirRead g pa w (weirTrue cond uns (8 * w) (leNat (homeBytes s pa w)) cmp.toNat) bulk r s with
          | (s, some t) => .next (wakeGang g t s)
          | (s, none) => .next s
  | _ => .next s

end Sys2Proof.Machine
end

