-- ==== Sys2Proof/Machine/Fence.lean ====
section
/-! DEFINITION. Fences and cache maintenance (R191, R194, R220–R222), write-backs and evictions (R190, R194, R258). -/

namespace Sys2Proof.Machine

/-- What a fence or maintenance form covers: virtual lines, or the whole context. -/
structure Cover where
  whole : Bool
  lo : Nat
  hi : Nat
  deriving DecidableEq, Repr

def Cover.has (c : Cover) (va : Nat) : Bool := c.whole || (decide (c.lo ≤ va / 128) && decide (va / 128 < c.hi))

/-- The operand checks of R220, and the cover; none when the form does nothing because no lane is active. -/
def fenceCheck (w : MWord) (s : State) (scopes : Nat) (mustRange : Bool) : Except Raised (Option Cover) := do
  need bad (modOk {} w.pre && decide (w.w.toNat < scopes) && decide (w.hint.toNat < 2) && (!mustRange || w.hint == 1))
  if w.hint = 0 then
    need bad (w.base == 192 && w.idx == 0xFF && w.sc == 0 && w.ofs == 0 && w.data == 0)
    .ok (if active s.g = 0 then none else some ⟨true, 0, 0⟩)
  else
    need bad (uniAddrOk w && dataS w)
    let a := (addrOf w s 0).toNat
    let len := (sGet s.g (sOfData w)).toNat
    need bad (active s.g == 0 || decide (a + len ≤ 2 ^ 64))
    .ok (if active s.g = 0 then none else some ⟨false, a / 128, if len = 0 then a / 128 else ceilDiv (a + len) 128⟩)

/-- Copies of the moving gang's context in its cluster that a cover names. -/
def covered (s : State) (c : Cover) : List Copy :=
  s.copies.filter fun k => !k.remote && k.holder == clusterOfGang s && k.ctx == (myTeam s).ctx && c.has k.va.toNat

/-- The object of a due write-back: cluster and context, and the line. -/
def wbKey (c : Copy) : Nat := c.holder * 4096 + c.ctx

/-- Write-backs become due, each once. -/
def queueWb (cs : List Copy) (s : State) : State :=
  cs.foldl (fun s c => if s.agenda.contains (.writebackAtHome, wbKey c, c.line) then s else due .writebackAtHome (wbKey c) s c.line) s

/-- Fences of a cluster's gangs that wait for the write-back of a line wait for it no more. -/
def fenceWrote (cluster ctx line : Nat) (s : State) : State :=
  endFences { s with ops := s.ops.map fun o => if o.kind == .fence && o.ctx == ctx && opCluster s o == cluster then onLine o line fun r => { r with granted := true } else o }

/-- WRITEBACK_AT_HOME: the dirty bytes of a cluster's BULK copy reach their home, and only they replace bytes there (R190,
R191). What `wbReady` names is waited for; one that is refused and that no fence waits for leaves the line dirty (R194). -/
def execWritebackAtHome (s : State) : Out :=
  let cluster := s.obj.1 / 4096
  let ctx := s.obj.1 % 4096
  match copyOf s cluster ctx s.obj.2 with
  | none => .next (fenceWrote cluster ctx s.obj.2 s)
  | some c =>
    if c.dirty.isEmpty then .next (fenceWrote cluster ctx s.obj.2 s)
    else if !wbReady s c then later .writebackAtHome s
    else if refusedWb s (c.holder * 4) c then .next s
    else .next (fenceWrote cluster ctx s.obj.2 (writeBackCopy c s))

/-- EVICTION_WRITEBACK: a line leaves a cluster cache (object below 1,024), or a slice (1,024 + slice), with its remote copies
there; a pinned line stays (R190, R194, R227, R258). -/
def execEvictionWriteback (s : State) : Out :=
  let line := s.obj.2
  if s.obj.1 < 1024 then
    .next ((s.copies.filter fun c => !c.remote && c.holder == s.obj.1 && c.line == line).foldl (fun s c => evictCopy c s) s)
  else
    let slice := s.obj.1 - 1024
    let s := { s with copies := s.copies.filter fun c => !(c.remote && c.holder == slice && c.line == line) }
    match scOf s line with
    | some x => .next (if x.slice = slice && !pinned s x && !lineOwned s line then leaveSlice line s else s)
    | none => .next s

/-- Earlier stores of the gang that are not yet performed. -/
def storesOut (s : State) : Bool := (opsOf s s.g.gid).any fun o => isStoreKind o.kind

/-- Dirty BULK copies that a cover names. -/
def dirtyIn (s : State) (c : Cover) : List Copy := (covered s c).filter fun k => k.bulk && !k.dirty.isEmpty

/-- WRITEBACK_DENIED, precisely, with one record per refused line (R194, R301): the refused lines of a cover are quarantined, and its others are written
back. -/
def denied (lines : List Copy) (held good : List Copy) (s : State) : Out :=
  let s := lines.foldl (fun s c => setCopy { c with quarantined := true } s) s
  raise { cause := .writebackDenied, lost := (lines.length + held.length) - 32, lanes := 1#32 <<< lowLane (active s.g)
          recs := (held ++ lines).map fun c => mkRec .writebackDenied c.va.toNat (lowLane (active s.g)) 5 c.cls 0 0 } (queueWb good s)

/-- The core's refused entries of the context, which its next `fence.rel` names (R194). DEDUCED (log entry 127): an entry is not tried again, so that
every `fence.rel` there names it until it is discarded. -/
def heldEntries (s : State) : List Copy :=
  (s.refused.filter fun r => r.core == (myTeam s).core && r.copy.ctx == (myTeam s).ctx).map (·.copy)

/-- A maintenance form that writes back dirty lines: it waits for the gang's earlier stores, is refused as R194 gives, waits for the
write-backs, and ends with `after`. -/
def writeBackForm (w : MWord) (s : State) (after : Cover → State → State) : Out :=
  if exitRefused s.g w.nxt then raise (plain .illegalClause) s
  else match fenceCheck w s 1 false with
  | .error r => raise r s
  | .ok none => word (mLen w) w.nxt s (.ok s)
  | .ok (some c) =>
    if storesOut s then stall s
    else
      let (ref, good) := (dirtyIn s c).partition (refusedWb s (myTeam s).core)
      if !ref.isEmpty then denied ref [] good s
      else if !(dirtyIn s c).isEmpty then stall (queueWb (dirtyIn s c) s)
      else word (mLen w) w.nxt s (.ok (after c s))

/-- A fence as an operation: its cover in one lane. -/
def fenceOp (w : MWord) (s : State) (code : Nat) (c : Cover) : Op :=
  { mkOp w s .fence with code := code, lanes := [{ lane := 0, va := BitVec.ofNat 64 c.lo, pa := c.hi, size := if c.whole then 0 else 1 }] }

/-- `fence.rel` (R191, R194, R221): it is outstanding until the gang's earlier stores are performed and, at DIE, DEVICE and SYSTEM scope, the BULK lines
that are dirty at its issue are at their homes; what it orders waits at its word (`mayPass`). A nameless store that has yet to dirty its chunk is waited for
first. -/
def execFenceRel (w : MWord) (s : State) : Out :=
  if exitRefused s.g w.nxt then raise (plain .illegalClause) s
  else match fenceCheck w s 5 false with
  | .error r => raise r s
  | .ok none => word (mLen w) w.nxt s (.ok s)
  | .ok (some c) =>
    let wb := decide (2 ≤ w.w.toNat)
    if wb && (opsOf s s.g.gid).any (·.kind == .stn) then stall s
    else
      let dirty := if wb then dirtyIn s c else []
      let (ref, good) := dirty.partition (refusedWb s (myTeam s).core)
      if !(ref.isEmpty && (heldEntries s).isEmpty) then denied ref (heldEntries s) good s
      else word (mLen w) w.nxt s (.ok (endFences (queueWb dirty (addOp { fenceOp w s 0xC5 c with lines := dirty.map copyReq } s))))

/-- `clean` (R222). -/
def execClean (w : MWord) (s : State) : Out := writeBackForm w s fun _ s => s

/-- Drops the gang's cluster's copies that p picks among those a cover names. -/
def dropCovered (p : Copy → Bool) (c : Cover) (s : State) : State :=
  (((covered s c).filter p).foldl (fun s k => dropCopy k.holder k.ctx k.line s) s)

/-- `inval` (R222): written back, then BULK lines and lease copies are invalidated. -/
def execInval (w : MWord) (s : State) : Out := writeBackForm w s (dropCovered fun _ => true)

/-- `fence.acq` (R191, R192, R221): it is outstanding until the gang's earlier loads are performed, and then, at DIE, DEVICE and SYSTEM scope, clean BULK
lines go; what it orders waits at its word (`mayPass`). -/
def execFenceAcq (w : MWord) (s : State) : Out :=
  word (mLen w) w.nxt s do
    match ← fenceCheck w s 5 false with
    | none => .ok s
    | some c => .ok (endFences (addOp (fenceOp w s 0xC6 c) s))

/-- `clean.discard` (R222): every line in range goes without write-back, quarantined ones and refused entries too. -/
def execCleanDiscard (w : MWord) (s : State) : Out :=
  word (mLen w) w.nxt s do
    match ← fenceCheck w s 1 true with
    | none => .ok s
    | some c =>
      let core := (myTeam s).core
      let ctx := (myTeam s).ctx
      let s := { s with refused := s.refused.filter fun r => !(r.core == core && r.copy.ctx == ctx && c.has r.copy.va.toNat) }
      .ok (dropCovered (fun _ => true) c s)

end Sys2Proof.Machine
end

