-- ==== Sys2Proof/Machine/Pools.lean ====
section
/-! DEFINITION. Nameless pools (R268–R271), nameless stores and `rlq` (R223–R226), and the blocks that uniform forms read and
write at once (R169). -/

namespace Sys2Proof.Machine

/-- The elected lane of a uniform form: the lowest active one. -/
def elected (s : State) : Nat := lowLane (active s.g)

/-- A cause of a uniform form, with one record. -/
def uniCause (s : State) (c : Cause) (addr : Nat) (acc aux : Nat := 0) : Raised := one c addr (1#32 <<< elected s) acc aux

/-- One whose record names a memory address, with the class of its page (R301). -/
def memCause (s : State) (c : Cause) (addr : Nat) (acc aux : Nat := 0) : Raised :=
  { cause := c, lanes := 1#32 <<< elected s, recs := [mkRec c addr (elected s) acc (clsOf s (myTeam s).core (myTeam s).ctx addr) 0 aux] }

/-! ## Pool registers (R268) -/

def poolKey (ctx n : Nat) : Nat := 16 * ctx + n
def poolOn (s : State) (ctx n : Nat) : Bool := (regGet s 0x019 (poolKey ctx n)).getLsbD 63
def poolBase (s : State) (ctx n : Nat) : Nat := (regGet s 0x018 (poolKey ctx n)).toNat / 65536 * 65536
def poolLen (s : State) (ctx n : Nat) : Nat := regField s 0x019 (poolKey ctx n) 31 0 * 65536
/-- Bytes of a chunk, from CHK. -/
def chunkSize (chk : Nat) : Nat := if chk = 0 then 512 else if chk = 1 then 4096 else 65536
def poolChunk (s : State) (ctx n : Nat) : Nat := chunkSize (regField s 0x019 (poolKey ctx n) 62 61)

/-- The enabled pool of a context that p picks. -/
def findPool (s : State) (ctx : Nat) (p : Nat → Bool) : Option Nat := (List.range 16).find? fun n => poolOn s ctx n && p n

/-- Chunks taken, by index from the base (R270). -/
def takenOf (s : State) (ctx n : Nat) : List Nat := (((ctxOf s ctx).taken.find? (·.1 == n)).map (·.2.2)).getD []

/-- How many chunks a pool was enabled with: what PLC says of a disabled one does not count (R269). -/
def chunksOf (s : State) (ctx n : Nat) : Nat := (((ctxOf s ctx).taken.find? (·.1 == n)).map (·.2.1)).getD 0

/-- Sets the basin map of a pool of `count` chunks, and its FREE. -/
def setTaken (ctx n count : Nat) (l : List Nat) (s : State) : State :=
  let c := ctxOf s ctx
  let s := setCtx s { c with taken := (n, count, l) :: c.taken.filter (·.1 != n) }
  regSet s 0x01A (poolKey ctx n) (BitVec.ofNat 64 (min (count - l.length) (2 ^ 32 - 1)))

/-- The map and FREE of a disabled pool go with its last operation (R269). -/
def dropTaken (ctx n : Nat) (s : State) : State :=
  let c := ctxOf s ctx
  regSet (setCtx s { c with taken := c.taken.filter (·.1 != n) }) 0x01A (poolKey ctx n) 0

/-- Operations outstanding on a pool. -/
def poolBusy (s : State) (ctx n : Nat) : Bool := s.ops.any fun o => o.ctx == ctx && match o.kind with
  | .stn => o.pool == n
  | .rlq => o.lanes.any fun l => l.g0.toNat == n
  | _ => false

/-- After an operation of a pool: a map without a pool goes with the last. -/
def poolIdle (ctx n : Nat) (s : State) : State := if poolOn s ctx n || poolBusy s ctx n then s else dropTaken ctx n s

/-- First byte of every page of a pool. -/
def poolPages (s : State) (ctx n : Nat) : List Nat :=
  (List.range (regField s 0x019 (poolKey ctx n) 31 0)).map fun i => poolBase s ctx n + 65536 * i

/-- POOL_ENABLE: EN is set where R269 and R385 admit it; every chunk is then free. -/
def execPoolEnable (inst : Nat) (val : DWord) (s : State) : Out :=
  let ctx := inst / 16
  let n := inst % 16
  if poolOn s ctx n || !val.getLsbD 63 then .next s
  else
    let clean : DWord := val &&& 0xFC000000FFFFFFFF
    let t := regSet s 0x019 inst clean
    let cls := field val.toNat 60 59
    let lo := poolBase t ctx n
    let len := poolLen t ctx n
    let mapped := (poolPages t ctx n).all fun a => match (walk t ctx a).1 with
      | .ok (e, _) => pteR e && pteW e && pteCls e == cls
      | .error _ => false
    let apart := (List.range 16).all fun m => m == n || !poolOn s ctx m || disjoint lo len (poolBase s ctx m) (poolLen s ctx m)
    if field val.toNat 62 61 ≠ 3 ∧ cls ≠ 3 ∧ len ≠ 0 ∧ mapped ∧ apart ∧ !poolBusy s ctx n ∧ (!val.getLsbD 58 || Config.moduleForm) then
      let tier := if val.getLsbD 58 then 1 else 0
      let t := setTaken ctx n (len / poolChunk t ctx n) [] t
      .next ((poolPages t ctx n).foldl (fun t a => due .pageMove (ctx * 4 + tier) t (a / 65536)) t)
    else .next s

/-- POOL_DISABLE: a write that clears EN, or one to a pool that is not enabled (R269). -/
def execPoolDisable (inst : Nat) (val : DWord) (s : State) : Out :=
  if val.getLsbD 63 then .next s
  else .next (poolIdle (inst / 16) (inst % 16) (regSet s 0x019 inst (val &&& 0x7C000000FFFFFFFF)))

/-- STACK_LOAD_REPORT: the controllers report each stack's outstanding requests (R270). -/
def execStackLoadReport (loads : List Nat) (s : State) : Out := .next { s with reports := loads }

/-! ## The choice of a chunk (R270) -/

/-- The stack that holds a physical address, tier-1 packages after the stacks (R279). -/
def stackOf (pa : Nat) : Nat := if field pa 51 49 = 0 then 8 * field pa 48 48 + field pa 9 7 else 16 + field pa 48 46

/-- What R270 compares: reported load, stack, address. -/
def chunkRank (s : State) (pa a : Nat) : Nat := (s.reports.getD (stackOf pa) 0 * 32 + stackOf pa) * 2 ^ 64 + a

/-- The free chunk named next: its index, address and physical address, among chunks of `size` bytes from `base`. -/
def chooseChunk (s : State) (ctx core n base len size : Nat) : Option (Nat × Nat) :=
  let taken := takenOf s ctx n
  let free := (List.range (len / size)).filterMap fun i =>
    if taken.contains i then none
    else
      let a := base + size * i
      if (lockedMem s ctx a size).isSome then none
      else match leafOf s core ctx a with
        | .ok (e, z) => some (i, a, chunkRank s (paOf e z a) a)
        | .error _ => none
  (free.foldl (fun (m : Option (Nat × Nat × Nat)) c => match m with
    | none => some c
    | some d => if c.2.2 < d.2.2 then some c else m) none).map fun c => (c.1, c.2.1)

/-! ## `stn`, `stn.blk` (R223–R225) -/

/-- The pool checks 1 to 4 of R223. -/
def poolCheck (s : State) (base : DWord) (need512 : Bool) : Except Raised Nat := do
  let ctx := (myTeam s).ctx
  match findPool s ctx fun n => poolBase s ctx n == base.toNat with
  | none => .error (memCause s .poolInvalid base.toNat 1)
  | some n =>
    need (memCause s .poolInvalid base.toNat 1) (!need512 || poolChunk s ctx n == 512)
    let t := myTeam s
    let k := taskOf s t.task
    let l := elected s
    let fails := fun (c : Cause) (p : Nat → Bool) =>
      ((poolPages s ctx n).filter p).map fun a => (l, (BitVec.ofNat 64 a : DWord), c)
    let out := fails .outOfLease fun a => (rangeRights k a).isNone
    need (laneCause s 1 1 out) out.isEmpty
    let bad := (poolPages s ctx n).filterMap fun a => match checkPage s k t.core { r := true, w := true } (BitVec.ofNat 64 a) with
      | .error c => if c == .keyAbsent then none else some (l, (BitVec.ofNat 64 a : DWord), c)
      | .ok _ => none
    need (laneCause s 1 1 bad) bad.isEmpty
    need (memCause s .keyAbsent base.toNat 1) (ctxOf s ctx).key
    .ok n

/-- The store is outstanding: its bytes in pieces of a line, its pool in every piece; `split` keeps the elected lane. -/
def nameless (w : MWord) (s : State) (n : Nat) (bytes : List Byte) : State :=
  let ctx := (myTeam s).ctx
  let piece := fun i => ({ lane := elected s, va := 0, pa := 0, size := 128, bytes := (bytes.drop (128 * i)).take 128
                           g0 := BitVec.ofNat 64 (poolBase s ctx n), g1 := BitVec.ofNat 64 (poolLen s ctx n) } : LaneReq)
  let o := { mkOp w s .stn with code := w.hint.toNat, dst := w.idx.toNat - 128, wr := true, uni := true, pool := n, split := elected s
                                lanes := (List.range (bytes.length / 128)).map piece }
  due .namelessStoreChoice o.id (addOp o s)

def stnFields (w : MWord) : Bool :=
  modOk {} w.pre && isS w.base.toNat && isS w.idx.toNat && decide (w.hint.toNat < 2) && w.sc == 0 && w.ofs == 0

/-- `stn`. -/
def execStn (w : MWord) (s : State) : Out :=
  word (mLen w) w.nxt s do
    need bad (stnFields w && w.w == 4 && groupOk s.g.regs 4 w.data.toNat)
    if active s.g = 0 then .ok s
    else
      let n ← poolCheck s (sGet s.g (w.base.toNat - 128)) true
      let lane := fun l => if (active s.g).getLsbD l then groupBytes s.g w.data.toNat l 16 else List.replicate 16 0
      .ok (nameless w s n ((List.range 32).flatMap lane))

/-- `stn.blk`. -/
def execStnBlk (w : MWord) (s : State) : Out :=
  wordOr (mLen w) w.nxt s do
    need bad (stnFields w && w.w == 0 && dataS w)
    if active s.g = 0 then .ok (some s)
    else
      let n ← poolCheck s (sGet s.g (w.base.toNat - 128)) false
      let o := (sGet s.g (sOfData w)).toNat
      let c := poolChunk s (myTeam s).ctx n
      need (uniCause s .misaligned o 0) (o % 32 == 0)
      need (uniCause s .scratchRange o 0) (decide (o + c ≤ (myTeam s).scr))
      if scrOwned s (myTeam s).uid o c then .ok none
      else .ok (some (nameless w s n (scrRead s (myTeam s).uid o c)))

/-- NAMELESS_STORE_CHOICE: after the gang's earlier ORDERED accesses and earlier names, the chooser takes a free chunk and its
lines are written under the pool's page attribute; with none free the name is 0, and no piece is left (R224, R225, R270). A refused write-back of one of
its lines is waited for (R194), and of BULK ones room in the cluster cache. -/
def execNamelessStoreChoice (s : State) : Out :=
  match opOf s s.obj.1 with
  | none => .next s
  | some o =>
    if !earlierDone s o then later .namelessStoreChoice s
    else
      let o := sentOp s o
      let core := (gangTeam s o.gang).core
      let size := 128 * o.lanes.length
      let base := ((o.lanes.map LaneReq.g0).headD 0).toNat
      let len := ((o.lanes.map LaneReq.g1).headD 0).toNat
      match chooseChunk s o.ctx core o.pool base len size with
      | none => .next (due .nameReturn o.id (setOp s { o with name := 0, lanes := [] }))
      | some (i, a) =>
        match leafOf s core o.ctx a with
        | .error _ => later .namelessStoreChoice s
        | .ok (e, z) =>
          let rs := o.lanes.mapIdx fun j l =>
            let va := a + 128 * j
            let pa := paOf e z va
            ({ l with va := BitVec.ofNat 64 va, pa := pa }, reqOf s e pa va)
          let o := { o with name := a, lanes := rs.map (·.1) }
          if rs.any fun r => refusedLine s o.ctx r.2.line then later .namelessStoreChoice s
          else
          let take := setTaken o.ctx o.pool (len / size) (insertNat i (takenOf s o.ctx o.pool))
          if pteBulk e then
            let cluster := clusterOf core
            match storeRoom cluster o.ctx (rs.map (·.2)) s with
            | none => later .namelessStoreChoice s
            | some s =>
              let s := rs.foldl (fun s r => storeCopy cluster o.ctx o.gang r.2 r.1.va 0 r.1.bytes 0xFF true s) (setOp (take s) o)
              .next (due .nameReturn o.id s)
          else
            let s := take s
            let o := { o with lines := distinctLines rs }
            .next (dueLines .homeStore .nameReturn o (setOp s o))

/-- NAME_RETURN: every line is performed, and the names of earlier nameless stores of the gang are written: this one is (R224). -/
def execNameReturn (s : State) : Out :=
  match opOf s s.obj.1 with
  | none => .next s
  | some o =>
    if o.kind != .stn || o.lines.any (fun r => !r.granted) then .next s
    else if s.ops.any fun p => p.gang == o.gang && p.kind == .stn && decide (p.id < o.id) then later .nameReturn s
    else
      let t := o.lines.foldl (fun m r => max m r.time) 0
      let s := onGang s o.gang fun g => joinTime t (sSet g o.dst (BitVec.ofNat 64 o.name))
      let s := poolIdle o.ctx o.pool (chargeGang o.gang o.ctx o.cpc o.cwi 1 (lowLaneOf o.lanes) o.events (dropOp s o.id))
      let base := poolBase s o.ctx o.pool
      let r : Raised := { cause := .poolEmpty, cpc := o.cpc, cwi := o.cwi, lanes := 1#32 <<< o.split
                          recs := [mkRec .poolEmpty base o.split 1 (clsOf s (gangTeam s o.gang).core o.ctx base) 0 0] }
      .next (if o.lanes.isEmpty ∧ o.code = 1 then pendCause o.gang r s else s)

/-! ## `rlq` (R226) -/

/-- The checks of one lane: those of R204, then its pool and alignment. -/
def rlqLane (s : State) (l : Nat) (a : DWord) : Except (Nat × DWord × Cause) (Nat × Nat) :=
  let ctx := (myTeam s).ctx
  match checkLane s { r := true, w := true } a 1 with
  | .error c => .error (l, a, c)
  | .ok _ =>
    match findPool s ctx fun n => decide (poolBase s ctx n ≤ a.toNat) && decide (a.toNat < poolBase s ctx n + poolLen s ctx n) with
    | none => .error (l, a, .poolInvalid)
    | some n => if a.toNat % poolChunk s ctx n ≠ 0 then .error (l, a, .misaligned)
      else .ok (n, (a.toNat - poolBase s ctx n) / poolChunk s ctx n)

/-- `rlq`. -/
def execRlq (w : MWord) (s : State) : Out :=
  word (mLen w) w.nxt s do
    need bad (modOk {} w.pre && laneAddrOk w s && w.w == 0 && w.data == 0 && w.hint == 0)
    let lanes := ((lanesOf (active s.g)).map fun l => (l, addrOf w s l)).filter fun l => l.2 != 0
    let s := fillPages (lanes.map (·.2)) s
    let rs := lanes.map fun l => (l, rlqLane s l.1 l.2)
    let fails := rs.filterMap fun r => match r.2 with | .error f => some f | .ok _ => none
    need (laneCause s 1 1 fails) fails.isEmpty
    if lanes.isEmpty then .ok s
    else
      let req := fun (r : (Nat × DWord) × Except (Nat × DWord × Cause) (Nat × Nat)) => match r.2 with
        | .ok (n, i) => some ({ lane := r.1.1, va := r.1.2, pa := 0, size := 0, g0 := BitVec.ofNat 64 n, g1 := BitVec.ofNat 64 i } : LaneReq)
        | .error _ => none
      let o := { mkOp w s .rlq with lanes := rs.filterMap req }
      .ok (due .rlqApply o.id (addOp o s))

/-- RLQ_APPLY: after the gang's earlier ORDERED accesses the basin maps free the chunks, lane by lane; a chunk found free raises
RLQ_FREE at the gang's next boundary (R226, R271). -/
def execRlqApply (s : State) : Out :=
  match opOf s s.obj.1 with
  | none => .next s
  | some o =>
    if o.kind != .rlq then .next s
    else if !earlierDone s o then later .rlqApply s
    else
      let (s, dup) := o.lanes.foldl (fun (a : State × List LaneReq) l =>
        let n := l.g0.toNat
        let taken := takenOf a.1 o.ctx n
        if taken.contains l.g1.toNat then
          (setTaken o.ctx n (chunksOf a.1 o.ctx n) (taken.filter (· != l.g1.toNat)) a.1, a.2)
        else (a.1, a.2 ++ [l])) (s, [])
      let s := o.lanes.foldl (fun s l => poolIdle o.ctx l.g0.toNat s) (dropOp s o.id)
      .next (match dup with
        | [] => s
        | l :: _ => pendCause o.gang { cause := .rlqFree, cpc := o.cpc, cwi := o.cwi, lanes := 1#32 <<< l.lane
                                       recs := [mkRec .rlqFree l.va.toNat l.lane 1 (clsOf s (gangTeam s o.gang).core o.ctx l.va.toNat) 0 0] } s)

/-! ## Blocks read and written at once (R169) -/

/-- Pieces of at most a line of n bytes at a virtual address. -/
def pieces (va n : Nat) : List (Nat × Nat) :=
  (List.range (if n = 0 then 0 else (va + n - 1) / 128 - va / 128 + 1)).map fun i =>
    let lo := max va ((va / 128 + i) * 128)
    (lo, min (va + n) ((va / 128 + i + 1) * 128) - lo)

/-- The checks of a block of n bytes at va, one per page (R204). -/
def checkBlock (s : State) (nd : Need) (acc va n : Nat) : Except Raised Unit := do
  let t := myTeam s
  let pages := dedup ((pieces va n).map fun p => p.1 / 65536)
  let fails := pages.filterMap fun p =>
    let a : DWord := BitVec.ofNat 64 (max va (p * 65536))
    match checkPage s (taskOf s t.task) t.core nd a with
    | .error c => some (elected s, a, c)
    | .ok _ => none
  need (laneCause s acc 1 fails) fails.isEmpty

/-- What a line's request is, and the physical address of a byte in it, where its page is mapped. -/
def lineReq (s : State) (core ctx va : Nat) : Option (LineReq × Nat) :=
  match leafOf s core ctx va with
  | .ok (e, z) => some (reqOf s e (paOf e z va) va, paOf e z va)
  | .error _ => none

/-- Whether an agent may touch a line at its home now (R196, R197, R294). -/
def lineFree (s : State) (r : LineReq) : Bool := !lineOwned s r.line && sliceOf s r.dom r.line == homeOf s r.dom r.line

/-- Whether an engine of a cluster may read a line at its home now: no refused write-back of it waits to be resolved, and what the cluster holds dirty
of a BULK one can go home (R194, R195). -/
def engineReads (s : State) (cluster ctx : Nat) (r : LineReq) : Bool := !refusedLine s ctx r.line && (!r.bulk || collectable s cluster ctx r.line)

/-- A line read at its home by an agent of clock g, as an ORDERED load (R181, R195): a BULK line after its cluster's dirty bytes
are written back. Its events are added. -/
def engineLine (cluster ctx g : Nat) (r : LineReq) (s : State) : State × List Event :=
  let s := if r.bulk then collect cluster ctx r.line s else s
  let (s, ev) := enterLine r ctx s
  let s := countAccess r ctx s
  ((grantLoad r g (leaseOf s ctx) s).1, ev.toList)

/-- A block read at once by the moving gang, as loads after its earlier accesses: the state, the bytes, the events. `none` where an access or
line must be waited for (R183, R194). -/
def readBlock (va n : Nat) (s : State) : Option (State × List Byte × List Event) :=
  let t := myTeam s
  let rs := (pieces va n).map fun p => (p, lineReq s t.core t.ctx p.1)
  if storesOut s || !allDone s || rs.any (fun r => match r.2 with | some q => !(lineFree s q.1 && engineReads s (clusterOf t.core) t.ctx q.1) || readBehind s t.core q.1 | none => true) then none
  else some (rs.foldl (fun (a : State × List Byte × List Event) r => match r.2 with
    | none => a
    | some (q, pa) =>
      let (u, ev) := engineLine (clusterOf t.core) t.ctx a.1.g.gts q a.1
      let u := { u with g := if q.bulk then u.g else joinTime (wtsOf u q.dom q.line) u.g }
      (u, a.2.1 ++ homeBytes u pa r.1.2, a.2.2 ++ ev)) (s, [], []))

end Sys2Proof.Machine
end

