-- ==== Sys2Proof/Machine/Lay.lean ====
section
/-! DEFINITION. Elements through a layout slot (R229, R230) and the layout instructions (R169–R174). -/

namespace Sys2Proof.Machine

/-! ## Operands (R169, R170) -/

/-- The slot in DATA. -/
def slotOperand (w : MWord) (s : State) : Except Raised Nat :=
  let v := if w.data.getLsbD 6 then (sGet s.g (w.data.toNat % 64)).toNat else w.data.toNat
  if v < 64 then .ok v else .error bad

/-- The slot in IDX and OFS. -/
def slotByIdx (w : MWord) (s : State) : Except Raised Nat :=
  let v := if w.idx = 0xFF then w.ofs.toNat else (sGet s.g (w.idx.toNat - 128)).toNat
  if (w.idx == 0xFF || (isS w.idx.toNat && w.ofs == 0)) && decide (v < 64) then .ok v else .error bad

/-- A layout cause, whose record names the slot (R177). -/
def slotCause (s : State) (c : Cause) (slot : Nat) (acc : Nat := 7) : Raised := uniCause s c 0 acc slot

/-- Field checks of a form with a uniform address and a space. -/
def blockFields (w : MWord) : Bool := modOk {} w.pre && uniAddrOk w && decide (w.hint.toNat < 2)

/-- A block of n bytes at the form's uniform address in its space: aligned, in range or mapped, and read at once (R169). -/
def blockAt (w : MWord) (n : Nat) (s : State) : Except Raised (Option (State × List Byte × List Event)) := do
  let a := (addrOf w s 0).toNat
  need (if w.hint = 1 then uniCause s .misaligned a else memCause s .misaligned a) (a % 64 == 0)
  if w.hint = 1 then
    need (uniCause s .scratchRange a) (decide (a + n ≤ (myTeam s).scr))
    if scrOwned s (myTeam s).uid a n then .ok none
    else .ok (some (s, scrRead s (myTeam s).uid a n, []))
  else
    checkBlock s { r := true } 0 a n
    .ok (readBlock a n s)

/-- The events of a block are charged to the gang as those of a load. -/
def chargeBlock (s0 : State) (evs : List Event) (s : State) : State :=
  if evs.isEmpty then s else chargeGang s.g.gid (myTeam s).ctx s0.g.cl.addr (wordIx s0.g) 0 (fun _ => elected s0) evs s

/-- A descriptor read: its bytes as far as they are needed (R147). -/
def descAt (w : MWord) (s : State) : Except Raised (Option (State × List Byte)) := do
  match ← blockAt w 64 s with
  | none => .ok none
  | some (_, h, _) => match ← blockAt w (descLen h) s with
    | none => .ok none
    | some (t, bs, evs) => .ok (some (chargeBlock s evs t, bs))

/-! ## `lay.set`, `lay.get`, `lay.chk`, `lay.free` (R171, R172, R174) -/

/-- `lay.set`. -/
def execLaySet (w : MWord) (s : State) : Out :=
  wordOr (mLen w) w.nxt s do
    need bad (blockFields w && w.w == 0)
    if active s.g = 0 then .ok (some s)
    else
      let n ← slotOperand w s
      match ← descAt w s with
      | none => .ok none
      | some (t, bs) =>
        let ctx := (myTeam s).ctx
        let x := descSlot bs
        need (slotCause s .slotBusy n) (!(writeBusy s ctx n || readBusy s ctx n))
        need (slotCause s .layoutInvalid n) (descOk bs s.g.regs (myTeam s).scr)
        need (slotCause s .layoutSingular n) (rankOf x.n x.cols == x.n)
        let (id, t) := newId t
        .ok (some (setSlot ctx n (some { x with gen := id }) t))

/-- Bytes written at the form's uniform address as a store. -/
def blockStore (w : MWord) (bs : List Byte) (s : State) : Except Raised (Option State) := do
  let a := (addrOf w s 0).toNat
  let t := myTeam s
  need (if w.hint = 1 then uniCause s .misaligned a 1 else memCause s .misaligned a 1) (a % 64 == 0)
  if w.hint = 1 then
    need (uniCause s .scratchRange a 1) (decide (a + bs.length ≤ t.scr))
    need (uniCause s .relayWriteLocked 0 1 ((lockedScr s t.uid a bs.length).getD 0)) (lockedScr s t.uid a bs.length).isNone
    .ok (some (scrWrite t.uid a bs s))
  else
    checkBlock s { w := true } 1 a bs.length
    need (uniCause s .relayWriteLocked 0 1 ((lockedMem s t.ctx a bs.length).getD 0)) (lockedMem s t.ctx a bs.length).isNone
    let rs := (pieces a bs.length).filterMap fun p => (lineReq s t.core t.ctx p.1).map fun q =>
      ({ lane := elected s, va := BitVec.ofNat 64 p.1, pa := q.2, size := p.2, bytes := (bs.drop (p.1 - a)).take p.2 }, q.1)
    if lineWaits s (distinctLines rs) false then .ok none
    else .ok ((storeRoom (clusterOf t.core) t.ctx (distinctLines rs) s).map (sendStore (mkOp w s .store) false rs))

/-- `lay.get`. -/
def execLayGet (w : MWord) (s : State) : Out :=
  wordOr (mLen w) w.nxt s do
    need bad (blockFields w && w.w == 0)
    if active s.g = 0 then .ok (some s)
    else
      let n ← slotOperand w s
      let ctx := (myTeam s).ctx
      blockStore w (match slotOf s ctx n with
        | some x => slotBytes x (writeBusy s ctx n || readBusy s ctx n)
        | none => List.replicate 64 0) s

/-- What `lay.chk` answers of a descriptor. -/
def chkCode (bs : List Byte) (regs alloc : Nat) : Nat :=
  if descOk bs regs alloc then
    let x := descSlot bs
    let r := rankOf x.n x.cols
    (if r < x.n then 0x41 else 0) + 256 * r + 65536 * x.n
  else 0x44

/-- `lay.chk`. -/
def execLayChk (w : MWord) (s : State) : Out :=
  wordOr (mLen w) w.nxt s do
    need bad (blockFields w && w.w == 1 && dataS w)
    if active s.g = 0 then .ok (some s)
    else
      match ← descAt w s with
      | none => .ok none
      | some (t, bs) => .ok (some { t with g := sSet t.g (sOfData w) (BitVec.ofNat 64 (chkCode bs s.g.regs (myTeam s).scr)) })

/-- `lay.free`. -/
def execLayFree (w : MWord) (s : State) : Out :=
  word (mLen w) w.nxt s do
    need bad (modOk {} w.pre && w.w == 0 && w.base == 0 && w.idx == 0 && w.sc == 0 && w.ofs == 0 && w.hint == 0)
    if active s.g = 0 then .ok s
    else
      let n ← slotOperand w s
      let ctx := (myTeam s).ctx
      need (slotCause s .slotBusy n) (!(writeBusy s ctx n || readBusy s ctx n))
      .ok (setSlot ctx n none s)

/-! ## Indices of lanes -/

/-- The indices a lane names: bits [31:0] of registers BASE + k (R173, R229). -/
def laneIndices (g : Gang) (base rank l : Nat) : List Nat := (List.range rank).map fun k => (vGet g (base + k) l).toNat

/-- The cause of element accesses whose lanes fail: an index outside the extents names the slot. -/
def elemCause (s : State) (slot acc z : Nat) (fails : List (Nat × DWord × Cause)) : Raised :=
  let lanes := maskOf fun i => fails.any (·.1 == i)
  match fails with
  | [] => bad
  | (l, _, c) :: _ =>
    if c == .indexOutsideExtent then { cause := c, lanes := lanes, recs := [mkRec c 0 l acc 0 0 slot] }
    else if c == .illegalOperand then { bad with lanes := lanes }
    else laneCause s acc z (fails.filter fun f => f.2.2 != .indexOutsideExtent)

/-- `lay.place`'s place word (R155). -/
def placeWord64 (s : State) (x : Slot) (p : Nat) : Nat :=
  let rest := match x.res with
    | 0 =>
      let va := (x.base + BitVec.ofNat 64 (p * x.eltBits / 8)).toNat
      match leafOf s (myTeam s).core (myTeam s).ctx va with
      | .error _ => 0
      | .ok (e, z) =>
        let pa := paOf e z va
        let h := if inStorage e then Config.frameChoice 0 3 va % 512 else homeOf s (pteDom e) (pa / 128)
        pteTier e * 2 ^ 60 + h / 64 * 2 ^ 57 + h / 16 % 4 * 2 ^ 55 + h % 16 * 2 ^ 51
          + (if pteTier e = 0 then (8 * field pa 48 48 + field pa 9 7) * 2 ^ 47 + field pa 14 13 * 2 ^ 45 + field pa 14 10 * 2 ^ 40 else 0)
    | 1 => 0
    | 2 =>
      if x.eszc = 4 then (x.base.toNat + 2 * (p / 32)) * 2 ^ 48 + p % 32 * 2 ^ 40
      else
        let epr := 32 / x.eltBits
        (x.base.toNat + p / (32 * epr)) * 2 ^ 48 + p % epr * 2 ^ 45 + p / epr % 32 * 2 ^ 40
    | _ => x.base0.toNat * 2 ^ 40
  x.res * 2 ^ 62 + rest + p

/-- `lay.place` (R173): the bounds of an SCR or REG footprint are tested against the executing team and gang again (R154). -/
def execLayPlace (w : MWord) (s : State) : Out :=
  word (mLen w) w.nxt s do
    need bad (modOk {} w.pre && w.w == 0 && w.sc == 0 && w.hint == 0 && decide (w.base.toNat < 128) && vregOk s.g.regs true w.data.toNat)
    let n ← slotByIdx w s
    let t := myTeam s
    match slotOf s t.ctx n with
    | none => .error (slotCause s .slotEmpty n)
    | some x =>
      need bad (decide (w.base.toNat + x.rank ≤ s.g.regs) && (x.res != 2 || x.regFits s.g.regs))
      let lanes := (lanesOf (active s.g)).map fun l => (l, laneIndices s.g w.base.toNat x.rank l)
      let va := fun (i : List Nat) => (x.base + BitVec.ofNat 64 (x.place i * x.eltBits / 8) : DWord)
      let s := if x.res = 0 then fillPages ((lanes.filter fun l => inside x.ext l.2).map fun l => va l.2) s else s
      let fails := lanes.filterMap fun l =>
        if !inside x.ext l.2 then some (l.1, (0 : DWord), Cause.indexOutsideExtent)
        else if x.res = 1 && !x.scrFits t.scr then some (l.1, va l.2, Cause.scratchRange)
        else if x.res ≠ 0 then none
        else match checkLane s { r := true } (va l.2) 1 with
          | .error c => some (l.1, va l.2, c)
          | .ok _ => none
      need (elemCause s n 0 1 fails) fails.isEmpty
      let rs := lanes.map fun l => (l.1, BitVec.ofNat 64 (placeWord64 s x (x.place l.2)))
      .ok { s with g := writeLanes true w.data.toNat rs s.g }

/-! ## Elements in registers and scratch -/

/-- Register, lane and shift of a REG element (R153). -/
def regPlace (x : Slot) (b p : Nat) : Nat × Nat × Nat :=
  if x.eszc = 4 then (b + 2 * (p / 32), p % 32, 0)
  else
    let epr := 32 / x.eltBits
    (b + p / (32 * epr), p / epr % 32, p % epr * x.eltBits)

def regElem (g : Gang) (x : Slot) (b p : Nat) : Nat :=
  let r := regPlace x b p
  if x.eszc = 4 then (pairGet g r.1 r.2.1).toNat else (vGet g r.1 r.2.1).toNat / 2 ^ r.2.2 % 2 ^ x.eltBits

def setRegElem (g : Gang) (x : Slot) (b p v : Nat) : Gang :=
  let r := regPlace x b p
  if x.eszc = 4 then pairSet g r.1 r.2.1 (BitVec.ofNat 64 v)
  else
    let old := (vGet g r.1 r.2.1).toNat
    vSet g r.1 r.2.1 (BitVec.ofNat 32 (old - old / 2 ^ r.2.2 % 2 ^ x.eltBits * 2 ^ r.2.2 + v % 2 ^ x.eltBits * 2 ^ r.2.2))

/-- An element in a byte string by its place, and one replaced: 4-bit elements are nibbles (R100). -/
def byteElem (rd : Nat → Nat → List Byte) (bits p : Nat) : Nat :=
  if bits = 4 then leNat (rd (p / 2) 1) / 16 ^ (p % 2) % 16 else leNat (rd (p * bits / 8) (bits / 8))

/-- Registers of an element's data group (R229). -/
def elemRegs (x : Slot) : Nat := max 1 (x.eltBits / 32)

/-- The bytes a lane stores, from its data group, and the mask of a nibble. -/
def elemBytes (g : Gang) (x : Slot) (data l shift : Nat) : List Byte × Byte :=
  if x.eszc = 0 then
    let v := (vGet g data l).toNat % 16 * 2 ^ shift
    ([BitVec.ofNat 8 v], BitVec.ofNat 8 (15 * 2 ^ shift))
  else (groupBytes g data l (x.eltBits / 8), 0xFF)

def groupNat (g : Gang) (data l z : Nat) : Nat := leNat (groupBytes g data l z)

/-- The registers of REG elements. -/
def elemRegsOf (x : Slot) (lanes : List (Nat × Nat)) : List Nat :=
  lanes.flatMap fun l => let r := (regPlace x x.base.toNat (mulVec x.cols l.2)).1; if x.eszc = 4 then [r, r + 1] else [r]

/-- Whether an element access must wait for a relay (R161). -/
def elemWaits (s : State) (ctx n : Nat) (st : Bool) : Bool :=
  if st then writeBusy s ctx n || readBusy s ctx n
  else s.relays.any fun r => r.writesSlot ctx n && r.kind != .mv

/-- The checks 1 to 3 of R229, then the form's slot. -/
def elemSlot (w : MWord) (s : State) (acc : Nat) : Except Raised (Nat × Slot) := do
  need bad (modOk {} w.pre && w.w == 0 && w.sc == 0 && w.hint == 0 && decide (w.base.toNat < 128))
  let n ← slotByIdx w s
  match slotOf s (myTeam s).ctx n with
  | none => .error (slotCause s .slotEmpty n acc)
  | some x =>
    need bad (x.res != 3)
    need bad (w.data.toNat % elemRegs x == 0 && decide (w.data.toNat + elemRegs x ≤ s.g.regs) && decide (w.base.toNat + x.rank ≤ s.g.regs))
    .ok (n, x)

/-- The checks of the lanes (R229): their index bits. The whole footprint is tested against the executing team and gang (R154). -/
def elemLanes (w : MWord) (n : Nat) (x : Slot) (st : Bool) (s : State) : Except Raised (List (Nat × Nat)) := do
  let t := myTeam s
  let z := max 1 (x.eltBits / 8)
  let acc := if st then 1 else 0
  let lanes := (lanesOf (active s.g)).map fun l => (l, laneIndices s.g w.base.toNat x.rank l)
  let fails := lanes.filterMap fun l =>
    let va := (elemReq x l.1 (indexBits x.dims l.2)).va
    if !inside x.ext l.2 then some (l.1, (0 : DWord), Cause.indexOutsideExtent)
    else match x.res with
      | 0 => match checkLane s (if st then { w := true } else { r := true }) va z with
        | .error c => some (l.1, va, c)
        | .ok _ => none
      | 1 =>
        if !x.scrFits t.scr then some (l.1, va, Cause.scratchRange)
        else if st && (lockedScr s t.uid va.toNat z).isSome then some (l.1, va, Cause.relayWriteLocked)
        else none
      | _ => if x.regFits s.g.regs then none else some (l.1, va, Cause.illegalOperand)
  match fails with
  | (l, a, .relayWriteLocked) :: _ =>
    let q := if x.res = 1 then lockedScr s t.uid a.toNat z else lockedMem s t.ctx a.toNat z
    .error { cause := .relayWriteLocked, lanes := maskOf fun i => fails.any (·.1 == i)
             recs := [mkRec .relayWriteLocked 0 l acc 0 0 (q.getD 0)] }
  | _ => need (elemCause s n acc z fails) fails.isEmpty
  .ok (lanes.map fun l => (l.1, indexBits x.dims l.2))

/-- The memory requests of lanes through a slot. -/
def elemReqs (s : State) (x : Slot) (lanes : List (Nat × Nat)) : List (LaneReq × LineReq) :=
  let t := myTeam s
  lanes.filterMap fun l =>
    let q := elemReq x l.1 l.2
    (lineReq s t.core t.ctx q.va.toNat).map fun r => ({ q with pa := r.2 }, r.1)

/-- `ldt` (R229, R230). -/
def execLdt (w : MWord) (s : State) : Out :=
  wordOr (mLen w) w.nxt s do
    let (n, x) ← elemSlot w s 0
    if elemWaits s (myTeam s).ctx n false then .ok none
    else
      let lanes ← elemLanes w n x false s
      let d := w.data.toNat
      let z := max 1 (x.eltBits / 8)
      match x.res with
      | 0 =>
        let s := fillPages (lanes.map fun l => (elemReq x l.1 l.2).va) s
        let rs := elemReqs s x lanes
        if lineWaits s (distinctLines rs) then .ok none
        else if rs.isEmpty then .ok (some s)
        else
          let o := { mkOp w s .load with code := 2, pool := n, gen := x.gen, split := if x.eszc = 0 then 1 else 0, w := Nat.log2 z, ty := 0, dst := d, wr := true, lanes := rs.map (·.1), lines := distinctLines rs }
          .ok (some (sendLoad o (addOp o s)))
      | 1 =>
        let t := (myTeam s).uid
        if lanes.any (fun l => scrOwned s t (elemReq x l.1 l.2).va.toNat z) then .ok none
        else
          let put := fun (g : Gang) (l : Nat × Nat) =>
            let v := byteElem (fun o k => scrRead s t (x.base.toNat + o) k) x.eltBits (mulVec x.cols l.2)
            putGroup d l.1 z 0 (leBytes z v) g
          .ok (some { s with g := lanes.foldl put s.g })
      | _ =>
        if (elemRegsOf x lanes).any fun r => regOwned s s.g.gid r || regAwaited s r then .ok none
        else
          let put := fun (g : Gang) (l : Nat × Nat) => putGroup d l.1 z 0 (leBytes z (regElem s.g x x.base.toNat (mulVec x.cols l.2))) g
          .ok (some { s with g := lanes.foldl put s.g })

/-- `stt` (R229, R230). -/
def execStt (w : MWord) (s : State) : Out :=
  wordOr (mLen w) w.nxt s do
    let (n, x) ← elemSlot w s 1
    if elemWaits s (myTeam s).ctx n true then .ok none
    else
      let lanes ← elemLanes w n x true s
      let d := w.data.toNat
      let z := max 1 (x.eltBits / 8)
      match x.res with
      | 0 =>
        let s := fillPages (lanes.map fun l => (elemReq x l.1 l.2).va) s
        let rs := (elemReqs s x lanes).map fun r =>
          let b := elemBytes s.g x d r.1.lane r.1.g0.toNat
          ({ r.1 with bytes := b.1, mask := b.2 }, r.2)
        if lineWaits s (distinctLines rs) then .ok none
        else .ok ((storeRoom (clusterOfGang s) (myTeam s).ctx (distinctLines rs) s).map (sendStore { mkOp w s .store with ty := 0 } false rs))
      | 1 =>
        let t := (myTeam s).uid
        let put := fun (u : State) (l : Nat × Nat) =>
          let q := elemReq x l.1 l.2
          let b := elemBytes s.g x d l.1 q.g0.toNat
          let new := (b.1.zip (scrRead u t q.va.toNat z)).map fun p => mergeByte p.2 p.1 b.2
          scrWrite t q.va.toNat new u
        .ok (some (lanes.foldl put s))
      | _ =>
        if (elemRegsOf x lanes).any fun r => regLocked s s.g.gid r || regAwaited s r then .ok none
        else
          let put := fun (g : Gang) (l : Nat × Nat) => setRegElem g x x.base.toNat (mulVec x.cols l.2) (groupNat s.g d l.1 z)
          .ok (some { s with g := lanes.foldl put s.g })

end Sys2Proof.Machine
end

