-- ==== Sys2Proof/Machine/Cistern.lean ====
section
/-! DEFINITION. Cisterns (R252–R255). A cistern is 16 bytes of scratch, kept there and nowhere else. -/

namespace Sys2Proof.Machine

/-- The fields of a cistern (R252); COUNT as an integer. The reserved bits stay as they stand. -/
structure Cis where
  lastn : Nat
  phase : Nat
  rsv1  : Nat
  ovf   : Bool
  ext   : Bool
  armed : Bool
  count : Int
  rsv2  : Nat
  deriving DecidableEq, Repr

def cisOf (bs : List Byte) : Cis :=
  let v := leNat bs
  let c := field v 39 0
  { lastn := field v 103 64, phase := field v 63 48, rsv1 := field v 47 43, ovf := v.testBit 42, ext := v.testBit 41, armed := v.testBit 40
    count := if c < 2 ^ 39 then c else (c : Int) - 2 ^ 40, rsv2 := field v 127 104 }

def cisBytes (c : Cis) : List Byte :=
  leBytes 16 ((c.count % 2 ^ 40).toNat + (if c.armed then 2 ^ 40 else 0) + (if c.ext then 2 ^ 41 else 0) + (if c.ovf then 2 ^ 42 else 0)
    + c.rsv1 * 2 ^ 43 + c.phase * 2 ^ 48 + c.lastn * 2 ^ 64 + c.rsv2 * 2 ^ 104)

def readCis (s : State) (team off : Nat) : Cis := cisOf (scrRead s team off 16)

/-- Cistern writes are not forwarded through laterals (R273). -/
def putCis (team off : Nat) (c : Cis) (s : State) : State := scrPut team off (cisBytes c) s

/-- Gangs that wait on the cistern past whose phase it has gone are let go on, with no time (R253). One that meets an overfill
issues its word again (R255). -/
def wakeCis (team off : Nat) (s : State) : State :=
  let c := readCis s team off
  onGangs s (fun x => x.team == team && match x.wait with
      | .cistern o p => o == off && c.phase != p
      | _ => false)
    fun x => if x.wake.isSome then x else { x with wake := some 0 }

/-- `complete` (R253). -/
def Cis.complete (c : Cis) : Cis := { c with phase := (c.phase + 1) % 2 ^ 16, armed := false }

/-- `countdown` (R253). -/
def Cis.countdown (c : Cis) (v : Nat) : Cis :=
  let n := max (c.count - v) (-2 ^ 39)
  let d := { c with count := n }
  if c.armed ∧ !c.ovf then (if n = 0 then d.complete else if n < 0 then { d with ovf := true } else d)
  else if n = -2 ^ 39 then { d with ovf := true } else d

def countDown (team off v : Nat) (s : State) : State := wakeCis team off (putCis team off ((readCis s team off).countdown v) s)

/-- Arming with n (R254): the new object, or none where the sum is out of range. -/
def Cis.arm (c : Cis) (n : Nat) (ext : Bool) : Option Cis :=
  let k := c.count + n
  if k < 0 ∨ k > 2 ^ 39 - 1 then none
  else
    let d := { c with lastn := min ((if c.armed then c.lastn else 0) + n) (2 ^ 40 - 1), count := k, armed := true, ext := c.ext || ext }
    some (if k = 0 then d.complete else d)

/-- The scratch offset BASE + OFS of a form, and its range and alignment (R254, R329). -/
def objectAt (w : MWord) (s : State) (z : Nat) (acc : Nat := 7) (len : Nat := z) : Except Raised Nat := do
  let b := w.base.toNat
  let a := ((if b = 192 then 0 else sGet s.g (b - 128)) + w.ofs.signExtend 64).toNat
  need (uniCause s .misaligned a acc) (a % z == 0)
  need (uniCause s .scratchRange a acc) (decide (a + len ≤ (myTeam s).scr))
  .ok a

/-- BASE is an s register or 192. -/
def baseOk (w : MWord) : Bool := isS w.base.toNat || w.base == 192

/-- An IDX operand: an s register or an inline constant 192–207. -/
def idxNum (w : MWord) (s : State) : Option DWord :=
  let i := w.idx.toNat
  if isS i then some (sGet s.g (i - 128)) else if 192 ≤ i ∧ i < 208 then some (BitVec.ofNat 64 (i - 192)) else none

def cisFields (w : MWord) : Bool := modOk {} w.pre && w.w == 0 && w.sc == 0 && w.la == 0 && baseOk w

/-- The amount n of `cis.arm` and `cis.sub`: bits [63:39] are zero. -/
def cisAmount (w : MWord) (s : State) : Except Raised Nat :=
  match idxNum w s with
  | some v => if v.toNat < 2 ^ 39 then .ok v.toNat else .error bad
  | none => .error bad

/-- A cistern form waits for a relay sector that has yet to land on the object. -/
def cisThen (s : State) (a : Nat) (f : Except Raised State) : Except Raised (Option State) :=
  if scrOwned s (myTeam s).uid a 16 then .ok none else f.map some

/-- `cis.arm` (R254). -/
def execCisArm (w : MWord) (s : State) : Out :=
  wordOr (mLen w) w.nxt s do
    need bad (cisFields w && dataS w && decide (w.hint.toNat < 2) && (idxNum w s).isSome)
    if active s.g = 0 then .ok (some s)
    else
      let n ← cisAmount w s
      let a ← objectAt w s 16
      let t := (myTeam s).uid
      cisThen s a <|
        let c := readCis s t a
        if c.ovf then .error (uniCause s .cisternOverfill a)
        else match c.arm n (w.hint == 1) with
          | none => .error (uniCause s .cisternOverfill a)
          | some d => .ok (wakeCis t a (putCis t a d { s with g := sSet s.g (sOfData w) (BitVec.ofNat 64 c.phase) }))

/-- `cis.rearm` (R254). -/
def execCisRearm (w : MWord) (s : State) : Out :=
  wordOr (mLen w) w.nxt s do
    need bad (cisFields w && dataS w && w.hint == 0 && w.idx == 0xFF)
    if active s.g = 0 then .ok (some s)
    else
      let a ← objectAt w s 16
      let t := (myTeam s).uid
      cisThen s a <|
        let c := readCis s t a
        let u := { s with g := sSet s.g (sOfData w) (BitVec.ofNat 64 c.phase) }
        if c.ovf then .error (uniCause s .cisternOverfill a)
        else if c.armed then .ok u
        else match c.arm c.lastn false with
          | none => .error (uniCause s .cisternOverfill a)
          | some d => .ok (wakeCis t a (putCis t a d u))

/-- `cis.sub` (R254). -/
def execCisSub (w : MWord) (s : State) : Out :=
  wordOr (mLen w) w.nxt s do
    need bad (cisFields w && w.data == 0 && w.hint == 0 && (idxNum w s).isSome)
    if active s.g = 0 then .ok (some s)
    else
      let n ← cisAmount w s
      let a ← objectAt w s 16
      cisThen s a (.ok (countDown (myTeam s).uid a n s))

/-- `cis.rd` (R254). -/
def execCisRd (w : MWord) (s : State) : Out :=
  wordOr (mLen w) w.nxt s do
    need bad (cisFields w && dataS w && w.hint == 0 && w.idx == 0xFF)
    if active s.g = 0 then .ok (some s)
    else
      let a ← objectAt w s 16
      cisThen s a (.ok { s with g := sSet s.g (sOfData w) (BitVec.ofNat 64 (leNat (scrRead s (myTeam s).uid a 8))) })

/-- `cis.wait` (R255). An overfill met while the gang waits is raised at the word, which is then issued again. -/
def execCisWait (w : MWord) (s : State) : Out :=
  waitOr (mLen w) w.nxt s do
    need bad (cisFields w && w.data == 0 && w.hint == 0 && isS w.idx.toNat)
    if active s.g = 0 then .ok (some (s, .none))
    else
      let a ← objectAt w s 16
      let t := (myTeam s).uid
      if scrOwned s t a 16 then .ok none
      else
        let c := readCis s t a
        let p := field (sGet s.g (w.idx.toNat - 128)).toNat 15 0
        need (uniCause s .cisternOverfill a) (!c.ovf)
        if c.phase ≠ p then .ok (some (s, .none))
        else .ok (some (longLatency s, .cistern a p))

end Sys2Proof.Machine
end

