-- ==== Sys2Proof/Machine/Relay.lean ====
section
/-! DEFINITION. Relays (R156–R168, R175, R176, R195, R196): parameter blocks, acceptance, sectors, passes, completion. -/

namespace Sys2Proof.Machine

/-! ## Parameter blocks (R175) -/

def at8 (bs : List Byte) (o : Nat) : Nat := leNat ((bs.drop o).take 8)
def at4 (bs : List Byte) (o : Nat) : Nat := leNat ((bs.drop o).take 4)
def zeroFrom (bs : List Byte) (o n : Nat) : Bool := ((bs.drop o).take n).all (· == 0)

/-- Two footprints that share nothing, of slots of one gang's team (R163). -/
def footsApart (x y : Slot) (bx by' : DWord) : Bool :=
  x.res != y.res || disjoint bx.toNat (if x.res = 2 then x.regCount else x.foot) by'.toNat (if y.res = 2 then y.regCount else y.foot)

/-- A footprint lies within the bounds of the executing team and gang (R152–R154, R175, R233). DEDUCED (log entry 124): an SCR footprint beyond the
allocation makes the request invalid, as a headrace that does not reach does. -/
def Slot.bound (x : Slot) (s : State) : Bool :=
  match x.res with
  | 0 => true
  | 1 => x.scrFits (myTeam s).scr
  | 2 => x.regFits s.g.regs
  | _ => (myTeam s).races.any fun h => h.num == x.base0.toNat && decide (x.foot ≤ 4096 * h.cap)

/-- CIS names a cistern inside the allocation (R165). -/
def cisOk (s : State) (cis : Bool) (off : Nat) : Bool := !cis || (off % 16 == 0 && decide (off + 16 ≤ (myTeam s).scr))

/-- Source index of a destination index (R163, R164), where it is inside both extents. -/
def viewIndex (org : List Nat) (row : Option Nat) (ext idx : List Nat) : Option (List Nat) :=
  let src := match row with
    | none => (List.range idx.length).map fun k => idx.getD k 0 + org.getD k 0
    | some r => idx.take (idx.length - 1) ++ [r]
  if inside ext src then some src else none

/-- The destination index at place q, none for a hole. -/
def destIndex (d : Slot) (inv : List Nat) (q : Nat) : Option (List Nat) :=
  let idx := indicesOf d.dims (mulVec inv q)
  if inside d.ext idx then some idx else none

/-- Blocks of 32 places whose elements a copy reads (R165, R175). -/
def copyBlocks (x d : Slot) (org : List Nat) : List Nat :=
  let inv := inverse d.n d.cols
  dedup ((List.range (2 ^ d.n)).filterMap fun q => (destIndex d inv q).bind fun i => (viewIndex org none x.ext i).map fun j => x.place j / 32)

/-- A new relay of the moving gang. -/
def mkRelay (s : State) (k : RelayKind) (w : MWord) (src dst : Nat) : Relay :=
  { id := s.nextId, gang := s.g.gid, team := (myTeam s).uid, ctx := (myTeam s).ctx, kind := k, op := s.nextId + 1, src := src, dst := dst
    reg := sOfData w, t0 := s.g.gts, cpc := s.g.cl.addr, cwi := wordIx s.g, lane := elected s }

/-- The checks of `relay.mv`, and the relay. DEDUCED (log entry 123): the pages of a MEM footprint are checked after those that R175 numbers, with the
rights to what the relay reads and writes there. -/
def checkMv (w : MWord) (bs : List Byte) (s : State) : Except Raised Relay := do
  let ctl := at8 bs 0
  let n := ctl % 64
  let ctx := (myTeam s).ctx
  match slotOf s ctx n with
  | none => .error (slotCause s .slotEmpty n)
  | some x =>
    need (slotCause s .slotBusy n) (!(writeBusy s ctx n || readBusy s ctx n))
    let cis := ctl.testBit 8
    need (slotCause s .relayInvalid n) (ctl &&& 0x13F == ctl && zeroFrom bs 0x10 0x30 && x.pp && x.res != 3 && (!cis || x.res == 1)
      && cisOk s cis (at8 bs 8) && x.bound s)
    let cols := (List.range x.n).map fun j => at8 bs (0x40 + 8 * j)
    need (slotCause s .layoutInvalid n) (cols.all fun c => decide (c < 2 ^ x.n))
    need (slotCause s .layoutSingular n) (rankOf x.n cols == x.n)
    if x.res = 0 then
      checkBlock s { r := true, w := true } 1 x.base0.toNat x.foot
      checkBlock s { r := true, w := true } 1 x.base1.toNat x.foot
    .ok { mkRelay s .mv w n n with passes := planMove x.n x.w x.cols cols, cis := if cis then some (at8 bs 8) else none }

/-- The checks of `relay.cp` and `relay.gx`, and the relay. DEDUCED: a REG source beyond the gang's regs raises the ILLEGAL_OPERAND of R153 after SLOT_BUSY
(log entry 106); the pages of MEM footprints are checked last (log entry 123); the record of a RELAY_INVALID names the destination's slot (log
entry 125). -/
def checkCopy (gx : Bool) (w : MWord) (bs : List Byte) (s : State) : Except Raised Relay := do
  let ctl := at8 bs 0
  let sn := ctl % 64
  let dn := ctl / 256 % 64
  let t := myTeam s
  let ctx := t.ctx
  match slotOf s ctx sn, slotOf s ctx dn with
  | none, _ => .error (slotCause s .slotEmpty sn)
  | _, none => .error (slotCause s .slotEmpty dn)
  | some x, some d =>
    need (slotCause s .slotBusy sn) (!writeBusy s ctx sn)
    need (slotCause s .slotBusy dn) (!(writeBusy s ctx dn || readBusy s ctx dn))
    need bad (x.res != 2 || x.regFits s.g.regs)
    let cis := ctl.testBit 16
    let b17 := ctl.testBit 17
    let org := (List.range 6).map fun k => at4 bs (0x18 + 4 * k)
    let tbl := at8 bs 0x10
    let last := d.rank - 1
    let rows := d.ext.getD last 1
    let common := ctl &&& 0x33F3F == ctl && sn != dn && x.rank == d.rank && x.fmt == d.fmt && x.eszc == d.eszc && x.res != 3
      && footsApart x d x.base d.base && (!cis || d.res == 1 || d.res == 3) && cisOk s cis (at8 bs 8) && x.bound s && d.bound s
    let own := if gx then zeroFrom bs 0x18 0x28 && tbl % 4 == 0 && ((List.range last).all fun k => d.ext.getD k 1 == x.ext.getD k 1)
      else zeroFrom bs 0x30 0x10 && ((List.range 6).all fun k => decide (k < d.rank) || org.getD k 0 == 0)
        && ((List.range d.rank).all fun k => org.getD k 0 % 2 ^ (d.dims.getD k 0) == 0 && decide (org.getD k 0 + d.ext.getD k 1 ≤ x.ext.getD k 1))
        && (!b17 || (decide (20 ≤ x.fmt) && x.res == 0))
    need (slotCause s .relayInvalid dn) (common && own)
    if gx then
      if b17 then need (uniCause s .scratchRange tbl) (decide (tbl + 4 * rows ≤ t.scr))
      else checkBlock s { r := true } 4 tbl (4 * rows)
    else if b17 then
      (copyBlocks x d org).forM fun b => checkBlock s { r := true } 4 (tbl + b) 1
    if x.res = 0 then checkBlock s { r := true } 4 x.base.toNat x.foot
    if d.res = 0 then checkBlock s { w := true } 1 d.base.toNat d.foot
    .ok { mkRelay s (if gx then .gx else .cp) w sn dn with
          passes := [[]], cis := if cis then some (at8 bs 8) else none, scl := !gx && b17, scla := BitVec.ofNat 64 tbl
          org := org.take d.rank, tbl := BitVec.ofNat 64 tbl, tscr := gx && b17 }

/-! ## Receipts (R166, R167) -/

/-- A pass that moves nothing between sectors. -/
def localPass (w : Nat) (p : List Nat) : Bool := (List.range p.length).all fun j => p.getD j 0 / 2 ^ w == (if j < w then 0 else 2 ^ (j - w))

/-- Whether every area a relay reads or writes is memory, and whether some area is. -/
def relayMem (s : State) (r : Relay) : Bool × Bool :=
  match slotOf s r.ctx r.src, slotOf s r.ctx r.dst with
  | some x, some d => (x.res == 0 && d.res == 0 && !r.tscr, x.res == 0 || d.res == 0 || (r.kind == .gx && !r.tscr) || r.scl)
  | _, _ => (false, false)

/-- The engine a relay runs on (R167): a memory-side engine has key 2^20 + quadrant, a cluster's are 2·cluster and the next. -/
def relayEngine (s : State) (r : Relay) : Nat :=
  let core := (teamOf s r.team).core
  if (relayMem s r).1 then 2 ^ 20 + quadOf core
  else
    let e := 2 * clusterOf core
    if (get0 s.tfree (e + 1)).toNat < (get0 s.tfree e).toNat then e + 1 else e

/-- The promised cycle (R167). -/
def relayPromise (s : State) (r : Relay) : Nat :=
  let e := relayEngine s r
  let side := decide (2 ^ 20 ≤ e)
  let d := slotOf s r.ctx r.dst
  let foot := (d.map Slot.foot).getD 32
  let w := (d.map Slot.w).getD 0
  let cost := (r.passes.map fun p =>
    let loc := r.kind == .mv && localPass w p
    let lp := if side || (relayMem s r).2 then 400 else 64
    let rate := if side then (if loc then 512 else 128) else if loc then 128 else 32
    lp + ceilDiv foot rate).sum
  max s.clk (get0 s.tfree e).toNat + cost

/-- The ticket a team gives next (R166). -/
def nextTicket (t : Team) : Nat := (((List.range 65536).map fun i => (t.ticket + i) % 65536).find? fun k => !t.outst.contains k).getD 0

/-- A relay is accepted: its engine is busy until the promised cycle, its team's counter moves on, and its receipt is written (R166, R167). -/
def writeReceipt (r : Relay) (s : State) : State :=
  let t := teamOf s r.team
  let p := relayPromise s r
  let k := nextTicket t
  let receipt : DWord := BitVec.ofNat 64 (p % 2 ^ 48 * 2 ^ 16 + k)
  let s := { s with tfree := set0 s.tfree (relayEngine s r) (BitVec.ofNat 64 p) }
  onGang (setTeam s { t with ticket := (k + 1) % 65536 }) r.gang fun g => sSet g r.reg receipt

/-! ## Issue -/

/-- Whether a REG footprint of a relay is not at rest: an operation of the gang has yet to write one of its registers, or a matrix operation to read one
that the relay writes (R84, R85, R160). -/
def relayAwaits (s : State) (r : Relay) : Bool :=
  (lockedSpans s r).any fun p => p.res == 2 && (List.range p.len).any fun i =>
    regAwaited s (p.lo + i) || (p.slot == r.dst && s.mmas.any fun m => m.gang == r.gang && m.reads.contains (p.lo + i))

/-- A relay instruction: its block is read once the gang's earlier stores are performed; its locks hold from here (R159, R160). One with no pass
completes here and changes nothing (R158). -/
def relayForm (k : RelayKind) (w : MWord) (s : State) : Out :=
  wordOr (mLen w) w.nxt s do
    need bad (blockFields w && w.w == 0 && dataS w)
    if active s.g = 0 then .ok (some s)
    else if storesOut s || decide (64 ≤ (s.relays.filter (·.team == (myTeam s).uid)).length) then .ok none
    else match ← blockAt w 64 s with
      | none => .ok none
      | some (_, h, _) =>
        let n := if k = .mv then ((slotOf s (myTeam s).ctx (at8 h 0 % 64)).map Slot.n).getD 0 else 0
        match ← blockAt w (64 + 8 * n) s with
        | none => .ok none
        | some (t, bs, evs) =>
          let r ← if k = .mv then checkMv w bs s else checkCopy (k == .gx) w bs s
          let r := { r with t0 := t.g.gts, events := evs }
          if relayAwaits s r then .ok none
          else if r.passes.isEmpty then
            let x := myTeam t
            let u := writeReceipt r (setTeam t { x with times := set0 x.times (nextTicket x) (BitVec.ofNat 64 r.t0) })
            .ok (some (chargeBlock s evs u))
          else
            let o := { mkOp w t .relay with id := t.nextId + 1, dst := r.reg, wr := true, uni := true }
            .ok (some (due .relayAccept r.id { t with relays := t.relays ++ [r], ops := t.ops ++ [o], nextId := t.nextId + 2 }))

def execRelayMv (w : MWord) (s : State) : Out := relayForm .mv w s
def execRelayCp (w : MWord) (s : State) : Out := relayForm .cp w s
def execRelayGx (w : MWord) (s : State) : Out := relayForm .gx w s

/-- `relay.wait` (R168, R176). -/
def execRelayWait (w : MWord) (s : State) : Out :=
  waitWord (mLen w) w.nxt s do
    need bad (modOk {} w.pre && isS w.base.toNat && w.w == 0 && w.data == 0 && w.ofs == 0 && w.hint == 0 && w.sc == 0 && w.idx == 0)
    if active s.g = 0 then .ok (s, .none)
    else
      let r := sGet s.g (w.base.toNat - 128)
      if ticketDone (myTeam s) r then .ok (observe (r.toNat % 65536) s, .none)
      else .ok (s, .relay (r.toNat % 65536))

/-! ## Acceptance (R166, R167, R196) -/

/-- Units of a footprint of a relay: kind, owner, line, sector or register. -/
def footUnits (s : State) (r : Relay) (x : Slot) (b : DWord) : List (Nat × Nat × Nat) :=
  let core := (teamOf s r.team).core
  match x.res with
  | 0 => (List.range (ceilDiv x.foot 128)).filterMap fun i => (lineOfVa s core r.ctx (b.toNat + 128 * i)).map fun l => (0, 0, l)
  | 1 => (List.range (x.foot / 32)).map fun i => (1, r.team, b.toNat / 32 + i)
  | 2 => (List.range x.regCount).map fun i => (2, r.gang, b.toNat + i)
  | _ => (List.range (x.foot / 32)).map fun i => (3, r.team * 16 + b.toNat % 16, i)

/-- What a relay reads and writes: its units, and whether it writes them. -/
def relayUnits (s : State) (r : Relay) : List ((Nat × Nat × Nat) × Bool) :=
  match slotOf s r.ctx r.src, slotOf s r.ctx r.dst with
  | some x, some d =>
    if r.kind = .mv then ((footUnits s r d d.base0) ++ footUnits s r d d.base1).map fun u => (u, true)
    else ((footUnits s r x x.base).map fun u => (u, false)) ++ (footUnits s r d d.base).map fun u => (u, true)
  | _, _ => []

/-- A relay that shares something with an accepted one where either writes it (R196). -/
def relayClash (s : State) (r : Relay) : Bool :=
  let mine := relayUnits s r
  s.relays.any fun o => o.accepted && o.id != r.id && (relayUnits s o).any fun u => mine.any fun v => u.1 == v.1 && (u.2 || v.2)

/-- The memory lines of the footprints a relay writes. -/
def destLines (s : State) (r : Relay) : List LineReq :=
  match slotOf s r.ctx r.dst with
  | some d =>
    let at' := fun (b : DWord) => (List.range (ceilDiv d.foot 128)).filterMap fun i => (lineReq s (teamOf s r.team).core r.ctx (b.toNat + 128 * i)).map (·.1)
    if d.res ≠ 0 then [] else if r.kind = .mv then at' d.base0 ++ at' d.base1 else at' d.base
  | none => []

/-- RELAY_ACCEPT: the relay takes its ticket, its receipt is written, and it owns its destination from here on, whose lines its cluster gives up
(R166, R167, R195, R196). One that writes registers stays outstanding (R84). -/
def execRelayAccept (s : State) : Out :=
  match relayOf s s.obj.1 with
  | none => .next s
  | some r =>
    if r.accepted then .next s
    else
      let cluster := clusterOf (teamOf s r.team).core
      let lines := destLines s r
      if relayClash s r || lines.any fun q => storedLine q.line || !engineReads s cluster r.ctx q then later .relayAccept (wantLines r.ctx lines s)
      else
        let s := (lines.filter (·.bulk)).foldl (fun s q => dropCopy cluster r.ctx q.line (collect cluster r.ctx q.line s)) s
        let k := nextTicket (teamOf s r.team)
        let p := relayPromise s r
        let s := writeReceipt r s
        let t := teamOf s r.team
        let s := setTeam s { t with outst := t.outst ++ [k] }
        let s := match opOf s r.op with
          | some o => if (slotOf s r.ctx r.dst).any (·.res == 2) then setOp s { o with uni := false } else dropOp s r.op
          | none => s
        .next (due .relaySectorLand r.id (setRelay s { r with accepted := true, ticket := k, promise := p, tmax := r.t0 }))

/-! ## A sector (R158, R163–R165) -/

/-- The lines of virtual addresses may be written, or read, by the relay's engine now: free of merge entries and of other relays, and to be read with what the cluster holds dirty
of them able to go home (R194, R195). -/
def engineMay (s : State) (r : Relay) (vas : List Nat) (reads : Bool := true) : Bool :=
  let core := (teamOf s r.team).core
  vas.all fun va => match lineReq s core r.ctx va with
    | some (q, _) => !storedLine q.line && !mergeOwned s q.line && !engineOwned s q.line r.id && sliceOf s q.dom q.line == homeOf s q.dom q.line
        && (!reads || engineReads s (clusterOf core) r.ctx q)
    | none => false

/-- The lines of virtual addresses, each once. -/
def linesOfVas (s : State) (r : Relay) (vas : List Nat) : List LineReq :=
  let core := (teamOf s r.team).core
  vas.foldl (fun (l : List LineReq) va => match lineReq s core r.ctx va with
    | some (q, _) => if l.any (·.line == q.line) then l else l ++ [q]
    | none => l) []

/-- The engine reads lines at their homes, as ORDERED loads at the relay's start time; events are kept for completion (R175,
R195). -/
def engineTouch (r : Relay) (vas : List Nat) (s : State) : State × List Event :=
  let core := (teamOf s r.team).core
  (linesOfVas s r vas).foldl (fun (a : State × List Event) q =>
    let (t, ev) := engineLine (clusterOf core) r.ctx r.t0 q a.1
    (t, a.2 ++ ev)) (s, [])

/-- n bytes at a virtual address, at their home. -/
def memPeek (s : State) (core ctx va n : Nat) : List Byte :=
  match lineReq s core ctx va with
  | some (_, pa) => homeBytes s pa n
  | none => List.replicate n 0

/-- Scratch bytes that a relay reads. DESIGN CHOICE (log entry 126): of a team that has ended they have no value that the manual gives (R162). -/
def scrPeek (s : State) (r : Relay) (off n : Nat) : List Byte :=
  if (teamOf s r.team).place == .ended then (List.range n).map fun i => Config.goneByte r.id (off + i) else scrRead s r.team off n

/-- An element of a footprint at a place. -/
def footElem (s : State) (r : Relay) (x : Slot) (b : DWord) (p : Nat) : Nat :=
  let t := teamOf s r.team
  match x.res with
  | 0 => byteElem (fun o k => memPeek s t.core r.ctx (b.toNat + o) k) x.eltBits p
  | 1 => byteElem (fun o k => scrPeek s r (b.toNat + o) k) x.eltBits p
  | 2 => regElem ((gangOf s r.gang).getD {}) x b.toNat p
  | _ => 0

/-- The positions of a destination sector; those at or above 2^n are no places, and take zeros (R151). -/
def sectorPlaces (d : Slot) (k : Nat) : List Nat := (List.range (2 ^ d.w)).map fun i => k * 2 ^ d.w + i

/-- The table row of a `relay.gx`. -/
def rowEntry (s : State) (r : Relay) (i : Nat) : Nat :=
  let a := r.tbl.toNat + 4 * i
  leNat (if r.tscr then scrPeek s r a 4 else memPeek s (teamOf s r.team).core r.ctx a 4)

/-- Memory that decides the places: table entries. -/
def tableVas (r : Relay) (d : Slot) (inv : List Nat) (qs : List Nat) : List Nat :=
  if r.kind = .gx ∧ !r.tscr then (qs.filter (· < 2 ^ d.n)).filterMap fun q => (destIndex d inv q).map fun i => r.tbl.toNat + 4 * i.getD (d.rank - 1) 0 else []

/-- The source place of a position of the destination; none where zero is written. -/
def sourcePlace (s : State) (r : Relay) (x d : Slot) (inv : List Nat) (q : Nat) : Option Nat :=
  if 2 ^ d.n ≤ q then none
  else match r.kind with
  | .mv => some (mulVec inv q)
  | .cp => (destIndex d inv q).bind fun i => (viewIndex r.org none x.ext i).map x.place
  | .gx => (destIndex d inv q).bind fun i => (viewIndex [] (some (rowEntry s r (i.getD (d.rank - 1) 0))) x.ext i).map x.place

/-- A block whose scale byte is 0x80 supplies code 0 (R165). -/
def zeroBlock (s : State) (r : Relay) (p : Nat) : Bool :=
  r.scl && leNat (memPeek s (teamOf s r.team).core r.ctx (r.scla.toNat + p / 32) 1) == 0x80

/-- Elements packed into the 32 bytes of a sector. -/
def packSector (bits : Nat) (vs : List Nat) : List Byte := leBytes 32 ((vs.zipIdx.map fun v => v.1 * 2 ^ (bits * v.2)).sum)

/-- A sector written into a memory footprint: its line takes its time at its first sector (R182, R195). The cluster's clean copy of a BULK line goes,
so that a load after the relay reads the new bytes (R168). -/
def landMem (r : Relay) (va foot : Nat) (first : Bool) (bs : List Byte) (s : State) : State × Nat × List Event :=
  let core := (teamOf s r.team).core
  match lineReq s core r.ctx va with
  | none => (s, 0, [])
  | some (q, pa) =>
    let cluster := clusterOf core
    let b := blockOf q.cls (pa % 128) (pa % 128 + 32)
    let q := { q with lo := b.1, hi := b.2 }
    let (s, ev) := if foot < 128 && q.cls != 2 then enterLine q r.ctx s else (s, none)
    let (s, t) := if first || va % 128 == 0 then takeTime q r.ctx r.t0 s else (s, wtsOf s q.dom q.line)
    let s := pokeBytes pa bs 0xFF t (dirtyLine q r.ctx (halvesOf q.lo q.hi) s)
    let s := if ((copyOf s cluster r.ctx q.line).filter fun c => c.bulk && c.dirty.isEmpty).isSome then dropCopy cluster r.ctx q.line s else s
    (refreshCopy cluster r.ctx q.line t s, t, ev.toList.map fun e => { e with store := true })

/-- A headrace of a team, and bytes written into it. -/
def raceOf (s : State) (team h : Nat) : Option Headrace := (teamOf s team).races.find? (·.num == h)
def setRace (team : Nat) (h : Headrace) (s : State) : State :=
  let t := teamOf s team
  setTeam s { t with races := modFirst (·.num == h.num) (fun _ => h) t.races }
def raceWrite (team h off : Nat) (bs : List Byte) (s : State) : State :=
  match raceOf s team h with
  | some x => setRace team { x with bytes := writeBytes x.bytes off bs } s
  | none => s

/-- The sector lands in its destination: the state, the time taken, the events. -/
def landSector (r : Relay) (d : Slot) (b : DWord) (qs vs : List Nat) (s : State) : State × Nat × List Event :=
  let bs := packSector d.eltBits vs
  match d.res with
  | 0 => landMem r (b.toNat + 32 * r.sector) d.foot (r.sector == 0) bs s
  | 1 => (scrWrite r.team (b.toNat + 32 * r.sector) bs s, 0, [])
  | 2 => (onGang s r.gang fun g => (qs.zip vs).foldl (fun g p => setRegElem g d b.toNat p.1 p.2) g, 0, [])
  | _ => (raceWrite r.team b.toNat (32 * r.sector) bs s, 0, [])

/-- An event counts once for each line of an operation (R260). -/
def addEvent (es : List Event) (e : Event) : List Event := if es.any (·.line == e.line) then es else es ++ [e]

/-- RELAY_SECTOR_LAND: the next destination sector is read from the source and written; a cistern counts it down (R158,
R163–R165). -/
def execRelaySectorLand (s : State) : Out :=
  match relayOf s s.obj.1 with
  | none => .next s
  | some r => match r.passes, slotOf s r.ctx r.src, slotOf s r.ctx r.dst with
    | p :: more, some x, some d =>
      if !r.accepted || decide (d.foot ≤ 32 * r.sector) then .next s
      else
        let mv := r.kind = .mv
        let inv := if mv then inverse d.n p else inverse d.n d.cols
        let fs := x.base
        let fd := if mv then d.other else d.base
        let qs := sectorPlaces d r.sector
        let tab := tableVas r d inv qs
        let dst := if d.res = 0 then [fd.toNat + 32 * r.sector] else []
        if !engineMay s r tab || !engineMay s r dst false then later .relaySectorLand s
        else
          let (u, ev1) := engineTouch r tab s
          let ps := qs.map (sourcePlace u r x d inv)
          let sc := if r.scl then ps.filterMap fun q => q.map fun q => r.scla.toNat + q / 32 else []
          if !engineMay s r sc then later .relaySectorLand s
          else
            let (u, ev2) := engineTouch r sc u
            let ps := ps.map fun q => q.filter fun q => !zeroBlock u r q
            let el := if x.res = 0 then ps.filterMap fun q => q.map fun q => fs.toNat + q * x.eltBits / 8 else []
            if !engineMay s r el then later .relaySectorLand s
            else
              let (u, ev3) := engineTouch r el u
              let vs := ps.map fun q => match q with | some q => footElem u r x fs q | none => 0
              let (u, t, ev4) := landSector r d fd qs vs u
              let u := match r.cis with
                | some off => if mv && !more.isEmpty then u else countDown r.team off 32 u
                | none => u
              let k := r.sector + 1
              let read := if x.res = 0 then (linesOfVas u r el).map (·.line) else []
              let u := setRelay u { r with sector := k, tmax := max r.tmax t, touched := r.touched ++ read.filter fun l => !r.touched.contains l
                                           events := (ev1 ++ ev2 ++ ev3 ++ ev4).foldl addEvent r.events }
              .next (due (if 32 * k < d.foot then .relaySectorLand else .relayPassComplete) r.id u)
    | _, _, _ => .next s

/-- RELAY_PASS_COMPLETE: at one instant the slot takes the pass's matrix and its other base (R158). -/
def execRelayPassComplete (s : State) : Out :=
  match relayOf s s.obj.1 with
  | none => .next s
  | some r => match r.passes, slotOf s r.ctx r.dst with
    | p :: more, some d =>
      if !r.accepted || decide (32 * r.sector < d.foot) then .next s
      else
        let s := if r.kind = .mv then setSlot r.ctx r.dst (some { d with cols := matMul p d.cols, phase := !d.phase }) s else s
        let s := setRelay s { r with passes := more, sector := 0 }
        .next (due (if more.isEmpty then .relayCompletion else .relaySectorLand) r.id s)
    | _, _ => .next s

/-- RELAY_COMPLETION: the ticket completes, the locks end, and the gangs that wait for it go on with its time (R168, R187). -/
def execRelayCompletion (s : State) : Out :=
  match relayOf s s.obj.1 with
  | none => .next s
  | some r =>
    if !r.accepted || !r.passes.isEmpty then .next s
    else
      let t := teamOf s r.team
      let s := setTeam s { t with outst := t.outst.filter (· != r.ticket), times := set0 t.times r.ticket (BitVec.ofNat 64 r.tmax) }
      let s := { dropOp s r.op with relays := s.relays.filter (·.id != r.id) }
      let s := onGang s r.gang fun g => { g with engTime := max g.engTime r.tmax }
      let s := onGangs s (fun x => x.team == r.team && x.wait == .relay r.ticket) fun x => { x with wake := some r.tmax }
      .next (chargeGang r.gang r.ctx r.cpc r.cwi 4 (fun _ => r.lane) r.events s)

end Sys2Proof.Machine
end

