-- ==== Sys2Proof/Machine/Merge.lean ====
section
/-! DEFINITION. Merge entries (R114–R116, R216, R247–R251): `acc.init`, contributions, finalisation, `acc.drop`, `st.acc`. -/

namespace Sys2Proof.Machine

/-! ## Entries -/

def mergeOf (s : State) (e : Nat) : Option Merge := s.merges.find? (·.id == e)
def setMerge (s : State) (m : Merge) : State := { s with merges := modFirst (·.id == m.id) (fun _ => m) s.merges }

/-- Bytes of an element of an ETYPE, and its format. -/
def etypeSize (t : Nat) : Nat := if t = 1 then 8 else 4
def etypeFmt (t : Nat) : Fmt := if t = 1 then f64 else f32

/-- Merge-buffer bytes of one element (R248). -/
def elemBuffer (m : Merge) : Nat := if m.mode = 0 then 48 else if m.mode = 1 then etypeSize m.etype * (m.nc + 1) else etypeSize m.etype

/-- The slice that is asked for a line of an entry, or holds it. -/
def Merge.home (m : Merge) (l : LineReq) : Nat := ((m.homes.find? (·.1 == l.line)).map (·.2)).getD 0

/-- Merge-buffer bytes an entry holds at a slice. -/
def bufferAt (m : Merge) (slice : Nat) : Nat :=
  (m.lines.filter fun l => l.granted && m.home l == slice).length * (128 / etypeSize m.etype) * elemBuffer m

/-- A term enters an EXACT sum (R114). -/
def exactTerm (bits : DWord) (e : MergeElem) : MergeElem :=
  match decodeF f32 bits.toNat with
  | .nan _ => { e with nan := true, allNeg := false }
  | .inf neg => { e with pinf := e.pinf || !neg, ninf := e.ninf || neg, allNeg := false }
  | .fin neg n d => { e with sum := e.sum + sgn neg (n * 2 ^ 149 / d), allNeg := e.allNeg && neg && n == 0 }

/-- The value of an EXACT element (R114). -/
def exactValue (e : MergeElem) : Nat :=
  (rnd f32 .rne false 0 (if e.nan || (e.pinf && e.ninf) then .nan false else if e.pinf then .inf false else if e.ninf then .inf true
    else if e.sum = 0 then .fin e.allNeg 0 1 else .fin (decide (e.sum < 0)) e.sum.natAbs (2 ^ 149))).1

/-- One rounded addition in an element's type (R115, R116). -/
def mergeAdd (etype : Nat) (a b : DWord) : DWord :=
  if etype = 2 then BitVec.ofNat 64 ((a.toNat + b.toNat) % 2 ^ 32) else BitVec.ofNat 64 (faddCode (etypeFmt etype) a.toNat b.toNat)

/-- Held partials are applied as far as their split indices follow (R115). -/
def applyHeld (etype : Nat) : Nat → MergeElem → MergeElem
  | 0, e => e
  | k + 1, e => match e.held.find? (·.1 == e.next) with
    | none => e
    | some h => applyHeld etype k { e with value := mergeAdd etype e.value h.2, next := e.next + 1, held := e.held.filter (·.1 != e.next) }

/-- An accepted contribution is applied by the entry's mode. -/
def applyTerm (m : Merge) (split : Nat) (bits : DWord) (e : MergeElem) : MergeElem :=
  let e := { e with count := e.count + 1, splits := split :: e.splits }
  if m.mode = 0 ∧ m.etype = 0 then exactTerm bits e
  else if m.mode = 1 then applyHeld m.etype (m.nc + 1) { e with held := (split, bits) :: e.held }
  else { e with value := mergeAdd m.etype e.value bits }

def finalValue (m : Merge) (e : MergeElem) : Nat := if m.mode = 0 ∧ m.etype = 0 then exactValue e else e.value.toNat

/-- An element as the entry opens, from its initial bits. -/
def newElem (m : Merge) (pa : Nat) (bits : DWord) : MergeElem :=
  let e : MergeElem := { pa := pa, value := bits }
  if m.mode = 0 ∧ m.etype = 0 then exactTerm bits e else e

/-! ## `acc.init` (R247, R248) -/

/-- The encoding of `mma`-like forms: BASE + OFS in scratch, no other field but LA (R246). -/
def blockForm (w : MWord) : Bool :=
  modOk {} w.pre && baseOk w && w.w == 0 && w.data == 0 && w.sc == 0 && w.hint == 0 && w.idx == 0xFF

/-- Rows and lines per row of an entry, from CADDR: the virtual lines. -/
def entryLines (caddr ldc rows cols esz : Nat) : List Nat :=
  (List.range rows).flatMap fun i => (List.range (ceilDiv (cols * esz) 128)).map fun j => caddr + i * ldc + 128 * j

/-- Check 2 of R248. -/
def mergeBlockOk (bs : List Byte) : Bool :=
  let ctl := at8 bs 0
  let et := ctl % 4
  let mode := ctl / 4 % 4
  let nc := field ctl 31 16
  let rows := leNat ((bs.drop 0x14).take 2)
  let bytes := leNat ((bs.drop 0x16).take 2) * etypeSize et
  let ldc := at4 bs 0x10
  field ctl 15 5 == 0 && field ctl 63 32 == 0 && zeroFrom bs 0x20 32 && et != 3 && mode != 3 && !(mode == 0 && et == 1)
    && !(mode == 1 && decide (nc > 16)) && nc != 0 && decide (1 ≤ rows) && decide (rows ≤ 64) && (bytes == 128 || bytes == 256)
    && ldc % 128 == 0 && (rows == 1 || decide (ldc ≥ bytes))

/-- A merge cause of one refusal, at a memory address. -/
def mergeCause (s : State) (c : Cause) (addr : Nat) : Raised :=
  { cause := c, lanes := 1#32 <<< elected s, recs := [mkRec c addr (elected s) 7 (clsOf s (myTeam s).core (myTeam s).ctx addr) 1 0] }

/-- The checks of the entry's pages (R204, R248), of n bytes at each address, footprints locked by relays included. -/
def checkAccPages (s : State) (vas : List (Nat × Nat)) : Except Raised Unit :=
  vas.forM fun (va, n) => do
    checkBlock s { r := true, w := true } 1 va 8
    match lockedMem s (myTeam s).ctx va n with
    | some n => .error (uniCause s .relayWriteLocked 0 1 n)
    | none => .ok ()

/-- `acc.init`: the entry's slices are asked, each for its own lines, and the gang waits for their replies. It is sent once the gang's earlier stores
are performed, no refused write-back of a line stands, and no reshape changes a line's home (R194, R248, R294). -/
def execAccInit (w : MWord) (s : State) : Out :=
  waitOr (mLen w) w.nxt s do
    need bad (blockForm w && w.la == 0)
    if active s.g = 0 then .ok (some (s, .none))
    else
      let a ← objectAt w s 64 7 64
      let t := myTeam s
      if scrOwned s t.uid a 64 then .ok none
      else
        let bs := scrRead s t.uid a 64
        let caddr := at8 bs 8
        let donea := at8 bs 0x18
        need (mergeCause s .mergeInvalid caddr) (mergeBlockOk bs)
        need (memCause s .misaligned caddr 1) (caddr % 128 == 0)
        need (memCause s .misaligned donea 1) (donea % 8 == 0)
        let ctl := at8 bs 0
        let et := ctl % 4
        let vas := entryLines caddr (at4 bs 0x10) (leNat ((bs.drop 0x14).take 2)) (leNat ((bs.drop 0x16).take 2)) (etypeSize et)
        checkAccPages s (vas.map (·, 128) ++ if donea = 0 then [] else [(donea, 8)])
        let s := fillPages (vas.map fun v => BitVec.ofNat 64 v) s
        let lines := vas.filterMap fun v => (lineReq s t.core t.ctx v).map (·.1)
        let d := (lineReq s t.core t.ctx donea).map fun d => ({ d.1 with lo := (blockOf d.1.cls (d.2 % 128) (d.2 % 128 + 8)).1, hi := (blockOf d.1.cls (d.2 % 128) (d.2 % 128 + 8)).2 }, d.2)
        if storesOut s || lines.any (fun l => homeMoves s l.dom l.line || refusedLine s t.ctx l.line) then .ok none
        else
          let homes := lines.map fun l => (l.line, homeOf s l.dom l.line)
          let slices := dedup (homes.map (·.2))
          let e := s.nextId
          let m : Merge := { id := e, gang := s.g.gid, ctx := t.ctx, caddr := BitVec.ofNat 64 caddr, etype := et, mode := ctl / 4 % 4
                             init := ctl.testBit 4, nc := field ctl 31 16, donea := if donea = 0 then 0 else (d.map (·.2)).getD 0
                             lines := lines, homes := homes, replies := [], waiting := slices, t0 := s.g.gts, sentAt := e }
          let m := match d with | some d => { m with done := d.1 } | none => m
          let s := slices.foldl (fun s h => due .accInitSlice e s h) { s with merges := s.merges ++ [m], nextId := e + 1 }
          .ok (some (s, .reply e))

/-- Writes back and reads one line of an entry as it is reserved: its elements, and the time of its initial values. -/
def openLine (m : Merge) (r : LineReq) (a : State × List MergeElem × List (Nat × Nat) × List Event) : State × List MergeElem × List (Nat × Nat) × List Event :=
  let s := collect (clusterOf (gangTeam a.1 m.gang).core) m.ctx r.line a.1
  let z := etypeSize m.etype
  let (s, ev) := if m.init then enterLine r m.ctx s else (s, none)
  let elems := (List.range (128 / z)).map fun i =>
    let pa := 128 * r.line + z * i
    newElem m pa (if m.init then BitVec.ofNat 64 (leNat (homeBytes s pa z)) else 0)
  (s, a.2.1 ++ elems, a.2.2.1 ++ [(r.line, max m.t0 (if m.init then wtsOf s r.dom r.line else 0))], a.2.2.2 ++ ev.toList)

/-- Lines of an entry whose home a reshape has changed since they were asked for: the requests are sent again (R294, step 5). -/
def askAgain (m : Merge) (slice : Nat) (moved : List LineReq) (s : State) : State :=
  let rest := m.lines.any fun l => m.home l == slice && !(moved.any (·.line == l.line))
  let new := (dedup (moved.map fun l => homeOf s l.dom l.line)).filter fun h => !m.waiting.contains h
  let homes := m.homes.map fun p => match moved.find? (·.line == p.1) with | some l => (p.1, homeOf s l.dom l.line) | none => p
  let s := setMerge s { m with homes := homes, waiting := (if rest then m.waiting else m.waiting.filter (· != slice)) ++ new }
  (new ++ if rest then [slice] else []).foldl (fun s h => due .accInitSlice m.id s h) s

/-- The request of an entry reaches a slice (R25). -/
def Merge.reach (m : Merge) (slice : Nat) : Merge := { m with came := if m.came.contains slice then m.came else slice :: m.came }

/-- Whether it would overtake an earlier request of its cluster there. -/
def Merge.behind (m : Merge) (s : State) (slice : Nat) : Bool :=
  !m.came.contains slice && behindAt s (clusterOf (gangTeam s m.gang).core) (slice, false) m.sentAt

/-- ACC_INIT_SLICE: one slice accepts all its lines of an entry or refuses (R248). A line an engine owns is written first. -/
def execAccInitSlice (s : State) : Out :=
  match mergeOf s s.obj.1 with
  | none => .next s
  | some m =>
    let slice := s.obj.2
    if !m.waiting.contains slice then .next s
    else if m.behind s slice then later .accInitSlice s
    else
      let m := m.reach slice
      let s := setMerge s m
      let mine := m.lines.filter fun l => m.home l == slice && !l.granted
      let moved := mine.filter fun l => homeOf s l.dom l.line != slice
      let cluster := clusterOf (gangTeam s m.gang).core
      let clash := s.merges.any fun o => o.id != m.id && mine.any fun l => (o.lines.any fun k => k.line == l.line && k.granted)
      let used := (s.merges.map fun o => if o.id = m.id then 0 else bufferAt o slice).sum
      let reply := fun (c : Option Cause) (m : Merge) (s : State) =>
        let m := { m with replies := m.replies ++ mine.map (fun l => (l.line, c)), waiting := m.waiting.filter (· != slice) }
        let s := setMerge s m
        if m.waiting.isEmpty then due .accInitReply m.id s else s
      if !moved.isEmpty then .next (askAgain m slice moved s)
      else if clash then .next (reply (some .mergeInvalid) m s)
      else if used + mine.length * (128 / etypeSize m.etype) * elemBuffer m > 2 ^ 20 then .next (reply (some .mergeSpace) m s)
      else if mine.any (fun l => storedLine l.line || engineOwned s l.line || sliceOf s l.dom l.line != homeOf s l.dom l.line || refusedLine s m.ctx l.line
          || !collectable s cluster m.ctx l.line) then later .accInitSlice (wantLines m.ctx mine s)
      else
        let (s, elems, times, evs) := mine.foldl (fun a r => openLine m r a) (s, [], [], [])
        let m := { m with elems := m.elems ++ elems, times := m.times ++ times
                          lines := m.lines.map fun (l : LineReq) => if mine.any (·.line == l.line) then { l with granted := true } else l }
        .next (reply none { m with events := m.events ++ evs } s)

/-- A gang other than the moving one raises a precise cause at the word where it waits. -/
def raiseIn (g : Nat) (r : Raised) (s : State) : State :=
  if (gangOf s g).isSome then raised r (switchTo s g) else s

/-- ACC_INIT_REPLY: every slice has replied: the entry opens and the gang goes on, or it raises the cause of the lowest refused
line and the entry goes (R248). -/
def execAccInitReply (s : State) : Out :=
  match mergeOf s s.obj.1 with
  | none => .next s
  | some m =>
    if !m.waiting.isEmpty || m.isOpen then .next s
    else
      let g := (gangOf s m.gang).getD {}
      let evs := m.lines.flatMap fun (l : LineReq) => m.events.filter fun e => e.line == l.line
      let lane := lowLane (active g) % 32
      let s := chargeGang m.gang m.ctx g.cl.addr (wordIx g) 0 (fun _ => lane) evs s
      let refusedOf := fun (l : LineReq) => ((m.replies.find? (·.1 == l.line)).bind (·.2))
      let bad := m.lines.filterMap fun l => (refusedOf l).map fun c => (l, c)
      match bad.foldl (fun (o : Option (LineReq × Cause)) x => match o with
          | none => some x
          | some y => if x.1.line < y.1.line then some x else some y) none with
      | none =>
        let t := if m.init then m.times.foldl (fun a x => max a x.2) 0 else 0
        .next (wakeGang m.gang t (setMerge s { m with isOpen := true }))
      | some (l, c) =>
        let s := { s with merges := s.merges.filter (·.id != m.id) }
        .next (raiseIn m.gang { cause := c, lanes := 1#32 <<< lane, recs := [mkRec c (128 * l.va) lane 7 l.cls 1 0] } s)

/-! ## Contributions (R249, R250) -/

/-- Whether a contribution to an element is refused, and why. -/
def refuse (m : Merge) (e : MergeElem) (q : ContribReq) (split : Nat) : Option Cause :=
  if q.width ≠ etypeSize m.etype ∨ (q.act.getD m.etype ≠ m.etype) then some .mergeMismatch
  else if m.mode = 1 ∧ (split ≥ m.nc ∨ e.splits.contains split) then some .mergeMismatch
  else if e.count ≥ m.nc then some .mergeMismatch
  else none

/-- One contribution of a request at an open entry: the entry, and the refusals so far. -/
def contribute (q : ContribReq) (a : Merge × List (Nat × DWord × Cause)) (c : Contrib × Nat) : Merge × List (Nat × DWord × Cause) :=
  match a.1.elems.find? (·.pa == c.1.pa) with
  | none => (a.1, a.2 ++ [(c.1.order, c.1.va, .mergeMismatch)])
  | some e => match refuse a.1 e q c.2 with
    | some r => (a.1, a.2 ++ [(c.1.order, c.1.va, r)])
    | none =>
      ({ a.1 with elems := modFirst (·.pa == c.1.pa) (applyTerm a.1 c.2 c.1.bits) a.1.elems
                  times := a.1.times.map fun x => if x.1 = q.line then (x.1, max x.2 q.t) else x }, a.2)

/-- A line all of whose elements are final is written once (R250). -/
def finishLine (m : Merge) (line : Nat) (s : State) : State × Merge :=
  let es := m.elems.filter fun e => e.pa / 128 == line
  if m.written.contains line || es.isEmpty || es.any fun e => decide (e.count < m.nc) then (s, m)
  else match m.lines.find? (·.line == line) with
    | none => (s, m)
    | some r =>
      let z := etypeSize m.etype
      let bs := es.flatMap fun e => leBytes z (finalValue m e)
      let g := ((m.times.find? (·.1 == line)).map (·.2)).getD m.t0
      let (s, t) := writeHome r m.ctx g (128 * line) bs 0xFF s
      (s, { m with written := m.written ++ [line], times := m.times.map fun x => if x.1 = line then (line, t) else x })

/-- An entry all of whose lines are written adds 1 to DONEA, under the class of its own page, and closes (R250, R257). One whose DONEA line is owned
or on its way to another home waits. -/
def finishEntry (m : Merge) (s : State) : State :=
  let s := setMerge s m
  if !m.isOpen || m.dropping || m.lines.any fun l => !m.written.contains l.line then s
  else if m.donea = 0 then { s with merges := s.merges.filter (·.id != m.id) }
  else if !lineFree s m.done then due .contributionArrival 0 s m.id
  else
    let r := m.done
    let (s, ev) := enterLine r m.ctx s
    let s := chargeCtx m.ctx ev s
    let g := m.times.foldl (fun a x => max a x.2) 0 + 1
    let v := leNat (homeBytes s m.donea 8) + 1
    { (writeHome r m.ctx g m.donea (leBytes 8 v) 0xFF s).1 with merges := s.merges.filter (·.id != m.id) }

/-- CONTRIBUTION_ARRIVAL: a request's contributions at their line's slice are accepted or refused one by one (R249); lines and
entries that this completes are written (R250). Object 0 takes up an entry that waited for its DONEA line. -/
def execContributionArrival (s : State) : Out :=
  if s.obj.1 = 0 then match mergeOf s s.obj.2 with
    | some m => .next (finishEntry m s)
    | none => .next s
  else match s.contribs.find? (·.id == s.obj.1) with
  | none => .next s
  | some q =>
    let ready := q.mma || match opOf s q.op with | some o => earlierDone s o | none => true
    if q.arrived then .next s
    else if storedLine q.line then later .contributionArrival (q.elems.foldl (fun s c => wantPage q.ctx c.va.toNat s) s)
    else if !ready || (!q.came && behindAt s q.cluster (homeOf s q.dom q.line, false) q.sentAt) then later .contributionArrival s
    else
      let q := { q with came := true, sentAt := if q.sentAt = 0 then s.nextId else q.sentAt }
      let s := { s with contribs := modFirst (·.id == q.id) (fun _ => q) s.contribs }
      let t := if q.mma then q.t else match opOf s q.op with | some o => ((gangOf s o.gang).map (·.gts)).getD q.t | none => q.t
      let q := { q with t := t }
      match s.merges.find? fun m => m.lines.any fun l => l.line == q.line && l.granted with
      | none =>
        let q := { q with arrived := true, refused := q.elems.map fun c => (c.order, c.va, Cause.mergeAbsent) }
        .next (due .contributionReply q.id { s with contribs := modFirst (·.id == q.id) (fun _ => q) s.contribs })
      | some m =>
        if !m.isOpen then later .contributionArrival s
        else
          let (m, bad) := (q.elems.zip q.split).foldl (contribute q) (m, [])
          let (s, m) := finishLine m q.line s
          let s := finishEntry m s
          let q := { q with arrived := true, refused := bad }
          .next (due .contributionReply q.id { s with contribs := modFirst (·.id == q.id) (fun _ => q) s.contribs })

/-- The one cause of gathered refusals: that of the first, with their count (R244, R249). -/
def refusedCause (s : State) (core ctx : Nat) (cpc : DWord) (cwi : Nat) (lanes : Bool) (rs : List (Nat × DWord × Cause)) : Option Raised :=
  (rs.foldl (fun (o : Option (Nat × DWord × Cause)) x => match o with
    | none => some x
    | some y => if x.1 < y.1 then some x else some y) none).map fun f =>
    { cause := f.2.2, cpc := cpc, cwi := cwi, lanes := if lanes then maskOf fun l => rs.any (·.1 == l) else 0
      recs := [mkRec f.2.2 f.2.1.toNat (if lanes then f.1 else 0) 6 (clsOf s core ctx f.2.1.toNat) rs.length 0] }

/-- CONTRIBUTION_REPLY: a slice's answer reaches the contributor. With the last one an `st.acc` is performed and its cause is
taken; a matrix operation may complete (R216, R244). -/
def execContributionReply (s : State) : Out :=
  match s.contribs.find? (·.id == s.obj.1) with
  | none => .next s
  | some q =>
    if !q.arrived then .next s
    else
      let s := { s with contribs := s.contribs.filter (·.id != q.id) }
      let last := !s.contribs.any fun c => c.op == q.op && c.mma == q.mma
      if q.mma then match s.mmas.find? (·.id == q.op) with
        | none => .next s
        | some m =>
          let s := { s with mmas := modFirst (·.id == m.id) (fun m => { m with refused := m.refused ++ q.refused }) s.mmas }
          .next (if last then due .mmaCompletion m.id s else s)
      else match opOf s q.op with
        | none => .next s
        | some o =>
          let o := { o with refused := o.refused ++ q.refused }
          if !last then .next (setOp s o)
          else
            let s := dropOp s o.id
            .next (match refusedCause s (gangTeam s o.gang).core o.ctx o.cpc o.cwi true o.refused with | some r => pendCause o.gang r s | none => s)

/-- The requests of contributions, one per line: those to different stops arrive in any order. A matrix operation's are sent at once; those of `st.acc`
as its stores would be (R25, R183, R216). -/
def sendContribs (op : Nat) (mma : Bool) (cluster ctx width : Nat) (act : Option Nat) (t : Nat) (cs : List (Contrib × Nat × Nat)) (s : State) : State :=
  let lines := dedup (cs.map fun c => c.1.pa / 128)
  lines.foldl (fun s l =>
    let mine := cs.filter fun c => c.1.pa / 128 == l
    let q : ContribReq := { id := s.nextId, op := op, mma := mma, line := l, ctx := ctx, width := width, act := act, split := mine.map (·.2.1), t := t, elems := mine.map (·.1)
                            dom := (mine.map (·.2.2)).headD 0, cluster := cluster, sentAt := if mma then s.nextId else 0 }
    due .contributionArrival q.id { s with contribs := s.contribs ++ [q], nextId := s.nextId + 1 }) s

/-- `st.acc` (R216). -/
def execStAcc (w : MWord) (s : State) : Out :=
  wordOr (mLen w) w.nxt s do
    need bad (w.pre.isNone && laneAddrOk w s && (w.w == 2 || w.w == 3) && w.hint == 0 && atomGroupOk w s true)
    let z := 2 ^ w.w.toNat
    let wide := w.w == 3
    let lanes := (lanesOf (active s.g)).map fun l => (l, addrOf w s l)
    let s := fillPages (lanes.map (·.2)) s
    let rs ← checkLanes s { w := true } 6 z lanes
    if lineWaits s (distinctLines rs) then .ok none
    else if rs.isEmpty then .ok (some s)
    else
      let d := w.data.toNat
      let step := if wide then 2 else 1
      let o := { mkOp w s .stAcc with lanes := rs.map (·.1) }
      let cs := rs.map fun r =>
        (({ order := r.1.lane, pa := r.1.pa, va := r.1.va, bits := BitVec.ofNat 64 (groupVal s.g wide d r.1.lane) } : Contrib),
          groupVal s.g wide (d + step) r.1.lane % 65536, r.2.dom)
      .ok (some (sendContribs o.id false (clusterOf (myTeam s).core) o.ctx z none s.g.gts cs (addOp o s)))

/-! ## `acc.drop` (R251) -/

/-- `acc.drop`: the gang waits until every home slice has let its lines go. -/
def execAccDrop (w : MWord) (s : State) : Out :=
  waitOr (mLen w) w.nxt s do
    need bad (modOk {} w.pre && uniAddrOk w && w.w == 0 && w.data == 0 && w.sc == 0 && w.hint == 0 && w.la == 0)
    if active s.g = 0 then .ok (some (s, .none))
    else
      let a := addrOf w s 0
      let t := myTeam s
      let _ ← checkLanes s { w := true } 1 1 [(elected s, a)]
      match s.merges.find? fun m => m.isOpen && !m.dropping && m.ctx == t.ctx && m.caddr == a with
      | none => .ok (some (s, .none))
      | some m =>
        let slices := dedup (m.lines.map m.home)
        let s := setMerge { s with nextId := s.nextId + 1 } { m with dropping := true, waiting := slices, sentAt := s.nextId, came := [] }
        .ok (some (slices.foldl (fun s h => due .accDropSlice m.id s h) s, .reply m.id))

/-- ACC_DROP_SLICE: lines not finalised keep the values they held, and their ownership ends. -/
def execAccDropSlice (s : State) : Out :=
  match mergeOf s s.obj.1 with
  | none => .next s
  | some m =>
    let slice := s.obj.2
    if !m.dropping || !m.waiting.contains slice then .next s
    else if m.behind s slice then later .accDropSlice s
    else
      let gone := fun (l : LineReq) => m.home l == slice
      let m := { m with waiting := m.waiting.filter (· != slice), lines := m.lines.map fun l => if gone l then { l with granted := false } else l
                        elems := m.elems.filter fun e => !(m.lines.any fun l => gone l && l.line == e.pa / 128) }
      let s := setMerge s m
      .next (if m.waiting.isEmpty then due .accDropReply m.id s else s)

/-- ACC_DROP_REPLY: the entry is gone and the gang goes on. -/
def execAccDropReply (s : State) : Out :=
  match mergeOf s s.obj.1 with
  | none => .next s
  | some m =>
    if !m.dropping || !m.waiting.isEmpty then .next s
    else
      let s := { s with merges := s.merges.filter (·.id != m.id) }
      .next (onGangs s (fun x => x.wait == .reply m.id) fun x => if x.wake.isSome then x else { x with wake := some 0 })

end Sys2Proof.Machine
end

