-- ==== Sys2Proof/Machine/Lateral.lean ====
section
/-! DEFINITION. Laterals (R272–R277, R351–R354): subscription, batches, the end of a subscription. -/

namespace Sys2Proof.Machine

/-! ## Batches (R274, R275) -/

/-- One closed batch lands in its subscriber's scratch, as one store that no lateral forwards (R273, R274). -/
def landBatch (l : Lateral) (b : Batch) (s : State) : State :=
  b.bytes.foldl (fun s e => scrPut l.sub (l.so + 32 * b.sector + e.1) [e.2.setWidth 8] s) s

/-- An update that has to wait: into a sector of the subscriber that a relay has locked, or to a subscriber that is not placed yet (R277). -/
def batchLocked (s : State) (l : Lateral) (b : Batch) : Bool := (teamOf s l.sub).bare || (lockedScr s l.sub (l.so + 32 * b.sector) 32).isSome

/-- The closed batches between the two teams of an entry, each with its entry, in the order they closed (R200). -/
def pairBatches (s : State) (l : Lateral) : List (Lateral × Batch) :=
  ((s.laterals.filter (samePair l)).flatMap fun m => m.closed.map fun b => (m, b)).foldl
    (fun q e => (q.takeWhile fun x => decide (x.2.no ≤ e.2.no)) ++ e :: (q.dropWhile fun x => decide (x.2.no ≤ e.2.no))) []

/-- Every closed batch between the two teams of an entry is applied, in the order they closed; none while one must wait. -/
def flushEntry (s : State) (l : Lateral) : Option State :=
  let bs := pairBatches s l
  if bs.any fun e => batchLocked s e.1 e.2 then none
  else
    let s := bs.foldl (fun s e => landBatch e.1 e.2 s) s
    some { s with laterals := s.laterals.map fun m => if samePair l m then { m with closed := [] } else m }

/-- Closes the open batches of a publishing team (R274). -/
def closeTeam (team : Nat) (s : State) : State := (s.laterals.filter (·.pub == team)).foldl (fun s l => closeBatch l s) s

/-- Applies every closed batch of a publishing team (R276, R277). -/
def flushTeam (team : Nat) (s : State) : Option State := (s.laterals.filter (·.pub == team)).foldlM flushEntry s

/-- LATERAL_BATCH_TIMEOUT: 64 cc after its first write an open batch closes. -/
def execLateralBatchTimeout (s : State) : Out :=
  match s.laterals.find? (·.handle == s.obj.1) with
  | none => .next s
  | some l => match l.batch with
    | none => .next s
    | some b => if b.opened + 64 ≤ s.clk then .next (closeBatch l s) else later .lateralBatchTimeout s

/-- LATERAL_BATCH_APPLY: the oldest closed batch of an entry is applied, after those between the same two teams that closed before it (R200). -/
def execLateralBatchApply (s : State) : Out :=
  match s.laterals.find? (·.handle == s.obj.1) with
  | none => .next s
  | some l => match l.closed with
    | [] => .next s
    | b :: bs => if batchLocked s l b || (pairBatches s l).any fun e => decide (e.2.no < b.no) then later .lateralBatchApply s
      else .next (landBatch l b (setLateral { l with closed := bs } s))

/-! ## `lat.sub` (R351, R352) -/

/-- The team of a launch with a linear index, if it has been dispatched and has not ended; a suspended team stays one while it migrates. -/
def teamAt (s : State) (task idx : Nat) : Option Team :=
  s.teams.find? fun t => t.task == task && t.idx == idx && !t.msgr && t.place != .ended && t.begun

/-- Teams of a launch's grid. -/
def gridSize (k : Task) : Nat := k.gx * k.gy * k.gz

/-- Check 2 of R352. -/
def subBlockOk (s : State) (bs : List Byte) : Bool :=
  let t := myTeam s
  let k := taskOf s t.task
  let pub := at4 bs 0
  let sub := at4 bs 4
  let po := at4 bs 8
  let so := at4 bs 12
  let len := at4 bs 16
  let c := at4 bs 20
  let holds := fun i => ((k.cohorts.find? (·.1 == c)).map fun l => l.2.contains i).getD false
  decide (c < 256) && zeroFrom bs 24 8 && decide (pub < gridSize k) && decide (sub < gridSize k) && !t.msgr && (t.idx == pub || t.idx == sub)
    && holds pub && holds sub && po % 32 == 0 && so % 32 == 0 && len % 32 == 0 && decide (32 ≤ len) && decide (len ≤ 65536)
    && decide (po + len ≤ k.scr) && decide (so + len ≤ k.scr)

/-- `lat.sub`: the gang waits for the publisher cluster's reply. -/
def execLatSub (w : MWord) (s : State) : Out :=
  waitOr (mLen w) w.nxt s do
    need bad (cisFields w && dataS w && w.hint == 0 && w.idx == 0xFF)
    if active s.g = 0 then .ok (some (s, .none))
    else
      let a ← objectAt w s 32
      let t := myTeam s
      if scrOwned s t.uid a 32 then .ok none
      else
        let bs := scrRead s t.uid a 32
        need (uniCause s .lateralInvalid a 7) (subBlockOk s bs)
        let q : SubReq := { gang := s.g.gid, pub := at4 bs 0, sub := at4 bs 4, po := at4 bs 8, so := at4 bs 12, len := at4 bs 16, reg := sOfData w, blk := a }
        .ok (some (due .lateralSubReply s.g.gid { s with subReqs := s.subReqs ++ [q] }, .reply s.g.gid))

/-- Entries that count where a publisher's stand: in its cluster's table, or with its saved state (R354). -/
def tableLoad (s : State) (p : Team) : Nat :=
  (s.laterals.filter fun l =>
    let q := teamOf s l.pub
    if p.place == .running || p.place == .shadow then (q.place == .running || q.place == .shadow) && clusterOf q.core == clusterOf p.core
    else l.pub == p.uid).length

/-- LATERAL_SUB_REPLY: the publisher's cluster, or the headworks that holds its state, refuses the subscription or makes the entry;
the gang goes on with its handle. -/
def execLateralSubReply (s : State) : Out :=
  match s.subReqs.find? (·.gang == s.obj.1) with
  | none => .next s
  | some q =>
    let s := { s with subReqs := s.subReqs.filter (·.gang != q.gang) }
    let t := gangTeam s q.gang
    let r := fun c => { plain c with recs := [mkRec c q.blk 0 7 0 0 0] }
    match teamAt s t.task q.pub, teamAt s t.task q.sub with
    | some p, some x =>
      if tableLoad s p ≥ 16 then .next (raiseIn q.gang (r .lateralFull) s)
      else
        let c := ctxOf s t.ctx
        let h := (Config.handleStart t.ctx + c.handles) % 2 ^ 32
        let s := setCtx s { c with handles := c.handles + 1 }
        let s := { s with laterals := s.laterals ++ [{ handle := t.ctx * 2 ^ 32 + h, ctx := t.ctx, pub := p.uid, sub := x.uid, po := q.po, so := q.so, len := q.len }] }
        .next (wakeGang q.gang 0 (onGang s q.gang fun g => sSet g q.reg (BitVec.ofNat 64 h)))
    | _, _ => .next (raiseIn q.gang (r .lateralInvalid) s)

/-- `lat.end` (R353): the entry's batches close and are applied, then it is removed; a handle that is gone does nothing. -/
def execLatEnd (w : MWord) (s : State) : Out :=
  wordOr (mLen w) w.nxt s do
    need bad (modOk {} w.pre && w.base == 192 && w.ofs == 0 && w.idx == 0xFF && w.w == 1 && w.sc == 0 && w.la == 0 && w.hint == 0 && dataS w)
    if active s.g = 0 then .ok (some s)
    else
      let h := (myTeam s).ctx * 2 ^ 32 + (sGet s.g (sOfData w)).toNat % 2 ^ 32
      match s.laterals.find? (·.handle == h) with
      | none => .ok (some s)
      | some l =>
        let s := closeBatch l s
        match s.laterals.find? (·.handle == h) with
        | none => .ok (some s)
        | some l => .ok ((flushEntry s l).map fun s => { s with laterals := s.laterals.filter (·.handle != h) })

end Sys2Proof.Machine
end

