-- ==== Sys2Proof/Machine/Barrier.lean ====
section
/-! DEFINITION. Team barriers (R330–R335) and cohort barriers (R336–R339). -/

namespace Sys2Proof.Machine

/-- The fields of a team barrier object (R330). -/
structure Bar where
  phase : Nat
  cpend : Bool
  cdrop : Bool
  ckind : Bool
  ccoh  : Nat
  rsv0  : Nat
  ndrop : Nat
  rsv1  : Nat
  exp   : Nat
  drop  : Mask
  arrv  : Mask
  maxt  : Nat
  dw3   : Nat
  deriving DecidableEq, Repr

def barOf (bs : List Byte) : Bar :=
  let v := leNat bs
  { phase := field v 63 48, cpend := v.testBit 47, cdrop := v.testBit 46, ckind := v.testBit 45, ccoh := field v 44 37, rsv0 := field v 36 14
    ndrop := field v 13 8, rsv1 := field v 7 6, exp := field v 5 0, arrv := BitVec.ofNat 32 (field v 95 64), drop := BitVec.ofNat 32 (field v 127 96)
    maxt := field v 191 128, dw3 := field v 255 192 }

def barBytes (b : Bar) : List Byte :=
  let bit := fun (x : Bool) n => if x then 2 ^ n else 0
  leBytes 32 (b.exp % 64 + b.rsv1 * 2 ^ 6 + b.ndrop % 64 * 2 ^ 8 + b.rsv0 * 2 ^ 14 + b.ccoh * 2 ^ 37 + bit b.ckind 45 + bit b.cdrop 46 + bit b.cpend 47
    + b.phase * 2 ^ 48 + b.arrv.toNat * 2 ^ 64 + b.drop.toNat * 2 ^ 96 + b.maxt * 2 ^ 128 + b.dw3 * 2 ^ 192)

def readBar (s : State) (team off : Nat) : Bar := barOf (scrRead s team off 32)

/-- A barrier object written: a write that laterals forward (R273). -/
def putBar (team off : Nat) (b : Bar) (s : State) : State := scrWrite team off (barBytes b) s

/-- Whether the fields of an object are invalid (R330). -/
def Bar.invalid (b : Bar) : Bool := decide (b.exp > 32) || decide (b.ndrop > 32) || b.rsv0 != 0 || b.rsv1 != 0 || b.dw3 != 0

/-- `complete` on the object (R332). -/
def Bar.complete (b : Bar) : Bar :=
  { b with phase := (b.phase + 1) % 2 ^ 16, exp := (b.exp + 64 - b.ndrop) % 64, ndrop := 0, arrv := 0, ckind := false, cdrop := false, cpend := false, maxt := 0 }

/-- Gangs that wait on the object past whose phase it has gone are released with a time (R332). -/
def wakeBar (team off t : Nat) (s : State) : State :=
  let p := (readBar s team off).phase
  onGangs s (fun x => x.team == team && match x.wait with
      | .barrier o q => o == off && q != p
      | _ => false)
    fun x => if x.wake.isSome then x else { x with wake := some t }

/-- The phase of an object completes at time t (R332). -/
def completeBar (team off t : Nat) (s : State) : State := wakeBar team off t (putBar team off (readBar s team off).complete s)

/-- `bar.init` (R331). -/
def execBarInit (w : MWord) (s : State) : Out :=
  wordOr (mLen w) w.nxt s do
    need bad (cisFields w && w.data == 0 && w.hint == 0 && (idxNum w s).isSome)
    if active s.g = 0 then .ok (some s)
    else
      let n := ((idxNum w s).getD 0).toNat
      let a ← objectAt w s 32
      let t := (myTeam s).uid
      let waits := (gangsOf s t).any fun x => match x.wait with
        | .barrier o _ => o == a && x.wake.isNone
        | _ => false
      need (uniCause s .barInvalid a 7) (decide (1 ≤ n) && decide (n ≤ 32) && !waits)
      if scrOwned s t a 32 || (lockedScr s t a 32).isSome then .ok none
      else .ok (some (scrWrite t a (leBytes 32 n) s))

/-- An arrival at the object at offset a (R332), made after every earlier access of the gang (R333): the state, and whether the
gang's phase is complete, with the phase it arrived at. `coh` is the cohort of `bar.c`, `leave` and `drop` its kind. -/
def arrive (w : MWord) (coh : Option Nat) (leave drop : Bool) (a : Nat) (s : State) : Except Raised (Option (State × Bool × Nat)) := do
  let t := myTeam s
  let o := readBar s t.uid a
  let c := coh.getD 0
  let me : Mask := 1#32 <<< s.g.num
  need (uniCause s .barInvalid a 7) (!o.invalid)
  need (uniCause s .barOver a 7 c) (coh.isNone || !(t.cohorts.any fun x => x.1 == c && x.2))
  need (uniCause s .barOver a 7 c) (o.exp != 0 && (o.drop ||| o.arrv) &&& me == 0)
  need (uniCause s .barInvalid a 7) (o.arrv == 0 || (o.ckind == coh.isSome && (coh.isNone || o.ccoh == c)))
  if scrOwned s t.uid a 32 || (lockedScr s t.uid a 32).isSome || (opsOf s s.g.gid).any fun x => x.kind == .load || isStoreKind x.kind then .ok none
  else
    let s := closeTeam t.uid s
    let s := if w.data.getLsbD 6 then s else { s with g := sSet s.g (sOfData w) (BitVec.ofNat 64 o.phase) }
    let n := { o with ckind := coh.isSome, ccoh := coh.getD o.ccoh, arrv := o.arrv ||| me, maxt := max o.maxt s.g.gts, cdrop := o.cdrop || drop
                      drop := if leave then o.drop ||| me else o.drop, ndrop := if leave then o.ndrop + 1 else o.ndrop }
    if popc n.arrv ≠ o.exp then .ok (some (putBar t.uid a n s, false, o.phase))
    else match coh with
      | none => match flushTeam t.uid s with
        | none => .ok none
        | some s => .ok (some (completeBar t.uid a n.maxt (putBar t.uid a n { s with g := joinTime n.maxt s.g }), true, o.phase))
      | some c =>
        let s := putBar t.uid a { n with cpend := true } s
        let t := teamOf s t.uid
        let s := if n.cdrop then setTeam s { t with cohorts := t.cohorts.map fun x => if x.1 = c then (c, true) else x } else s
        let arr : CohortArr := { team := t.uid, task := t.task, coh := c, off := a, maxt := n.maxt, drop := n.cdrop }
        .ok (some (due .cohortArrival t.uid { s with cohorts := s.cohorts ++ [arr] } a, false, o.phase))

def barFields (w : MWord) (wc : Nat) : Bool :=
  modOk {} w.pre && w.w.toNat == wc && w.sc == 0 && w.la == 0 && baseOk w && (!w.data.getLsbD 6 || w.data == 0x40)

/-- `bar.arr` (R332, R333). -/
def execBarArr (w : MWord) (s : State) : Out :=
  waitOr (mLen w) w.nxt s do
    need bad (barFields w 0 && w.hint == 0 && w.idx == 0xFF)
    if active s.g = 0 then .ok (some (s, .none))
    else
      let a ← objectAt w s 32
      match ← arrive w none false false a s with
      | none => .ok none
      | some (t, true, _) => .ok (some (t, .none))
      | some (t, false, p) => .ok (some (longLatency t, .barrier a p))

/-- `bar.ard` (R332, R333): the gang goes on; where its arrival completes the phase, its own `gts` joins nothing. -/
def execBarArd (w : MWord) (s : State) : Out :=
  wordOr (mLen w) w.nxt s do
    need bad (barFields w 1 && w.hint == 0 && w.idx == 0xFF)
    if active s.g = 0 then .ok (some s)
    else
      let a ← objectAt w s 32
      match ← arrive w none true false a s with
      | none => .ok none
      | some (t, _, _) => .ok (some { t with g := { t.g with gts := s.g.gts } })

/-- `bar.c` (R337). -/
def execBarC (w : MWord) (s : State) : Out :=
  waitOr (mLen w) w.nxt s do
    need bad (barFields w 0 && decide (w.hint.toNat < 2) && (idxNum w s).isSome)
    if active s.g = 0 then .ok (some (s, .none))
    else
      let c := ((idxNum w s).getD 0).toNat
      let a ← objectAt w s 32
      let t := myTeam s
      need (uniCause s .barScope a 7 c) (t.cohorts.any (·.1 == c) && (taskOf s t.task).cba != 0 && !t.msgr)
      match ← arrive w (some c) false (w.hint == 1) a s with
      | none => .ok none
      | some (t, _, p) => .ok (some (longLatency t, .barrier a p))

/-! ## Arrivals at the home slice (R338, R339) -/

/-- What an arrival makes of a 32-byte entry: the entry, and the completion time if it completes the phase. -/
def entryArrive (v maxt : Nat) (drop : Bool) : Nat × Option Nat :=
  let expt := field v 31 0
  let arrt := (field v 63 32 + 1) % 2 ^ 32
  let phase := field v 79 64
  let rsv1 := field v 127 80
  let mt := max (field v 191 128) maxt
  let nd := (field v 223 192 + if drop then 1 else 0) % 2 ^ 32
  let rsv3 := field v 255 224
  let pack := fun e a p m n => e + a * 2 ^ 32 + p * 2 ^ 64 + rsv1 * 2 ^ 80 + m * 2 ^ 128 + n * 2 ^ 192 + rsv3 * 2 ^ 224
  if arrt = expt then (pack ((expt + 2 ^ 32 - nd) % 2 ^ 32) 0 ((phase + 1) % 2 ^ 16) 0 0, some mt)
  else (pack expt arrt phase mt nd, none)

/-- A read and write of n bytes at a context's address by the slices themselves, performed as an ORDERED atomic of clock g;
an event is charged to the context (R182, R260). The state and the value found; none where the line must be waited for. -/
def sliceAtomic (core ctx va n g : Nat) (f : Nat → Nat) (s : State) : Option (State × Nat) :=
  match lineReq s core ctx va with
  | none => none
  | some (r, pa) =>
    if !lineFree s r then none
    else
      let (s, ev) := enterLine r ctx s
      let s := chargeCtx ctx ev (countAccess r ctx s)
      let v := leNat (homeBytes s pa n)
      some ((writeHome r ctx g pa (leBytes n (f v)) 0xFF s).1, v)

/-- COHORT_ARRIVAL: a team's arrival is performed at the home slice of its cohort's entry. -/
def execCohortArrival (s : State) : Out :=
  match s.cohorts.find? fun a => a.team == s.obj.1 && a.off == s.obj.2 && !a.counted with
  | none => .next s
  | some a =>
    let k := taskOf s a.task
    let core := (teamOf s a.team).core
    let nobody := fun (v : Nat) => field v 31 0 == 0
    match (flushTeam a.team s).bind (sliceAtomic core k.ctx (k.cba.toNat + 32 * a.coh) 32 a.maxt fun v => if nobody v then v else (entryArrive v a.maxt a.drop).1) with
    | none => later .cohortArrival s
    | some (u, v) =>
      let rest := u.cohorts.erase a
      if nobody v then .next { u with cohorts := rest }
      else
        let all := rest ++ [{ a with counted := true }]
        match (entryArrive v a.maxt a.drop).2 with
        | none => .next { u with cohorts := all }
        | some t =>
          let mine := fun (x : CohortArr) => x.task == a.task && x.coh == a.coh && x.counted && x.complete.isNone
          let u := { u with cohorts := all.map fun x => if mine x then { x with complete := some t } else x }
          .next ((all.filter mine).foldl (fun u x => due .cohortCompletionDelivery x.team u x.off) u)

/-- COHORT_COMPLETION_DELIVERY: the completion reaches one team, wherever it is, once (R338, R339). -/
def execCohortCompletionDelivery (s : State) : Out :=
  match s.cohorts.find? fun a => a.team == s.obj.1 && a.off == s.obj.2 && a.complete.isSome with
  | none => .next s
  | some a =>
    let s := { s with cohorts := s.cohorts.erase a }
    if s.teams.any (·.uid == a.team) then .next (completeBar a.team a.off (a.complete.getD 0) s) else .next s

end Sys2Proof.Machine
end

