-- ==== Sys2Proof/Machine/Matrix.lean ====
section
/-! DEFINITION. Headraces (R232–R234) and the matrix engine (R109–R113, R235–R246). -/

namespace Sys2Proof.Machine

/-! ## FIFO units of a cluster (R16, R232) -/

def raceUnits (t : Team) : Nat := (t.races.map (·.cap)).sum
def fifoUsed (s : State) (cluster : Nat) : Nat := ((holders s cluster).map raceUnits).sum
def fifoFree (s : State) (cluster : Nat) : Nat := 8 * banksIn s cluster 2 - fifoUsed s cluster

/-- FIFO units of a cluster that no headrace holds. -/
def freeUnits (s : State) (cluster : Nat) : List Nat :=
  let held := (holders s cluster).flatMap fun t => t.races.flatMap (·.units)
  ((bankList s cluster 2).flatMap fun b => (List.range 8).map (8 * b + ·)).filter fun u => !held.contains u

/-- The key of a unit of a cluster. -/
def unitKey (cluster u : Nat) : Nat := 256 * cluster + u

/-- What units hold for a headrace of a context: the bytes last left in them, or zero where another context, or none, held them last (R17, R232). -/
def unitBytes (s : State) (ctx cluster : Nat) (us : List Nat) : Table 8 :=
  unitContents 4096 (us.map (unitKey cluster)) (fun k => (get0 s.fifoCtx k).toNat == ctx + 1) s.fifo

/-- A headrace leaves its units: they keep its bytes for its context. -/
def leaveUnits (ctx cluster : Nat) (r : Headrace) (s : State) : State :=
  let ks := r.units.map (unitKey cluster)
  { s with fifo := keepUnits 4096 ks r.bytes s.fifo, fifoCtx := ownUnits ctx ks s.fifoCtx }

/-- The headraces of a team whose space is now held in its cluster receive their units (R319). -/
def placeRaces (team : Nat) (s : State) : State :=
  let t := teamOf s team
  t.races.foldl (fun s r =>
    let t := teamOf s team
    let us := pickUnits s.fresh r.cap (freeUnits s (clusterOf t.core))
    { setTeam s { t with races := t.races.map fun x => if x.num == r.num then { x with units := us } else x } with fresh := s.fresh + 1 }) s

/-- A team's scratch and headraces hold space in its cluster from now on (R44, R319). -/
def placeSpace (team : Nat) (s : State) : State := placeRaces team (placeScratch team s)

/-- They give it back: their units keep their bytes for the context (R17, R44, R232). -/
def leaveSpace (t : Team) (s : State) : State :=
  if t.placed then t.races.foldl (fun s r => leaveUnits t.ctx (clusterOf t.core) r s) (leaveScratch t s) else s

/-- HEADRACE_INVALID and HEADRACE_SPACE have no record. -/
def raceForm (w : MWord) : Bool :=
  modOk {} w.pre && w.base == 192 && w.idx == 0xFF && w.sc == 0 && w.hint == 0 && w.w == 0 && w.la == 0 && decide (w.data.toNat < 16)

/-- `hr.bind` (R234). -/
def execHrBind (w : MWord) (s : State) : Out :=
  word (mLen w) w.nxt s do
    let cap := w.ofs.toNat
    need bad (raceForm w && decide (1 ≤ cap) && decide (cap ≤ 224))
    if active s.g = 0 then .ok s
    else
      let t := myTeam s
      let h := w.data.toNat
      need (plain .headraceInvalid) (!t.races.any (·.num == h))
      need (plain .headraceSpace) (decide (cap ≤ fifoFree s (clusterOf t.core)))
      let us := pickUnits s.fresh cap (freeUnits s (clusterOf t.core))
      .ok { setTeam s { t with races := t.races ++ [⟨h, cap, unitBytes s t.ctx (clusterOf t.core) us, us⟩] } with fresh := s.fresh + 1 }

/-- Whether a relay of the team writes headrace h, or a matrix operation of the team has yet to read it. -/
def raceBusy (s : State) (team h : Nat) : Bool :=
  (s.relays.any fun r => r.team == team && match slotOf s r.ctx r.dst with
    | some d => d.res == 3 && d.base0.toNat == h
    | none => false) ||
  s.mmas.any fun m => m.team == team && !m.computed && (m.p.ha == h || m.p.hb == h)

/-- A headrace is released: its units are free, and keep their bytes for the context. -/
def releaseRace (team h : Nat) (s : State) : State :=
  match raceOf s team h with
  | none => s
  | some r =>
    let t := teamOf s team
    leaveUnits t.ctx (clusterOf t.core) r (setTeam s { t with races := t.races.filter (·.num != h) })

/-- `hr.free` (R234). -/
def execHrFree (w : MWord) (s : State) : Out :=
  waitWord (mLen w) w.nxt s do
    need bad (raceForm w && w.ofs == 0)
    if active s.g = 0 then .ok (s, .none)
    else
      let t := myTeam s
      let h := w.data.toNat
      need (plain .headraceInvalid) (t.races.any (·.num == h))
      if raceBusy s t.uid h then .ok (due .headraceRelease s.g.gid s, .hrFree h)
      else .ok (releaseRace t.uid h s, .none)

/-- HEADRACE_RELEASE: the gang's `hr.free` has nothing more to wait for. -/
def execHeadraceRelease (s : State) : Out :=
  match (gangOf s s.obj.1).map (fun (x : Gang) => (x.wait, x.team)) with
  | some (.hrFree h, team) =>
    if raceBusy s team h then later .headraceRelease s
    else .next (wakeGang s.obj.1 0 (releaseRace team h s))
  | _ => .next s

/-! ## Formats and tiles (R235) -/

/-- Bits of an element of a code of R235. -/
def matBits (c : Nat) : Nat := if c = 24 ∨ c = 25 then 4 else match tyOfCode c with | some t => tyBits t | none => 8

/-- Mt, Nt and Kt of a form: 0 `mma`, 1 `mma.thin`, 2 `mma.q`; none where the pair is refused. -/
def tileOf (form fa fb act : Nat) : Option (Nat × Nat × Nat) :=
  let fp8 := fun c => c == 15 || c == 16 || c == 20
  let int8 := fun c => c == 1 || c == 5 || c == 22
  let fp4 := fun c => c == 17 || c == 21
  let int4 := fun c => c == 24 || c == 25
  let half := (fa == 14 && fb == 14) || (fa == 13 && fb == 13)
  let bytes := (fp8 fa && fp8 fb && act == 0) || (int8 fa && int8 fb && (act == 2 || (act == 0 && (fa == 22 || fb == 22))))
  match form with
  | 0 =>
    if fa = 11 ∧ fb = 11 ∧ act = 1 then some (32, 32, 8)
    else if fa = 12 ∧ fb = 12 ∧ act = 0 then some (32, 32, 8)
    else if half ∧ act = 0 then some (64, 64, 32)
    else if bytes then some (64, 64, 64)
    else if fp4 fa ∧ fp4 fb ∧ act = 0 then some (64, 64, 128)
    else if int4 fa ∧ int4 fb ∧ act = 2 then some (64, 64, 128) else none
  | 1 => if half ∧ act = 0 then some (64, 64, 64) else if bytes then some (64, 64, 128) else none
  | _ =>
    if act = 0 ∧ (fb = 18 ∨ fb = 19) then
      (if fa = 13 ∨ fa = 14 then some (64, 64, 32) else if fa = 15 ∨ fa = 16 ∨ fa = 1 then some (64, 64, 64) else none)
    else none

/-- Whether a format has block scales. -/
def hasScale (c : Nat) : Bool := c == 20 || c == 21 || c == 22

/-- The value of an element's code. -/
def matVal (c x : Nat) : Val :=
  match c with
  | 11 => decodeF f64 x
  | 12 => decodeF f32 x
  | 13 => decodeF f16 x
  | 14 => decodeF bf16 x
  | 15 | 20 => decodeF e4m3 x
  | 16 => decodeF e5m2 x
  | 17 | 21 => decodeF e2m1 x
  | 1 | 22 => ofInt (intOf true 8 x)
  | 5 => ofInt (intOf false 8 x)
  | 24 => ofInt (intOf true 4 x)
  | _ => ofInt (intOf false 4 x)

/-- A value times 2^s, s a scale byte; 0x80 marks a zero block (R112). -/
def blockScaled (s : Nat) (v : Val) : Val :=
  if s = 0x80 then .fin false 0 1
  else
    let e := intOf true 8 s
    if e ≥ 0 then (vmul v (.fin false (2 ^ e.toNat) 1)).1 else (vmul v (.fin false 1 (2 ^ (-e).toNat))).1

/-! ## Exact sums (R113) -/

/-- A running exact sum in units of 2^−2400, which every product of R235's formats is a multiple of. -/
structure MSum where
  nan : Bool := false
  pinf : Bool := false
  ninf : Bool := false
  allNeg : Bool := true
  sum : Int := 0
  deriving DecidableEq, Repr

def MSum.term (a : MSum) (v : Val) : MSum :=
  match v with
  | .nan _ => { a with nan := true, allNeg := false }
  | .inf neg => { a with pinf := a.pinf || !neg, ninf := a.ninf || neg, allNeg := false }
  | .fin neg n d => { a with sum := a.sum + sgn neg (n * 2 ^ 2400 / d), allNeg := a.allNeg && neg && n == 0 }

def MSum.value (a : MSum) : Val :=
  if a.nan || (a.pinf && a.ninf) then .nan false else if a.pinf then .inf false else if a.ninf then .inf true
  else if a.sum = 0 then .fin a.allNeg 0 1 else .fin (decide (a.sum < 0)) a.sum.natAbs (2 ^ 2400)

/-! ## Parameters (R238) -/

def paramsOf (bs : List Byte) : MParams :=
  let c := at8 bs 0
  { fa := field c 4 0, fb := field c 9 5, act := field c 11 10, srnd := c.testBit 12, gq := field c 14 13, ha := field c 19 16
    hb := field c 23 20, split := field c 47 32, nch := at4 bs 8, caddr := BitVec.ofNat 64 (at8 bs 0x10), ldc := at4 bs 0x18
    sca := at4 bs 0x20, scb := at4 bs 0x24, spa := at4 bs 0x28 }

/-- Group size of `mma.q`. -/
def MParams.group (p : MParams) : Nat := 32 * 2 ^ p.gq
def accSize (act : Nat) : Nat := if act = 1 then 8 else 4

/-- Mt, Nt, Kt of an operation. -/
def MmaOp.tile (m : MmaOp) : Nat × Nat × Nat := (tileOf m.form m.p.fa m.p.fb m.p.act).getD (0, 0, 1)

/-- Check 3 of R239. -/
def mmaBlockOk (form : Nat) (bs : List Byte) : Bool :=
  let c := at8 bs 0
  let p := paramsOf bs
  match tileOf form p.fa p.fb p.act with
  | none => false
  | some (_, nt, kt) =>
    let k := p.nch * kt
    !c.testBit 15 && field c 31 24 == 0 && field c 63 48 == 0 && zeroFrom bs 0x0C 4 && zeroFrom bs 0x1C 4 && zeroFrom bs 0x2C 20
    && !(p.srnd && p.act != 0) && (if form = 2 then p.gq != 3 else p.gq == 0) && p.nch != 0 && decide (p.nch < 65536)
    && (form != 2 || (k % p.group == 0 && decide (k / p.group ≤ 16)))
    && (form == 1 || p.spa == 0) && (hasScale p.fa || p.sca == 0) && (hasScale p.fb || p.scb == 0)
    && p.ldc % accSize p.act == 0 && decide (p.ldc ≥ nt * accSize p.act)

/-- Elements of A and B that a headrace holds (R236). -/
def aCount (form mt k : Nat) : Nat := if form = 1 then mt * k / 2 else mt * k

/-- Whether a headrace is bound and holds n elements of a format. -/
def raceHolds (s : State) (team h n bits : Nat) : Bool :=
  match raceOf s team h with
  | some r => decide (n * bits ≤ 8 * 4096 * r.cap)
  | none => false

/-- The checks of R239 from the block's contents on. -/
def checkMma (form : Nat) (a sv zv bsel : Nat) (bs : List Byte) (s : State) : Except Raised MParams := do
  let t := myTeam s
  let p := paramsOf bs
  need { mergeCause s .matrixInvalid a with recs := [mkRec .matrixInvalid a (elected s) 7 0 0 0] } (mmaBlockOk form bs)
  let (mt, nt, kt) := (tileOf form p.fa p.fb p.act).getD (0, 0, 1)
  let k := p.nch * kt
  let groups := k / p.group
  need bad (form != 2 || (decide (sv + groups ≤ s.g.regs) && decide (zv + (groups - 1 + bsel) / 2 < s.g.regs)))
  let arr := fun (off n : Nat) => need (uniCause s .scratchRange off) (n == 0 || decide (off + n ≤ t.scr))
  arr p.sca (if hasScale p.fa then mt * k / 32 else 0)
  arr p.scb (if hasScale p.fb then nt * k / 32 else 0)
  arr p.spa (if form = 1 then mt * k / 8 else 0)
  need (plain .headraceInvalid) (raceHolds s t.uid p.ha (aCount form mt k) (matBits p.fa) && raceHolds s t.uid p.hb (nt * k) (matBits p.fb))
  need (memCause s .misaligned p.caddr.toNat 6) (p.caddr.toNat % accSize p.act == 0)
  (List.range mt).forM fun i => do
    let va := p.caddr.toNat + i * p.ldc
    checkBlock s { w := true } 6 va (nt * accSize p.act)
    match lockedMem s t.ctx va (nt * accSize p.act) with
    | some n => .error (uniCause s .relayWriteLocked 0 6 n)
    | none => .ok ()
  .ok p

/-- The registers of SV and ZV that `mma.q` reads (R239). -/
def quantRegs (form sv zv bsel : Nat) (p : MParams) : List Nat :=
  if form ≠ 2 then []
  else
    let k := p.nch * ((tileOf form p.fa p.fb p.act).map fun t => t.2.2).getD 0
    let groups := k / p.group
    (List.range groups).map (sv + ·) ++ (List.range ((groups - 1 + bsel) / 2 + 1)).map (zv + ·)

/-- A matrix form (R239, R240): it is checked, and waits for its acceptance. -/
def mmaForm (form : Nat) (sv zv bsel : Nat) (fieldsOk : Bool) (w : MWord) (s : State) : Out :=
  wordOr (mLen w) w.nxt s do
    need bad (modOk {} w.pre && baseOk w && w.w == 0 && w.hint == 0 && fieldsOk)
    if active s.g = 0 then .ok (some s)
    else
      let t := myTeam s
      let a ← objectAt w s 64 7 64
      if scrOwned s t.uid a 64 then .ok none
      else
        let p ← checkMma form a sv zv bsel (scrRead s t.uid a 64) s
        if storesOut s || decide (8 ≤ (s.mmas.filter (·.core == t.core)).length) then .ok none
        else
          let m : MmaOp := { id := s.nextId, gang := s.g.gid, team := t.uid, core := t.core, form := form, op := 0, sv := sv, zv := zv, bsel := bsel, p := p
                             blk := a, la := w.la.toNat, seq := s.g.issued, reads := quantRegs form sv zv bsel p, t0 := s.g.gts, cpc := s.g.cl.addr, cwi := wordIx s.g }
          .ok (some (due .mmaAccept m.id { s with mmas := s.mmas ++ [m], nextId := s.nextId + 1 }))

def execMma (w : MWord) (s : State) : Out := mmaForm 0 0 0 0 (w.data == 0 && w.idx == 0xFF && w.sc == 0) w s
def execMmaThin (w : MWord) (s : State) : Out := mmaForm 1 0 0 0 (w.data == 0 && w.idx == 0xFF && w.sc == 0) w s
def execMmaQ (w : MWord) (s : State) : Out :=
  mmaForm 2 w.data.toNat w.idx.toNat (w.sc.toNat % 2)
    (decide (w.idx.toNat < 128) && decide (w.sc.toNat < 2) && decide (w.data.toNat < s.g.regs) && decide (w.idx.toNat < s.g.regs)) w s

/-- MMA_ACCEPT: the core's engine takes the operation, in order, and reads its block and its registers (R240). DESIGN CHOICE (log entry 99): a block that
has changed since the form's checks, and no longer passes step 3 of R239, is used as it was checked. -/
def execMmaAccept (s : State) : Out :=
  match s.mmas.find? (·.id == s.obj.1) with
  | none => .next s
  | some m =>
    if m.accepted then .next s
    else if s.mmas.any fun o => o.core == m.core && !o.accepted && decide (o.id < m.id) then later .mmaAccept s
    else if scrOwned s m.team m.blk 64 then later .mmaAccept s
    else
      let bs := scrRead s m.team m.blk 64
      let p := if mmaBlockOk m.form bs then paramsOf bs else m.p
      let regs := if m.form = 2 then ((gangOf s m.gang).map (·.v)).getD [] else []
      .next (due .mmaCompletion m.id { s with mmas := modFirst (·.id == m.id) (fun m => { m with accepted := true, p := p, regs := regs, reads := [] }) s.mmas })

/-! ## What the engine computes (R111–R113, R241–R243) -/

/-- An element's code in a headrace. -/
def raceElem (s : State) (team h bits p : Nat) : Nat :=
  match raceOf s team h with
  | some r => byteElem (readBytes r.bytes) bits p
  | none => 0

/-- The scale byte of a row and block (R237). -/
def scaleByte (s : State) (team base k row kk : Nat) : Nat := leNat (scrRead s team (base + row * (k / 32) + kk / 32) 1)

/-- Where the two stored values of a quad stand (R242). -/
def quadPair (code : Nat) : Option (Nat × Nat) :=
  match code with
  | 0 => some (0, 1) | 1 => some (0, 2) | 2 => some (0, 3) | 3 => some (1, 2) | 4 => some (1, 3) | 5 => some (2, 3)
  | _ => none

/-- Whether A[i][k] lies in a zero quad, whose products never enter the sum (R242). -/
def zeroQuad (s : State) (m : MmaOp) (i k : Nat) : Bool :=
  m.form == 1 &&
    let n := m.p.nch * m.tile.2.2
    let q := k / 4
    (quadPair (leNat (scrRead s m.team (m.p.spa + i * (n / 8) + q / 2) 1) / 16 ^ (q % 2) % 16)).isNone

/-- A[i][k], chunk c (R236, R242). -/
def aValue (s : State) (m : MmaOp) (i k : Nat) : Val :=
  let (mt, _, kt) := m.tile
  let c := k / kt
  let n := m.p.nch * kt
  let bits := matBits m.p.fa
  let scale := fun v => if hasScale m.p.fa then blockScaled (scaleByte s m.team m.p.sca n i k) v else v
  let read := fun pos => scale (matVal m.p.fa (raceElem s m.team m.p.ha bits pos))
  if m.form ≠ 1 then read ((c * mt + i) * kt + k % kt)
  else
    let q := k / 4
    let code := leNat (scrRead s m.team (m.p.spa + i * (n / 8) + q / 2) 1) / 16 ^ (q % 2) % 16
    let at' := (c * mt + i) * (kt / 2) + 2 * (q - c * (kt / 4))
    match quadPair code with
    | none => .fin false 0 1
    | some (p0, p1) => if k % 4 = p0 then read at' else if k % 4 = p1 then read (at' + 1) else .fin false 0 1

/-- B[j][k] (R236, R243). DEDUCED (log entry 96): an infinite product under a scale of ±0 is NaN, as R113 gives for infinity times zero. -/
def bValue (s : State) (m : MmaOp) (j k : Nat) : Val :=
  let (_, nt, kt) := m.tile
  let n := m.p.nch * kt
  let x := raceElem s m.team m.p.hb (matBits m.p.fb) (((k / kt) * nt + j) * kt + k % kt)
  if m.form = 2 then
    let g := k / m.p.group
    let half := (get0 m.regs (vKey (m.sv + g) (j % 32))).toNat / 65536 ^ (j / 32) % 65536
    let z := (get0 m.regs (vKey (m.zv + (g + m.bsel) / 2) (j % 32))).toNat / 256 ^ (2 * ((g + m.bsel) % 2) + j / 32) % 256
    let scale := match decodeF f16 half with | .inf _ => .nan false | v => v
    (vmul (ofInt ((x : Int) - z)) scale).1
  else
    let v := matVal m.p.fb x
    if hasScale m.p.fb then blockScaled (scaleByte s m.team m.p.scb n j k) v else v

/-- The exact sum of one chunk and the incoming accumulator of one element. -/
def chunkSum (s : State) (m : MmaOp) (acc : Val) (i j c : Nat) : Val :=
  let (_, _, kt) := m.tile
  ((List.range kt).foldl (fun (a : MSum) kk => if zeroQuad s m i (c * kt + kk) then a else a.term (vmul (aValue s m i (c * kt + kk)) (bValue s m j (c * kt + kk))).1)
    ((({} : MSum)).term acc)).value

/-- A chunk sum rounded into the accumulator's type (R113), its neighbours' D32 given for SR. -/
def chunkRound (m : MmaOp) (v : Val) (a b : Nat) : Nat :=
  match m.p.act with
  | 2 => match v with
    | .fin neg n d => modPow (sgn neg (n / d)) 32
    | _ => 0
  | 1 => (rnd f64 .rne false 0 v).1
  | _ => (rnd f32 (if m.p.srnd then .sr else .rne) false (srbits a b) v).1

/-- The value of an accumulator's bits. -/
def accVal (act x : Nat) : Val := if act = 2 then ofInt (intOf true 32 x) else decodeF (if act = 1 then f64 else f32) x

/-- One row of the accumulator after a chunk. -/
def rowChunk (s : State) (m : MmaOp) (i c : Nat) (acc : List Nat) : List Nat :=
  let (_, nt, _) := m.tile
  let sums := acc.mapIdx fun j x => chunkSum s m (accVal m.p.act x) i j c
  let ds := sums.map (d32Of f32)
  sums.mapIdx fun j v => chunkRound m v (ds.getD ((j + nt - 1) % nt) 0) (ds.getD ((j + 1) % nt) 0)

/-- One row of the result. -/
def rowResult (s : State) (m : MmaOp) (i : Nat) : List Nat :=
  (List.range m.p.nch).foldl (fun acc c => rowChunk s m i c acc) (List.replicate m.tile.2.1 0)

/-- A scale byte that an integer ix8 operation forbids: its scratch offset (R237). -/
def badScale (s : State) (m : MmaOp) : Option Nat :=
  let (mt, nt, kt) := m.tile
  let n := m.p.nch * kt
  let look := fun (f base rows : Nat) =>
    if f = 22 ∧ m.p.act = 2 then (List.range (rows * (n / 32))).find? fun i => decide (leNat (scrRead s m.team (base + i) 1) > 0x80) else none
  ((look m.p.fa m.p.sca mt).map (m.p.sca + ·)) <|> ((look m.p.fb m.p.scb nt).map (m.p.scb + ·))

/-- The contributions of a tile, in tile order (R241). -/
def tileContribs (s : State) (m : MmaOp) : List (Contrib × Nat × Nat) :=
  let (mt, nt, _) := m.tile
  let t := teamOf s m.team
  let z := accSize m.p.act
  (List.range mt).flatMap fun i => (rowResult s m i).mapIdx fun j x =>
    let va := m.p.caddr.toNat + i * m.p.ldc + j * z
    let q := lineReq s t.core t.ctx va
    (({ order := i * nt + j, pa := (q.map (·.2)).getD 0, va := BitVec.ofNat 64 va, bits := BitVec.ofNat 64 x } : Contrib), m.p.split, (q.map (·.1.dom)).getD 0)

/-- MMA_COMPLETION: first the engine reads its operands, computes and sends its contributions, in the core's acceptance order;
once every answer has arrived the operation completes, with its start time as its time (R244, R245). -/
def execMmaCompletion (s : State) : Out :=
  match s.mmas.find? (·.id == s.obj.1) with
  | none => .next s
  | some m =>
    if !m.accepted then .next s
    else if !m.computed then
      if s.mmas.any fun o => o.core == m.core && !o.computed && decide (o.id < m.id) then later .mmaCompletion s
      else
        let s := { s with mmas := modFirst (·.id == m.id) (fun m => { m with computed := true }) s.mmas }
        match badScale s m with
        | some off => .next (due .mmaCompletion m.id (pendCause m.gang { cause := .matrixInvalid, cpc := m.cpc, cwi := m.cwi, recs := [mkRec .matrixInvalid off 0 7 0 0 0] } s))
        | none => .next (sendContribs m.id true (clusterOf m.core) (teamOf s m.team).ctx (accSize m.p.act) (some m.p.act) m.t0 (tileContribs s m) s)
    else if s.contribs.any fun c => c.mma && c.op == m.id then .next s
    else
      let s := { s with mmas := s.mmas.filter (·.id != m.id) }
      let s := onGang s m.gang fun g => { g with engTime := max g.engTime m.t0 }
      .next (match refusedCause s m.core (teamOf s m.team).ctx m.cpc m.cwi false m.refused with | some r => pendCause m.gang r s | none => s)

end Sys2Proof.Machine
end

