-- ==== Sys2Proof/Machine/Residency.lean ====
section
/-! DEFINITION. What stands on a core and in a cluster: running contexts and shadow banks (R314, R316), gang slots and registers
(R47, R48), scratch space (R17, R44, R57), lateral-table room (R354), and placing a team. -/

namespace Sys2Proof.Machine

/-! ## SBS (R314, R316) -/

def sbsState (s : State) (core : Nat) : Nat := regField s 0x022 core 36 34
def setSbs (core hi lo v : Nat) (s : State) : State := regSet s 0x022 core (putField (regGet s 0x022 core) hi lo v)

/-- The context that runs on a core. -/
def runs (s : State) (core : Nat) : Option Nat :=
  if (regGet s 0x022 core).getLsbD 37 then some (regField s 0x022 core 43 38) else none

/-- Bits [43:37] of SBS: a context runs, or none. -/
def setRuns (core : Nat) (c : Option Nat) (s : State) : State :=
  match c with
  | some x => setSbs core 37 37 1 (setSbs core 43 38 x s)
  | none => setSbs core 37 37 0 (setSbs core 43 38 0 s)

/-- A core's teams in its running bank. -/
def coreTeams (s : State) (core : Nat) : List Team := s.teams.filter fun t => t.core == core && t.place == .running

/-- A core with no running team left runs no context. -/
def coreIdle (core : Nat) (s : State) : State := if (coreTeams s core).isEmpty then setRuns core none s else s

/-- A task starts on a core where it has not stood yet: the core's instruction cache is invalidated (R67). -/
def taskStarts (k core : Nat) (s : State) : State :=
  let t := taskOf s k
  if t.cores.contains core then s else setTask { s with icache := s.icache.filter (·.1 != core) } { t with cores := insertNat core t.cores }

/-! ## Space -/

/-- Bytes of SCRATCH banks of a cluster that no team holds (R17, R57). -/
def scrFree (s : State) (cluster : Nat) : Nat := 32768 * banksIn s cluster 1 - ((holders s cluster).map (·.scr)).sum

/-- Gangs in a quarter of a bank of a core that count against its slots and registers (R48). -/
def quarterGangs (s : State) (core q : Nat) (p : Place) : List Gang :=
  (allGangs s).filter fun g => g.quarter == q && g.place == p && (let t := teamOf s g.team; t.core == core && !t.msgr)

/-- The bank of a core has room for a team's gangs, by their numbers, of r registers each, its gang 0 in quarter q0 (R48). -/
def gangsFit (s : State) (core : Nat) (p : Place) (nums : List Nat) (r q0 : Nat) : Bool :=
  (List.range 4).all fun q =>
    let old := quarterGangs s core q p
    let more := nums.countP fun g => (g + q0) % 4 == q
    decide (old.length + more ≤ 32) && decide ((old.map (·.regs)).sum + more * r ≤ 1536)

/-- A quarter for gang 0 of a team, freely chosen among those with which it fits (R48). -/
def chooseQuarter (s : State) (core : Nat) (p : Place) (nums : List Nat) (r : Nat) : Option Nat :=
  let ok := (List.range 4).filter (gangsFit s core p nums r)
  if ok.isEmpty then none else some (ok.getD (Config.placement s.fresh % ok.length) 0)

def freeSlots (s : State) (core : Nat) (p : Place) : Nat := 128 - ((List.range 4).map fun q => (quarterGangs s core q p).length).sum

/-- Free lateral entries of the core's cluster are enough for the team (R354). -/
def lateralsFit (s : State) (core team : Nat) : Bool :=
  let mine := (s.laterals.filter (·.pub == team)).length
  let there := (s.laterals.filter fun l => let q := teamOf s l.pub; (q.place == .running || q.place == .shadow) && clusterOf q.core == clusterOf core && q.uid != team).length
  decide (mine + there ≤ 16)

/-- Whether the team's scratch and headraces fit in the core's cluster (R319). -/
def spaceFits (s : State) (core : Nat) (t : Team) : Bool :=
  decide (t.scr ≤ scrFree s (clusterOf core)) && decide (raceUnits t ≤ fifoFree s (clusterOf core))

/-! ## New gangs (R36) -/

/-- A gang as it starts: its threads at `entry`, those of `live`; it enters the pending set (R49). -/
def newGang (id team num regs quarter gts clk : Nat) (live : Mask) (entry : DWord) : Gang :=
  { gid := id, team := team, num := num, regs := regs, quarter := quarter, place := .running, live := live
    pc := (lanesOf live).foldl (fun t l => set0 t l entry) [], k := [1, 2, 3].foldl (fun t i => set0 t i live) [], gts := gts
    age := clk, waitFrom := clk }

/-- The s registers loaded with values from s0 on. -/
def loadArgs (vs : List DWord) (g : Gang) : Gang := vs.zipIdx.foldl (fun g p => sSet g p.2 p.1) g

/-- Gangs join the machine. -/
def addGangs (gs : List Gang) (s : State) : State :=
  if s.g.gid = 0 then match gs with
    | [] => s
    | g :: r => { s with g := g, gangs := s.gangs ++ r }
  else { s with gangs := s.gangs ++ gs }

/-- A headrace range that a relay writes is locked (R160). -/
def lockedRace (s : State) (team h off n : Nat) : Bool :=
  s.relays.any fun r => r.team == team && (lockedSpans s r).any fun p => p.res == 3 && p.lo == h && decide (off < p.len) && decide (0 < n)

end Sys2Proof.Machine
end

