-- ==== Sys2Proof/Machine/Message.lean ====
section
/-! DEFINITION. Active messages (R340–R345): sending, inboxes, handler gangs, payloads, and messages of peers (R373). -/

namespace Sys2Proof.Machine

def mpc (s : State) (ctx : Nat) : Nat := (regGet s 0x017 ctx).toNat

def postOf (s : State) (core : Nat) : Post := (s.posts.find? (·.core == core)).getD { core := core }
def setPost (p : Post) (s : State) : State :=
  let rest := s.posts.filter (·.core != p.core)
  { s with posts := if p.unsent.isEmpty && p.sent.isEmpty && p.inbox.isEmpty then rest else rest ++ [p] }

/-- The post of the headworks, which hold payloads for teams that are not placed (R343), and take those for suspended or moving teams, whose images they
hold (R344). -/
def heldPost : Nat := 4096

/-! ## Sending (R341–R344) -/

/-- Payload byte 8l + j: byte j of registers D and D + 1 of lane l. -/
def payload (g : Gang) (d n : Nat) : List Byte := (List.range n).map fun i => groupByte g d (i / 8) (i % 8)

/-- A message form: its checks, then its place among 16. -/
def message (w : MWord) (send : Bool) (s : State) (chk : DWord → DWord → Nat → Bool) : Out :=
  wordOr (mLen w) w.nxt s do
    need bad (modOk {} w.pre && isS w.base.toNat && isS w.idx.toNat && w.sc == 0 && w.hint == 0 && w.la == 0 && w.w.toNat == (if send then 0 else 1))
    need bad (vregOk s.g.regs true w.data.toNat)
    if active s.g = 0 then .ok (some s)
    else
      let target := sGet s.g (w.base.toNat - 128)
      let ctl := sGet s.g (w.idx.toNat - 128)
      let n := w.ofs.toNat
      need (uniCause s .messageInvalid target.toNat 7) (chk target ctl n)
      let t := myTeam s
      let p := postOf s t.core
      if p.unsent.length + p.sent.length ≥ 16 then .ok none
      else
        let o := mkOp w s .message
        let m : Msg := { send := send, core := t.core, team := if t.msgr then 0xFFFF_FFFF else BitVec.ofNat 64 t.idx, ctx := t.ctx, task := t.task
                         op := o.id, target := target, ctl := ctl, gts := s.g.gts, bytes := payload s.g w.data.toNat n }
        .ok (some (due .messageSend t.core (addOp o (setPost { p with unsent := p.unsent ++ [m] } s))))

/-- `amsg.send` (R341, R343). -/
def execAmsgSend (w : MWord) (s : State) : Out :=
  message w true s fun target ctl n =>
    decide (n ≤ 256) && n % 8 == 0 && decide (target.toNat < 2 ^ 16) && (mpc s (myTeam s).ctx).testBit 31 && clauseAddr ctl

/-- `amsg.pay` (R342, R343). -/
def execAmsgPay (w : MWord) (s : State) : Out :=
  message w false s fun target ctl n =>
    let k := myTask s
    let h := ctl.getLsbD 52
    let off := field ctl.toNat 31 0
    let cis := field ctl.toNat 47 32
    decide (4 ≤ n) && decide (n ≤ 256) && n % (if h then 32 else 4) == 0 && decide (target.toNat < 2 ^ 36) && decide (ctl.toNat < 2 ^ 53) &&
      (target.getLsbD 35 || (decide (field target.toNat 31 0 < gridSize k) && (if h then off % 32 == 0 else decide (off + n ≤ k.scr))
        && (cis == 0xFFFF || decide (16 * cis + 16 ≤ k.scr))))

/-- Whether a message leaves by a peer port. -/
def Msg.far (m : Msg) : Bool := if m.send then m.target.getLsbD 15 else m.target.getLsbD 35

/-- Whether the message's gang has no earlier store or atomic outstanding. -/
def mayGo (s : State) (m : Msg) : Bool :=
  match opOf s m.op with
  | some o => !s.ops.any fun x => x.gang == o.gang && decide (x.id < o.id) && isStoreKind x.kind
  | none => true

/-- MESSAGE_SEND: the first unsent message of a core whose gang's earlier stores are performed is sent, with the gang's `gts`. -/
def execMessageSend (s : State) : Out :=
  let p := postOf s s.obj.1
  match p.unsent.find? (mayGo s) with
  | none => if p.unsent.isEmpty then .next s else later .messageSend s
  | some m =>
    let now := ((opOf s m.op).bind fun o => (gangOf s o.gang).map (·.gts)).getD m.gts
    let m' := { m with gts := max m.gts now }
    let s := setPost { p with unsent := p.unsent.erase m, sent := p.sent ++ [m'] } s
    .next (due (if m.far then .peerPortAccept else .inboxAccept) p.core s)

/-- PEER_PORT_ACCEPT: the peer device has accepted the core's next message for it; it is no longer outstanding. -/
def execPeerPortAccept (s : State) : Out :=
  let p := postOf s s.obj.1
  match p.sent.find? Msg.far with
  | none => .next s
  | some m => .next (dropOp (setPost { p with sent := p.sent.erase m } s) m.op)

/-! ## Acceptance (R343, R344) -/

/-- Where a message goes: a core, the headworks, or nowhere. -/
inductive Goal where
  | core (c : Nat)
  | held
  | gone
  deriving DecidableEq, Repr

/-- A payload's team index. -/
def Msg.index (m : Msg) : Nat := field m.target.toNat 31 0

/-- The team of a launch with an index, wherever it is, if it has begun and not ended. -/
def payTeam (s : State) (m : Msg) : Option Team := teamAt s m.task m.index

/-- Whether a payload's team has not been placed yet, a migration on its way to its first place included (R319, R343). -/
def notPlaced (s : State) (m : Msg) : Bool :=
  (s.teams.any fun t => t.task == m.task && t.idx == m.index && !t.msgr && (!t.begun || t.bare) && t.place != .ended) ||
  (let k := taskOf s m.task; k.stage != .ended && k.stage != .done && decide (k.next ≤ m.index) && decide (m.index < gridSize k))

/-- Where a message goes. Payloads for one team take their places in order: behind those that stand in an inbox, or with the headworks (R344). -/
def goalOf (s : State) (m : Msg) : Goal :=
  if m.send then .core (m.target.toNat % 4096)
  else
    let behind := (postOf s heldPost).inbox.any fun x => x.task == m.task && x.index == m.index
    match payTeam s m with
    | some t =>
      match s.posts.find? fun p => p.core != heldPost && p.inbox.any fun x => !x.send && x.task == m.task && x.index == m.index with
      | some p => .core p.core
      | none => if behind || t.bare || t.place != .running then .held else .core t.core
    | none => if notPlaced s m then .held else .gone

/-- A message enters an inbox; its own step is then due. -/
def enterInbox (core : Nat) (m : Msg) (s : State) : State :=
  let p := postOf s core
  due (if m.send then .handlerSpawn else .payloadDelivery) core (setPost { p with inbox := p.inbox ++ [m] } s)

/-- Whether a goal takes a message now: an inbox holds 64. -/
def goalOpen (s : State) (m : Msg) : Bool :=
  match goalOf s m with
  | .core c => decide ((postOf s c).inbox.length < 64)
  | _ => true

/-- A message reaches its goal. -/
def accept (m : Msg) (s : State) : State :=
  match goalOf s m with
  | .core c => enterInbox c m (if m.send then dropOp s m.op else s)
  | .held => enterInbox heldPost m s
  | .gone => dropOp s m.op

/-- INBOX_ACCEPT: the first message of a core's unit whose inbox has room is accepted there. Messages to one core stay in order,
since a full inbox stops all of them. -/
def execInboxAccept (s : State) : Out :=
  let p := postOf s s.obj.1
  let near := p.sent.filter fun m => !m.far
  match near.find? (goalOpen s) with
  | none => if near.isEmpty then .next s else later .inboxAccept s
  | some m => .next (accept m (setPost { p with sent := p.sent.erase m } s))

/-! ## Payloads (R342–R345) -/

/-- A payload at its team: written in one action and counted, or discarded; none while a relay's lock stands (R160). -/
def deliver (t : Team) (m : Msg) (s : State) : Option State :=
  let n := m.bytes.length
  let off := field m.ctl.toNat 31 0
  let cis := field m.ctl.toNat 47 32
  let count := fun s => if cis = 0xFFFF then s else countDown t.uid (16 * cis) n s
  let cisFits := cis == 0xFFFF || decide (16 * cis + 16 ≤ t.scr)
  if m.ctl.getLsbD 52 then
    let h := field m.ctl.toNat 51 48
    match t.races.find? (·.num == h) with
    | none => some s
    | some r =>
      if off + n > 4096 * r.cap ∨ off % 32 ≠ 0 ∨ !cisFits then some s
      else if lockedRace s t.uid h off n then none
      else some (count (raceWrite t.uid h off m.bytes s))
  else if off + n > t.scr ∨ !cisFits then some s
  else if (lockedScr s t.uid off n).isSome then none
  else some (count (scrWrite t.uid off m.bytes s))

/-- PAYLOAD_DELIVERY: the payload at the head of an inbox, or one the headworks hold for a team that is now placed, is applied or
discarded. -/
def execPayloadDelivery (s : State) : Out :=
  let p := postOf s s.obj.1
  let next := if p.core = heldPost then p.inbox.find? fun m => !notPlaced s m else p.inbox.head?
  match next with
  | none => if p.inbox.isEmpty then .next s else later .payloadDelivery s
  | some m =>
    if m.send then later .payloadDelivery s
    else
      let done := fun (s : State) => dropOp (let p := postOf s p.core; setPost { p with inbox := p.inbox.erase m } s) m.op
      match payTeam s m with
      | none => .next (done s)
      | some t => match deliver t m s with
        | none => later .payloadDelivery s
        | some s => .next (done s)

/-! ## Handler gangs (R345) -/

/-- Handler gangs of a core. -/
def handlers (s : State) (core : Nat) : List Gang :=
  (allGangs s).filter fun g => g.place == .running && (let t := teamOf s g.team; t.core == core && t.msgr)

/-- A handler gang starts for a message in a quarter; it is a team of its task on the core's cluster (R193, R345). -/
def spawn (core q : Nat) (m : Msg) (s : State) : State :=
  let units := mpc s m.ctx % 32
  let (id, s) := newId s
  let all : Mask := BitVec.allOnes 32
  let g := newGang id id 0 16 q m.gts s.clk all m.ctl
  let bytes := m.bytes ++ List.replicate (256 - m.bytes.length) 0
  let g := (List.range 64).foldl (fun g i => vSet g (i % 2) (i / 2) (BitVec.ofNat 32 (leNat ((bytes.drop (4 * i)).take 4)))) g
  let g := loadArgs [BitVec.ofNat 64 m.core, BitVec.ofNat 64 m.bytes.length, m.team] g
  let t : Team := { uid := id, task := m.task, ctx := m.ctx, core := core, place := .running, begun := true, msgr := true, scr := 256 * units
                    scratch := if units = 0 then [] else writeBytes [] 0 m.bytes, since := s.clk }
  let k := taskOf s m.task
  let s := taskStarts m.task core (setTask s { k with clusters := insertNat (clusterOf core) k.clusters })
  addGangs [g] (placeScratch id { s with teams := s.teams ++ [t] })

/-- The task that a handler runs under: the sender's, or for a peer's message, which names none, one that runs in its context. DEDUCED (log entry 65): the
one that PPT binds to the port where it does, else the first. -/
def handlerTask (s : State) (m : Msg) : Nat :=
  if m.task ≠ 0 then m.task
  else
    let runs := s.tasks.filter fun k => k.ctx == m.ctx && k.stage == .running
    (((runs.find? fun k => k.taskid == regGet s 0x051 (m.core / 4096 % 8)) <|> runs.head?).map (·.id)).getD 0

/-- HANDLER_SPAWN: the message at the head of a core's inbox starts its handler gang, once the core runs its context, a slot is
free and its scratch fits. A message whose task has ended is discarded. -/
def execHandlerSpawn (s : State) : Out :=
  let core := s.obj.1
  let p := postOf s core
  match p.inbox with
  | [] => .next s
  | m :: rest =>
    let k := taskOf s m.task
    let units := mpc s m.ctx % 32
    let free := (List.range 4).find? fun q => !(handlers s core).any (·.quarter == q)
    if !m.send then later .handlerSpawn s
    else if m.task != 0 && (k.stage == .ended || k.stage == .done) then .next (setPost { p with inbox := rest } s)
    else match free with
      | none => later .handlerSpawn s
      | some q =>
        if runs s core = some m.ctx ∧ (mpc s m.ctx).testBit 31 ∧ 256 * units ≤ scrFree s (clusterOf core) then
          .next (spawn core q { m with task := handlerTask s m } (setPost { p with inbox := rest } s))
        else later .handlerSpawn s

/-! ## Messages of peers (R373) -/

/-- PEER_MESSAGE: a message arrives at a peer port. A send spawns in the context that PPC names; a payload goes to a team of the
task whose TASKID PPT holds, while that task runs. An inbox that is full leaves it with the peer. -/
def execPeerMessage (port : Nat) (send : Bool) (core : Nat) (team target ctl gts : DWord) (bytes : List Byte) (s : State) : Out :=
  let c := (regGet s 0x050 port).toNat
  let task := s.tasks.find? fun k => k.taskid == regGet s 0x051 port && k.stage == .running
  let m : Msg := { send := send, core := core % 4096 + port % 8 * 4096 + 32768, team := team, task := if send then 0 else (task.map (·.id)).getD 0
                   ctx := if send then field c 62 57 else (task.map (·.ctx)).getD 0
                   op := 0, target := target, ctl := ctl, gts := gts.toNat, bytes := bytes }
  if !c.testBit 63 || (!send && task.isNone) then .next s
  else if goalOpen s m then .next (accept m s) else .next s

end Sys2Proof.Machine
end

