-- ==== Sys2Proof/Machine/Canal.lean ====
section
/-! DEFINITION. Canals (R346–R350). A slot's state is 0 FREE, 1 RESERVED, 2 COMMITTED or 3 TAKEN. -/

namespace Sys2Proof.Machine

def cnlBase (s : State) (c : Nat) : DWord := regGet s 0x024 c
def cnlOn (s : State) (c : Nat) : Bool := (regGet s 0x025 c).getLsbD 63
def cnlCtx (s : State) (c : Nat) : Nat := regField s 0x025 c 62 57
def cnlSlotBytes (s : State) (c : Nat) : Nat := 32 * regField s 0x025 c 38 32
def cnlCount (s : State) (c : Nat) : Nat := regField s 0x025 c 10 0
def cnlHead (s : State) (c : Nat) : Nat := regField s 0x026 c 9 0
def cnlTail (s : State) (c : Nat) : Nat := regField s 0x026 c 25 16
def cnlFree (s : State) (c : Nat) : Nat := regField s 0x026 c 42 32

def setCns (c free tail head : Nat) (s : State) : State := regSet s 0x026 c (BitVec.ofNat 64 (free * 2 ^ 32 + tail * 2 ^ 16 + head))

def slotState (s : State) (c i : Nat) : Nat := (get0 s.canals (2048 * c + i)).toNat
def setSlotState (c i v : Nat) (s : State) : State := { s with canals := set0 s.canals (2048 * c + i) (BitVec.ofNat 2 v) }

/-- Length of the run of FREE slots from TAIL, at most CNT. -/
def freeRun (s : State) (c : Nat) : Nat :=
  let n := cnlCount s c
  ((List.range n).takeWhile fun k => slotState s c ((cnlTail s c + k) % n) == 0).length

def slotAddr (s : State) (c i : Nat) : DWord := cnlBase s c + BitVec.ofNat 64 (cnlSlotBytes s c * i)

/-- The slot that starts at an address. -/
def slotNamed (s : State) (c : Nat) (a : DWord) : Option Nat := (List.range (cnlCount s c)).find? fun i => slotAddr s c i == a

/-- A register or slot-state action of an agent with clock g, an ORDERED atomic at the canal's home (R347, R182): its time. -/
def canalTime (c g : Nat) (s : State) : State × Nat :=
  let t := max g ((get0 s.commits (2048 * c + 1024)).toNat + 1)
  ({ s with commits := set0 s.commits (2048 * c + 1024) (BitVec.ofNat 64 t) }, t)

/-- The moving gang acts on the canal: its `gts` joins the action's time (R183). -/
def canalAct (c : Nat) (s : State) : State × Nat :=
  let (s, t) := canalTime c s.g.gts s
  ({ s with g := joinTime t s.g }, t)

/-- The number a form names, where that canal serves the gang's context (R348, R349). -/
def canalOf (w : MWord) (s : State) : Except Raised Nat :=
  let v := ((if w.base = 192 then 0 else sGet s.g (w.base.toNat - 128)) + w.ofs.signExtend 64).toNat
  if v < 2048 ∧ cnlOn s v ∧ cnlCtx s v = (myTeam s).ctx then .ok v else .error (uniCause s .canalInvalid v 7)

/-- A canal form: its fields, the gang's earlier accesses, its canal. -/
def canalForm (w : MWord) (wc : Nat) (s : State) (f : Nat → Except Raised (State × Wait)) : Out :=
  waitOr (mLen w) w.nxt s do
    need bad (modOk {} w.pre && w.w.toNat == wc && w.sc == 0 && w.la == 0 && w.hint == 0 && w.idx == 0xFF && baseOk w && dataS w)
    if active s.g = 0 then .ok (some (s, .none))
    else
      let c ← canalOf w s
      if (opsOf s s.g.gid).any fun o => o.kind == .load || isStoreKind o.kind then .ok none
      else (f c).map some

/-- The take at the head: the slot is TAKEN and HEAD goes on. Its address and commit time. -/
def takeHead (c : Nat) (s : State) : State × DWord × Nat :=
  let h := cnlHead s c
  let u := setCns c (cnlFree s c) (cnlTail s c) ((h + 1) % cnlCount s c) (setSlotState c h 3 s)
  (u, slotAddr s c h, (get0 s.commits (2048 * c + h)).toNat)

/-- Waiting takes are served in order of arrival while slot HEAD is COMMITTED (R348). -/
def serveTakes (c : Nat) : Nat → State → State
  | 0, s => s
  | n + 1, s =>
    let live := s.takers.filter fun e => e.1 != c || match (gangOf s e.2).map (fun (x : Gang) => (x.wait, x.wake)) with
      | some (.canal d _, none) => d == c
      | _ => false
    let s := { s with takers := live }
    match s.takers.find? (·.1 == c) with
    | none => s
    | some e =>
      if slotState s c (cnlHead s c) ≠ 2 then s
      else
        let g := (gangOf s e.2).getD {}
        let dst := match g.wait with | .canal _ d => d | _ => 0
        let (s, a, ct) := takeHead c s
        let (s, t) := canalTime c g.gts s
        let s := onGang { s with takers := s.takers.erase e } e.2 fun x => sSet x dst a
        serveTakes c n (wakeGang e.2 (max t ct) s)

/-- `cnl.res`. -/
def execCnlRes (w : MWord) (s : State) : Out :=
  canalForm w 0 s fun c => do
    let (s, _) := canalAct c s
    let r := sOfData w
    if cnlFree s c = 0 then .ok ({ s with g := sSet s.g r 0 }, .none)
    else
      let t := cnlTail s c
      let s := { s with g := sSet s.g r (slotAddr s c t) }
      .ok (setCns c (cnlFree s c - 1) ((t + 1) % cnlCount s c) (cnlHead s c) (setSlotState c t 1 s), .none)

/-- The slot a form names in DATA, in the state it must be in. -/
def slotIn (w : MWord) (c st : Nat) (s : State) : Except Raised Nat :=
  match slotNamed s c (sGet s.g (sOfData w)) with
  | some i => if slotState s c i = st then .ok i else .error (uniCause s .canalInvalid c 7)
  | none => .error (uniCause s .canalInvalid c 7)

/-- `cnl.pub`: the commit's time is kept with the slot, and waiting takes are served. -/
def execCnlPub (w : MWord) (s : State) : Out :=
  canalForm w 1 s fun c => do
    let i ← slotIn w c 1 s
    let (s, t) := canalAct c s
    let s := setSlotState c i 2 { s with commits := set0 s.commits (2048 * c + i) (BitVec.ofNat 64 t) }
    .ok (serveTakes c (s.takers.length + 1) s, .none)

/-- `cnl.take`. -/
def execCnlTake (w : MWord) (s : State) : Out :=
  canalForm w 0 s fun c => do
    let r := sOfData w
    let others := s.takers.filter (·.2 != s.g.gid)
    if slotState s c (cnlHead s c) = 2 ∧ !others.any (·.1 == c) then
      let (s, _) := canalAct c s
      let (s, a, ct) := takeHead c s
      .ok ({ s with g := joinTime ct (sSet s.g r a) }, .none)
    else .ok (longLatency { s with takers := others ++ [(c, s.g.gid)] }, .canal c r)

/-- `cnl.rel`. -/
def execCnlRel (w : MWord) (s : State) : Out :=
  canalForm w 1 s fun c => do
    let i ← slotIn w c 3 s
    let (s, _) := canalAct c s
    let s := setSlotState c i 0 s
    .ok (setCns c (freeRun s c) (cnlTail s c) (cnlHead s c) s, .none)

/-! ## Enabling and disabling (R347) -/

/-- The defined bits of CNC. -/
def cncMask : DWord := 0xFE00007F000007FF

/-- CANAL_ENABLE: a write of CNC that sets EN: every slot is FREE from now on, where the sizes and the base are legal. -/
def execCanalEnable (c : Nat) (val : DWord) (s : State) : Out :=
  let s := (canalAct c s).1
  let n := field val.toNat 10 0
  if cnlOn s c || !val.getLsbD 63 then .next s
  else if field val.toNat 38 32 = 0 ∨ n = 0 ∨ n > 1024 ∨ !canonical (cnlBase s c) then .next s
  else
    let s := regSet s 0x025 c (val &&& cncMask)
    .next (setCns c n 0 0 { s with canals := tfilter (fun k => k / 2048 != c) s.canals })

/-- CANAL_DISABLE: a write that clears EN; gangs that wait in `cnl.take` take CANAL_INVALID at their words. -/
def execCanalDisable (c : Nat) (val : DWord) (s : State) : Out :=
  let s := (canalAct c s).1
  if val.getLsbD 63 then .next s
  else
    let me := s.g.gid
    let mine := s.takers.filter fun e => e.1 == c && match (gangOf s e.2).map (fun (x : Gang) => (x.wait, x.wake)) with
      | some (.canal _ _, none) => true
      | _ => false
    let s := regSet { s with takers := s.takers.filter (·.1 != c) } 0x025 c (val &&& cncMask)
    let cause := fun (g : Nat) => one .canalInvalid c (1#32 <<< (lowLane (active ((gangOf s g).getD {})) % 32)) 7
    .next (switchTo (mine.foldl (fun s e => raiseIn e.2 (cause e.2) s) s) me)

end Sys2Proof.Machine
end

