-- ==== Sys2Proof/Machine/VecInt.lean ====
section
/-! DEFINITION. Vector integer instructions (R126–R130). They write D for active lanes only. -/

namespace Sys2Proof.Machine

def intTypes : List Ty := [.i32, .n32, .i64, .n64]
def bitTypes : List Ty := [.b32, .b64]

/-- The type a word selects, or ILLEGAL_OPERAND (R87, R88). -/
def tyCheck (takes : Takes) (dflt : Ty) (allowed : List Ty) (w : AWord) : Except Raised Ty := do
  need bad (modOk takes w.pre)
  match pickTy dflt allowed (typeCode w.pre) with
  | some t => .ok t
  | none => .error bad

/-- Whether A, B and D are legal at a width; B may be a 32-bit operand in a 64-bit form (R47, R78, R128). -/
def abd (w : AWord) (s : State) (wide wideB : Bool) : Bool :=
  okA s.g.regs true wide w.a.toNat && okB s.g.regs true wideB w.b.toNat && vregOk s.g.regs wide w.d.toNat

def laneA (w : AWord) (s : State) (t : Ty) (l : Nat) : Nat :=
  (readA s (.int (tyBits t)) w.la l w.a.toNat).toNat % 2 ^ tyBits t
def laneB (w : AWord) (s : State) (t : Ty) (l : Nat) : Nat :=
  (readB s (.int (tyBits t)) w.lb l w.b.toNat).toNat % 2 ^ tyBits t
def laneB32 (w : AWord) (s : State) (l : Nat) : Nat := (readB s (.int 32) w.lb l w.b.toNat).toNat
def laneD (w : AWord) (s : State) (wide : Bool) (l : Nat) : Nat :=
  if wide then (pairGet s.g w.d.toNat l).toNat else (vGet s.g w.d.toNat l).toNat

/-- Results of all active lanes written to D. -/
def putD (w : AWord) (s : State) (wide : Bool) (f : Nat → Nat) : State :=
  { s with g := writeLanes wide w.d.toNat ((lanesOf (active s.g)).map fun l => (l, BitVec.ofNat 64 (f l))) s.g }

/-- d ← f(a, b), or f(d, a, b), per active lane. -/
def vec3 (w : AWord) (s : State) (dflt : Ty) (tys : List Ty) (f : Ty → Nat → Nat → Nat → Nat) : Out :=
  word (aLen w) w.nxt s do
    let t ← tyCheck { ty := true } dflt tys w
    let wide := tyBits t == 64
    need bad (abd w s wide wide)
    .ok (putD w s wide fun l => f t (laneD w s wide l) (laneA w s t l) (laneB w s t l))

def vec2 (w : AWord) (s : State) (dflt : Ty) (tys : List Ty) (f : Ty → Nat → Nat → Nat) : Out :=
  vec3 w s dflt tys fun t _ => f t

/-- d ← f(a, b), or f(d, a, b), with B a shift count or field control: a pair of which only the even
register is read, where the type is of 64 bits (R78, R128). -/
def vecShift (w : AWord) (s : State) (dflt : Ty) (tys : List Ty) (f : Ty → Nat → Nat → Nat → Nat) : Out :=
  word (aLen w) w.nxt s do
    let t ← tyCheck { ty := true } dflt tys w
    let wide := tyBits t == 64
    need bad (abd w s wide wide)
    .ok (putD w s wide fun l => f t (laneD w s wide l) (laneA w s t l) (laneB32 w s l))

/-- d ← f(a), B unused (R118). -/
def vec1 (w : AWord) (s : State) (dflt : Ty) (tys : List Ty) (f : Ty → Nat → Nat) : Out :=
  word (aLen w) w.nxt s do
    let t ← tyCheck { ty := true } dflt tys w
    let wide := tyBits t == 64
    need bad (abd w s wide wide && w.b == 112)
    .ok (putD w s wide fun l => f t (laneA w s t l))

def execAdd (w : AWord) (s : State) : Out := vec2 w s .i32 intTypes fun t => addV (tyBits t)
def execSub (w : AWord) (s : State) : Out := vec2 w s .i32 intTypes fun t => subV (tyBits t)
def execMulLo (w : AWord) (s : State) : Out := vec2 w s .i32 intTypes fun t => mulLoV (tyBits t)
def execMulHi (w : AWord) (s : State) : Out := vec2 w s .i32 intTypes fun t => mulHiV (tySigned t) (tyBits t)
def execMad (w : AWord) (s : State) : Out := vec3 w s .i32 intTypes fun t d a b => (d + a * b) % 2 ^ tyBits t
def execMin (w : AWord) (s : State) : Out := vec2 w s .i32 intTypes fun t => minV (tySigned t) (tyBits t)
def execMax (w : AWord) (s : State) : Out := vec2 w s .i32 intTypes fun t => maxV (tySigned t) (tyBits t)
def execAnd (w : AWord) (s : State) : Out := vec2 w s .b32 bitTypes fun _ a b => a &&& b
def execOr (w : AWord) (s : State) : Out := vec2 w s .b32 bitTypes fun _ a b => a ||| b
def execXor (w : AWord) (s : State) : Out := vec2 w s .b32 bitTypes fun _ a b => a ^^^ b
def execNot (w : AWord) (s : State) : Out := vec1 w s .b32 bitTypes fun t => notV (tyBits t)
def execShl (w : AWord) (s : State) : Out := vecShift w s .b32 bitTypes fun t _ => shlV (tyBits t)
def execShr (w : AWord) (s : State) : Out := vecShift w s .b32 bitTypes fun t _ => shrV (tyBits t)
def execSar (w : AWord) (s : State) : Out := vecShift w s .b32 bitTypes fun t _ => sarV (tyBits t)
def execRot (w : AWord) (s : State) : Out := vecShift w s .b32 bitTypes fun t _ => rotV (tyBits t)
def execBfx (w : AWord) (s : State) : Out := vecShift w s .n32 intTypes fun t _ => bfxV (tySigned t) (tyBits t)
def execBfi (w : AWord) (s : State) : Out := vecShift w s .n32 intTypes fun t => bfiV (tyBits t)
def execPopc (w : AWord) (s : State) : Out := vec1 w s .b32 bitTypes fun t => popcV (tyBits t)
def execClz (w : AWord) (s : State) : Out := vec1 w s .b32 bitTypes fun t => clzV (tyBits t)
def execCtz (w : AWord) (s : State) : Out := vec1 w s .b32 bitTypes fun t => ctzV (tyBits t)
def execBrev (w : AWord) (s : State) : Out := vec1 w s .b32 bitTypes fun t => brevV (tyBits t)

/-- Results with a clamp flag: FSTAT.SA when any active lane was clamped (R108, R126). -/
def putClamped (w : AWord) (s : State) (wide : Bool) (f : Nat → Nat × Bool) : State :=
  let rs := (lanesOf (active s.g)).map fun l => (l, f l)
  let g := writeLanes wide w.d.toNat (rs.map fun r => (r.1, BitVec.ofNat 64 r.2.1)) s.g
  { s with g := setFlags { sa := rs.any (·.2.2) } g }

/-- An exact integer clamped to a type's range. -/
def clampTy (t : Ty) (x : Int) : Nat × Bool :=
  let (c, out) := clampInt (tySigned t) (tyBits t) x
  (modPow c (tyBits t), out)

/-- `adds`, `subs`: clamped to the type's range (R126). -/
def vecSat (w : AWord) (s : State) (f : Int → Int → Int) : Out :=
  word (aLen w) w.nxt s do
    let t ← tyCheck { ty := true } .i32 intTypes w
    let wide := tyBits t == 64
    need bad (abd w s wide wide)
    let v := fun x => intOf (tySigned t) (tyBits t) x
    .ok (putClamped w s wide fun l => clampTy t (f (v (laneA w s t l)) (v (laneB w s t l))))

def execAdds (w : AWord) (s : State) : Out := vecSat w s (· + ·)
def execSubs (w : AWord) (s : State) : Out := vecSat w s (· - ·)

/-- `abs` (R126). -/
def execAbs (w : AWord) (s : State) : Out :=
  word (aLen w) w.nxt s do
    let t ← tyCheck { ty := true, sat := true } .i32 [.i32, .i64] w
    let wide := tyBits t == 64
    need bad (abd w s wide wide && w.b == 112)
    let x := fun l => (intOf true (tyBits t) (laneA w s t l)).natAbs
    if modBit (·.sat) w.pre then .ok (putClamped w s wide fun l => clampTy t (x l))
    else .ok (putD w s wide fun l => x l % 2 ^ tyBits t)

/-- `addc`: the carry is the lane's bit of the KC register, in and out, for active lanes only (R126). -/
def execAddc (w : AWord) (s : State) : Out :=
  word (aLen w) w.nxt s do
    let t ← tyCheck { ty := true } .n32 intTypes w
    let wide := tyBits t == 64
    need bad (abd w s wide wide)
    let sum := fun l => laneA w s t l + laneB w s t l + (if (kc s.g).getLsbD l then 1 else 0)
    let ls := lanesOf (active s.g)
    let u := putD w s wide fun l => sum l % 2 ^ tyBits t
    .ok { u with g := writeKLanes (hdrKc s.g.cl.hdr) (ls.map fun l => (l, decide (sum l ≥ 2 ^ tyBits t))) u.g }

/-- `sel`: the lane's bit of the KC register selects (R126). -/
def execSel (w : AWord) (s : State) : Out :=
  word (aLen w) w.nxt s do
    let t ← tyCheck { ty := true } .b32 bitTypes w
    let wide := tyBits t == 64
    need bad (abd w s wide wide)
    .ok (putD w s wide fun l => if (kc s.g).getLsbD l then laneA w s t l else laneB w s t l)

/-- `cmp`: the active lanes' bits of a k register (R121, R126). -/
def execCmp (w : AWord) (s : State) : Out :=
  word (aLen w) w.nxt s do
    let t ← tyCheck { ty := true } .i32 intTypes w
    let wide := tyBits t == 64
    let k := w.d.toNat % 8
    let c := w.d.toNat / 8
    need bad (okA s.g.regs true wide w.a.toNat && okB s.g.regs true wide w.b.toNat && k != 0 && decide (c < 6))
    .ok { s with g := writeKLanes k ((lanesOf (active s.g)).map fun l =>
      (l, (condOf (tySigned t) (tyBits t) c (laneA w s t l) (laneB w s t l)).getD false)) s.g }

/-- d + Σ of the products of n elements of e bits; modulo 2^32, or clamped with SAT (R126). -/
def vecDot (w : AWord) (s : State) (dflt : Ty) (tys : List Ty) (n e : Nat) : Out :=
  word (aLen w) w.nxt s do
    let t ← tyCheck { ty := true, sat := true } dflt tys w
    need bad (abd w s false false)
    let sg := tySigned t
    let el := fun (x i : Nat) => intOf sg e (x / 2 ^ (e * i))
    let sum := fun l =>
      let a := laneA w s .b32 l
      let b := laneB w s .b32 l
      (List.range n).foldl (fun acc i => acc + el a i * el b i) (intOf sg 32 (laneD w s false l))
    if modBit (·.sat) w.pre then .ok (putClamped w s false fun l => clampTy (if sg then .i32 else .n32) (sum l))
    else .ok (putD w s false fun l => modPow (sum l) 32)

def execDot4 (w : AWord) (s : State) : Out := vecDot w s .i8 [.i8, .n8] 4 8
def execDot2 (w : AWord) (s : State) : Out := vecDot w s .i16 [.i16, .n16] 2 16

/-- One step of the block hash (R129). -/
def hmixV (a b : Word) : Word :=
  let x := ((a <<< 5) ||| (a >>> 27)) ^^^ b
  let x := x * 0x9E3779B1#32
  let x := x ^^^ (x >>> 16)
  let x := x * 0x85EBCA6B#32
  x ^^^ (x >>> 13)

/-- `hmix` takes no MOD field (R126, R129). -/
def execHmix (w : AWord) (s : State) : Out :=
  word (aLen w) w.nxt s do
    need bad (modOk {} w.pre && abd w s false false)
    .ok (putD w s false fun l => (hmixV (BitVec.ofNat 32 (laneA w s .b32 l)) (BitVec.ofNat 32 (laneB w s .b32 l))).toNat)

/-- One bit of `lut3`: A selects the lowest table bit, the old destination the highest (R130). -/
def lut3V (w tbl d a b : Nat) : Nat :=
  (List.range w).foldl (fun x j =>
    let i := (if a.testBit j then 1 else 0) + (if b.testBit j then 2 else 0) + (if d.testBit j then 4 else 0)
    if tbl.testBit i then x + 2 ^ j else x) 0

/-- `lut3` (R130). -/
def execLut3 (w : AWord) (s : State) : Out :=
  word (aLen w) w.nxt s do
    let t ← tyCheck { ty := true } .b32 bitTypes w
    let wide := tyBits t == 64
    let tbl := (w.lt.getD 0).toNat
    need bad (abd w s wide wide && decide (tbl < 256))
    .ok (putD w s wide fun l => lut3V (tyBits t) tbl (laneD w s wide l) (laneA w s t l) (laneB w s t l))

end Sys2Proof.Machine
end

