-- ==== Sys2Proof/Machine/VecFp.lean ====
section
/-! DEFINITION. Vector floating-point instructions (R131–R135): exact results rounded once, with modifiers, flushing,
flags, and the stochastic neighbours of R105. -/

namespace Sys2Proof.Machine

def fpTypes : List Ty := [.f32, .f64, .f16, .bf16]
def fpNarrow : List Ty := [.f32, .f16, .bf16]

/-- Elements per register of a vector floating-point type: two for the packed pairs (R88). -/
def fpElems (t : Ty) : Nat := if tyBits t = 16 then 2 else 1

def fmtOf (t : Ty) : Fmt := (tyFmt t).getD f32

/-- How a floating-point operand of a type is read. -/
def fpKind (t : Ty) : Kind := .fp (fmtOf t) (tyBits t == 16)

/-- Element p of a packed value. -/
def elemOf (bits x p : Nat) : Nat := x / 2 ^ (bits * p) % 2 ^ bits

/-- An element with source modifiers: flushing first, then absolute value, then negation (R87, R131). -/
def srcVal (f : Fmt) (ftz abs neg : Bool) (x : Nat) : Val :=
  let x := if ftz then flushInput f x else x
  let x := if abs then x % 2 ^ (f.bits - 1) else x
  let v := decodeF f x
  if neg then v.neg else v

/-- One element's exact result, and the conditions of the operation itself. -/
abbrev FpFun := (a b d : Val) → Val × FFlags

/-- The neighbours' random bits for element e of E (R105). -/
def srFor (d32 : Nat → Nat) (n e : Nat) : Nat := srbits (d32 ((e + n - 1) % n)) (d32 ((e + 1) % n))

/-- The rounded element e of a result whose exact values are `ex`, under a mode. -/
def fpRound (f : Fmt) (mode : RM) (sat ftz : Bool) (n : Nat) (ex : Nat → Val) (e : Nat) : Nat × FFlags :=
  let srb := if mode == .sr then srFor (fun i => d32Of f (ex i)) n e else 0
  let r := rnd f mode sat srb (ex e)
  if ftz then flushResult f r else r

/-- Results of the active lanes, `per` elements of `bits` bits each, written to D with their flags. -/
def putElems (w : AWord) (s : State) (wide : Bool) (per bits : Nat) (res : Nat → Nat × FFlags) : State :=
  let rs := (lanesOf (active s.g)).map fun l =>
    let es := (List.range per).map fun p => res (per * l + p)
    (l, (es.mapIdx fun p x => x.1 * 2 ^ (bits * p)).sum, anyFlags (es.map (·.2)))
  let g := writeLanes wide w.d.toNat (rs.map fun r => (r.1, BitVec.ofNat 64 r.2.1)) s.g
  { s with g := setFlags (anyFlags (rs.map (·.2.2))) g }

/-- An arithmetic form of R131: operand checks, then every element's exact result rounded once. `unary` forms leave B
unused; `fixed` forms round under RNE whatever FMODE.RM holds, and take only RM 0 or 1. -/
def fpForm (w : AWord) (s : State) (takes : Takes) (tys : List Ty) (unary fixed : Bool) (f : FpFun) : Out :=
  word (aLen w) w.nxt s do
    let t ← tyCheck takes .f32 tys w
    need bad (!fixed || (w.pre.map fun m => decide (m.rm.toNat ≤ 1)).getD true)
    let fmt := fmtOf t
    let wide := tyBits t == 64
    need bad (abd w s wide wide && (!unary || w.b == 112))
    let ftz := ftzOf s w.pre
    let per := fpElems t
    let k := fpKind t
    let src := fun (x : DWord) (e : Nat) (abs neg : Bool) => srcVal fmt ftz abs neg (elemOf fmt.bits x.toNat (e % per))
    let a := fun e => src (readA s k w.la (e / per) w.a.toNat) e (modBit (·.absa) w.pre) (modBit (·.nega) w.pre)
    let b := fun e => src (readB s k w.lb (e / per) w.b.toNat) e (modBit (·.absb) w.pre) (modBit (·.negb) w.pre)
    let d := fun e => src (BitVec.ofNat 64 (laneD w s wide (e / per))) e false (modBit (·.negc) w.pre)
    let mode := if fixed then .rne else modeOf s w.pre
    let ex := fun e => f (a e) (b e) (d e)
    .ok (putElems w s wide per fmt.bits fun e =>
      let r := fpRound fmt mode (modBit (·.sat) w.pre) ftz (32 * per) (fun i => (ex i).1) e
      (r.1, r.2.or (ex e).2))

/-- All MOD fields but NEGC and STYPE (R131). -/
def fpTakes : Takes := { ty := true, aMods := true, bMods := true, ftz := true, sat := true, rm := true }
def fpTakes1 : Takes := { fpTakes with bMods := false }

/-- Whether exact zero sums are −0 under the word's mode (R131, IEEE 754-2019). -/
def isRdn (w : AWord) (s : State) : Bool := modeOf s w.pre == .rdn

def execFadd (w : AWord) (s : State) : Out := fpForm w s fpTakes fpTypes false false fun a b _ => vadd (isRdn w s) a b
def execFsub (w : AWord) (s : State) : Out := fpForm w s fpTakes fpTypes false false fun a b _ => vadd (isRdn w s) a b.neg
def execFmul (w : AWord) (s : State) : Out := fpForm w s fpTakes fpTypes false false fun a b _ => vmul a b
def execFdiv (w : AWord) (s : State) : Out := fpForm w s fpTakes fpTypes false false fun a b _ => vdiv a b

/-- a × b + d, exact; infinity times zero plus a quiet NaN leaves NV open in IEEE 754-2019: a free value. -/
def vfma (rdn : Bool) (a b d : Val) : Val × FFlags :=
  let p := vmul a b
  if d.isNan && p.1.isNan && !a.isNan && !b.isNan then (.nan false, { nv := d.isSig || Config.fmaNanInvalid })
  else let r := vadd rdn p.1 d; (r.1, r.2.or p.2)

def execFfma (w : AWord) (s : State) : Out :=
  fpForm w s { fpTakes with negc := true } fpTypes false false fun a b d => vfma (isRdn w s) a b d
def execFrcp (w : AWord) (s : State) : Out := fpForm w s fpTakes1 fpTypes true false fun a _ _ => vdiv (ofInt 1) a
def execFsqrt (w : AWord) (s : State) : Out := fpForm w s fpTakes1 fpTypes true false fun a _ _ => vsqrt a
def execFrsq (w : AWord) (s : State) : Out := fpForm w s fpTakes1 fpNarrow true true fun a _ _ => vrsqrt a
def execFexp2 (w : AWord) (s : State) : Out := fpForm w s fpTakes1 fpNarrow true true fun a _ _ => vexp2 a
def execFlog2 (w : AWord) (s : State) : Out := fpForm w s fpTakes1 fpNarrow true true fun a _ _ => vlog2 a

/-- |v|. -/
def Val.abs : Val → Val
  | .nan x => .nan x
  | .inf _ => .inf false
  | .fin _ n d => .fin false n d

def execFabsdiff (w : AWord) (s : State) : Out :=
  fpForm w s fpTakes fpTypes false false fun a b _ => let r := vadd (isRdn w s) a b.neg; (r.1.abs, r.2)

/-- a − floor(a) (R131). -/
def vfrac : Val → Val × FFlags
  | .nan x => (.nan false, { nv := x })
  | .inf _ => (.nan false, { nv := true })
  | .fin neg n d => (.fin false (sgn neg n % (d : Int)).toNat d, {})

def execFfrac (w : AWord) (s : State) : Out := fpForm w s fpTakes1 fpTypes true false fun a _ _ => vfrac a

/-- a × 2^n with n clamped where the result is past every format either way. -/
def vscale (n : Int) : Val → Val × FFlags
  | .nan x => (.nan false, { nv := x })
  | .inf neg => (.inf neg, {})
  | .fin neg m d =>
    let n := if n > 8000 then 8000 else if n < -8000 then -8000 else n
    (if n ≥ 0 then .fin neg (m * 2 ^ n.toNat) d else .fin neg m (d * 2 ^ (-n).toNat), {})

/-- `fscale`: B is one 32-bit integer, the same for both halves (R131). -/
def execFscale (w : AWord) (s : State) : Out :=
  word (aLen w) w.nxt s do
    let t ← tyCheck { fpTakes with bMods := false } .f32 fpTypes w
    let fmt := fmtOf t
    let wide := tyBits t == 64
    need bad (abd w s wide wide)
    let ftz := ftzOf s w.pre
    let per := fpElems t
    let ex := fun e =>
      let x := (readA s (fpKind t) w.la (e / per) w.a.toNat).toNat
      vscale (intOf true 32 (laneB32 w s (e / per)))
        (srcVal fmt ftz (modBit (·.absa) w.pre) (modBit (·.nega) w.pre) (elemOf fmt.bits x (e % per)))
    .ok (putElems w s wide per fmt.bits fun e =>
      let r := fpRound fmt (modeOf s w.pre) (modBit (·.sat) w.pre) ftz (32 * per) (fun i => (ex i).1) e
      (r.1, r.2.or (ex e).2))

/-- a rounded to an integral value; ±0 and ±∞ pass (R131). -/
def frndV (f : Fmt) (mode : RM) (srb : Nat) : Val → Nat × FFlags
  | .nan x => (nanCode f, { nv := x })
  | .inf neg => (signBit f neg + infCode f, {})
  | .fin neg n d =>
    let r := rndInt mode srb neg n d
    let c := rnd f .rne false 0 (.fin neg r.1.natAbs 1)
    (c.1, { pe := r.2 })

/-- `frnd`: D32 is taken relative to the quantum 1 (R105, R131). -/
def execFrnd (w : AWord) (s : State) : Out :=
  word (aLen w) w.nxt s do
    let t ← tyCheck { fpTakes1 with sat := false } .f32 fpTypes w
    let fmt := fmtOf t
    let wide := tyBits t == 64
    need bad (abd w s wide wide && w.b == 112)
    let ftz := ftzOf s w.pre
    let per := fpElems t
    let mode := modeOf s w.pre
    let a := fun e =>
      let x := (readA s (fpKind t) w.la (e / per) w.a.toNat).toNat
      srcVal fmt ftz (modBit (·.absa) w.pre) (modBit (·.nega) w.pre) (elemOf fmt.bits x (e % per))
    .ok (putElems w s wide per fmt.bits fun e =>
      frndV fmt mode (if mode == .sr then srFor (fun i => d32Int (a i)) (32 * per) e else 0) (a e))

/-- `fsum4`: four halves summed exactly, rounded once to f32 (R131); special values follow R113. DESIGN CHOICE (log entry 122): they are met from left to
right, so that NV is set where infinities of both signs meet before a quiet NaN. -/
def execFsum4 (w : AWord) (s : State) : Out :=
  word (aLen w) w.nxt s do
    let t ← tyCheck fpTakes .f16 [.f16, .bf16] w
    let fmt := fmtOf t
    need bad (abd w s false false)
    let ftz := ftzOf s w.pre
    let half := fun (x : DWord) (p : Nat) (abs neg : Bool) => srcVal fmt ftz abs neg (elemOf 16 x.toNat p)
    let ex := fun l =>
      let a := readA s (fpKind t) w.la l w.a.toNat
      let b := readB s (fpKind t) w.lb l w.b.toNat
      let ab := modBit (·.absa) w.pre
      let na := modBit (·.nega) w.pre
      let bb := modBit (·.absb) w.pre
      let nb := modBit (·.negb) w.pre
      [half a 1 ab na, half b 0 bb nb, half b 1 bb nb].foldl
        (fun acc v => let r := vadd false acc.1 v; (r.1, r.2.or acc.2)) (half a 0 ab na, ({} : FFlags))
    .ok (putElems w s false 1 32 fun e =>
      let r := fpRound f32 (modeOf s w.pre) (modBit (·.sat) w.pre) ftz 32 (fun i => (ex i).1) e
      (r.1, r.2.or (ex e).2))

/-- minimumNumber and maximumNumber on codes (R132); −0 is less than +0. -/
def fminmaxV (f : Fmt) (isMax : Bool) (a b : Val) : Nat × FFlags :=
  let fl : FFlags := { nv := a.isSig || b.isSig }
  let code := fun v => (rnd f .rne false 0 v).1
  if a.isNan && b.isNan then (nanCode f, fl)
  else if a.isNan then (code b, fl)
  else if b.isNan then (code a, fl)
  else
    let less := vlt a b || (veq a b && a.isNeg && !b.isNeg)
    (code (if less != isMax then a else b), fl)

def fpMinMax (w : AWord) (s : State) (isMax : Bool) : Out :=
  word (aLen w) w.nxt s do
    let t ← tyCheck { fpTakes with sat := false, rm := false } .f32 fpTypes w
    let fmt := fmtOf t
    let wide := tyBits t == 64
    need bad (abd w s wide wide)
    let ftz := ftzOf s w.pre
    let per := fpElems t
    let src := fun (x : DWord) (e : Nat) (abs neg : Bool) => srcVal fmt ftz abs neg (elemOf fmt.bits x.toNat (e % per))
    .ok (putElems w s wide per fmt.bits fun e =>
      fminmaxV fmt isMax (src (readA s (fpKind t) w.la (e / per) w.a.toNat) e (modBit (·.absa) w.pre) (modBit (·.nega) w.pre))
        (src (readB s (fpKind t) w.lb (e / per) w.b.toNat) e (modBit (·.absb) w.pre) (modBit (·.negb) w.pre)))

def execFmin (w : AWord) (s : State) : Out := fpMinMax w s false
def execFmax (w : AWord) (s : State) : Out := fpMinMax w s true

/-- The relation of a condition code, and NV on a quiet NaN (R133). -/
def fcmpV (c : Nat) (a b : Val) : Bool × FFlags :=
  let un := a.isNan || b.isNan
  let nv : FFlags := { nv := a.isSig || b.isSig || (un && decide (2 ≤ c) && decide (c ≤ 5)) }
  let lt := vlt a b
  let eq := veq a b
  let rel := match c with
    | 0 => eq | 1 => un || !eq | 2 => lt | 3 => lt || eq | 4 => !un && !(lt || eq) | 5 => !un && !lt
    | 6 => !un | 7 => un | 8 => un || lt | 9 => un || lt || eq | 10 => un || !(lt || eq) | _ => un || !lt
  (rel, nv)

/-- `fcmp` (R133). -/
def execFcmp (w : AWord) (s : State) : Out :=
  word (aLen w) w.nxt s do
    let t ← tyCheck { fpTakes with sat := false, rm := false } .f32 [.f32, .f64] w
    let fmt := fmtOf t
    let wide := tyBits t == 64
    let k := w.d.toNat % 8
    let c := w.d.toNat / 8
    need bad (okA s.g.regs true wide w.a.toNat && okB s.g.regs true wide w.b.toNat && k != 0 && decide (c < 12))
    let ftz := ftzOf s w.pre
    let rs := (lanesOf (active s.g)).map fun l => (l, fcmpV c
      (srcVal fmt ftz (modBit (·.absa) w.pre) (modBit (·.nega) w.pre) (readA s (fpKind t) w.la l w.a.toNat).toNat)
      (srcVal fmt ftz (modBit (·.absb) w.pre) (modBit (·.negb) w.pre) (readB s (fpKind t) w.lb l w.b.toNat).toNat))
    let g := writeKLanes k (rs.map fun r => (r.1, r.2.1)) s.g
    .ok { s with g := setFlags (anyFlags (rs.map (·.2.2))) g }

/-- The one-hot class of a code (R134). -/
def fclassV (f : Fmt) (x : Nat) : Nat :=
  match decodeF f x with
  | .nan sig => if sig then 256 else 512
  | .inf neg => if neg then 1 else 128
  | .fin neg n _ =>
    if n = 0 then (if neg then 8 else 16)
    else if isSubnormal f x then (if neg then 4 else 32) else (if neg then 2 else 64)

/-- `fclass`: TYPE only, no flag, no flushing; a single register even for .f64 (R134). -/
def execFclass (w : AWord) (s : State) : Out :=
  word (aLen w) w.nxt s do
    let t ← tyCheck { ty := true } .f32 fpTypes w
    let fmt := fmtOf t
    let wide := tyBits t == 64
    need bad (okA s.g.regs true wide w.a.toNat && w.b == 112 && vregOk s.g.regs false w.d.toNat)
    let per := fpElems t
    .ok (putD w s false fun l =>
      let x := (readA s (fpKind t) w.la l w.a.toNat).toNat
      ((List.range per).map fun p => fclassV fmt (elemOf fmt.bits x p) * 2 ^ (16 * p)).sum)

end Sys2Proof.Machine
end

