-- ==== Sys2Proof/Machine/Convert.lean ====
section
/-! DEFINITION. Conversions (R136–R142): cvt, cvt.sr, pack, unpack, qdeq, qenc, bexp, bscale. -/

namespace Sys2Proof.Machine

/-- How an operand of any type is read from a register. -/
def cvtKind (t : Ty) : Kind :=
  match tyFmt t with
  | some f => .fp f (tyBits t == 16)
  | none => .int (if tyBits t = 64 then 64 else 32)

/-- The exact value of an element code of any type; floating-point inputs may flush (R98). -/
def cvtVal (st : Ty) (ftz : Bool) (x : Nat) : Val :=
  match tyFmt st with
  | some f => srcVal f ftz false false x
  | none => ofInt (intOf (tySigned st) (tyBits st) x)

/-- D32 of a value at a destination type (R105). -/
def cvtD32 (dt : Ty) (v : Val) : Nat :=
  match tyFmt dt with
  | some f => d32Of f v
  | none => d32Int v

/-- One conversion (R102–R104). Integer-to-integer narrowing keeps the low bits, or saturates with SAT; an integer out of range of a type as
wide or wider saturates as every other out-of-range result does. DEDUCED (log entry 97): a change of sign at the same or a greater width is no
narrowing. -/
def cvtCode (st dt : Ty) (mode : RM) (sat ftz : Bool) (srb : Nat) (v : Val) : Nat × FFlags :=
  match tyFmt dt with
  | some f =>
    let r := rnd f mode sat srb v
    let r := if ftz then flushResult f r else r
    (r.1, { r.2 with nv := r.2.nv || v.isSig })
  | none =>
    match decide ((tyFmt st).isNone ∧ tyBits dt < tyBits st), v with
    | true, .fin neg n _ =>
      if sat then (let c := clampTy dt (sgn neg n); (c.1, { sa := c.2 })) else (modPow (sgn neg n) (tyBits dt), {})
    | _, v => toInt mode (tySigned dt) (tyBits dt) srb v

/-- The types `cvt` admits (R136). -/
def cvtTypes : List Ty := [.i8, .i16, .i32, .i64, .n8, .n16, .n32, .n64, .f64, .f32, .f16, .bf16, .e4m3, .e5m2, .e2m1]

/-- The pair of types a word selects among allowed pairs (R136, R138, R139). -/
def tyPair (takes : Takes) (dd ds : Ty) (ok : Ty → Ty → Bool) (w : AWord) : Except Raised (Ty × Ty) := do
  need bad (modOk takes w.pre)
  match pickTy dd cvtTypes (typeCode w.pre), pickTy ds cvtTypes (stypeCode w.pre) with
  | some d, some t => if ok d t then .ok (d, t) else .error bad
  | _, _ => .error bad

def cvtTakes : Takes := { ty := true, sty := true, sat := true, ftz := true, rm := true }

/-- `cvt` and, with its mode fixed, `cvt.sr` (R136, R137). -/
def cvtForm (w : AWord) (s : State) (sr : Bool) : Out :=
  word (aLen w) w.nxt s do
    let (dt, st) ← tyPair cvtTakes .f32 .i32 (fun _ _ => true) w
    need bad (!sr || (w.pre.map fun m => m.rm == 0 || m.rm == 6).getD true)
    let dw := tyBits dt
    let sw := tyBits st
    need bad (okA s.g.regs true (sw == 64) w.a.toNat && decide (112 ≤ w.b.toNat) && okB s.g.regs true false w.b.toNat
      && vregOk s.g.regs (dw == 64) w.d.toNat)
    let pos := laneB32 w s 0
    let dp := pos % 8
    let sp := pos / 8 % 8
    need bad (decide (pos < 64) && (decide (dp * dw < 32) || dp == 0) && (decide (sp * sw < 32) || sp == 0))
    let ftz := ftzOf s w.pre
    let mode := if sr then .sr else modeOf s w.pre
    let val := fun l => cvtVal st ftz ((readA s (cvtKind st) w.la l w.a.toNat).toNat / 2 ^ (sp * sw) % 2 ^ sw)
    .ok (putElems w s (dw == 64) 1 64 fun l =>
      let srb := if mode == .sr then srFor (fun i => cvtD32 dt (val i)) 32 l else 0
      let r := cvtCode st dt mode (modBit (·.sat) w.pre) ftz srb (val l)
      (if dw = 64 then r.1 else bfiV 32 (laneD w s false l) r.1 (dp * dw + 256 * dw), r.2))

def execCvt (w : AWord) (s : State) : Out := cvtForm w s false
def execCvtSr (w : AWord) (s : State) : Out := cvtForm w s true

/-- The pairs of `pack` (R138). -/
def packOk (d t : Ty) : Bool :=
  ([Ty.i16, .n16, .f16, .bf16].contains d && [Ty.i32, .n32, .f32].contains t) ||
  ([Ty.i8, .n8, .e4m3, .e5m2].contains d && [Ty.i16, .n16, .f16, .bf16].contains t) ||
  (d == .e2m1 && [Ty.i8, .n8, .e4m3, .e5m2].contains t)

/-- `pack` (R138). -/
def execPack (w : AWord) (s : State) : Out :=
  word (aLen w) w.nxt s do
    let (dt, st) ← tyPair cvtTakes .f16 .f32 packOk w
    need bad (abd w s false false)
    let k := 32 / tyBits dt
    let ftz := ftzOf s w.pre
    let mode := modeOf s w.pre
    let val := fun e =>
      let l := e / k
      let p := e % k
      let x := if p < k / 2 then readA s (cvtKind st) w.la l w.a.toNat else readB s (cvtKind st) w.lb l w.b.toNat
      cvtVal st ftz (elemOf (tyBits st) x.toNat (p % (k / 2)))
    .ok (putElems w s false k (tyBits dt) fun e =>
      let srb := if mode == .sr then srFor (fun i => cvtD32 dt (val i)) (32 * k) e else 0
      cvtCode st dt mode (modBit (·.sat) w.pre) ftz srb (val e))

/-- The pairs of `unpack` (R139). -/
def unpackOk (d t : Ty) : Bool :=
  match t, d with
  | .f16, .f32 | .bf16, .f32 | .e4m3, .f16 | .e4m3, .bf16 | .e5m2, .f16 | .e5m2, .bf16 | .e2m1, .e4m3 | .e2m1, .e5m2
  | .i8, .i16 | .i16, .i32 | .n8, .n16 | .n16, .n32 => true
  | _, _ => false

/-- `unpack` (R139): exact; only a signalling NaN sets a flag. DESIGN CHOICE (log entry 121): B = 0 or 1 is a constant or a literal, and a register
that holds 0 or 1 is an illegal operand. -/
def execUnpack (w : AWord) (s : State) : Out :=
  word (aLen w) w.nxt s do
    let (dt, st) ← tyPair { ty := true, sty := true } .f32 .f16 unpackOk w
    need bad (okA s.g.regs true false w.a.toNat && decide (112 ≤ w.b.toNat) && okB s.g.regs true false w.b.toNat
      && vregOk s.g.regs false w.d.toNat)
    let half := laneB32 w s 0
    need bad (decide (half < 2))
    let sw := tyBits st
    let n := 16 / sw
    .ok (putElems w s false n (2 * sw) fun e =>
      let x := readA s (cvtKind st) w.la (e / n) w.a.toNat
      cvtCode st dt .rne false false 0 (cvtVal st false (elemOf sw x.toNat (half * n + e % n))))

/-- Bits of a quantised code (R109). -/
def qBits (t : Ty) : Nat := if t == .qa4 then 4 else 8

/-- `qdeq` (R140): (q − z) × scale, always exact, no flag. Of q = z the product is +0 times the scale, so that a negative scale gives −0
(DEDUCED, log entry 90). -/
def execQdeq (w : AWord) (s : State) : Out :=
  word (aLen w) w.nxt s do
    need bad (modOk { ty := true, sty := true } w.pre)
    need bad (typeCode w.pre == 0 || typeCode w.pre == 12)
    match pickTy .qa4 [.qa4, .qa8] (stypeCode w.pre) with
    | none => .error bad
    | some st =>
      need bad (abd w s false false)
      .ok (putD w s false fun l =>
        let c := laneB32 w s l
        let q := elemOf (qBits st) (laneA w s .b32 l) (c / 2 ^ 24 % 8 % (32 / qBits st))
        match decodeF f16 (c % 65536) with
        | .fin neg n d => (rnd f32 .rne false 0 (vmul (ofInt ((q : Int) - (c / 65536 % 256 : Nat))) (.fin neg n d)).1).1
        | _ => nanCode f32)

/-- The quotient a / scale of `qenc`; none where the code is z and NV is set (R140). -/
def qencQuot (a sc : Val) : Option Val :=
  if a.isNan || sc.isNan || veq sc (ofInt 0) then none
  else match (vdiv a sc).1 with
    | .nan _ => none
    | q => some q

/-- The code of one element of `qenc` (R140). -/
def qencCode (bits : Nat) (mode : RM) (srb z : Nat) (q : Option Val) : Nat × FFlags :=
  let c : Int × FFlags := match q with
    | none => (z, { nv := true })
    | some (.fin neg n d) => let r := rndInt mode srb neg n d; (r.1 + z, { pe := r.2 })
    | some (.inf neg) => (if neg then -1 else 2 ^ bits, {})
    | some (.nan _) => (z, { nv := true })
  let k := clampInt false bits c.1
  (k.1.toNat, { c.2 with sa := k.2 })

/-- `qenc` (R140). -/
def execQenc (w : AWord) (s : State) : Out :=
  word (aLen w) w.nxt s do
    need bad (modOk { ty := true, sty := true, rm := true } w.pre)
    need bad (stypeCode w.pre == 0 || stypeCode w.pre == 12)
    match pickTy .qa4 [.qa4, .qa8] (typeCode w.pre) with
    | none => .error bad
    | some dt =>
      need bad (abd w s false false)
      let mode := modeOf s w.pre
      let bits := qBits dt
      let ctl := fun l => laneB32 w s l
      let q := fun l => qencQuot (decodeF f32 (readA s (.fp f32 false) w.la l w.a.toNat).toNat) (decodeF f16 (ctl l % 65536))
      let d32 := fun i => match q i with | some v => d32Int v | none => 0
      .ok (putElems w s false 1 32 fun l =>
        let r := qencCode bits mode (if mode == .sr then srFor d32 32 l else 0) (ctl l / 65536 % 256) (q l)
        (bfiV 32 (laneD w s false l) r.1 (ctl l / 2 ^ 24 % 8 % (32 / bits) * bits + 256 * bits), r.2))

/-- The greatest magnitude of `bexp`; infinity wins, NaNs are left out (R141). -/
def maxMag (vs : List Val) : Val :=
  vs.foldl (fun m v => if v.isNan then m else if vlt m v.abs then v.abs else m) (ofInt 0)

/-- The shift of `bexp` (R141). -/
def bexpShift (e : Int) : Val → Int
  | .fin _ n d => if n = 0 then -128 else max (-127) (min 127 (floorLog2 n d - e))
  | _ => 127

/-- `bexp` (R141). A signalling NaN of an active lane sets NV (R97). -/
def execBexp (w : AWord) (s : State) : Out :=
  word (aLen w) w.nxt s do
    need bad (modOk { ty := true } w.pre)
    match pickTy .fx8 [.fx8, .fx4, .ix8] (typeCode w.pre) with
    | none => .error bad
    | some t =>
      need bad (abd w s false false && w.b == 112)
      let e : Int := if t == .fx8 then 7 else if t == .fx4 then 1 else 6
      let vs := (lanesOf (active s.g)).map fun l => decodeF f32 (readA s (.fp f32 false) w.la l w.a.toNat).toNat
      .ok (putElems w s false 1 32 fun _ => (modPow (bexpShift e (maxMag vs)) 32, { nv := vs.any Val.isSig }))

/-- `bscale` (R142). A signalling NaN sets NV whatever the shift (R97). -/
def execBscale (w : AWord) (s : State) : Out :=
  word (aLen w) w.nxt s do
    need bad (modOk { ftz := true, rm := true } w.pre && abd w s false false)
    let ftz := ftzOf s w.pre
    let mode := modeOf s w.pre
    let ex := fun l =>
      let sh := intOf true 8 (laneB32 w s l)
      let a := srcVal f32 ftz false false (readA s (.fp f32 false) w.la l w.a.toNat).toNat
      if sh = -128 then (ofInt 0, { nv := a.isSig }) else vscale (-sh) a
    .ok (putElems w s false 1 32 fun l =>
      let r := fpRound f32 mode false ftz 32 (fun i => (ex i).1) l
      (r.1, r.2.or (ex l).2))

end Sys2Proof.Machine
end

