-- ==== Sys2Proof/WellFormed.lean ====
section
/-! DEFINITION. Which instructions are well formed: those that a word sequence of R78–R90 can stand for, with literal words
exactly where an operand code asks for one (R82, R130) and the selector of a shared code as its mnemonic says (R90), and
events whose data have the shape the bus or register gives them. -/

namespace Sys2Proof

/-- Literal words stand exactly where A = 240, B = 124 and `lut3`'s table ask for them (R82, R130). -/
def wfA (table : Bool) (w : AWord) : Bool :=
  (w.la.isSome == (w.a == 240)) && (w.lb.isSome == (w.b == 124)) && (w.lt.isSome == table)

/-- A 64-byte line access of the host (R358): a package address on a 64-byte boundary, at most 64 bytes. -/
def wfHost (addr n : Nat) : Bool := decide (addr % 64 = 0) && decide (addr < 2 ^ 52) && decide (n = 64)

/-- Well-formedness, one arm per constructor or group of constructors of one shape. -/
def Instr.wf : Instr → Bool
  | .lut3 w => wfA true w
  | .voteAny w => wfA false w && w.d.getLsbD 6 == false
  | .voteAll w => wfA false w && w.d.getLsbD 6 == true
  | .kand w => wfA false w && w.d.toNat / 16 == 0
  | .kor w => wfA false w && w.d.toNat / 16 == 1
  | .kxor w => wfA false w && w.d.toNat / 16 == 2
  | .knot w => wfA false w && w.d.toNat / 16 == 0
  | .kmov w => wfA false w && w.d.toNat / 16 == 1
  | .kpop w => wfA false w && w.d.getLsbD 6 == false
  | .kffs w => wfA false w && w.d.getLsbD 6 == true
  | .k2s w => wfA false w && w.d.getLsbD 6 == false
  | .s2k w => wfA false w && w.d.getLsbD 6 == true
  | .sadd w | .ssub w | .smul w | .smulh w | .sand w | .sor w | .sxor w | .sshl w | .sshr w | .ssar w | .smin w
  | .smax w | .scmp w | .smov w | .sbfx w | .sclz w | .spop w | .sld w | .meet w | .setlc w | .nop w | .yield w
  | .exit w | .compact w | .sleepUntil w | .sleepR w | .brk w | .trap w | .add w | .sub w | .adds w | .subs w
  | .addc w | .mulLo w | .mulHi w | .mad w | .min w | .max w | .abs w | .and w | .or w | .xor w | .not w | .shl w
  | .shr w | .sar w | .rot w | .bfx w | .bfi w | .popc w | .clz w | .ctz w | .brev w | .sel w | .cmp w | .dot4 w
  | .dot2 w | .hmix w | .fadd w | .fsub w | .fmul w | .ffma w | .fmin w | .fmax w | .fcmp w | .fdiv w | .frcp w
  | .fsqrt w | .frsq w | .fexp2 w | .flog2 w | .fclass w | .fscale w | .frnd w | .ffrac w | .fabsdiff w | .fsum4 w
  | .cvt w | .cvtSr w | .pack w | .unpack w | .qdeq w | .qenc w | .bexp w | .bscale w | .shflIdx w | .shflXor w
  | .shflUp w | .shflDn w | .voteBal w | .voteCnt w | .lredAdd w | .lredMin w | .lredMax w | .lscanAdd w | .lmatch w => wfA false w
  | .pin w => w.w.toNat == 0
  | .unpin w => w.w.toNat == 1
  | .layGet w => w.w.toNat == 0
  | .layChk w => w.w.toNat == 1
  | .barArr w => w.w.toNat == 0
  | .barArd w => w.w.toNat == 1
  | .amsgSend w => w.w.toNat == 0
  | .amsgPay w => w.w.toNat == 1
  | .cnlRes w => w.w.toNat == 0
  | .cnlPub w => w.w.toNat == 1
  | .cnlTake w => w.w.toNat == 0
  | .cnlRel w => w.w.toNat == 1
  | .latSub w => w.w.toNat == 0
  | .latEnd w => w.w.toNat == 1
  | .sysrd w => w.w.toNat == 0
  | .syswr w => w.w.toNat == 1
  | .keyNew w => w.w.toNat == 0
  | .keyDelDrain w => w.w.toNat == 1
  | .keyDelScuttle w => w.w.toNat == 2
  | .errbRd w => w.w.toNat == 0
  | .errbSet w => w.w.toNat == 1
  | .ctxSaveInstr w => w.w.toNat == 0
  | .ctxLoadInstr w => w.w.toNat == 1
  | .ld _ | .st _ | .ldu _ | .lds _ | .sts _ | .pref _ | .atomAdd _ | .atomMin _ | .atomMax _ | .atomAnd _
  | .atomOr _ | .atomXor _ | .atomXchg _ | .atomCas _ | .atomFadd _ | .atomBinc _ | .atomBfins _ | .atomFfcs _
  | .atomPlset _ | .stAcc _ | .weir _ | .fenceRel _ | .fenceAcq _ | .clean _ | .inval _ | .cleanDiscard _ | .stn _
  | .stnBlk _ | .rlq _ | .ldt _ | .stt _ | .hrBind _ | .hrFree _ | .mma _ | .mmaThin _ | .mmaQ _ | .accInit _
  | .accDrop _ | .cisArm _ | .cisSub _ | .cisWait _ | .cisRd _ | .cisRearm _ | .laySet _ | .layPlace _ | .layFree _
  | .relayMv _ | .relayCp _ | .relayGx _ | .relayWait _ | .barInit _ | .barC _ | .launch _ | .tret _ | .trec _
  | .bnkMode _ => true
  | .memwr a b => wfHost a b.length
  | .memwrptl a b => wfHost a b.length
  | .configRequest r _ => decide (r < 0x1000)
  | .msixTableAccess o _ => decide (o < 0x8000) && decide (o % 4 = 0)
  | .peerAccess p a _ _ _ _ _ b => decide (p < 8) && decide (a < 2 ^ 46) && decide (1 ≤ b.length) && decide (a % 128 + b.length ≤ 128)
  | .stackLoadReport l => decide (l.length ≤ 64)
  | .peerMessage p _ c _ _ _ _ b => decide (p < 8) && decide (c < 4096) && decide (b.length ≤ 256)
  | .rwrWrite s _ => decide (s < 512)
  | .tinvWrite _ => true
  | .ircReshape _ => true
  | .queueEnable q _ => decide (q < 512)
  | .poolEnable i _ => decide (i < 1024)
  | .poolDisable i _ => decide (i < 1024)
  | .canalEnable c _ => decide (c < 2048)
  | .canalDisable c _ => decide (c < 2048)
  | .storageRingEnable _ => true
  | .storageRequestWrite _ _ _ _ => true
  | .ctxCreate c _ => decide (c < 64)
  | .ctxLoad c x _ => decide (c < 4096) && decide (x < 64)
  | .fwStage _ _ p => decide (p.length ≤ 61440)
  | .attest n => decide (n.length = 48)
  | .softError _ _ _ => true
  | .thermalLimit _ _ => true
  | .clauseIssue | .longLatencyTimeout | .activeSetFill | .starvation | .exchangeByWaiting | .gangEnd | .teamEnd
  | .compactRepack | .teamDispatch | .migrationAdvertise | .migrationOffer | .migrationArrival | .queueTailUpdate
  | .recordFetch | .launchRecordStart | .edgeDoneWake | .gridWordResolve | .residencyLeaseGrant | .pagePromotion
  | .taskCompletion | .orphanCause | .homeLoad | .loadReply | .homeStore | .atomicAtHome | .storeTimeReturn
  | .weirPoll | .lineFetch | .evictionWriteback | .movedReply | .memrd | .snpinv | .snpdata | .snpcur
  | .unsupportedRequest | .relayAccept | .relaySectorLand | .relayPassComplete | .relayCompletion | .sleepWake
  | .mmaAccept | .mmaCompletion | .contributionArrival | .contributionReply | .accInitSlice | .accInitReply
  | .accDropSlice | .headraceRelease | .namelessStoreChoice | .nameReturn | .rlqApply | .pinPromotion | .windowFade
  | .lateralBatchTimeout | .lateralBatchApply | .lateralSubReply | .cohortArrival | .cohortCompletionDelivery
  | .messageSend | .inboxAccept | .handlerSpawn | .payloadDelivery | .trapEntry | .watchdog | .extTimeout
  | .spillComplete | .fillComplete | .deferredTeamPlacement | .bankModeComplete | .rwrChangeComplete | .tlbWalk
  | .tinvComplete | .demotion | .hotPagePromotion | .accessCountInterval | .pageMove | .classChangeMigration
  | .reshapeHandoff | .storageAck | .powerArbitration | .energyCharge | .powerOnReset | .ctxDestroy | .ctxSave
  | .logRead | .fwActivate | .mailboxUnknownCommand | .powerLoss | .accDropReply | .keyDelComplete | .writebackAtHome
  | .peerPortAccept => true

/-- A well-formed instruction. -/
abbrev Instr.WellFormed (i : Instr) : Prop := i.wf = true

end Sys2Proof
end

