-- ==== Sys2Proof/Decode.lean ====
section
/-! DEFINITION. The decoder (R76–R91): from any bytes to an instruction and the words that follow it, or a rejection by
name; then the encoder, written from the same tables. -/

namespace Sys2Proof

/-- Why words are no instruction. -/
inductive Reject where
  /-- ILLEGAL_OPCODE (R76, R91) -/
  | opcode
  /-- ILLEGAL_CLAUSE: a misplaced MOD prefix, or words missing at the end (R76) -/
  | form
  /-- a selector value that is not listed: ILLEGAL_OPERAND when the word issues (R90) -/
  | selector
  deriving DecidableEq, Repr

/-! ## Fields -/

/-- The opcode of a word (R77). -/
def opcodeOf (x : Word) : Nat := (x.extractLsb' 2 8).toNat

/-- The next-address selector of a word (R74). -/
def nxtOf (x : Word) : BitVec 2 := x.extractLsb' 0 2

/-- The MOD prefix of a word (R87). -/
def modOf (x : Word) : ModWord :=
  { rsv := x.extractLsb' 30 2, stype := x.extractLsb' 25 5, type := x.extractLsb' 20 5, negc := x.getLsbD 19,
    absb := x.getLsbD 18, negb := x.getLsbD 17, absa := x.getLsbD 16, nega := x.getLsbD 15, ftz := x.getLsbD 14,
    sat := x.getLsbD 13, rm := x.extractLsb' 10 3 }

/-- The fields of a format A or U word, without literals (R78, R79). -/
def aFields (pre : Option ModWord) (x : Word) : AWord :=
  { b := x.extractLsb' 25 7, a := x.extractLsb' 17 8, d := x.extractLsb' 10 7, nxt := nxtOf x, pre := pre }

/-- The fields of a format M pair (R83). -/
def mFields (pre : Option ModWord) (x y : Word) : MWord :=
  { w := x.extractLsb' 29 3, base := x.extractLsb' 21 8, data := x.extractLsb' 14 7, la := x.extractLsb' 10 4,
    nxt := nxtOf x, ofs := y.extractLsb' 13 19, hint := y.extractLsb' 11 2, sc := y.extractLsb' 8 3,
    idx := y.extractLsb' 0 8, pre := pre }

/-! ## The opcode map (R89, R90) -/

/-- The class of an opcode: 0 ALU, 1 MEM, 2 MTX, 3 LAY, 4 SYN, 5 SYS; none for an unassigned code (R89, R91). -/
def opClass (op : Nat) : Option Nat :=
  if (1 ≤ op ∧ op ≤ 0x1C) ∨ (0x20 ≤ op ∧ op ≤ 0x3E) ∨ (0x60 ≤ op ∧ op ≤ 0x72) ∨ (0x90 ≤ op ∧ op ≤ 0x97)
    ∨ (0xA0 ≤ op ∧ op ≤ 0xAF) then some 0
  else if 0xB0 ≤ op ∧ op ≤ 0xCF then some 1
  else if 0xD0 ≤ op ∧ op ≤ 0xDB then some 2
  else if 0xE0 ≤ op ∧ op ≤ 0xE7 then some 3
  else if 0xE8 ≤ op ∧ op ≤ 0xEE then some 4
  else if 0xF0 ≤ op ∧ op ≤ 0xF7 then some 5
  else none

/-- Whether an opcode has format M (R77). -/
def isM (op : Nat) : Bool := decide (0xB0 ≤ op) && decide (op ≤ 0xF7)

/-- The instruction of a format A or U opcode and its fields; none where a selector is not listed (R90). -/
def aInstr (op : Nat) (w : AWord) : Option Instr :=
  match op with
  | 0x01 => some (.sadd w)
  | 0x02 => some (.ssub w)
  | 0x03 => some (.smul w)
  | 0x04 => some (.smulh w)
  | 0x05 => some (.sand w)
  | 0x06 => some (.sor w)
  | 0x07 => some (.sxor w)
  | 0x08 => some (.sshl w)
  | 0x09 => some (.sshr w)
  | 0x0A => some (.ssar w)
  | 0x0B => some (.smin w)
  | 0x0C => some (.smax w)
  | 0x0D => some (.scmp w)
  | 0x0E => some (.smov w)
  | 0x0F => some (.sbfx w)
  | 0x10 => some (.sclz w)
  | 0x11 => some (.spop w)
  | 0x12 => some (.sld w)
  | 0x13 => some (.meet w)
  | 0x14 => some (.setlc w)
  | 0x15 => some (.nop w)
  | 0x16 => some (.yield w)
  | 0x17 => some (.exit w)
  | 0x18 => some (.compact w)
  | 0x19 => some (.sleepUntil w)
  | 0x1A => some (.sleepR w)
  | 0x1B => some (.brk w)
  | 0x1C => some (.trap w)
  | 0x20 => some (.add w)
  | 0x21 => some (.sub w)
  | 0x22 => some (.adds w)
  | 0x23 => some (.subs w)
  | 0x24 => some (.addc w)
  | 0x25 => some (.mulLo w)
  | 0x26 => some (.mulHi w)
  | 0x27 => some (.mad w)
  | 0x28 => some (.min w)
  | 0x29 => some (.max w)
  | 0x2A => some (.abs w)
  | 0x2B => some (.and w)
  | 0x2C => some (.or w)
  | 0x2D => some (.xor w)
  | 0x2E => some (.not w)
  | 0x2F => some (.shl w)
  | 0x30 => some (.shr w)
  | 0x31 => some (.sar w)
  | 0x32 => some (.rot w)
  | 0x33 => some (.bfx w)
  | 0x34 => some (.bfi w)
  | 0x35 => some (.popc w)
  | 0x36 => some (.clz w)
  | 0x37 => some (.ctz w)
  | 0x38 => some (.brev w)
  | 0x39 => some (.sel w)
  | 0x3A => some (.cmp w)
  | 0x3B => some (.dot4 w)
  | 0x3C => some (.dot2 w)
  | 0x3D => some (.hmix w)
  | 0x3E => some (.lut3 w)
  | 0x60 => some (.fadd w)
  | 0x61 => some (.fsub w)
  | 0x62 => some (.fmul w)
  | 0x63 => some (.ffma w)
  | 0x64 => some (.fmin w)
  | 0x65 => some (.fmax w)
  | 0x66 => some (.fcmp w)
  | 0x67 => some (.fdiv w)
  | 0x68 => some (.frcp w)
  | 0x69 => some (.fsqrt w)
  | 0x6A => some (.frsq w)
  | 0x6B => some (.fexp2 w)
  | 0x6C => some (.flog2 w)
  | 0x6D => some (.fclass w)
  | 0x6E => some (.fscale w)
  | 0x6F => some (.frnd w)
  | 0x70 => some (.ffrac w)
  | 0x71 => some (.fabsdiff w)
  | 0x72 => some (.fsum4 w)
  | 0x90 => some (.cvt w)
  | 0x91 => some (.cvtSr w)
  | 0x92 => some (.pack w)
  | 0x93 => some (.unpack w)
  | 0x94 => some (.qdeq w)
  | 0x95 => some (.qenc w)
  | 0x96 => some (.bexp w)
  | 0x97 => some (.bscale w)
  | 0xA0 => some (.shflIdx w)
  | 0xA1 => some (.shflXor w)
  | 0xA2 => some (.shflUp w)
  | 0xA3 => some (.shflDn w)
  | 0xA4 => some (if w.d.getLsbD 6 then .voteAll w else .voteAny w)
  | 0xA5 => some (.voteBal w)
  | 0xA6 => some (.voteCnt w)
  | 0xA7 => some (.lredAdd w)
  | 0xA8 => some (.lredMin w)
  | 0xA9 => some (.lredMax w)
  | 0xAA => some (.lscanAdd w)
  | 0xAB => some (.lmatch w)
  | 0xAC => match w.d.toNat / 16 with | 0 => some (.kand w) | 1 => some (.kor w) | 2 => some (.kxor w) | _ => none
  | 0xAD => match w.d.toNat / 16 with | 0 => some (.knot w) | 1 => some (.kmov w) | _ => none
  | 0xAE => some (if w.d.getLsbD 6 then .kffs w else .kpop w)
  | 0xAF => some (if w.d.getLsbD 6 then .s2k w else .k2s w)
  | _ => none

/-- The instruction of a format M opcode and its fields; none where a selector is not listed (R90). -/
def mInstr (op : Nat) (w : MWord) : Option Instr :=
  match op with
  | 0xB0 => some (.ld w)
  | 0xB1 => some (.st w)
  | 0xB2 => some (.ldu w)
  | 0xB3 => some (.lds w)
  | 0xB4 => some (.sts w)
  | 0xB5 => some (.pref w)
  | 0xB6 => some (.atomAdd w)
  | 0xB7 => some (.atomMin w)
  | 0xB8 => some (.atomMax w)
  | 0xB9 => some (.atomAnd w)
  | 0xBA => some (.atomOr w)
  | 0xBB => some (.atomXor w)
  | 0xBC => some (.atomXchg w)
  | 0xBD => some (.atomCas w)
  | 0xBE => some (.atomFadd w)
  | 0xBF => some (.atomBinc w)
  | 0xC0 => some (.atomBfins w)
  | 0xC1 => some (.atomFfcs w)
  | 0xC2 => some (.atomPlset w)
  | 0xC3 => some (.stAcc w)
  | 0xC4 => some (.weir w)
  | 0xC5 => some (.fenceRel w)
  | 0xC6 => some (.fenceAcq w)
  | 0xC7 => some (.clean w)
  | 0xC8 => some (.inval w)
  | 0xC9 => some (.cleanDiscard w)
  | 0xCA => some (.stn w)
  | 0xCB => some (.stnBlk w)
  | 0xCC => some (.rlq w)
  | 0xCD => match w.w.toNat with | 0 => some (.pin w) | 1 => some (.unpin w) | _ => none
  | 0xCE => some (.ldt w)
  | 0xCF => some (.stt w)
  | 0xD0 => some (.hrBind w)
  | 0xD1 => some (.hrFree w)
  | 0xD2 => some (.mma w)
  | 0xD3 => some (.mmaThin w)
  | 0xD4 => some (.mmaQ w)
  | 0xD5 => some (.accInit w)
  | 0xD6 => some (.accDrop w)
  | 0xD7 => some (.cisArm w)
  | 0xD8 => some (.cisSub w)
  | 0xD9 => some (.cisWait w)
  | 0xDA => some (.cisRd w)
  | 0xDB => some (.cisRearm w)
  | 0xE0 => some (.laySet w)
  | 0xE1 => match w.w.toNat with | 0 => some (.layGet w) | 1 => some (.layChk w) | _ => none
  | 0xE2 => some (.layPlace w)
  | 0xE3 => some (.layFree w)
  | 0xE4 => some (.relayMv w)
  | 0xE5 => some (.relayCp w)
  | 0xE6 => some (.relayGx w)
  | 0xE7 => some (.relayWait w)
  | 0xE8 => some (.barInit w)
  | 0xE9 => match w.w.toNat with | 0 => some (.barArr w) | 1 => some (.barArd w) | _ => none
  | 0xEA => some (.barC w)
  | 0xEB => match w.w.toNat with | 0 => some (.amsgSend w) | 1 => some (.amsgPay w) | _ => none
  | 0xEC => match w.w.toNat with | 0 => some (.cnlRes w) | 1 => some (.cnlPub w) | _ => none
  | 0xED => match w.w.toNat with | 0 => some (.cnlTake w) | 1 => some (.cnlRel w) | _ => none
  | 0xEE => match w.w.toNat with | 0 => some (.latSub w) | 1 => some (.latEnd w) | _ => none
  | 0xF0 => match w.w.toNat with | 0 => some (.sysrd w) | 1 => some (.syswr w) | _ => none
  | 0xF1 => some (.launch w)
  | 0xF2 => some (.tret w)
  | 0xF3 => some (.trec w)
  | 0xF4 => some (.bnkMode w)
  | 0xF5 => match w.w.toNat with | 0 => some (.keyNew w) | 1 => some (.keyDelDrain w) | 2 => some (.keyDelScuttle w) | _ => none
  | 0xF6 => match w.w.toNat with | 0 => some (.errbRd w) | 1 => some (.errbSet w) | _ => none
  | 0xF7 => match w.w.toNat with | 0 => some (.ctxSaveInstr w) | 1 => some (.ctxLoadInstr w) | _ => none
  | _ => none

/-! ## Decoding -/

/-- One literal word, where an operand asks for it. -/
def takeLit (want : Bool) (ws : List Word) : Option (Option Word × List Word) :=
  if want then (match ws with | x :: r => some (some x, r) | [] => none) else some (none, ws)

/-- The literal words of a format A or U word: A's, then B's, then `lut3`'s table (R82, R130). -/
def takeLits (op : Nat) (w : AWord) (ws : List Word) : Option (AWord × List Word) :=
  match takeLit (w.a == 240) ws with
  | none => none
  | some (la, ws) =>
    match takeLit (w.b == 124) ws with
    | none => none
    | some (lb, ws) =>
      match takeLit (op == 0x3E) ws with
      | none => none
      | some (lt, ws) => some ({ w with la := la, lb := lb, lt := lt }, ws)

/-- An instruction word and what it takes, with the prefix that stood before it. -/
def decodeWord (pre : Option ModWord) (x : Word) (ws : List Word) : Except Reject (Instr × List Word) :=
  let op := opcodeOf x
  match opClass op with
  | none => .error (if op = 0xFE then .form else .opcode)
  | some _ =>
    if isM op then
      match ws with
      | [] => .error .form
      | y :: r => match mInstr op (mFields pre x y) with
        | some i => .ok (i, r)
        | none => .error .selector
    else
      match takeLits op (aFields pre x) ws with
      | none => .error .form
      | some (w, r) => match aInstr op w with
        | some i => .ok (i, r)
        | none => .error .selector

/-- The instruction at the head of a word list, with its MOD prefix, and the words after it (R76, R87). -/
def decodeWords : List Word → Except Reject (Instr × List Word)
  | [] => .error .form
  | x :: ws =>
    if opcodeOf x = 0xFE then
      if nxtOf x = 0 then
        match ws with
        | [] => .error .form
        | y :: r => decodeWord (some (modOf x)) y r
      else .error .form
    else decodeWord none x ws

/-- Words of four bytes, the first at the lowest address, low byte first (R3); a rest of fewer than four bytes is none. -/
def wordsOf : List Byte → List Word
  | a :: b :: c :: d :: r => (d ++ c ++ b ++ a) :: wordsOf r
  | _ => []

/-- The bytes of words (R3). -/
def bytesOf (ws : List Word) : List Byte :=
  ws.flatMap fun x => [x.extractLsb' 0 8, x.extractLsb' 8 8, x.extractLsb' 16 8, x.extractLsb' 24 8]

/-- The decoder, total on any bytes. -/
def decode (bs : List Byte) : Except Reject (Instr × List Word) := decodeWords (wordsOf bs)

/-- How many words the instruction word x takes, without a prefix, whatever its selectors (R76, R82). -/
def wordLen (x : Word) : Nat :=
  let op := opcodeOf x
  if isM op then 2
  else 1 + (if (aFields none x).a == 240 then 1 else 0) + (if (aFields none x).b == 124 then 1 else 0)
    + (if op = 0x3E then 1 else 0)

/-! ## The checks of a clause's words (R76) -/

/-- The first failure among the words from index x on, with its index: opcodes, classes, prefixes, missing words. `n` bounds
the words left. -/
def checkWords (eng : Nat) : Nat → Nat → List Word → Option (Reject × Nat)
  | 0, _, _ => none
  | _, _, [] => none
  | n + 1, i, x :: ws =>
    let inClass := fun (c : Nat) => c == eng || c == 0
    if opcodeOf x = 0xFE then
      if nxtOf x ≠ 0 then some (.form, i)
      else match ws with
        | [] => some (.form, i)
        | y :: _ =>
          if opcodeOf y = 0xFE then some (.form, i)
          else match opClass (opcodeOf y) with
            | none => some (.opcode, i + 1)
            | some c =>
              if !(inClass c) then some (.form, i)
              else if ws.length < wordLen y then some (.form, i + 1)
              else checkWords eng n (i + 1 + wordLen y) (ws.drop (wordLen y))
    else match opClass (opcodeOf x) with
      | none => some (.opcode, i)
      | some c =>
        if !(inClass c) then some (.form, i)
        else if ws.length + 1 < wordLen x then some (.form, i)
        else checkWords eng n (i + wordLen x) (ws.drop (wordLen x - 1))

/-- The header's checks: N, ENG, and EXOFF where R68 requires zero. -/
def headerOk (h : Word) : Bool :=
  let exk := (h.extractLsb' 15 3).toNat
  let off := h.extractLsb' 18 14
  (h.extractLsb' 0 4) != 0 && decide ((h.extractLsb' 4 3).toNat < 6) &&
  (if exk == 1 || exk == 2 || exk == 4 then true else if exk == 5 then off.toNat / 128 == 0 else off == 0)

/-! ## The encoder -/

/-- A MOD prefix word (R87). -/
def encMod (m : ModWord) : Word :=
  m.rsv ++ m.stype ++ m.type ++ (BitVec.ofBool m.negc) ++ (BitVec.ofBool m.absb) ++ (BitVec.ofBool m.negb) ++
    (BitVec.ofBool m.absa) ++ (BitVec.ofBool m.nega) ++ (BitVec.ofBool m.ftz) ++ (BitVec.ofBool m.sat) ++ m.rm ++
    0xFE#8 ++ 0#2

/-- A format A or U word (R78). -/
def encAWord (op : BitVec 8) (w : AWord) : Word := w.b ++ w.a ++ w.d ++ op ++ w.nxt

/-- A format M pair (R83). -/
def encM0 (op : BitVec 8) (w : MWord) : Word := w.w ++ w.base ++ w.data ++ w.la ++ op ++ w.nxt
def encM1 (w : MWord) : Word := w.ofs ++ w.hint ++ w.sc ++ w.idx

/-- The words of a format A or U instruction: prefix, word, literals. -/
def encA (op : BitVec 8) (w : AWord) : List Word :=
  (w.pre.map encMod).toList ++ [encAWord op w] ++ w.la.toList ++ w.lb.toList ++ w.lt.toList

/-- The words of a format M instruction. -/
def encM (op : BitVec 8) (w : MWord) : List Word := (w.pre.map encMod).toList ++ [encM0 op w, encM1 w]

/-- The words of an instruction; an event has none. -/
def encode : Instr → List Word
  | .sadd w => encA 0x01 w
  | .ssub w => encA 0x02 w
  | .smul w => encA 0x03 w
  | .smulh w => encA 0x04 w
  | .sand w => encA 0x05 w
  | .sor w => encA 0x06 w
  | .sxor w => encA 0x07 w
  | .sshl w => encA 0x08 w
  | .sshr w => encA 0x09 w
  | .ssar w => encA 0x0A w
  | .smin w => encA 0x0B w
  | .smax w => encA 0x0C w
  | .scmp w => encA 0x0D w
  | .smov w => encA 0x0E w
  | .sbfx w => encA 0x0F w
  | .sclz w => encA 0x10 w
  | .spop w => encA 0x11 w
  | .sld w => encA 0x12 w
  | .meet w => encA 0x13 w
  | .setlc w => encA 0x14 w
  | .nop w => encA 0x15 w
  | .yield w => encA 0x16 w
  | .exit w => encA 0x17 w
  | .compact w => encA 0x18 w
  | .sleepUntil w => encA 0x19 w
  | .sleepR w => encA 0x1A w
  | .brk w => encA 0x1B w
  | .trap w => encA 0x1C w
  | .add w => encA 0x20 w
  | .sub w => encA 0x21 w
  | .adds w => encA 0x22 w
  | .subs w => encA 0x23 w
  | .addc w => encA 0x24 w
  | .mulLo w => encA 0x25 w
  | .mulHi w => encA 0x26 w
  | .mad w => encA 0x27 w
  | .min w => encA 0x28 w
  | .max w => encA 0x29 w
  | .abs w => encA 0x2A w
  | .and w => encA 0x2B w
  | .or w => encA 0x2C w
  | .xor w => encA 0x2D w
  | .not w => encA 0x2E w
  | .shl w => encA 0x2F w
  | .shr w => encA 0x30 w
  | .sar w => encA 0x31 w
  | .rot w => encA 0x32 w
  | .bfx w => encA 0x33 w
  | .bfi w => encA 0x34 w
  | .popc w => encA 0x35 w
  | .clz w => encA 0x36 w
  | .ctz w => encA 0x37 w
  | .brev w => encA 0x38 w
  | .sel w => encA 0x39 w
  | .cmp w => encA 0x3A w
  | .dot4 w => encA 0x3B w
  | .dot2 w => encA 0x3C w
  | .hmix w => encA 0x3D w
  | .lut3 w => encA 0x3E w
  | .fadd w => encA 0x60 w
  | .fsub w => encA 0x61 w
  | .fmul w => encA 0x62 w
  | .ffma w => encA 0x63 w
  | .fmin w => encA 0x64 w
  | .fmax w => encA 0x65 w
  | .fcmp w => encA 0x66 w
  | .fdiv w => encA 0x67 w
  | .frcp w => encA 0x68 w
  | .fsqrt w => encA 0x69 w
  | .frsq w => encA 0x6A w
  | .fexp2 w => encA 0x6B w
  | .flog2 w => encA 0x6C w
  | .fclass w => encA 0x6D w
  | .fscale w => encA 0x6E w
  | .frnd w => encA 0x6F w
  | .ffrac w => encA 0x70 w
  | .fabsdiff w => encA 0x71 w
  | .fsum4 w => encA 0x72 w
  | .cvt w => encA 0x90 w
  | .cvtSr w => encA 0x91 w
  | .pack w => encA 0x92 w
  | .unpack w => encA 0x93 w
  | .qdeq w => encA 0x94 w
  | .qenc w => encA 0x95 w
  | .bexp w => encA 0x96 w
  | .bscale w => encA 0x97 w
  | .shflIdx w => encA 0xA0 w
  | .shflXor w => encA 0xA1 w
  | .shflUp w => encA 0xA2 w
  | .shflDn w => encA 0xA3 w
  | .voteAny w => encA 0xA4 w
  | .voteAll w => encA 0xA4 w
  | .voteBal w => encA 0xA5 w
  | .voteCnt w => encA 0xA6 w
  | .lredAdd w => encA 0xA7 w
  | .lredMin w => encA 0xA8 w
  | .lredMax w => encA 0xA9 w
  | .lscanAdd w => encA 0xAA w
  | .lmatch w => encA 0xAB w
  | .kand w => encA 0xAC w
  | .kor w => encA 0xAC w
  | .kxor w => encA 0xAC w
  | .knot w => encA 0xAD w
  | .kmov w => encA 0xAD w
  | .kpop w => encA 0xAE w
  | .kffs w => encA 0xAE w
  | .k2s w => encA 0xAF w
  | .s2k w => encA 0xAF w
  | .ld w => encM 0xB0 w
  | .st w => encM 0xB1 w
  | .ldu w => encM 0xB2 w
  | .lds w => encM 0xB3 w
  | .sts w => encM 0xB4 w
  | .pref w => encM 0xB5 w
  | .atomAdd w => encM 0xB6 w
  | .atomMin w => encM 0xB7 w
  | .atomMax w => encM 0xB8 w
  | .atomAnd w => encM 0xB9 w
  | .atomOr w => encM 0xBA w
  | .atomXor w => encM 0xBB w
  | .atomXchg w => encM 0xBC w
  | .atomCas w => encM 0xBD w
  | .atomFadd w => encM 0xBE w
  | .atomBinc w => encM 0xBF w
  | .atomBfins w => encM 0xC0 w
  | .atomFfcs w => encM 0xC1 w
  | .atomPlset w => encM 0xC2 w
  | .stAcc w => encM 0xC3 w
  | .weir w => encM 0xC4 w
  | .fenceRel w => encM 0xC5 w
  | .fenceAcq w => encM 0xC6 w
  | .clean w => encM 0xC7 w
  | .inval w => encM 0xC8 w
  | .cleanDiscard w => encM 0xC9 w
  | .stn w => encM 0xCA w
  | .stnBlk w => encM 0xCB w
  | .rlq w => encM 0xCC w
  | .pin w => encM 0xCD w
  | .unpin w => encM 0xCD w
  | .ldt w => encM 0xCE w
  | .stt w => encM 0xCF w
  | .hrBind w => encM 0xD0 w
  | .hrFree w => encM 0xD1 w
  | .mma w => encM 0xD2 w
  | .mmaThin w => encM 0xD3 w
  | .mmaQ w => encM 0xD4 w
  | .accInit w => encM 0xD5 w
  | .accDrop w => encM 0xD6 w
  | .cisArm w => encM 0xD7 w
  | .cisSub w => encM 0xD8 w
  | .cisWait w => encM 0xD9 w
  | .cisRd w => encM 0xDA w
  | .cisRearm w => encM 0xDB w
  | .laySet w => encM 0xE0 w
  | .layGet w => encM 0xE1 w
  | .layChk w => encM 0xE1 w
  | .layPlace w => encM 0xE2 w
  | .layFree w => encM 0xE3 w
  | .relayMv w => encM 0xE4 w
  | .relayCp w => encM 0xE5 w
  | .relayGx w => encM 0xE6 w
  | .relayWait w => encM 0xE7 w
  | .barInit w => encM 0xE8 w
  | .barArr w => encM 0xE9 w
  | .barArd w => encM 0xE9 w
  | .barC w => encM 0xEA w
  | .amsgSend w => encM 0xEB w
  | .amsgPay w => encM 0xEB w
  | .cnlRes w => encM 0xEC w
  | .cnlPub w => encM 0xEC w
  | .cnlTake w => encM 0xED w
  | .cnlRel w => encM 0xED w
  | .latSub w => encM 0xEE w
  | .latEnd w => encM 0xEE w
  | .sysrd w => encM 0xF0 w
  | .syswr w => encM 0xF0 w
  | .launch w => encM 0xF1 w
  | .tret w => encM 0xF2 w
  | .trec w => encM 0xF3 w
  | .bnkMode w => encM 0xF4 w
  | .keyNew w => encM 0xF5 w
  | .keyDelDrain w => encM 0xF5 w
  | .keyDelScuttle w => encM 0xF5 w
  | .errbRd w => encM 0xF6 w
  | .errbSet w => encM 0xF6 w
  | .ctxSaveInstr w => encM 0xF7 w
  | .ctxLoadInstr w => encM 0xF7 w
  | .memwr _ _ | .memwrptl _ _ | .configRequest _ _ | .msixTableAccess _ _ | .peerAccess _ _ _ _ _ _ _ _
  | .stackLoadReport _ | .peerMessage _ _ _ _ _ _ _ _ | .rwrWrite _ _ | .tinvWrite _ | .ircReshape _
  | .queueEnable _ _ | .poolEnable _ _ | .poolDisable _ _ | .canalEnable _ _ | .canalDisable _ _
  | .storageRingEnable _ | .storageRequestWrite _ _ _ _ | .ctxCreate _ _ | .ctxLoad _ _ _ | .fwStage _ _ _
  | .attest _ | .softError _ _ _ | .thermalLimit _ _ | .clauseIssue | .longLatencyTimeout | .activeSetFill
  | .starvation | .exchangeByWaiting | .gangEnd | .teamEnd | .compactRepack | .teamDispatch | .migrationAdvertise
  | .migrationOffer | .migrationArrival | .queueTailUpdate | .recordFetch | .launchRecordStart | .edgeDoneWake
  | .gridWordResolve | .residencyLeaseGrant | .pagePromotion | .taskCompletion | .orphanCause | .homeLoad
  | .loadReply | .homeStore | .atomicAtHome | .storeTimeReturn | .weirPoll | .lineFetch | .evictionWriteback
  | .movedReply | .memrd | .snpinv | .snpdata | .snpcur | .unsupportedRequest | .relayAccept | .relaySectorLand
  | .relayPassComplete | .relayCompletion | .sleepWake | .mmaAccept | .mmaCompletion | .contributionArrival
  | .contributionReply | .accInitSlice | .accInitReply | .accDropSlice | .headraceRelease | .namelessStoreChoice
  | .nameReturn | .rlqApply | .pinPromotion | .windowFade | .lateralBatchTimeout | .lateralBatchApply
  | .lateralSubReply | .cohortArrival | .cohortCompletionDelivery | .messageSend | .inboxAccept | .handlerSpawn
  | .payloadDelivery | .trapEntry | .watchdog | .extTimeout | .spillComplete | .fillComplete | .deferredTeamPlacement
  | .bankModeComplete | .rwrChangeComplete | .tlbWalk | .tinvComplete | .demotion | .hotPagePromotion
  | .accessCountInterval | .pageMove | .classChangeMigration | .reshapeHandoff | .storageAck | .powerArbitration
  | .energyCharge | .powerOnReset | .ctxDestroy | .ctxSave | .logRead | .fwActivate | .mailboxUnknownCommand
  | .powerLoss | .accDropReply | .keyDelComplete | .writebackAtHome | .peerPortAccept => []

/-! ## One word as the opcode table numbers its bits -/

/-- The words of a table word of nbits bits, zero bits above it up to the longest instruction: a prefix is never one of
them, so five words are enough. -/
def tableWords (nbits w : Nat) : List Word :=
  (List.range 5).map fun i => BitVec.ofNat 32 (w % 2 ^ nbits / 2 ^ (32 * i))

/-- What the decoder reads from a table word: the words are laid out as bytes and decoded. -/
def decodeTableWord (nbits w : Nat) : Option Instr :=
  match decode (bytesOf (tableWords nbits w)) with
  | .ok (i, _) => some i
  | .error _ => none

end Sys2Proof
end

