-- ==== Sys2Proof/Machine/Gangs.lean ====
section
/-! DEFINITION. Gangs: the choice of an issue set (R38, R41), clause issue (R66, R75, R76), readiness, the active set (R49–R53),
ends of gangs and teams (R37), `compact` (R54), sleeps (R125), late causes (R304, R307), watchdogs (R326–R328). -/

namespace Sys2Proof.Machine

/-! ## Clause issue (R66, R70, R75, R76) -/

/-- Engine operations of a gang that are not yet complete. -/
def enginesOf (s : State) (g : Nat) : Bool := s.relays.any (·.gang == g) || s.mmas.any (·.gang == g)

/-- Whether no operation of the WAIT kinds of a header is outstanding (R70). -/
def waitDone (s : State) (g : Gang) (h : Word) : Bool :=
  let w := hdrWait h
  let os := opsOf s g.gid
  (w % 2 == 0 || !(os.any fun o => o.kind == .load || o.kind == .pref)) &&
  (w / 2 % 2 == 0 || !(os.any (isStoreKind ·.kind))) &&
  (w / 4 % 2 == 0 || !enginesOf s g.gid) &&
  (w / 8 % 2 == 0 || !(os.any (·.kind == .message)))

/-- The 32-byte sector of a core's instruction cache, or one fetched now (R67). -/
def fetchSector (core ctx : Nat) (r : LineReq) (pa : Nat) (s : State) : State × List Byte :=
  match s.icache.find? fun e => e.1 == core && e.2.1 == pa / 32 with
  | some e => (s, e.2.2)
  | none =>
    let b := blockOf r.cls (pa % 128 / 32 * 32) (pa % 128 / 32 * 32 + 32)
    let (s, ev) := enterLine { r with lo := b.1, hi := b.2 } ctx s
    let s := countAccess r ctx (chargeCtx ctx ev s)
    let bs := homeBytes s (pa / 32 * 32) 32
    ({ s with icache := (core, pa / 32, bs) :: s.icache }, bs)

/-- n words at a clause address, each in its sector: the state and the words, or the first failing address and its cause. DESIGN CHOICE (log entry 119): at a
`pc` that is no multiple of 4, which R66 names no cause for, a word's bytes are those from there on in its 32-byte sector, and zero past its end. -/
def fetchWords (va : DWord) : Nat → State → Except (DWord × Cause) (State × List Word)
  | 0, s => .ok (s, [])
  | n + 1, s =>
    let t := myTeam s
    match checkPage s (taskOf s t.task) t.core { x := true } va with
    | .error c => .error (va, c)
    | .ok (e, z) =>
      let pa := paOf e z va.toNat
      let (s, bs) := fetchSector t.core t.ctx (reqOf s e pa va.toNat) pa (fillPage t.core t.ctx va.toNat s.g.gts s)
      match fetchWords (va + 4) n s with
      | .error x => .error x
      | .ok (s, ws) => .ok (s, BitVec.ofNat 32 (leNat ((bs.drop (pa % 32)).take 4)) :: ws)

/-- A cause at the start of a clause, with the word index it names (R76). -/
def clauseCause (a : DWord) (set : Mask) (i : Nat) (r : Raised) (s : State) : Out :=
  .next (takeTrap { r with cpc := a, cwi := i } false ⟨a, 1, set⟩ { s with clk := s.clk + 1 })

/-- A fetch fault of a clause that some lanes issue (R66, R299, R301). -/
def fetchCause (s : State) (set : Mask) (va : DWord) (c : Cause) : Raised :=
  { cause := c, recs := [mkRec c va.toNat (lowLane set % 32) 3 (clsOf s (myTeam s).core (myTeam s).ctx va.toNat) 0 0] }

/-- The issue set that the moving gang's next clause has: in its handler every live lane at the handler's `pc` (R303). -/
def chosen (s : State) : Option Chosen := if s.g.inH then some ⟨s.g.hpc, s.g.live, s.g.marks, s.g.streak, s.g.yieldPt, 0⟩ else choose s.g (arrivedOf s)

/-- Whether a clause address lies in a page in storage, whose fetch has to wait for a frame (log entry 117). -/
def codeStored (s : State) (va : DWord) : Bool :=
  match checkPage s (myTask s) (myTeam s).core { x := true } va with
  | .ok l => inStorage l.1
  | .error _ => false

/-- The fetch waits at its page, which is wanted in a frame. -/
def awaitCode (va : DWord) (s : State) : Out := stall (fillPage (myTeam s).core (myTeam s).ctx va.toNat s.g.gts s)

/-- CLAUSE_ISSUE: the moving gang, between clauses, chooses its issue set, reads and checks the clause, waits for the header's
kinds, and begins. A clause whose WAIT names engine operations joins those completed (R168, R187). DEDUCED (log entry 94): where the
clause raises a cause at its start the evaluation of R38 and R41 leaves nothing behind, so that `meet`, the marks and the streak stand as
before it; the header is checked before the other words are fetched; the pair of an IND exit is checked after R76, before the WAIT, and
its cause names word 0. -/
def execClauseIssue (s : State) : Out :=
  let g := s.g
  if g.cl.x ≠ 0 ∨ g.live = 0 then .next s
  else
    match chosen s with
    | none => .next s
    | some c =>
      if codeStored s c.pc then awaitCode c.pc s
      else match fetchWords c.pc 1 s with
      | .error (va, e) => clauseCause c.pc c.set 0 (fetchCause s c.set va e) s
      | .ok (u, hs) =>
        let h := hs.headD 0
        let last := c.pc + BitVec.ofNat 64 (4 * hdrN h)
        if !headerOk h then clauseCause c.pc c.set 0 (plain .illegalClause) u
        else if codeStored u last then awaitCode last u
        else match fetchWords (c.pc + 4) (hdrN h) u with
          | .error (va, e) => clauseCause c.pc c.set 0 (fetchCause u c.set va e) u
          | .ok (u, ws) =>
            match checkWords (hdrEng h) (hdrN h + 1) 1 ws with
            | some (.opcode, i) => clauseCause c.pc c.set i (plain .illegalOpcode) u
            | some (_, i) => clauseCause c.pc c.set i (plain .illegalClause) u
            | none =>
              if hdrExk h = 5 ∧ !vregOk g.regs true (field h.toNat 24 18) then clauseCause c.pc c.set 0 bad u
              else if !waitDone u g h then hold (.clause h) u
              else
                let gts := if hdrWait h / 4 % 2 = 1 then max g.gts g.engTime else g.gts
                let cl : ClauseState := { addr := c.pc, hdr := h, words := ws, x := 1, set := c.set }
                .next { u with clk := u.clk + 1
                               g := { g with cl := cl, meet := laneSet g.meet c.freed 0, marks := c.marks, streak := c.streak, yieldPt := c.yieldPt
                                             gts := gts, wait := .none, waitFrom := u.clk } }

/-! ## Readiness (R50, R84, R85) -/

/-- Registers that an instruction word reads or writes: v registers, those of them that it writes, and s registers. -/
structure Names where
  v : List Nat := []
  w : List Nat := []
  s : List Nat := []
  deriving DecidableEq, Repr

/-- n registers from r on. -/
def regsFrom (r n : Nat) : List Nat := (List.range n).map (r + ·)

/-- Whether a TYPE code asks for even–odd pairs (R47, R88). -/
def wideCode (c : Nat) : Bool := ((tyOfCode c).map tyBits).getD 0 == 64

/-- Whether a format A word writes D as v registers: comparisons, votes, lane reductions and the mask forms do not. -/
def writesV (op : Nat) : Bool :=
  (decide (0x20 ≤ op) && decide (op ≤ 0xA3) && op != 0x3A && op != 0x66) || op == 0xAA || op == 0xAB

/-- Whether D of a format A or U word names an s register that it writes. -/
def writesS (op : Nat) (w : AWord) : Bool :=
  (decide (1 ≤ op) && decide (op ≤ 0x12) && op != 0x0D) || (op == 0x13 && w.d.getLsbD 6) || (decide (0xA6 ≤ op) && decide (op ≤ 0xA9)) ||
    op == 0xAE || (op == 0xAF && !w.d.getLsbD 6)

/-- Those of a format A or U word. A 64-bit TYPE asks for pairs, of `cvt` its own for each operand, but for shift counts, `fscale`'s exponent and the
lanes of `shfl` in B (R78, R131, R144) and the results of `fclass` and `lmatch` (R134, R143); the mask forms name k registers. -/
def aNames (op : Nat) (w : AWord) : Names :=
  let a := w.a.toNat
  let b := w.b.toNat
  let n := fun (pair : Bool) => if pair then 2 else 1
  let wide := wideCode (typeCode w.pre)
  let pairA := op == 0x18 || (if op = 0x90 ∨ op = 0x91 then wideCode (stypeCode w.pre) else wide)
  let oneB := (decide (0x2F ≤ op) && decide (op ≤ 0x34)) || op == 0x6E || (decide (0xA0 ≤ op) && decide (op ≤ 0xA3))
  let d := if writesV op then regsFrom w.d.toNat (n (wide && op != 0x6D && op != 0xAB)) else []
  { v := (if a < 128 ∧ op < 0xAC then regsFrom a (n pairA) else []) ++ (if b < 96 ∧ op < 0xAC then regsFrom b (n (wide && !oneB)) else []) ++ d
    w := d
    s := (if 128 ≤ a ∧ a < 192 then [a - 128] else []) ++ (if 96 ≤ b ∧ b < 112 then [b - 96] else []) ++ (if writesS op w then [w.d.toNat % 64] else []) }

/-- The slot that an element form names, and what stands there. -/
def slotNamedBy (m : MWord) (s : State) : Option Slot :=
  match slotByIdx m s with
  | .ok n => slotOf s (myTeam s).ctx n
  | .error _ => none

/-- v registers that a format M word reads from DATA on, or `mma.q` of SV and ZV by the block it names, and those that it writes. -/
def dataV (s : State) (op : Nat) (m : MWord) : List Nat × List Nat :=
  let d := m.data.toNat
  let n := groupLen m.w.toNat
  let elem := ((slotNamedBy m s).map elemRegs).getD 0
  if op = 0xB0 ∨ op = 0xB3 then ([], regsFrom d n)
  else if op = 0xB1 ∨ op = 0xB4 then (regsFrom d n, [])
  else if 0xB6 ≤ op ∧ op ≤ 0xC2 then (regsFrom d (if op = 0xBD ∨ op = 0xC0 ∨ op = 0xC2 then 2 * n else n), if m.hint = 0 then regsFrom d n else [])
  else if op = 0xC3 then (regsFrom d (2 * n), [])
  else if op = 0xCA then (regsFrom d 4, [])
  else if op = 0xCE then ([], regsFrom d elem)
  else if op = 0xCF then (regsFrom d elem, [])
  else if op = 0xE2 then ([], regsFrom d 2)
  else if op = 0xEB then (regsFrom d 2, [])
  else if op = 0xD4 then
    match objectAt m s 64 7 64 with
    | .ok a => (quantRegs 2 d m.idx.toNat (m.sc.toNat % 2) (paramsOf (scrRead s (myTeam s).uid a 64)), [])
    | .error _ => ([], [])
  else ([], [])

/-- v registers that give a format M word its address or indices: BASE a pair and IDX one of a lane address, IDX one of a scratch address, BASE one for
each index of an element (R83, R203, R229). -/
def addressV (s : State) (op : Nat) (m : MWord) : List Nat :=
  let b := m.base.toNat
  let x := m.idx.toNat
  let lane := op == 0xB0 || op == 0xB1 || (decide (0xB5 ≤ op) && decide (op ≤ 0xC3)) || op == 0xCC
  (if lane && decide (b < 128) then regsFrom b 2 else []) ++ (if (lane || op == 0xB3 || op == 0xB4) && decide (x < 128) then [x] else [])
    ++ (if op = 0xCE ∨ op = 0xCF ∨ op = 0xE2 then regsFrom b (((slotNamedBy m s).map Slot.rank).getD 0) else [])

/-- How many s registers a format M word names in DATA. -/
def dataSn (op : Nat) (m : MWord) : Nat :=
  if op = 0xB2 ∨ op = 0xC4 ∨ op = 0xCB ∨ op = 0xD7 ∨ op = 0xDA ∨ op = 0xDB ∨ (0xE4 ≤ op ∧ op ≤ 0xE6) ∨ (0xEC ≤ op ∧ op ≤ 0xEE) ∨ op = 0xF0 ∨ op = 0xF1 ∨ (0xF4 ≤ op ∧ op ≤ 0xF7) then 1
  else if 0xC5 ≤ op ∧ op ≤ 0xC9 then (if m.hint = 1 then 1 else 0)
  else if op = 0xCD then (if m.w = 0 then 1 else 0)
  else if op = 0xE0 ∨ op = 0xE3 ∨ (op = 0xE1 ∧ m.w = 0) then (if m.data.getLsbD 6 then 1 else 0)
  else if op = 0xE1 then 1
  else if op = 0xE9 ∨ op = 0xEA then (if m.data.getLsbD 6 then 0 else 1)
  else if op = 0xF3 then 4 else 0

/-- Those of a format M word. -/
def mNames (s : State) (op : Nat) (m : MWord) : Names :=
  let b := m.base.toNat
  let x := m.idx.toNat
  let d := dataV s op m
  { v := addressV s op m ++ d.1 ++ d.2
    w := d.2
    s := (if 128 ≤ b ∧ b < 192 then [b - 128] else []) ++ (if 128 ≤ x ∧ x < 192 then [x - 128] else []) ++ regsFrom (m.data.toNat % 64) (dataSn op m) }

/-- The words of the gang's next instruction, a MOD prefix left out. -/
def nextWords (g : Gang) : List Word :=
  let ws := g.cl.words.drop (g.cl.x - 1)
  if opcodeOf (ws.headD 0) = 0xFE then ws.drop 1 else ws

/-- The opcode of the gang's next word, and its prefix. -/
def nextOp (g : Gang) : Nat := opcodeOf ((nextWords g).headD 0)
def nextPre (g : Gang) : Option ModWord :=
  let x := (g.cl.words.drop (g.cl.x - 1)).headD 0
  if opcodeOf x = 0xFE then some (modOf x) else none

/-- The fields of the gang's next word, as format M gives them. -/
def nextM (g : Gang) : MWord := mFields (nextPre g) ((nextWords g).headD 0) (((nextWords g).drop 1).headD 0)

/-- Registers the moving gang's next word names, the pair of an IND exit among them (R85). -/
def nextNames (s : State) : Names :=
  let g := s.g
  let op := nextOp g
  let n := if isM op then mNames s op (nextM g) else aNames op (aFields (nextPre g) ((nextWords g).headD 0))
  { n with v := n.v ++ if hdrExk g.cl.hdr = 5 then regsFrom (field g.cl.hdr.toNat 24 18) 2 else [] }

/-- Whether an outstanding fence holds a word (R192, R221). `fence.rel`: stores, atomics, contributions, nameless stores, `rlq`, scratch stores (`sts`, the
cistern and barrier forms), descriptors stored by `lay.get`, engine operations, messages, canal forms and accesses of canal registers, which are ORDERED
atomics (R347, R350), and launches. `fence.acq`: loads, `weir` and the forms that read blocks as loads. -/
def fenceHolds (fence op : Nat) (m : MWord) : Bool :=
  if fence = 0xC5 then op == 0xB1 || op == 0xB4 || (decide (0xB6 ≤ op) && decide (op ≤ 0xC3)) || (decide (0xCA ≤ op) && decide (op ≤ 0xCC)) || op == 0xCF
    || (decide (0xD2 ≤ op) && decide (op ≤ 0xD5)) || op == 0xD7 || op == 0xD8 || op == 0xDB || (op == 0xE1 && m.w == 0) || (decide (0xE4 ≤ op) && decide (op ≤ 0xE6))
    || (decide (0xE8 ≤ op) && decide (op ≤ 0xED)) || (op == 0xF0 && decide (0x24 ≤ m.ofs.toNat) && decide (m.ofs.toNat ≤ 0x26)) || op == 0xF1
  else op == 0xB0 || op == 0xB2 || op == 0xB3 || op == 0xC4 || op == 0xCE || op == 0xE0 || (op == 0xE1 && m.w == 1) || (decide (0xE4 ≤ op) && decide (op ≤ 0xE6))

/-- Whether the moving gang's next word may pass its outstanding operations (R84, R85): it lies in the window of every one that has registers to
write, or to read, and names none of them; a 17th format M operation waits; no relay has yet to write a register it names, nor locks one it writes (R160);
and no fence holds it. -/
def mayPass (s : State) : Bool :=
  let g := s.g
  let n := nextNames s
  let os := (opsOf s g.gid).filter (·.wr)
  let ms := s.mmas.filter fun m => m.gang == g.gid && !m.accepted
  (!isM (nextOp g) || decide (os.length + ms.length < 16)) && !(n.v.any (regOwned s g.gid)) && !(n.w.any (regLocked s g.gid)) &&
  !((opsOf s g.gid).any fun o => o.kind == .fence && fenceHolds o.code (nextOp g) (nextM g)) &&
  (os.all fun o => decide (g.issued ≤ o.seq + o.la) &&
    if o.uni then !n.s.contains o.dst else o.kind == .relay || n.v.all fun r => decide (r < (opWrites o).1) || decide ((opWrites o).1 + (opWrites o).2 ≤ r)) &&
  ms.all fun m => decide (g.issued ≤ m.seq + m.la) && n.w.all fun r => !m.reads.contains r

/-- Whether a gang's wait is over though no wake has come: its object's phase is another one (R255, R334). -/
def phasePassed (s : State) (g : Gang) : Bool :=
  match g.wait with
  | .cistern o p => (readCis s g.team o).phase != p
  | .barrier o p => (readBar s g.team o).phase != p
  | _ => false

/-- A gang that waits at a cistern whose overfill bit is set issues its word again (R255). -/
def overfilled (s : State) (g : Gang) : Bool :=
  match g.wait with
  | .cistern o _ => (readCis s g.team o).ovf
  | _ => false

/-- The moving gang at its next clause, where that can be read and stands its checks (R66, R76). -/
def atNextClause (s : State) (c : Chosen) : Option Gang :=
  match fetchWords c.pc 1 s with
  | .error _ => none
  | .ok (u, hs) =>
    let h := hs.headD 0
    match fetchWords (c.pc + 4) (hdrN h) u with
    | .error _ => none
    | .ok (_, ws) => if headerOk h && (checkWords (hdrEng h) (hdrN h + 1) 1 ws).isNone then some { s.g with cl := { addr := c.pc, hdr := h, words := ws, x := 1, set := c.set } }
      else none

/-- Whether the moving gang's next word, and between clauses the WAIT of its next header too, is held by no operation of it; a clause that cannot begin
raises its cause (R50). -/
def wordReady (s : State) : Bool :=
  if s.g.cl.x ≠ 0 then mayPass s
  else match chosen s with
    | none => false
    | some c => codeStored s c.pc || match atNextClause s c with
      | none => true
      | some g => waitDone s s.g g.cl.hdr && mayPass { s with g := g }

/-- Whether nothing holds the moving gang but its place in the order. -/
def free (s : State) : Bool :=
  let g := s.g
  g.place == .running && g.live != 0 && decide (g.issueAt ≤ s.clk) && (myTeam s).placed &&
  (g.wake.isSome || phasePassed s g || overfilled s g ||
    ((match g.wait with | .none | .room | .clause _ => true | _ => false) && ((g.prio && !g.pending.any fromHandler) || g.pending.isEmpty) && wordReady s))

/-- Whether the moving gang may issue: it is in the active set and nothing holds it. -/
def ready (s : State) : Bool := s.g.active && free s

def readyGang (s : State) (g : Nat) : Bool := ready (switchTo s g)

/-- A pending gang whose dependence has resolved (R51). -/
def pendingReady (s : State) (g : Gang) : Bool := !g.active && free (switchTo s g.gid)

/-! ## The active set (R49–R53). None of these changes architectural state. -/

/-- Gang g enters the active set; it may issue from the fourth cc. `how`: 0 for another gang's dependence, 1 into room, 2 by waiting. -/
def enter (how g : Nat) (s : State) : State :=
  onGang s g fun x => { x with active := true, entered := s.clk + 1, entry := how, issueAt := s.clk + 4, readyFrom := none }

/-- Whether a gang has entered the active set of a quarter in this cc, as `how` says: one alone does into room, and one by waiting (R51, R53). -/
def justEntered (s : State) (gs : List Gang) (how : Nat) : Bool := gs.any fun x => x.entered == s.clk + 1 && x.entry == how

/-- Gang g leaves the active set. -/
def leaveActive (g : Nat) (s : State) : State := onGang s g fun x => { x with active := false, readyFrom := none, starved := false }

/-- The oldest ready pending gang of the quarter of gang g, if any, takes its active place (R51); a trap-priority gang keeps it (R52). -/
def exchange (g : Gang) (s : State) : State :=
  if g.prio || !g.active then s
  else match oldest ((besides s g).filter (pendingReady s)) with
    | none => s
    | some x => enter 0 x.gid (leaveActive g.gid s)

/-- ACTIVE_SET_FILL: a pending gang of a quarter with fewer than 8 active gangs enters: one at trap priority, which waits for a place alone (R52),
or the oldest ready one, one in a cc (R51). -/
def execActiveSetFill (s : State) : Out :=
  let gs := inQuarter s s.obj.1 s.obj.2
  if gs.countP (·.active) ≥ 8 then .next s
  else match oldest (gs.filter fun x => x.prio && !x.active) with
    | some x => .next (pinTrap x.gid s)
    | none => if justEntered s gs 1 then .next s
      else match oldest (gs.filter (pendingReady s)) with
        | none => .next s
        | some x => .next (enter 1 x.gid s)

/-- Whether a gang waits on an outstanding operation outside its window, or on its clause WAIT conditions (R51); in `relay.wait`, `hr.free` and the forms
that wait for a reply too (R176, R233). -/
def stalled (s : State) (g : Gang) : Bool :=
  match g.wait with
  | .none | .clause _ => g.place == .running && g.live != 0 && (let u := switchTo s g.gid; (chosen u).isSome && !wordReady u)
  | .relay _ | .hrFree _ | .reply _ => g.wake.isNone
  | _ => false

/-- LONG_LATENCY_TIMEOUT: an active gang that has been stalled for 32 cc gives its place to the oldest ready pending one (R51). -/
def execLongLatencyTimeout (s : State) : Out :=
  match gangOf s s.obj.1 with
  | none => .next s
  | some g =>
    if !stalled s g || decide (s.clk < g.waitFrom + 32) then .next s
    else .next (exchange g s)

/-- Whether a gang has been ready for n cc without issuing, where it now stands (R53). -/
def readyFor (s : State) (g : Gang) (n : Nat) : Bool :=
  match g.readyFrom with
  | some t => decide (t + n ≤ s.clk)
  | none => false

/-- STARVATION: an ordinary active gang ready for 16 consecutive cc without issuing is starved until it issues or ceases to be ready (R53). -/
def execStarvation (s : State) : Out :=
  match gangOf s s.obj.1 with
  | none => .next s
  | some g =>
    if g.prio || !readyGang s g.gid || !readyFor s g 16 then .next s
    else .next (onGang s g.gid fun x => { x with starved := true })

/-- The gang of least key, the older one on a tie. -/
def leastGang (key : Gang → Nat) (gs : List Gang) : Option Gang :=
  gs.foldl (fun m x => match m with
    | none => some x
    | some y => if key x < key y ∨ (key x = key y ∧ x.age < y.age) then some x else some y) none

/-- EXCHANGE_BY_WAITING: the pending gang ready longest, for 256 cc, takes the place of the ordinary active gang that entered first, once
in a cc (R53). -/
def execExchangeByWaiting (s : State) : Out :=
  let gs := inQuarter s s.obj.1 s.obj.2
  if justEntered s gs 2 then .next s
  else match leastGang (fun x => x.readyFrom.getD 0) (gs.filter fun x => pendingReady s x && readyFor s x 256),
      leastGang (·.entered) (gs.filter fun x => x.active && !x.prio) with
  | some x, some y => .next (enter 2 x.gid (leaveActive y.gid s))
  | _, _ => .next s

/-! ## Ends (R37) -/

/-- GANG_END: no thread is live and no register write is outstanding. A task-ending cause whose handler ended every thread marks the
task (R306); causes still pending go to the task (R307). -/
def execGangEnd (s : State) : Out :=
  match gangOf s s.obj.1 with
  | none => .next s
  | some g =>
    if g.live ≠ 0 ∨ g.place == .ended then .next s
    else if (opsOf s g.gid).any (·.wr) then later .gangEnd s
    else
      let t := teamOf s g.team
      let k := taskOf s t.task
      let te := g.prio && g.area.dw0.getLsbD 7
      let k := { k with floor := max k.floor g.gts }
      let k := if te && k.status == 0 then { k with status := 9, cause := g.area.dw0.toNat % 128, hdr := g.area } else k
      let s := setTask s k
      let s := onGang s g.gid fun x => { x with place := .ended, active := false, wait := .none, wake := none, cl := {}, prio := false, inH := false, pending := [] }
      let s := g.pending.foldl (fun s r => pendCause g.gid r s) s
      .next (due .compactRepack t.uid (due .teamEnd t.uid s))

/-- TEAM_END: with its gangs, the relays that write its parts and the matrix operations that read its headraces, a team has ended;
laterals follow R277; its space is free, its bytes are left for its context. -/
def execTeamEnd (s : State) : Out :=
  match s.teams.find? (·.uid == s.obj.1) with
  | none => .next s
  | some t =>
    let gone := t.place == .ended
    let busy := (allGangs s).any fun g => g.team == t.uid && g.place != .ended
    let engines := s.mmas.any (fun m => m.team == t.uid) || s.relays.any fun r => r.team == t.uid && match slotOf s r.ctx r.dst with
      | some d => d.res != 0
      | none => false
    if busy || (gone && t.scratch.isEmpty && t.races.isEmpty && t.scr == 0) then .next s
    else if engines then later .teamEnd s
    else match flushTeam t.uid (closeTeam t.uid { s with laterals := s.laterals.filter (·.sub != t.uid) }) with
      | none => later .teamEnd s
      | some s =>
        let s := { s with laterals := s.laterals.filter (·.pub != t.uid) }
        let s := setTeam (leaveSpace t s) { teamOf s t.uid with place := .ended, scratch := [], scr := 0, units := [], races := [], arrivals := [], placed := false, reserved := false }
        .next (due .taskCompletion t.task (coreIdle t.core s))

/-! ## `compact` (R54–R56) -/

/-- A thread of the collective: target, old gang, old lane, in the order of R54. -/
def threadLt (a b : Nat × Nat × Nat) : Bool :=
  decide (a.1 < b.1) || (a.1 == b.1 && (decide (a.2.1 < b.2.1) || (a.2.1 == b.2.1 && decide (a.2.2 < b.2.2))))

def insertThread (x : Nat × Nat × Nat) : List (Nat × Nat × Nat) → List (Nat × Nat × Nat)
  | [] => [x]
  | y :: ys => if threadLt x y then x :: y :: ys else y :: insertThread x ys

/-- Slot j as the threads of `list` fill it; `old` are the team's gangs in ascending number. -/
def refill (old : List Gang) (list : List (Nat × Nat × Nat)) (gts : Nat) (fstat : BitVec 32) (j : Nat) (x : Gang) : Gang :=
  let mine := (list.drop (32 * j)).take 32
  let live := maskOf fun l => decide (l < mine.length)
  let from' := fun (p : Nat × Nat × Nat) => (old.find? (·.num == p.2.1)).getD {}
  let v := mine.zipIdx.foldl (fun v e => (List.range x.regs).foldl (fun v r => set0 v (vKey r e.2) (vGet (from' e.1) r e.1.2.2)) v) x.v
  { x with
    num := j, live := live, v := v
    pc := mine.zipIdx.foldl (fun t e => set0 t e.2 (BitVec.ofNat 64 e.1.1)) []
    lk := mine.zipIdx.foldl (fun t e => set0 t e.2 (get0 (from' e.1).lk e.1.2.2)) []
    meet := [], marks := 0, streak := 0, gts := gts, fstat := fstat, cl := {}
    k := [0, 4, 5, 6, 7].foldl (fun t i => set0 t i 0) ([1, 2, 3].foldl (fun t i => set0 t i live) x.k) }

/-- COMPACT_REPACK: once every live thread of the team has arrived and its register writes are drained, the threads are repacked.
DEDUCED (log entry 95): while a gang of the team is in its handler, the threads wait. -/
def execCompactRepack (s : State) : Out :=
  match s.teams.find? (·.uid == s.obj.1) with
  | none => .next s
  | some t =>
    let mine := gangsOf s t.uid
    let old := ((List.range 32).filterMap fun n => mine.find? fun g => g.num == n && g.live != 0)
    let arrived := fun (g : Gang) => (lanesOf g.live).all fun l => t.arrivals.any fun a => a.gang == g.gid && a.lane == l
    if t.arrivals.isEmpty || !old.all arrived then .next s
    else if mine.any (fun g => g.prio || (opsOf s g.gid).any (·.wr) || (relayDsts s g.gid)) || t.place != .running then later .compactRepack s
    else
      let numOf := fun i => ((old.find? (·.gid == i)).map (·.num)).getD 0
      let live := t.arrivals.filter fun a => ((old.find? (·.gid == a.gang)).map fun g => g.live.getLsbD a.lane).getD false
      let list := (live.map fun a => (a.tgt.toNat, numOf a.gang, a.lane)).foldl (fun l x => insertThread x l) []
      let gts := old.foldl (fun m g => max m g.gts) 0
      let fstat := old.foldl (fun m g => m ||| g.fstat) 0
      let n := ceilDiv list.length 32
      let s := setTeam s { t with arrivals := [], count := n }
      let s := old.zipIdx.foldl (fun s e => if e.2 < n then onGang s e.1.gid (refill old list gts fstat e.2)
        else due .gangEnd e.1.gid (onGang s e.1.gid fun x => { x with live := 0, num := e.2, cl := {} })) s
      .next s
where
  /-- A relay that has yet to write registers of gang g (R55). -/
  relayDsts (s : State) (g : Nat) : Bool := s.relays.any fun r => r.gang == g && match slotOf s r.ctx r.dst with
    | some d => d.res == 2
    | none => false

/-! ## Sleeps (R122, R125) -/

/-- SLEEP_WAKE: a sleeping gang whose cycle has come wakes; `sleep.r` tests its ticket, and PROMISE_MISSED stops it after the word. -/
def execSleepWake (s : State) : Out :=
  let g := s.obj.1
  match (gangOf s g).map (fun (x : Gang) => (x.wait, x.team, x.place)) with
  | some (.sleepUntil t, _, _) => if t.toNat ≤ s.clk then .next (wakeGang g 0 s) else later .sleepWake s
  | some (.sleepR r, team, place) =>
    if !promiseCome s r || place != .running then later .sleepWake s
    else if ticketDone (teamOf s team) r then .next (wakeGang g (get0 (teamOf s team).times (r.toNat % 65536)).toNat s)
    else
      let u := switchTo s g
      let v := finishWait u
      match takeExit u.g.waitNxt u with
      | .error _ => .next v
      | .ok _ => .next (takeTrap { promiseMissed u.g r with cpc := u.g.cl.addr, cwi := wordIx u.g } true (boundary v) v)
  | _ => .next s

/-! ## Late causes (R304, R307) -/

/-- The pending cause that a gang takes next: one that a word of its handler raised, or outside its handler the first (R304). -/
def nextPending (g : Gang) : Option Raised :=
  match (g.pending.find? fromHandler).or g.pending.head? with
  | none => none
  | some r => if (g.prio && !fromHandler r) || g.place == .ended then none else some r

/-- Whether a gang stands at a boundary with no word of its own in progress. -/
def atRest (g : Gang) : Bool := match g.wait with | .none | .room | .clause _ => true | _ => false

/-- Gang g takes a pending cause at its boundary. -/
def takePending (g : Nat) (r : Raised) (s : State) : State :=
  let u := switchTo s g
  takeTrap r true (boundary u) { u with g := { u.g with pending := u.g.pending.erase r } }

/-- TRAP_ENTRY: a gang takes its pending cause at its first boundary. -/
def execTrapEntry (s : State) : Out :=
  match gangOf s s.obj.1 with
  | none => .next s
  | some g => match nextPending g with
    | none => .next s
    | some r =>
      if g.place != .running || !atRest g then later .trapEntry s
      else .next (takePending g.gid r s)

/-- ORPHAN_CAUSE: a cause whose gang has ended is counted in its task; the first one is kept, for a task that would complete with status OK (R307). -/
def execOrphanCause (s : State) : Out :=
  match s.tasks.find? (·.id == s.obj.1) with
  | none => .next s
  | some k => match k.orphans with
    | [] => .next s
    | r :: rest =>
      let h := trapHeader r (causeCode r.cause) (taskEnding r.cause) true ⟨r.cpc, r.cwi, 0⟩
      let k := { k with orphans := rest, orph := min 255 (k.orph + 1) }
      .next (setTask s (if k.orph = 1 then { k with oCause := causeCode r.cause, oHdr := h } else k))

/-! ## Watchdogs (R326–R328) -/

/-- The wait of a gang, as R326 and the records of R301 see it: its kind and the waited word or object. -/
def waitKind (s : State) (g : Gang) : Option (Nat × Nat) :=
  let u := switchTo s g.gid
  if g.wake.isSome || phasePassed s g then none
  else match g.wait with
    | .weir _ _ _ _ _ _ _ va => some (1, va.toNat)
    | .cistern o _ => some (2, o)
    | .barrier o _ => some (3, o)
    | .canal c _ => some (4, c)
    | .none | .room | .clause _ =>
      if g.cl.x ≠ 0 || g.inH || (choose g (arrivedOf u)).isSome then none
      else if (lanesOf g.live).all (arrivedOf u).getLsbD then some (5, 0) else some (6, (lowestPc g).toNat)
    | _ => none

/-- An external wait (R326): the word's page has EXTSIG, or the cistern has EXT, now. -/
def external (s : State) (g : Gang) : Bool :=
  let t := teamOf s g.team
  match g.wait with
  | .weir _ _ _ _ _ _ _ va => match (walk s t.ctx va.toNat).1 with
    | .ok (e, _) => pteExt e
    | .error _ => false
  | .cistern o _ => (readCis s t.uid o).ext
  | _ => false

/-- The cause of a wait of a gang that lasted too long, with its record (R301). -/
def waitCause (s : State) (g : Gang) (c : Cause) (k : Nat × Nat) : Raised :=
  let lane := lowLane (if g.cl.x = 0 then g.live else active g) % 32
  let t := teamOf s g.team
  { cause := c, lanes := 1#32 <<< lane, recs := [mkRec c k.2 lane 7 (if k.1 = 1 then clsOf s t.core t.ctx k.2 else 0) 0 k.1] }

/-- WATCHDOG: with every gang of a context waiting longer than WDP and none external, the oldest gang of each of its tasks takes it. -/
def execWatchdog (s : State) : Out :=
  let ctx := s.obj.1
  let per := 1000 * (regGet s 0x013 ctx).toNat
  let gs := (allGangs s).filter fun g => g.gid != 0 && g.place != .ended && (teamOf s g.team).ctx == ctx && g.live != 0
  let waits := fun (g : Gang) => (waitKind s g).isSome && decide (g.waitFrom + per < s.clk) && !g.prio && !external s g
  let undone := s.tasks.any (fun k => k.ctx == ctx && k.stage == .running && decide (k.next < gridSize k)) ||
    s.teams.any fun t => t.ctx == ctx && (t.place == .undispatched || t.place == .moving) && !t.begun
  if per = 0 || gs.isEmpty || !gs.all waits || undone then .next s
  else
    let ks := dedup (gs.map fun g => (teamOf s g.team).task)
    .next (ks.foldl (fun s k => match oldest (gs.filter fun g => (teamOf s g.team).task == k) with
      | some g => raiseIn g.gid (waitCause s g .watchdog ((waitKind s g).getD (0, 0))) s
      | none => s) s)

/-- EXT_TIMEOUT: an external wait longer than EWT ends with its cause. -/
def execExtTimeout (s : State) : Out :=
  match gangOf s s.obj.1 with
  | none => .next s
  | some g =>
    let per := 1000 * (regGet s 0x014 (teamOf s g.team).ctx).toNat
    match waitKind s g with
    | none => .next s
    | some k => if per = 0 || !external s g || decide (s.clk ≤ g.waitFrom + per) then .next s
      else .next (raiseIn g.gid (waitCause s g .extTimeout k) s)

end Sys2Proof.Machine
end

