-- ==== Sys2Proof/Machine/Tiers.lean ====
section
/-! DEFINITION. Tiers and frames (R286–R291), pinned windows (R227, R228, R278), class changes (R267), the storage ring (R374). A
page moves in one step: every reference to its old frame then names the new one, which is what the forwarding of R290 comes
to. -/

namespace Sys2Proof.Machine

/-! ## Frames and raw storage (R289–R291) -/

/-- Raw storage of a page in units of 512 bytes: 144, 132 or 128 per 64 KiB (R257). -/
def rawOf (size cls : Nat) : Nat := size / 65536 * (if cls = 0 then 144 else if cls = 1 then 132 else 128)

/-- The watermark register of a tier and its instance. -/
def twm (tier : Nat) : Nat := 0x033 + tier
def twmInst (tier die : Nat) : Nat := if tier = 2 then 0 else die
def capRaw (s : State) (tier die : Nat) : Nat := 128 * regField s (twm tier) (twmInst tier die) 63 32
def lowMark (s : State) (tier die : Nat) : Nat := regField s (twm tier) (twmInst tier die) 9 0
def highMark (s : State) (tier die : Nat) : Nat := regField s (twm tier) (twmInst tier die) 19 10

/-- Whether a frame lies in a tier's storage as a die counts it: tier 0 by its row, tier 1 by its die (R27, R279). -/
def Frame.inTier (f : Frame) (tier die : Nat) : Bool :=
  f.tier == tier && (if tier = 0 then field f.pa 48 48 == die / 4 else if tier = 1 then field f.pa 48 46 == die else true)

/-- The leaves under a table at a level that a predicate picks, with their virtual addresses and sizes (R280). -/
def leavesUnder (s : State) (p : Nat → Bool) : Nat → Nat → Nat → List (Nat × Nat × Nat)
  | 0, table, va => (List.range 32).flatMap fun i =>
    let e := leNat (homeBytes s (table + 8 * i) 8)
    if pteV e && pteLeaf e && p e && leafOk s e (leafSize 0) then [(va + i * 2 ^ 16, e, leafSize 0)] else []
  | l + 1, table, va => (List.range 512).flatMap fun i =>
    let e := leNat (homeBytes s (table + 8 * i) 8)
    let a := va + i * 2 ^ (21 + 9 * l)
    if !pteV e then []
    else if pteLeaf e then if p e && decide (l < 2) && leafOk s e (leafSize (l + 1)) then [(a, e, leafSize (l + 1))] else []
    else leavesUnder s p l (field e 51 12 * 4096) a

/-- The host frames of initial data: device-managed pages in tier 2 that the supervisor has created and the device has not moved yet (R282). -/
def initialFrames (s : State) : List Frame :=
  (List.range 64).flatMap fun c =>
    let t := (regGet s 0x010 c).toNat
    if !t.testBit 63 then []
    else ((leavesUnder s (fun e => pteDm e && pteTier e == 2) 4 (field t 51 12 * 4096) 0).filter fun l =>
      !(s.frames.any fun f => f.ctx == c && f.va == l.1)).map fun l => ⟨c, l.1, pteFrame l.2.1, l.2.2, pteCls l.2.1, 2⟩

/-- Bytes of a page, from its code in a storage request. -/
def codeSize (c : Nat) : Nat := if c = 0 then 2 ^ 16 else if c = 1 then 2 ^ 21 else 2 ^ 30

/-- The leaf of a page with its entry's address and its size. -/
def leafAt (s : State) (ctx va : Nat) : Option (Nat × Nat × Nat) :=
  match walk s ctx va with
  | (.ok (e, z), ea :: _) => some (ea, e, z)
  | _ => none

/-- The class under which a page in storage is written: initial data are taken to be under their leaf's (R267, log entry 107). -/
def storedCls (s : State) (handle leaf : Nat) : Nat := ((s.stored.find? (·.handle == handle)).map Stored.cls).getD (pteCls leaf)

/-- Host frames that a FETCH under way is to fill: they are reserved, raw space and all (R286, R291). -/
def fetchFrames (s : State) : List Frame :=
  (s.storage.filter (·.op == 2)).map fun q =>
    ⟨q.ctx, q.va, 2 ^ 50 + q.host.toNat, codeSize q.size, storedCls s q.handle.toNat (((leafAt s q.ctx q.va).map (·.2.1)).getD 0), 2⟩

/-- The frames in use in a tier, as a die counts it (R288, R291). -/
def framesIn (s : State) (tier die : Nat) : List Frame := (s.frames ++ if tier = 2 then initialFrames s ++ fetchFrames s else []).filter (·.inTier tier die)

/-- Raw storage in use: a tier-0 frame is spread over the four dies of its row. -/
def usedRaw (s : State) (tier die : Nat) : Nat :=
  ((framesIn s tier die).map fun f => if tier = 0 then rawOf f.size f.cls / 4 else rawOf f.size f.cls).sum

/-- Whether `more` raw units still leave the free fraction at or above a mark. -/
def marksOk (s : State) (tier die more mark : Nat) : Bool :=
  decide (usedRaw s tier die + more ≤ capRaw s tier die) && decide ((capRaw s tier die - usedRaw s tier die - more) * 1024 ≥ mark * capRaw s tier die)

/-- The frames of a page-sized block are free: no page has them, and no FETCH that is under way is to fill them (R286). -/
def frameFree (s : State) (tier pa size : Nat) : Bool :=
  (s.frames ++ if tier = 2 then initialFrames s ++ fetchFrames s else []).all fun f => disjoint f.pa f.size pa size

/-- What an allocation asks of a tier's LOW: nothing, that the tier stays at or above it, or that it is not below it now. -/
inductive Mark where
  | none | stays | now
  deriving DecidableEq, Repr

/-- Raw space on a die for `raw` more units, under a mark. -/
def Mark.admits (m : Mark) (s : State) (tier die raw : Nat) : Bool :=
  match m with
  | .none => marksOk s tier die raw 0
  | .stays => marksOk s tier die raw (lowMark s tier die)
  | .now => marksOk s tier die raw 0 && marksOk s tier die 0 (lowMark s tier die)

/-- A frame for a page in a tier: free, with raw space for its class on every die that its lines use, of the colour of R290 in tiers 0 and 1, and as the
mark asks (R286, R289, R291). Among such frames the choice is free. -/
def allocate (s : State) (va size cls tier : Nat) (low : Mark) : Option Nat :=
  let colour := va % 2 ^ 30 / size * size
  let n := 16 * (s.frames.length + s.storage.length + 1)
  let pick := Config.frameChoice s.fresh tier va
  let raw := rawOf size cls
  let ok := fun (tier : Nat) (dies : List Nat) (raw pa : Nat) => dies.all (fun d => low.admits s tier d raw) && frameFree s tier pa size
  match tier with
  | 0 => ((List.range n).map fun i =>
      let j := pick + i
      (j % 2, j % 2 * 2 ^ 48 + j / 2 % 2 ^ 18 * 2 ^ 30 + colour)).find? (fun p => ok 0 [4 * p.1, 4 * p.1 + 1, 4 * p.1 + 2, 4 * p.1 + 3] (raw / 4) p.2) |>.map (·.2)
  | 1 => if !Config.moduleForm then none else ((List.range n).map fun i =>
      let j := pick + i
      (j % 8, 2 ^ 49 + j % 8 * 2 ^ 46 + j / 8 % 2 ^ 16 * 2 ^ 30 + colour)).find? (fun p => ok 1 [p.1] raw p.2) |>.map (·.2)
  | _ =>
    let base := field (regGet s 0x05C 0).toNat 51 16 * 65536
    let first := ceilDiv base size * size
    let m := (base + 65536 * regField s 0x035 0 63 32 - first) / size
    ((List.range m).map fun i => first + (pick + i) % m * size).find? fun pa => ok 2 [0] raw pa

/-! ## Leaves -/

/-- The device rewrites a leaf, at the home of its line and under the class that this carries (R257, R282). -/
def writeLeaf (ea v : Nat) (s : State) : State := (writeHome (tableReq s ea) 0 0 ea (leBytes 8 v) 0xFF s).1

/-- A leaf with another tier, frame and class (R282). -/
def newLeaf (e tier frame cls : Nat) : Nat :=
  e - field e 61 60 * 2 ^ 60 - field e 54 53 * 2 ^ 53 - field e 51 16 * 2 ^ 16 + cls * 2 ^ 60 + tier * 2 ^ 53 + frame % 2 ^ 36 * 2 ^ 16

/-! ## Moving a page -/

/-- A physical address of the old frame as the new one names it. -/
def movedPa (old new size pa : Nat) : Nat := if old ≤ pa ∧ pa < old + size then pa - old + new else pa
def movedLine (old new size l : Nat) : Nat := movedPa old new size (128 * l) / 128

/-- Entries of a table with keys of the old block, under its new keys; what stood under those is gone. -/
def rekeyTable {n : Nat} (old new size : Nat) (t : Table n) : Table n :=
  let rest := tfilter (fun k => !(decide (old ≤ k) && decide (k < old + size)) && !(decide (new ≤ k) && decide (k < new + size))) t
  (tfilter (fun k => decide (old ≤ k) && decide (k < old + size)) t).foldl (fun t e => set0 t (e.1 - old + new) e.2) rest

/-- Device steps whose second object is a line. -/
def lineEvent : Instr → Bool
  | .homeLoad | .homeStore | .atomicAtHome | .lineFetch | .movedReply | .evictionWriteback | .writebackAtHome => true
  | _ => false

/-- A device step whose first object is a line. -/
def lineFirst : Instr → Bool
  | .reshapeHandoff => true
  | _ => false

/-- Every reference to the old frame names the new one; what caches held of the new frame before is gone. -/
def renameRefs (old new size : Nat) (s : State) : State :=
  let p := movedPa old new size
  let l := movedLine old new size
  let req := fun (r : LineReq) => { r with line := l r.line }
  let ev := fun (e : Event) => { e with line := l e.line }
  let stale := fun (x : Nat) => decide (new ≤ x) && decide (x < new + size) && !(decide (old ≤ x) && decide (x < old + size))
  let copy := fun (c : Copy) => { c with line := l c.line }
  let wait := fun (g : Gang) => match g.wait with
    | .weir pa w c u x b e va => { g with wait := .weir (p pa) w c u x b e va }
    | _ => g
  let s := onGangs s (fun _ => true) wait
  { s with
    sc := (s.sc.filter fun x => !stale (128 * x.line)).map fun x => { x with line := l x.line }
    copies := (s.copies.filter fun c => !stale (128 * c.line)).map copy
    icache := (s.icache.filter fun e => !stale (32 * e.2.1)).map fun e => (e.1, p (32 * e.2.1) / 32, e.2.2)
    refused := s.refused.map fun r => { r with copy := copy r.copy }
    monitors := s.monitors.map fun m => { m with pa := p m.pa }
    ops := s.ops.map fun o => { o with lanes := o.lanes.map (fun x => { x with pa := p x.pa }), lines := o.lines.map req, events := o.events.map ev }
    relays := s.relays.map fun r => { r with touched := r.touched.map l, events := r.events.map ev }
    merges := s.merges.map fun m => { m with lines := m.lines.map req, donea := if m.donea = 0 then 0 else p m.donea
                                             elems := m.elems.map (fun e => { e with pa := p e.pa }), times := m.times.map (fun t => (l t.1, t.2)), written := m.written.map l, done := req m.done
                                             homes := m.homes.map (fun h => (l h.1, h.2)), replies := m.replies.map (fun h => (l h.1, h.2)), events := m.events.map ev }
    contribs := s.contribs.map fun q => { q with line := l q.line, elems := q.elems.map fun c => { c with pa := p c.pa } }
    agenda := s.agenda.map fun a => if lineEvent a.1 then (a.1, a.2.1, l a.2.2) else if lineFirst a.1 then (a.1, l a.2.1, a.2.2) else a }

/-- A frame's lines go to another one, with all that memory and the directory hold of them, and every reference to them. -/
def renameFrame (old new size : Nat) (s : State) : State :=
  { renameRefs old new size s with
    mem := rekeyTable old new size s.mem
    wts := rekeyTable (old / 128) (new / 128) (size / 128) s.wts
    rts := rekeyTable (old / 128) (new / 128) (size / 128) s.rts
    lineCode := rekeyTable (old / 128) (new / 128) (size / 128) s.lineCode
    lineKey := rekeyTable (old / 128) (new / 128) (size / 128) s.lineKey
    flips := rekeyTable (old * 2) (new * 2) (size * 2) s.flips
    counts := rekeyTable (old / 65536) (new / 65536) (size / 65536) s.counts }

/-- What holds or asks for lines of a frame has them under a class from now on (R267). -/
def reclass (pa size cls : Nat) (s : State) : State :=
  let here := fun (line : Nat) => decide (pa / 128 ≤ line) && decide (line < (pa + size) / 128)
  let req := fun (r : LineReq) => if here r.line then { r with cls := cls } else r
  { s with
    sc := s.sc.map fun l => if here l.line then { l with cls := cls } else l
    copies := s.copies.map fun c => if here c.line then { c with cls := cls } else c
    refused := s.refused.map fun r => if here r.copy.line then { r with copy := { r.copy with cls := cls } } else r
    ops := s.ops.map fun o => { o with lines := o.lines.map req }
    merges := s.merges.map fun m => { m with lines := m.lines.map req, done := req m.done } }

/-- Monitors that p picks stand at the homes of their lines; one that finds its new slice full polls (R218, R290, R294). -/
def rehome (p : Monitor → Bool) (s : State) : State :=
  (s.monitors.filter p).foldl (fun s m =>
    let s := { s with monitors := s.monitors.filter (· != m) }
    let h := homeOf s m.dom (m.pa / 128)
    if monitorFree s h then { s with monitors := s.monitors ++ [{ m with slice := h }] } else due .weirPoll m.gang s) s

/-- A monitor of a word in a frame. -/
def Monitor.inFrame (m : Monitor) (pa size : Nat) : Bool := decide (pa ≤ m.pa) && decide (m.pa < pa + size)

/-- One line of a page as it moves: one that a slice holds is written as it stands there; any other is read, checked at the old class, an event being the
context's, and written as the check leaves it (R258, R259, R260, R267, R290). -/
def recodeLine (ctx va cls l : Nat) (s : State) : State :=
  match scOf s l with
  | some x => { clearFlips l (takeHalves l (~~~x.valid) s) with sc := modFirst (·.line == l) (fun x => { x with dirty := 0 }) s.sc }
  | none =>
    let c := checkLine s cls l true
    let s := rekey ctx l s
    let s := if c = 0 then s else chargeCtx ctx (some { line := l, va := va, cls := cls, bad := c == 2 }) s
    clearFlips l (putLine l (if c = 1 then readBytes s.mem (128 * l) 128 else if c = 3 then miscorrected s l else asRead s l) s)

/-- Every line of a page is written with the code of a class and under its context's key (R258, R267, R296). -/
def recode (old size ctx va cls newCls : Nat) (s : State) : State :=
  let lines := (List.range (size / 128)).map (old / 128 + ·)
  let s := lines.foldl (fun s l => recodeLine ctx (va / 128 + (l - old / 128)) cls l s) s
  { s with lineCode := lines.foldl (fun t l => set0 t l (BitVec.ofNat 8 (codeOf newCls))) s.lineCode
           lineKey := lines.foldl (fun t l => set0 t l (keyMark s ctx)) s.lineKey }

/-- Whether a move changes PA[29:7], and with it homes (R290, R292). -/
def homesChange (old new : Nat) : Bool := old % 2 ^ 30 != new % 2 ^ 30

/-- Lines of a block leave their slices (R258). -/
def emptyFrame (pa size : Nat) (s : State) : State :=
  (s.sc.filter fun x => decide (pa ≤ 128 * x.line) && decide (128 * x.line < pa + size)).foldl (fun s x => leaveSlice x.line s) s

/-- A line that no slice holds takes the memory time of its old home to its new one (R189). -/
def carryTimes (dom old new size : Nat) (s : State) : State :=
  { s with mt := (List.range (size / 128)).foldl (fun t i =>
      let h := homeOf s dom (new / 128 + i)
      set0 t h (BitVec.ofNat 64 (max (get0 t h).toNat (get0 s.mt (homeOf s dom (old / 128 + i))).toNat))) s.mt }

/-- Windows of a context that hold part of a page bring their lines in again (R227). -/
def rebring (ctx va size : Nat) (s : State) : State :=
  (dedup (((ctxOf s ctx).pins.filter fun p => !disjoint (128 * p.lo) (128 * (p.hi - p.lo)) va size).map (·.lo))).foldl (fun s lo => dueOnce .pinPromotion ctx lo s) s

/-- The class in force of a page that has a frame: its row's, until a migration moves it to a frame of the leaf's (R291). -/
def frameCls (s : State) (e : Nat) : Nat := clsIn s e (pteFrame e)

/-- A page that has a frame takes a new one in a tier under a class: its lines, its leaf, its TLB entries, its row of the frame table. A leaf whose class
is yet to come into force keeps it (R267). -/
def movePage (ctx va : Nat) (x : Nat × Nat × Nat) (tier pa cls : Nat) (s : State) : State :=
  let (ea, e, size) := x
  let base := va / size * size
  let old := pteFrame e
  let was := frameCls s e
  let far := homesChange old pa
  let s := if far then carryTimes (pteDom e) old pa size (emptyFrame old size s) else s
  let s := renameFrame old pa size (recode old size ctx base was cls s)
  let s := if far then rebring ctx base size (rehome (·.inFrame pa size) s) else s
  let v := newLeaf e tier (pa / 65536) (if cls = was then pteCls e else cls)
  let s := { reclass pa size cls s with
    frames := ⟨ctx, base, pa, size, cls, tier⟩ :: s.frames.filter fun f => !(f.ctx == ctx && f.va == base)
    tlb := s.tlb.map fun t => if t.ctx == ctx && t.va == base && t.size == size then { t with leaf := BitVec.ofNat 64 v } else t
    fresh := s.fresh + 1 }
  writeLeaf ea v s

/-! ## What holds a page -/

/-- Whether a page is under a residency lease (R286). -/
def leased (s : State) (ctx va size : Nat) : Bool :=
  s.tasks.any fun k => k.ctx == ctx && k.lease && k.ranges.any fun r => !disjoint r.base r.len va size

/-- Whether a pinned window holds part of it (R278). -/
def windowed (s : State) (ctx va size : Nat) : Bool := (ctxOf s ctx).pins.any fun p => !disjoint (128 * p.lo) (128 * (p.hi - p.lo)) va size

/-- Whether an enabled pool holds part of it (R269). -/
def pooled (s : State) (ctx va size : Nat) : Bool :=
  (List.range 16).any fun n => poolOn s ctx n && !disjoint (poolBase s ctx n) (poolLen s ctx n) va size

/-- A frame that may be demoted (R288). -/
def demotable (s : State) (f : Frame) : Bool := !leased s f.ctx f.va f.size && !windowed s f.ctx f.va f.size && !pooled s f.ctx f.va f.size

/-- Accesses counted in a frame in this interval (R289). -/
def accesses (s : State) (f : Frame) : Nat := ((List.range (f.size / 65536)).map fun i => (get0 s.counts (f.pa / 65536 + i)).toNat).sum

/-! ## Moves between tiers -/

/-- A storage request is wanted, once. -/
def wantStorage (r : StorageReq) (s : State) : State :=
  if s.storage.any fun q => q.op == r.op && q.ctx == r.ctx && q.va == r.va then s
  else { due (.storageRequestWrite r.op r.size r.host r.handle) 0 s with storage := s.storage ++ [r] }

def sizeCode (size : Nat) : Nat := if size = 2 ^ 16 then 0 else if size = 2 ^ 21 then 1 else 2

/-- A page in storage is wanted in a free frame of the granted host region (R286, R374); none where none is free. -/
def fetchPage (ctx va : Nat) (e size : Nat) (s : State) : Option State :=
  if s.storage.any fun q => q.op == 2 && q.ctx == ctx && q.va == va / size * size then some s
  else (allocate s va size (storedCls s (field e 51 16) e) 2 .none).map fun pa =>
    wantStorage { op := 2, size := sizeCode size, ctx := ctx, va := va / size * size, host := BitVec.ofNat 64 (pa % 2 ^ 49)
                  handle := BitVec.ofNat 64 (field e 51 16) } { s with fresh := s.fresh + 1 }

/-- The tier that an enabled pool gives its pages (R269). -/
def poolTier (s : State) (ctx va size : Nat) : Option Nat :=
  ((List.range 16).find? fun n => poolOn s ctx n && !disjoint (poolBase s ctx n) (poolLen s ctx n) va size).map fun n => if (regGet s 0x019 (poolKey ctx n)).getLsbD 58 then 1 else 0

/-- PAGE_MOVE: the placement engine moves a device-managed page to tier 0 or 1 where a frame is free (R269, R287, R290); one in storage is fetched
first. A page of an enabled pool goes to no tier but the pool's (R269); one with a held line stays in tier 0 (R278). -/
def execPageMove (s : State) : Out :=
  let ctx := s.obj.1 / 4
  let tier := s.obj.1 % 4
  let va := 65536 * s.obj.2
  match leafAt s ctx va with
  | none => .next s
  | some x =>
    let base := va / x.2.2 * x.2.2
    if !pteDm x.2.1 || 1 < tier || pteTier x.2.1 == tier || (poolTier s ctx base x.2.2).any (· != tier) then .next s
    else if pteTier x.2.1 = 3 then match fetchPage ctx va x.2.1 x.2.2 s with
      | some s => .next s
      | none => later .pageMove s
    else if tier = 1 && pteTier x.2.1 == 0 && windowed s ctx base x.2.2 then later .pageMove s
    else match allocate s va x.2.2 (frameCls s x.2.1) tier .none with
      | none => later .pageMove s
      | some pa => .next (movePage ctx va x tier pa (frameCls s x.2.1) s)

/-- PAGE_PROMOTION: a page of a lease in tier 2 goes to tier 0 while that stays above LOW, else to tier 1, and a page of an enabled pool to the pool's
tier; one in tier 3 is first fetched into a host frame (R269, R286, R374). -/
def execPagePromotion (s : State) : Out :=
  let ctx := s.obj.1
  let va := s.obj.2
  match leafAt s ctx va with
  | none => .next s
  | some x =>
    let e := x.2.1
    let size := x.2.2
    let cls := frameCls s e
    if !pteDm e || pteTier e < 2 then .next s
    else if pteTier e = 3 then match fetchPage ctx va e size s with
      | some s => .next s
      | none => later .pagePromotion s
    else match poolTier s ctx (va / size * size) size with
      | some t => match allocate s va size cls t .none with
        | some pa => .next (movePage ctx va x t pa cls s)
        | none => later .pagePromotion s
      | none => match allocate s va size cls 0 .stays with
        | some pa => .next (movePage ctx va x 0 pa cls s)
        | none => match allocate s va size cls 1 .none with
          | some pa => .next (movePage ctx va x 1 pa cls s)
          | none => match allocate s va size cls 0 .none with
            | some pa => if Config.moduleForm then later .pagePromotion s else .next (movePage ctx va x 0 pa cls s)
            | none => later .pagePromotion s

/-- Whether a frame holds the page that its context's table maps to it. -/
def mapped (s : State) (f : Frame) : Bool := (leafAt s f.ctx f.va).any fun x => pteDm x.2.1 && pteTier x.2.1 == f.tier && pteFrame x.2.1 == f.pa

/-- The page a demotion engine takes: the fewest accesses, then the lowest virtual address (R289). -/
def victim (s : State) (tier die : Nat) : Option Frame :=
  ((framesIn s tier die).filter fun f => mapped s f && demotable s f).foldl (fun m f => match m with
    | none => some f
    | some y => if accesses s f < accesses s y || (accesses s f == accesses s y && decide (f.va < y.va)) then some f else some y) none

/-- DEMOTION: an engine whose tier has fallen below LOW moves one page down the chain, until HIGH is reached; a next tier that is below its own LOW is
waited for (R288, R289). -/
def execDemotion (s : State) : Out :=
  let die := s.obj.1 % 8
  let tier := s.obj.2
  let key := 4 * die + tier
  let on := (regGet s (twm tier) (twmInst tier die)).getLsbD 31
  let start := !marksOk s tier die 0 (lowMark s tier die)
  let work := start || (s.demoting.contains key && !marksOk s tier die 0 (highMark s tier die))
  if 2 < tier || !on || !work then .next { s with demoting := s.demoting.filter (· != key) }
  else
    let s := { s with demoting := if s.demoting.contains key then s.demoting else s.demoting ++ [key] }
    match victim s tier die with
    | none => .next s
    | some f => match leafAt s f.ctx f.va with
      | none => .next s
      | some x =>
        if tier = 2 then
          if (regGet s 0x059 0).getLsbD 63 then .next (wantStorage { op := 1, size := sizeCode f.size, ctx := f.ctx, va := f.va, host := BitVec.ofNat 64 (f.pa % 2 ^ 49), handle := 0 } s)
          else .next s
        else
          let next := if tier = 0 ∧ Config.moduleForm then 1 else 2
          match allocate s f.va f.size f.cls next .now with
          | some pa => .next (movePage f.ctx f.va x next pa f.cls s)
          | none => .next s

/-- HOT_PAGE_PROMOTION: a page in tier 1 with more than 64 accesses in the interval goes to tier 0 while that is above LOW (R289). -/
def execHotPagePromotion (s : State) : Out :=
  match s.frames.find? fun f => f.ctx == s.obj.1 && f.va == s.obj.2 && f.tier == 1 with
  | none => .next s
  | some f =>
    if accesses s f ≤ 64 || pooled s f.ctx f.va f.size then .next s
    else match leafAt s f.ctx f.va, allocate s f.va f.size f.cls 0 .now with
      | some x, some pa => .next (movePage f.ctx f.va x 0 pa f.cls s)
      | _, _ => .next s

/-- ACCESS_COUNT_INTERVAL: the counts of one interval end (R289). -/
def execAccessCountInterval (s : State) : Out := .next { s with counts := [] }

/-- CLASS_CHANGE_MIGRATION: a page goes to a frame of another class in its tier (R267, R291). It waits while a running task's floor
forbids it, while no frame of the new size is free, and while the page is in storage; pages of pools keep their class. Object: 4·context + class, page. -/
def execClassChangeMigration (s : State) : Out :=
  let ctx := s.obj.1 / 4
  let cls := s.obj.1 % 4
  let va := 65536 * s.obj.2
  match leafAt s ctx va with
  | none => .next s
  | some x =>
    let e := x.2.1
    let size := x.2.2
    let far := pteTier e == 3
    let old := if far then storedCls s (field e 51 16) e else frameCls s e
    let floor := s.tasks.any fun k => k.ctx == ctx && k.lease && decide (k.floorC < cls) && k.ranges.any fun r => !disjoint r.base r.len (va / size * size) size
    if cls = 3 || !pteDm e || old == cls || pooled s ctx (va / size * size) size then .next s
    else if floor || far then later .classChangeMigration s
    else match allocate s va size cls (pteTier e) .none with
      | none => later .classChangeMigration s
      | some pa => .next (movePage ctx va x (pteTier e) pa cls s)

/-! ## Pinned windows (R227, R228) -/

/-- Dies that home a line of [lo, hi), virtual lines of the context; a line in storage has no home yet. -/
def windowDies (s : State) (core ctx lo hi : Nat) : List Nat :=
  dedup ((List.range (hi - lo)).filterMap fun i => ((lineReq s core ctx (128 * (lo + i))).filter fun r => !storedLine r.1.line).map fun r => homeOf s r.1.dom r.1.line / 64)

/-- The first of the window's dies that holds 16 windows of the context. -/
def fullDie (s : State) (ctx : Nat) (dies : List Nat) : Option Nat := dies.find? fun d => decide (((ctxOf s ctx).pins.filter (·.die == d)).length ≥ 16)

/-- The window is recorded on its dies; its promotion is due. -/
def recordWindow (ctx lo hi r : Nat) (dies : List Nat) (s : State) : State :=
  let c := ctxOf s ctx
  due .pinPromotion ctx (setCtx s { c with pins := c.pins ++ dies.map fun d => ⟨d, lo, hi, r, r, true⟩ }) lo

/-- Whether a reshape is under way (R294). -/
def reshaping (s : State) : Bool := (regGet s 0x03A 0).getLsbD 30

/-- `pin`: it waits while a reshape changes the home of a line (R227, R294). -/
def execPin (w : MWord) (s : State) : Out :=
  wordOr (mLen w) w.nxt s do
    need bad (modOk {} w.pre && (isS w.base.toNat || w.base == 192) && dataS w && w.sc == 0 && w.hint == 0 && w.la == 0 && w.w == 0)
    if active s.g = 0 then .ok (some s)
    else
      let a := ((if w.base = 192 then 0 else sGet s.g (w.base.toNat - 128)) + w.ofs.signExtend 64).toNat
      let len := (sGet s.g (sOfData w)).toNat
      need bad (decide (1 ≤ len) && decide (len ≤ 2 ^ 30))
      let lo := a / 128
      let hi := ceilDiv (a + len) 128
      let t := myTeam s
      checkBlock s { r := true } 0 (128 * lo) (128 * (hi - lo))
      if (List.range (hi - lo)).any fun i => (lineReq s t.core t.ctx (128 * (lo + i))).any fun r => homeMoves s r.1.dom r.1.line then .ok none
      else
        let dies := windowDies s t.core t.ctx lo hi
        match fullDie s t.ctx dies with
        | some d => .error (memCause s .pinLimit (128 * lo) 7 d)
        | none => .ok (some (recordWindow t.ctx lo hi w.idx.toNat dies s))

/-- `unpin`. -/
def execUnpin (w : MWord) (s : State) : Out :=
  word (mLen w) w.nxt s do
    need bad (modOk {} w.pre && (isS w.base.toNat || w.base == 192) && w.data == 0 && w.idx == 0xFF && w.sc == 0 && w.hint == 0 && w.la == 0 && w.w == 1)
    if active s.g = 0 then .ok s
    else
      let a := ((if w.base = 192 then 0 else sGet s.g (w.base.toNat - 128)) + w.ofs.signExtend 64).toNat / 128
      let c := myCtx s
      .ok (releaseHeld (setCtx s { c with pins := c.pins.filter fun p => !(decide (p.lo ≤ a) && decide (a < p.hi)) }))

/-- A line of a window that its slice has is held there, where its set has room for it (R227). -/
def keepLine (line : Nat) (s : State) : State :=
  { s with sc := modFirst (·.line == line) (fun x => { x with held := x.held || (windowHas s x.ctx (x.slice / 64) x.va && mayHold s x.slice line) }) s.sc }

/-- A window's pages in tier 1 go to tier 0, but for those of enabled pools, which keep their tier, and those in storage are wanted in frames; its lines are
brought into their slices (R227, R269, R278). -/
def bringWindow (ctx lo hi : Nat) (s : State) : State :=
  let pages := dedup ((List.range (hi - lo)).map fun i => (lo + i) / 512)
  let s := pages.foldl (fun s v => match leafAt s ctx (65536 * v) with
    | some x => if inStorage x.2.1 then wantPage ctx (65536 * v) s
      else if pteDm x.2.1 && pteTier x.2.1 == 1 && !pooled s ctx (65536 * v / x.2.2 * x.2.2) x.2.2 then match allocate s (65536 * v) x.2.2 (frameCls s x.2.1) 0 .none with
        | some pa => movePage ctx (65536 * v) x 0 pa (frameCls s x.2.1) s
        | none => s
      else s
    | none => s) s
  (List.range (hi - lo)).foldl (fun s i => match lineReq s 4096 ctx (128 * (lo + i)) with
    | some (r, _) => if lineFree s r then (let (s, ev) := enterLine r ctx s; keepLine r.line (chargeCtx ctx ev s)) else s
    | none => s) s

/-- Whether a line of a window has yet to be brought in: an engine or a merge entry owns it, it is on its way to another home, or it is in storage. -/
def windowOpen (ctx lo hi : Nat) (s : State) : Bool :=
  (List.range (hi - lo)).any fun i => match lineReq s 4096 ctx (128 * (lo + i)) with
    | some (r, _) => !lineFree s r
    | none => false

/-- A context's windows are recorded on every die that has become a home for their lines (R227, R294). -/
def widenPins (ctx : Nat) (s : State) : State :=
  let c := ctxOf s ctx
  let more := c.pins.flatMap fun p => ((windowDies s 4096 ctx p.lo p.hi).filter fun d => !(c.pins.any fun q => q.die == d && q.lo == p.lo && q.hi == p.hi)).map fun d => { p with die := d }
  setCtx s { c with pins := more.foldl (fun l p => if l.contains p then l else l ++ [p]) c.pins }

/-- PIN_PROMOTION: the windows that start at a line are brought in (R227, R278); it stays due until each of their lines has been. -/
def execPinPromotion (s : State) : Out :=
  let ctx := s.obj.1
  let lo := s.obj.2
  let his := dedup (((ctxOf s ctx).pins.filter (·.lo == lo)).map (·.hi))
  if his.isEmpty then .next s
  else
    let s := his.foldl (fun s hi => bringWindow ctx lo hi s) (widenPins ctx s)
    if his.any fun hi => windowOpen ctx lo hi s then later .pinPromotion s else .next s

/-- WINDOW_FADE: the end of an interval on a die: windows without an access count down, and one that reaches 0 is released. -/
def execWindowFade (s : State) : Out :=
  let step := fun (p : Pin) =>
    if p.die ≠ s.obj.1 then some p
    else if p.hit then some { p with hit := false, fade := p.reload }
    else if p.reload = 0 then some p
    else if p.fade ≤ 1 then none else some { p with fade := p.fade - 1 }
  .next (releaseHeld { s with ctxs := s.ctxs.map fun c => { c with pins := c.pins.filterMap step } })

/-! ## The storage ring (R374) -/

/-- Space of a physical address (R279). -/
def spaceOf (pa : Nat) : Nat := field pa 51 49

/-- MSI-X messages the device sends: a vector (R358). -/
def sendMsix (v : Nat) (s : State) : State := { s with msgs := s.msgs ++ [v] }

/-- The defined bits of SGC. -/
def sgcMask : DWord := 0x800000000000FFFF

/-- STORAGE_RING_ENABLE: a write to SGC. While enabled, only EN and IEN can be changed. As the ring is enabled, the acknowledgement line is read: the host may have
stored to it while it was not. -/
def execStorageRingEnable (val : DWord) (s : State) : Out :=
  let old := regGet s 0x059 0
  let v := val &&& sgcMask
  if old.getLsbD 63 then
    let keep := (old &&& ~~~(0x8000000000000800 : DWord)) ||| (v &&& 0x8000000000000800)
    .next (regSet s 0x059 0 keep)
  else
  let v := if field v.toNat 15 12 > 12 then putField v 15 12 (field old.toNat 15 12) else v
  if !v.getLsbD 63 then .next (regSet s 0x059 0 v)
  else
    let base := (regGet s 0x058 0).toNat
    let ack := (regGet s 0x05A 0).toNat
    let ok := spaceOf base == 2 && spaceOf ack == 2 && spaceOf (regGet s 0x05C 0).toNat == 2 && disjoint base (64 * 2 ^ field v.toNat 15 12) ack 128
    .next (if ok then due .storageAck 0 { regSet s 0x059 0 v with hostLines := if s.hostLines.contains (ack / 128) then s.hostLines else s.hostLines ++ [ack / 128] } else s)

/-- A write to host memory by its owner, or by the device past its slices (ItoMWr, R362, R374). A line that a slice holds, or that a monitor
watches, is written at its home as R182 says and leaves it; any other line knows no times. A line of a device-managed page is written as it stands
outside (R296). -/
def writeHost (pa : Nat) (bs : List Byte) (s : State) : State :=
  (pieces pa bs.length).foldl (fun s p =>
    let r : LineReq := { line := p.1 / 128, bulk := false, cls := 2, dm := false, dom := 0 }
    let part := (bs.drop (p.1 - pa)).take p.2
    let dm := get0 s.lineKey r.line != 0 || (scOf s r.line).any (·.dm)
    if dm then
      let s := rawLine r.line (leaveSlice r.line s)
      { s with mem := writeBytes s.mem p.1 part }
    else if inSc s r.line || s.monitors.any fun m => m.pa / 128 == r.line then
      leaveSlice r.line (writeHome r 0 0 p.1 part 0xFF (enterLine r 0 s).1).1
    else { s with mem := writeBytes s.mem p.1 part }) s

/-- STORAGE_REQUEST_WRITE: a wanted request is written to the ring, when that is enabled and not full; an MSI-X message follows. -/
def execStorageRequestWrite (op size : Nat) (host handle : DWord) (s : State) : Out :=
  match s.storage.find? fun q => q.n.isNone && q.op == op && q.size == size && q.host == host && q.handle == handle with
  | none => .next s
  | some q =>
    let c := (regGet s 0x059 0).toNat
    let prod := regField s 0x05B 0 63 32
    let ack := regField s 0x05B 0 31 0
    let wait := due (.storageRequestWrite op size host handle) 0 s
    if !c.testBit 63 then .next (if op = 1 then { s with storage := s.storage.erase q } else wait)
    else if (prod + 2 ^ 32 - ack) % 2 ^ 32 ≥ 2 ^ field c 15 12 then .next wait
    else
      let a := (regGet s 0x058 0).toNat + 64 * (prod % 2 ^ field c 15 12)
      let s := writeHost a (leBytes 64 (op + size * 2 ^ 8 + host.toNat * 2 ^ 64 + handle.toNat * 2 ^ 128)) s
      let s := { s with storage := s.storage.map fun x => if x = q then { x with n := some prod } else x }
      let s := regSet s 0x05B 0 (BitVec.ofNat 64 ((prod + 1) % 2 ^ 32 * 2 ^ 32 + ack))
      .next (if c.testBit 11 then sendMsix (c % 2048) s else s)

/-- Entries of a table in a block of keys, by their places in it; and put at another block. -/
def cutTable {n : Nat} (lo len : Nat) (t : Table n) : Table n := (tfilter (fun k => decide (lo ≤ k) && decide (k < lo + len)) t).map fun e => (e.1 - lo, e.2)
def pasteTable {n : Nat} (lo len : Nat) (part t : Table n) : Table n :=
  part.foldl (fun t e => set0 t (lo + e.1) e.2) (tfilter (fun k => !(decide (lo ≤ k) && decide (k < lo + len))) t)

/-- A page as storage keeps it: raw bytes and times, once its lines have left the caches (R189, R258, R374). -/
def storePage (h pa size dom cls : Nat) (s : State) : State :=
  let here := fun (line : Nat) => decide (pa ≤ 128 * line) && decide (128 * line < pa + size)
  let s := (s.copies.filter fun c => !c.remote && here c.line && !c.dirty.isEmpty && !c.quarantined).foldl (fun s c => writeBackCopy c s) s
  let s := emptyFrame pa size { s with copies := s.copies.filter fun c => !here c.line || c.quarantined }
  let lines := List.range (size / 128)
  let row : Stored := { handle := h, cls := cls, bytes := cutTable pa size s.mem, flips := cutTable (2 * pa) (2 * size) s.flips, code := cutTable (pa / 128) (size / 128) s.lineCode
                        key := cutTable (pa / 128) (size / 128) s.lineKey
                        rts := lines.foldl (fun t i => set0 t i (get0 s.mt (homeOf s dom (pa / 128 + i)))) [] }
  lines.foldl (fun s i => rawLine (pa / 128 + i) s) { s with stored := row :: s.stored.filter (·.handle != h) }

/-- The page that storage holds under a handle, laid at a frame: homes' memory times rise to its lines' (R189). Initial data that a handle names are
bytes of no known value (R282). -/
def fetched (h pa size dom : Nat) (s : State) : State :=
  let row := (s.stored.find? (·.handle == h)).getD
    { handle := h, bytes := writeBytes [] 0 ((List.range size).map (Config.storedByte h)), flips := [], code := [], key := [], rts := [] }
  { s with mem := pasteTable pa size row.bytes s.mem, flips := pasteTable (2 * pa) (2 * size) row.flips s.flips
           lineCode := pasteTable (pa / 128) (size / 128) row.code s.lineCode, lineKey := pasteTable (pa / 128) (size / 128) row.key s.lineKey
           mt := row.rts.foldl (fun t e => let k := homeOf s dom (pa / 128 + e.1); set0 t k (BitVec.ofNat 64 (max (get0 t k).toNat e.2.toNat))) s.mt }

/-- The address that stands for a page in storage (log entry 117). -/
def storageAt (h : Nat) : Nat := 2 ^ 70 + h * 2 ^ 30

/-- What one acknowledged request brings (R374, outcomes). What waits for lines of the page goes on waiting for them where they go; of a FETCH that has
failed, they are asked for again. -/
def storageDone (q : StorageReq) (dw3 : Nat) (s : State) : State :=
  let fail := dw3.testBit 63
  let h := dw3 % 2 ^ 36
  let h' := q.handle.toNat
  let size := codeSize q.size
  let pa := 2 ^ 50 + q.host.toNat
  match q.op, leafAt s q.ctx q.va with
  | 1, some (ea, e, _) =>
    if fail || pteTier e ≠ 2 || pteFrame e ≠ pa then s
    else
      let s := renameRefs pa (storageAt h) size (storePage h pa size (pteDom e) (frameCls s e) s)
      let s := { s with counts := tfilter (fun f => !(decide (pa / 65536 ≤ f) && decide (f < (pa + size) / 65536))) s.counts
                        frames := s.frames.filter fun f => !(f.ctx == q.ctx && f.va == q.va)
                        tlb := s.tlb.filter fun t => !(t.ctx == q.ctx && t.va == q.va) }
      writeLeaf ea (newLeaf e 3 h (pteCls e)) s
  | 2, some (ea, e, z) =>
    if fail then
      let waits := s.ops.any fun o => o.lines.any fun r => !r.granted && decide (storageAt h' ≤ 128 * r.line) && decide (128 * r.line < storageAt h' + size)
      let s := if waits then wantPage q.ctx q.va s else s
      { s with tasks := s.tasks.map fun k => if k.ctx == q.ctx && k.stage == .lease && k.ranges.any (fun r => !disjoint r.base r.len q.va z) then { k with failed := true } else k }
    else if pteTier e ≠ 3 then s
    else
      let cls := storedCls s h' e
      let s := rehome (·.inFrame pa size) (renameRefs (storageAt h') pa size (fetched h' pa size (pteDom e) s))
      let s := { s with frames := ⟨q.ctx, q.va, pa, z, cls, 2⟩ :: s.frames.filter fun f => !(f.ctx == q.ctx && f.va == q.va)
                        tlb := s.tlb.filter fun t => !(t.ctx == q.ctx && t.va == q.va) }
      let s := writeLeaf ea (newLeaf e 2 (pa / 65536) (pteCls e)) s
      due .pagePromotion q.ctx (wantStorage { op := 3, size := q.size, ctx := q.ctx, va := q.va, host := 0, handle := q.handle } s) q.va
  | 3, _ => { s with stored := s.stored.filter (·.handle != q.handle.toNat) }
  | _, _ => s

/-- STORAGE_ACK: the acknowledgement line has been taken away; it is read and held again, with dw3 of every entry newly acknowledged. -/
def execStorageAck (s : State) : Out :=
  let c := (regGet s 0x059 0).toNat
  if !c.testBit 63 then .next s
  else
    let line := (regGet s 0x05A 0).toNat
    let s := { s with hostLines := if s.hostLines.contains (line / 128) then s.hostLines else s.hostLines ++ [line / 128] }
    let n := leNat (homeBytes s line 8) % 2 ^ 32
    let prod := regField s 0x05B 0 63 32
    let ack := regField s 0x05B 0 31 0
    let count := (n + 2 ^ 32 - ack) % 2 ^ 32
    if count > (prod + 2 ^ 32 - ack) % 2 ^ 32 then .next s
    else
      let s := regSet s 0x05B 0 (BitVec.ofNat 64 (prod * 2 ^ 32 + n))
      .next ((List.range count).foldl (fun s i =>
        let k := (ack + i) % 2 ^ 32
        match s.storage.find? (·.n == some k) with
        | none => s
        | some q =>
          let dw3 := leNat (homeBytes s ((regGet s 0x058 0).toNat + 64 * (k % 2 ^ field c 15 12) + 24) 8)
          storageDone q dw3 { s with storage := s.storage.erase q }) s)

end Sys2Proof.Machine
end

