-- ==== Sys2Proof/Machine/Launch.lean ====
section
/-! DEFINITION. Queues (R362–R365), launch records and the steps of a launch (R366–R371), completion (R372). -/

namespace Sys2Proof.Machine

/-! ## Queue registers (R362) -/

def qctOf (s : State) (q : Nat) : Nat := (regGet s 0x043 q).toNat
def qOn (s : State) (q : Nat) : Bool := (qctOf s q).testBit 63
def qCtx (s : State) (q : Nat) : Nat := field (qctOf s q) 62 57
/-- Whether the queue is fed by `launch`. -/
def qDev (s : State) (q : Nat) : Bool := (qctOf s q).testBit 56
def qClass (s : State) (q : Nat) : Nat := field (qctOf s q) 55 52
def qPfd (s : State) (q : Nat) : Nat := field (qctOf s q) 51 48
/-- Slots of the ring. -/
def qSlots (s : State) (q : Nat) : Nat := 2 ^ field (qctOf s q) 3 0
def qTail (s : State) (q : Nat) : Nat := regField s 0x044 q 63 32
def qHead (s : State) (q : Nat) : Nat := regField s 0x044 q 31 0
def setQst (q tail head : Nat) (s : State) : State := regSet s 0x044 q (BitVec.ofNat 64 (tail % 2 ^ 32 * 2 ^ 32 + head % 2 ^ 32))
/-- The slot of the record of count n. -/
def qSlot (s : State) (q n : Nat) : Nat := (regGet s 0x040 q).toNat + 1024 * (n % qSlots s q)
/-- The distance from count b up to count a, modulo 2^32. -/
def ahead (a b : Nat) : Nat := (a + 2 ^ 32 - b % 2 ^ 32) % 2 ^ 32

/-- A line of host memory is held as a sharer from now on (RdShared). -/
def holdHost (line : Nat) (s : State) : State := { s with hostLines := if s.hostLines.contains line then s.hostLines else s.hostLines ++ [line] }

/-- The defined bits of QCT. -/
def qctMask : DWord := 0xFFFF00000000000F

/-! ## Prefetch and retirement (R364, R371) -/

/-- Little-endian field of a record. -/
def recU (b : Table 8) (o n : Nat) : Nat := readLe b o n

/-- What a record's ranges say to the headworks before its task exists. -/
def recTask (s : State) (r : Rec) : Task :=
  let b := r.bytes
  let ctl := recU b 0 8
  let rng := fun i => let d := recU b (0x100 + 16 * i) 8
    ({ base := d / 65536 * 65536, len := recU b (0x108 + 16 * i) 8, r := d.testBit 0, w := d.testBit 1, x := d.testBit 2 } : Range)
  let edge := fun i => let d := recU b (0x248 + 16 * i) 8
    (BitVec.ofNat 64 (recU b (0x240 + 16 * i) 8), (List.range (field d 35 32)).map fun j => field d (4 * j + 3) (4 * j))
  let pref := fun i => let d := recU b (0x208 + 16 * i) 8
    (BitVec.ofNat 64 (recU b (0x200 + 16 * i) 8), field d 31 0, field d 39 32)
  { ctx := qCtx s r.q, q := r.q, n := r.n, stage := .edges, startT := r.floor, entry := BitVec.ofNat 64 (recU b 8 8), tx := recU b 0x10 2, ty := recU b 0x12 2, tz := recU b 0x14 2
    regs := recU b 0x16 1, scr := recU b 0x18 4, gx := recU b 0x20 4, gy := recU b 0x24 2, gz := recU b 0x26 2
    gmem := ctl.testBit 23, gsnt := ctl.testBit 24, gaddr := BitVec.ofNat 64 (recU b 0x28 8), sent := BitVec.ofNat 32 (recU b 0x30 4)
    floorC := field ctl 21 20, strict := ctl.testBit 22, coha := BitVec.ofNat 64 (recU b 0x38 8), cba := BitVec.ofNat 64 (recU b 0x40 8)
    cmpa := BitVec.ofNat 64 (recU b 0x48 8), taskid := BitVec.ofNat 64 (recU b 0x50 8), msix := BitVec.ofNat 64 (recU b 0x58 8)
    args := (List.range 16).map fun i => BitVec.ofNat 64 (recU b (0x80 + 8 * i) 8)
    ranges := (List.range (field ctl 12 8)).map rng, prefs := (List.range (field ctl 15 13)).map pref, edges := (List.range (field ctl 19 16)).map edge }

/-- The limits of a grid (R45). -/
def gridLimit : Nat := 2 ^ 31 - 1

/-- Whether a record obeys R366, but for CMPA. -/
def recordOk (b : Table 8) : Bool :=
  let u := recU b
  let ctl := u 0 8
  let nrng := field ctl 12 8
  let zero := fun o n => (readBytes b o n).all (· == 0)
  let shape := [u 0x10 2, u 0x12 2, u 0x14 2]
  let gy := u 0x24 2
  let gz := u 0x26 2
  let gmem := ctl.testBit 23
  let regs := u 0x16 1
  let msix := u 0x58 8
  ctl % 256 == 1 && decide (1 ≤ nrng) && decide (nrng ≤ 16) && decide (field ctl 15 13 ≤ 4) && decide (field ctl 19 16 ≤ 8) && field ctl 21 20 != 3
    && field ctl 63 25 == 0 && (!ctl.testBit 24 || gmem) && clauseAddr (BitVec.ofNat 64 (u 8 8))
    && shape.all (fun d => decide (1 ≤ d) && decide (d ≤ 1024)) && decide (shape.foldl (· * ·) 1 ≤ 1024)
    && decide (8 ≤ regs) && decide (regs ≤ 128) && regs % 8 == 0 && u 0x18 4 % 256 == 0 && decide (u 0x18 4 ≤ 917504)
    && decide (1 ≤ gy) && decide (1 ≤ gz) && (gmem || (decide (1 ≤ u 0x20 4) && decide (u 0x20 4 * gy * gz ≤ gridLimit)))
    && u 0x28 8 % 4 == 0 && u 0x40 8 % 32 == 0 && msix == msix % 2 ^ 11 + field msix 15 15 * 2 ^ 15
    && zero 0x17 1 && zero 0x1C 4 && zero 0x34 4 && zero 0x60 32 && zero 0x2C0 320
    && ((List.range nrng).all fun i => let d := u (0x100 + 16 * i) 8; let n := u (0x108 + 16 * i) 8
      field d 15 3 == 0 && n != 0 && n % 65536 == 0)
    && ((List.range (field ctl 15 13)).all fun i => let d := u (0x208 + 16 * i) 8
      field d 63 40 == 0 && decide (1 ≤ field d 31 0) && decide (field d 31 0 ≤ 2 ^ 30))
    && ((List.range (field ctl 19 16)).all fun i => let d := u (0x248 + 16 * i) 8
      field d 63 36 == 0 && decide (field d 35 32 ≤ 8) && (List.range (field d 35 32)).all fun j => decide (field d (4 * j + 3) (4 * j) < nrng))

/-- One prefetch region is pinned as `pin` pins it, or skipped (R371). -/
def pinRegion (k : Task) (s : State) (p : DWord × Nat × Nat) : State :=
  let lo := p.1.toNat / 128
  let hi := ceilDiv (p.1.toNat + p.2.1) 128
  let pages := dedup ((pieces (128 * lo) (128 * (hi - lo))).map fun x => x.1 / 65536)
  let fine := pages.all fun v => match checkPage s k heldPost { r := true } (BitVec.ofNat 64 (max (128 * lo) (65536 * v))) with
    | .ok _ => true
    | .error _ => false
  let dies := windowDies s heldPost k.ctx lo hi
  if fine && p.2.1 != 0 && decide (p.2.1 ≤ 2 ^ 30) && (fullDie s k.ctx dies).isNone then recordWindow k.ctx lo hi p.2.2 dies s else s

/-- Whether a line of a prefetch region has a home that a reshape is changing: its pin waits until BUSY clears (R294). -/
def regionMoves (k : Task) (s : State) (p : DWord × Nat × Nat) : Bool :=
  reshaping s &&
    let lo := p.1.toNat / 128
    (List.range (ceilDiv (p.1.toNat + p.2.1) 128 - lo)).any fun i => (lineReq s heldPost k.ctx (128 * (lo + i))).any fun r => homeMoves s r.1.dom r.1.line

/-- A prefetch evaluation of a queue: of each record read, within the first PFD from HEAD, every region is pinned once (R371). -/
def prefetch (q : Nat) (s : State) : State :=
  (s.recs.filter fun r => r.q == q && !r.stale && decide (ahead r.n (qHead s q) < qPfd s q)).foldl (fun s r =>
    let k := recTask s r
    (k.prefs.take 4).zipIdx.foldl (fun s p =>
      if r.pinned.contains p.2 || regionMoves k s p.1 then s
      else pinRegion k { s with recs := s.recs.map fun x => if x.id == r.id then { x with pinned := x.pinned ++ [p.2] } else x } p.1) s) s

/-- A write to QCT while EN = 0: the class is in force at once, on every die (log entry 128). -/
def writeQct (q : Nat) (v : DWord) (s : State) : State :=
  { regSet s 0x043 q v with classIn := (List.range 8).foldl (fun t d => set0 t (512 * d + q) (BitVec.ofNat 8 (field v.toNat 55 52))) s.classIn }

/-- QUEUE_ENABLE: a write to QCT. While EN = 1 only EN, CLASS and PFD change; EN is set only where R362 admits it, and then HEAD and TAIL
take the tail word's value and the tail line of a host-fed queue is held; records of an earlier enabling no longer count for HEAD (R364). -/
def execQueueEnable (q : Nat) (val : DWord) (s : State) : Out :=
  let old := regGet s 0x043 q
  let v := val &&& qctMask
  if old.getLsbD 63 then
    let m : DWord := 0x80FF000000000000
    .next (prefetch q (regSet s 0x043 q ((old &&& ~~~m) ||| (v &&& m))))
  else
    let v := if field v.toNat 3 0 > 12 then putField v 3 0 (field old.toNat 3 0) else v
    if !v.getLsbD 63 then .next (writeQct q v s)
    else
      let base := (regGet s 0x040 q).toNat
      let tail := (regGet s 0x041 q).toNat
      let head := (regGet s 0x042 q).toNat
      let len := 1024 * 2 ^ field v.toNat 3 0
      let ok := spaceOf base == 2 && spaceOf tail == 2 && spaceOf head == 2 && tail != head && disjoint base len tail 128 && disjoint base len head 128
      if !ok then .next s
      else
        let n := leNat (homeBytes s tail 4)
        let s := setQst q n n { writeQct q v s with qread := set0 s.qread q (BitVec.ofNat 32 n), recs := s.recs.map fun r => if r.q == q then { r with stale := true } else r }
        .next (if v.getLsbD 56 then s else holdHost (tail / 128) s)

/-- Records retire in queue order: HEAD goes on and the head word is written (R364). -/
def advance (q : Nat) : Nat → State → State
  | 0, s => s
  | n + 1, s => match s.recs.find? fun r => r.q == q && !r.stale with
    | none => s
    | some r =>
      if !r.gone then s
      else
        let s := { s with recs := s.recs.erase r }
        let h := (r.n + 1) % 2 ^ 32
        advance q n (if qHead s q = r.n then writeHost (regGet s 0x042 q).toNat (leBytes 8 h) (setQst q (qTail s q) h s) else s)

/-- The record of a number may retire; one that its queue no longer counts is forgotten. -/
def retire (q id : Nat) (s : State) : State :=
  let s := { s with recs := (s.recs.map fun x => if x.id == id then { x with gone := true } else x).filter fun x => !(x.gone && x.stale) }
  prefetch q (advance q (s.recs.length + 1) s)

/-! ## Records (R363) -/

/-- QUEUE_TAIL_UPDATE: the tail line has been taken away and is read again. A bad tail disables the queue. -/
def execQueueTailUpdate (s : State) : Out :=
  let q := s.obj.1
  if !qOn s q || qDev s q then .next s
  else
    let a := (regGet s 0x041 q).toNat
    let n := leNat (homeBytes s a 4)
    let s := holdHost (a / 128) s
    if ahead n (qHead s q) > qSlots s q then
      .next (logEvent 9 q n (regSet (setQst q n (qHead s q) s) 0x043 q (putField (regGet s 0x043 q) 63 63 0)))
    else .next (due .recordFetch q (setQst q n (qHead s q) s))

/-- A record joins those read; its start is due. -/
def takeRecord (r : Rec) (s : State) : State :=
  let (id, s) := newId s
  prefetch r.q (due .launchRecordStart r.q { s with recs := s.recs ++ [{ r with id := id }], qread := set0 s.qread r.q (BitVec.ofNat 32 (r.n + 1)) })

/-- RECORD_FETCH: the next record up to the tail is read, once, in count order. -/
def execRecordFetch (s : State) : Out :=
  let q := s.obj.1
  let n := (get0 s.qread q).toNat
  let left := ahead (qTail s q) n
  if !qOn s q || qDev s q || left = 0 || left > qSlots s q then .next s
  else
    let bytes := writeBytes [] 0 (homeBytes s (qSlot s q n) 1024)
    let s := takeRecord { q := q, n := n, bytes := bytes } s
    .next (if left = 1 then s else due .recordFetch q s)

/-! ## Accesses of the headworks -/

/-- A load of the headworks within one line, ORDERED, of a context at clock g: the bytes and the line's time; none where the line must
be waited for. -/
def workLoad (ctx va n g : Nat) (s : State) : Option (State × List Byte × Nat) :=
  match lineReq s heldPost ctx va with
  | none => none
  | some (r, pa) =>
    if !lineFree s r then none
    else
      let (s, ev) := engineLine heldPost ctx g r s
      let s := ev.foldl (fun s e => chargeCtx ctx (some e) s) s
      some (s, homeBytes s pa n, wtsOf s r.dom r.line)

/-- A store of the headworks within one line, ORDERED: its time; none where the line must be waited for. An unmapped address takes
nothing. -/
def workStore (ctx va : Nat) (bs : List Byte) (g : Nat) (s : State) : Option (State × Nat) :=
  match lineReq s heldPost ctx va with
  | none => some (s, 0)
  | some (r, pa) =>
    if !lineFree s r || (lockedMem s ctx va bs.length).isSome then none
    else
      let (s, ev) := enterLine r ctx s
      some (writeHome r ctx g pa bs 0xFF (chargeCtx ctx ev (countAccess r ctx s)))

/-- Pages in storage of some addresses of a context are wanted, and the step stays due (log entry 117). -/
def laterFor (e : Instr) (ctx : Nat) (vas : List Nat) (s : State) : Out :=
  later e (vas.foldl (fun s va => match lineReq s heldPost ctx va with
    | some (r, _) => if storedLine r.line then wantPage ctx va s else s
    | none => s) s)

/-- A block read under a task's ranges and their read rights (R46): refused where it is outside them; `wait`: a line must be waited for, at this address. -/
inductive Read where
  | wait (va : Nat)
  | refused
  | got (s : State) (bytes : List Byte)
  deriving DecidableEq, Repr

/-- A block read for the headworks. DEDUCED (log entry 118): a page that no valid leaf maps, or whose context's key is absent, is refused as one without read
rights is, where R46 names the declared ranges and their rights alone. -/
def workBlock (k : Task) (va n : Nat) (s : State) : Read :=
  (pieces va n).foldl (fun a p => match a with
    | .got s bs =>
      match checkPage s k heldPost { r := true } (BitVec.ofNat 64 p.1) with
      | .error _ => .refused
      | .ok _ => match workLoad k.ctx p.1 p.2 k.startT s with
        | none => .wait p.1
        | some (s, b, _) => .got s (bs ++ b)
    | x => x) (.got s [])

/-! ## The steps of a launch (R367) -/

/-- A step fails, or the grid is empty: the task completes with a status, and no team of it runs. The next record may start. -/
def endLaunch (k : Task) (status : Nat) (s : State) : State :=
  due .launchRecordStart k.q (due .taskCompletion k.id (setTask s { k with stage := .ended, status := status, lease := false }))

/-- A task whose record passes its steps. -/
def starting (k : Task) : Bool := k.stage == .edges || k.stage == .grid || k.stage == .lease

/-- LAUNCH_RECORD_START: the next record of a queue starts, once none before it is still at a step (step 1). -/
def execLaunchRecordStart (s : State) : Out :=
  let q := s.obj.1
  if s.tasks.any (fun k => k.q == q && starting k) then .next s
  else match s.recs.find? fun r => r.q == q && !r.started with
    | none => .next s
    | some r =>
      let s := { s with recs := s.recs.map fun x => if x.id == r.id then { x with started := true } else x }
      let cmpa := recU r.bytes 0x48 8
      if cmpa = 0 ∨ cmpa % 64 ≠ 0 then .next (due .launchRecordStart q (retire q r.id (logEvent 11 q r.n s)))
      else
        let (id, s) := newId s
        let k := { recTask s r with id := id, recId := r.id }
        let s := { s with tasks := s.tasks ++ [k] }
        .next (if recordOk r.bytes then due .edgeDoneWake id s else endLaunch k 1 s)

/-- EDGE_DONE_WAKE: the completion record of the next edge reads DONE; after the last, the grid step is due (steps 2, R368). -/
def execEdgeDoneWake (s : State) : Out :=
  match s.tasks.find? (·.id == s.obj.1) with
  | none => .next s
  | some k =>
    if k.stage != .edges then .next s
    else match k.edges[k.seen]? with
      | none =>
        if k.edgeBad then .next (endLaunch k 2 s) else .next (due .gridWordResolve k.id (setTask s { k with stage := .grid }))
      | some e =>
        match lineReq s heldPost k.ctx e.1.toNat with
        | none => later .edgeDoneWake s
        | some (_, pa) =>
          if storedLine (pa / 128) || !(homeByte s (pa + 7)).getLsbD 7 then laterFor .edgeDoneWake k.ctx [e.1.toNat] s
          else match workLoad k.ctx e.1.toNat 8 k.startT s with
            | none => later .edgeDoneWake s
            | some (s, bs, t) =>
              later .edgeDoneWake (setTask s { k with seen := k.seen + 1, startT := max k.startT t, edgeBad := k.edgeBad || field (leNat bs) 39 32 != 0 })

/-- The clean lines of every edge region whose pages are BULK leave the cluster caches of the context (R193). -/
def invalidateEdges (k : Task) (s : State) : State :=
  let rs := k.edges.flatMap fun e => e.2.filterMap (k.ranges[·]?)
  { s with copies := s.copies.filter fun c => !(!c.remote && c.bulk && c.ctx == k.ctx && c.dirty.isEmpty &&
      rs.any fun r => decide (r.base ≤ c.va.toNat) && decide (c.va.toNat < r.base + r.len)) }

/-- The cohort table of a launch: entries with their members, or a failure (R46). -/
inductive Cohorts where
  | wait (va : Nat)
  | invalid
  | ok (s : State) (lists : List (Nat × List Nat))
  deriving DecidableEq, Repr

/-- Whether words rise strictly. -/
def rising : List Nat → Bool
  | a :: b :: l => decide (a < b) && rising (b :: l)
  | _ => true

def readCohorts (k : Task) (s : State) : Cohorts :=
  if k.coha = 0 then .ok s []
  else if k.coha.toNat % 16 ≠ 0 then .invalid
  else match workBlock k k.coha.toNat 4096 s with
    | .wait a => .wait a
    | .refused => .invalid
    | .got s tbl =>
      (List.range 256).foldl (fun a c => match a with
        | .ok s ls =>
          let n := at8 tbl (16 * c)
          let p := at8 tbl (16 * c + 8)
          if n = 0 then .ok s ls
          else if n > 2 ^ 20 ∨ p % 4 ≠ 0 then .invalid
          else match workBlock k p (4 * n) s with
            | .wait a => .wait a
            | .refused => .invalid
            | .got s bs =>
              let l := (List.range n).map fun i => at4 bs (4 * i)
              if !rising l || l.any (fun i => decide (gridSize k ≤ i)) then .invalid
              else if l.any fun i => decide ((ls.filter fun x => x.2.contains i).length ≥ 4) then .invalid
              else .ok s (ls ++ [(c, l)])
        | x => x) (.ok s [])

/-- The entries of CBA that the table fills (R336); none where a line must be waited for. -/
def initCba (k : Task) (lists : List (Nat × List Nat)) (s : State) : Option State :=
  if k.cba = 0 then some s
  else lists.foldlM (fun s l => (workStore k.ctx (k.cba.toNat + 32 * l.1) (leBytes 32 l.2.length) k.startT s).map (·.1)) s

/-- Steps 4 and 5 up to the lease, with the grid known. -/
def gridKnown (k : Task) (s : State) : Out :=
  if gridSize k = 0 then .next (endLaunch k 0 (invalidateEdges k s))
  else match readCohorts k s with
    | .wait a => laterFor .gridWordResolve k.ctx [a] s
    | .invalid => .next (endLaunch k 8 s)
    | .ok s ls => match initCba k ls s with
      | none => laterFor .gridWordResolve k.ctx (ls.map fun l => k.cba.toNat + 32 * l.1) s
      | some s => .next (due .residencyLeaseGrant k.id (setTask s { k with stage := .lease, cohorts := ls }))

/-- GRID_WORD_RESOLVE: the grid word is read, or waited for while it equals the sentinel (step 3). -/
def execGridWordResolve (s : State) : Out :=
  match s.tasks.find? (·.id == s.obj.1) with
  | none => .next s
  | some k =>
    if k.stage != .grid then .next s
    else if !k.gmem then gridKnown k s
    else match checkPage s k heldPost { r := true } k.gaddr with
      | .error _ => .next (endLaunch k 4 s)
      | .ok (e, z) =>
        if pteBulk e then .next (endLaunch k 3 s)
        else if inStorage e then laterFor .gridWordResolve k.ctx [k.gaddr.toNat] s
        else if k.gsnt && leNat (homeBytes s (paOf e z k.gaddr.toNat) 4) == k.sent.toNat then later .gridWordResolve s
        else match workLoad k.ctx k.gaddr.toNat 4 k.startT s with
          | none => later .gridWordResolve s
          | some (u, bs, t) =>
            let x := leNat bs
            if x > gridLimit ∨ x * k.gy * k.gz > gridLimit then .next (endLaunch { k with startT := max k.startT t } 4 u)
            else
              let k := { k with gx := x, gmem := false, startT := max k.startT t }
              gridKnown k (setTask u k)

/-! ## Classes and their backlog (R58, R60, R370) -/

def threadsOf (k : Task) : Nat := k.tx * k.ty * k.tz

/-- The cohort numbers of a team (R46). -/
def cohortsOf (k : Task) (idx : Nat) : List (Nat × Bool) := (k.cohorts.filter fun l => l.2.contains idx).map fun l => (l.1, false)

/-- A team that has not been placed yet. -/
def newTeam (k : Task) (uid idx core since : Nat) : Team :=
  { uid := uid, task := k.id, ctx := k.ctx, idx := idx, core := core, place := .undispatched, placed := false, scr := k.scr, bare := true, count := ceilDiv (threadsOf k) 32, cohorts := cohortsOf k idx, since := since }

/-- A team in the dispatch order: queue, task, index. -/
def orderLt (a b : Nat × Nat × Nat) : Bool :=
  decide (a.1 < b.1) || (a.1 == b.1 && (decide (a.2.1 < b.2.1) || (a.2.1 == b.2.1 && decide (a.2.2 < b.2.2))))

def teamOrder (s : State) (t : Team) : Nat × Nat × Nat := ((taskOf s t.task).q, t.task, t.idx)

/-- Dispatchable tasks of a die with a team left. -/
def openTasks (s : State) (die : Nat) : List Task := s.tasks.filter fun k => k.stage == .running && decide (k.next < gridSize k) && k.q / 64 == die

/-- Teams that wait undispatched at a die after a migration. -/
def waitingTeams (s : State) (die : Nat) : List Team := s.teams.filter fun t => t.place == .undispatched && dieOf t.core == die

/-- The class that a die has in force for a task: that of its queue as the die's last visit choice found it (R362, log entry 128). -/
def taskClass (s : State) (die : Nat) (k : Task) : Nat := (get0 s.classIn (512 * die + k.q)).toNat

/-- A die takes the classes of the queues as their registers have them. -/
def takeClasses (die : Nat) (s : State) : State :=
  let others := tfilter (fun k => k / 512 != die) s.classIn
  { s with classIn := (s.sysregs.filter (·.1 / 65536 == 0x043)).foldl (fun t e => set0 t (512 * die + e.1 % 65536) (BitVec.ofNat 8 (field e.2.toNat 55 52))) others }

/-- The head team on a die of the tasks that p picks (R370); its uid is 0 while it is still only an index of its task. -/
def headOf (s : State) (die : Nat) (p : Task → Bool) : Option Team :=
  let new := ((openTasks s die).filter p).map fun k => newTeam k 0 k.next (512 * die) k.since
  let old := (waitingTeams s die).filter fun t => p (taskOf s t.task)
  (new ++ old).foldl (fun m t => match m with
    | none => some t
    | some x => if orderLt (teamOrder s t) (teamOrder s x) then some t else some x) none

/-- The head team of a class on a die. -/
def headTeam (s : State) (die cls : Nat) : Option Team := headOf s die fun k => taskClass s die k == cls

def fcwKey (die cls : Nat) : Nat := 16 * die + cls
/-- A class's credit (R60). -/
def credit (s : State) (die cls : Nat) : Int := intOf true 16 (regField s 0x030 (fcwKey die cls) 23 8)
def setCredit (die cls : Nat) (x : Int) (s : State) : State :=
  regSet s 0x030 (fcwKey die cls) (putField (regGet s 0x030 (fcwKey die cls)) 23 8 (BitVec.ofInt 16 x).toNat)
def weight (s : State) (die cls : Nat) : Nat := regField s 0x030 (fcwKey die cls) 7 0

/-- Classes of a die with an undispatched team. -/
def backlogged (s : State) (die : Nat) : List Nat := (List.range 16).filter fun c => (headTeam s die c).isSome

/-- Classes without backlog have no credit, and a visit to one ends (R58): the model sees to it before a class can have backlog again, and shows no credit
meanwhile. -/
def idleCredits (die : Nat) (s : State) : State :=
  let b := backlogged s die
  let s := { s with visits := s.visits.filter fun v => v.die != die || b.contains v.cls }
  (List.range 16).foldl (fun s c => if b.contains c then s else setCredit die c 0 s) s

/-! ## The residency lease (R286) -/

/-- The leaves of the pages of a task's ranges: none for a page no valid leaf maps. -/
def rangeLeaves (s : State) (k : Task) : List (Nat × Option (Nat × Nat)) :=
  k.ranges.flatMap fun r => (List.range (r.len / 65536)).map fun i =>
    let va := r.base + 65536 * i
    (va, if canonical (BitVec.ofNat 64 va) then (walk s k.ctx va).1.toOption else none)

/-- The class in force of a leaf's page, in a frame or in storage (R261, R267). -/
def pageCls (s : State) (e : Nat) : Nat := if inStorage e then storedCls s (field e 51 16) e else frameCls s e

/-- Its device-managed pages, each once: base, entry, size. -/
def rangePages (s : State) (k : Task) : List (Nat × Nat × Nat) :=
  (rangeLeaves s k).foldl (fun l x => match x.2 with
    | some (e, z) => let b := x.1 / z * z
      if pteDm e && !(l.any fun y => y.1 == b) then l ++ [(b, e, z)] else l
    | none => l) []

/-- Raw storage of tiers 0 and 1 of the package. -/
def nearRaw (s : State) : Nat := ((List.range 8).map fun d => capRaw s 0 d + if Config.moduleForm then capRaw s 1 d else 0).sum

/-- Raw storage of tiers 0 and 1 that other leases, windows and pools hold, outside these pages. -/
def heldRaw (s : State) (k : Task) (pages : List (Nat × Nat × Nat)) : Nat :=
  ((s.frames.filter fun f => decide (f.tier < 2) && !demotable s f && !(f.ctx == k.ctx && pages.any fun p => p.1 == f.va)).map fun f => rawOf f.size f.cls).sum

/-- RESIDENCY_LEASE_GRANT: mapping, floor and space are checked; promotions become due; once every page is resident, the task is
dispatchable (steps 5 and 6 of R367). -/
def execResidencyLeaseGrant (s : State) : Out :=
  match s.tasks.find? (·.id == s.obj.1) with
  | none => .next s
  | some k =>
    if k.stage != .lease then .next s
    else if k.failed then .next (endLaunch k 11 s)
    else
      let pages := rangePages s k
      let far := pages.filter fun p => decide (2 ≤ pteTier p.2.1)
      if !k.lease then
        let leaves := rangeLeaves s k
        if leaves.any (fun x => x.2.isNone) then .next (endLaunch k 5 s)
        else if leaves.any fun x => match x.2 with | some (e, _) => decide (k.floorC < pageCls s e) | none => false then .next (endLaunch k 7 s)
        else if (pages.map fun p => rawOf p.2.2 (pageCls s p.2.1)).sum + heldRaw s k pages > nearRaw s then .next (endLaunch k 6 s)
        else later .residencyLeaseGrant (far.foldl (fun s p => due .pagePromotion k.ctx s p.1) (setTask s { k with lease := true }))
      else if !far.isEmpty then later .residencyLeaseGrant s
      else
        let s := idleCredits (k.q / 64) (invalidateEdges k s)
        let s := setTask s { k with stage := .running, since := s.clk }
        .next (due .launchRecordStart k.q (due .teamDispatch (k.q / 64) s))

/-! ## Completion (R193, R194, R307, R372) -/

/-- Teams of a task that have not ended, its handler gangs' among them. -/
def teamsLeft (s : State) (k : Nat) : Bool := s.teams.any fun t => t.task == k && t.place != .ended

/-- Operations of a task that are not complete, and late causes not yet counted. -/
def workLeft (s : State) (k : Task) : Bool :=
  let mine := fun (t : Nat) => (teamOf s t).task == k.id
  s.ops.any (fun o => mine ((gangOf s o.gang).getD {}).team) || s.relays.any (fun r => mine r.team) || s.mmas.any (fun m => mine m.team)
    || s.posts.any (fun p => (p.unsent ++ p.sent ++ p.inbox).any fun m => m.task == k.id) || !k.orphans.isEmpty

/-- Dirty BULK copies of a task's context in the clusters where its teams ran. -/
def dirtyOf (s : State) (k : Task) : List Copy :=
  s.copies.filter fun c => !c.remote && c.bulk && c.ctx == k.ctx && k.clusters.contains c.holder && !c.dirty.isEmpty

/-- The write-backs of R193: the state and the number discarded; none where a line must be waited for. -/
def taskWriteBacks (k : Task) (s : State) : Option (State × Nat) :=
  let lost := fun (c : Copy) => c.quarantined || refusedWb s (c.holder * 4) c
  let cs := dirtyOf s k
  let go := cs.filter fun c => !lost c
  if go.any fun c => lineOwned s c.line || sliceOf s c.dom c.line != homeOf s c.dom c.line then none
  else
    let gone := cs.filter lost
    let s := go.foldl (fun s c => writeBackCopy c s) s
    let s := gone.foldl (fun s c => dropCopy c.holder c.ctx c.line s) s
    let held := s.refused.filter fun r => r.copy.ctx == k.ctx && k.clusters.contains (clusterOf r.core)
    some ({ s with refused := s.refused.filter fun r => !(r.copy.ctx == k.ctx && k.clusters.contains (clusterOf r.core)) }, gone.length + held.length)

/-- dw1 to dw7, and dw0, of a completion record. -/
def completionBytes (k : Task) (status nwbd tend : Nat) : List Byte × List Byte :=
  let h := if status = 9 then k.hdr else {}
  ((([k.taskid, BitVec.ofNat 64 tend, BitVec.ofNat 64 k.placedN, h.dw0, h.dw1, h.dw2, h.dw3] : List DWord).flatMap fun d => leBytes 8 d.toNat),
   leBytes 8 (2 ^ 63 + k.orph % 256 * 2 ^ 48 + (if status = 9 then k.cause % 256 else 0) * 2 ^ 40 + status % 256 * 2 ^ 32 + nwbd % 2 ^ 32))

/-- What is left of a task is taken away. -/
def removeTask (k : Nat) (s : State) : State :=
  let mine := fun (t : Nat) => (teamOf s t).task == k
  { s with g := if mine s.g.team then {} else s.g, gangs := s.gangs.filter (fun x => !mine x.team)
           laterals := s.laterals.filter fun l => !mine l.pub && !mine l.sub, cohorts := s.cohorts.filter (·.task != k)
           teams := s.teams.filter (·.task != k), tasks := s.tasks.filter (·.id != k) }

/-- TASK_COMPLETION: with its last team ended and every operation of it complete, a task's write-backs are made, its completion record
is written, dw0 last, its lease ends and its record may retire. Its floor is the largest `gts` its gangs hold then (R187); a late cause counted
makes the status of a task that would be OK TASK_FAULT (R307). -/
def execTaskCompletion (s : State) : Out :=
  match s.tasks.find? (·.id == s.obj.1) with
  | none => .next s
  | some k =>
    let done := k.stage == .ended || (k.stage == .running && decide (gridSize k ≤ k.next))
    if !done || teamsLeft s k.id then .next s
    else if workLeft s k then later .taskCompletion s
    else match taskWriteBacks k s with
      | none => later .taskCompletion s
      | some (u, n) =>
        let c := ctxOf u k.ctx
        let last := (allGangs u).foldl (fun m x => if (teamOf u x.team).task = k.id then max m x.gts else m) k.floor
        let floor := max c.floor last
        let k := if k.status = 0 ∧ n = 0 ∧ k.orph ≠ 0 then { k with status := 9, cause := k.oCause, hdr := k.oHdr } else k
        let status := if k.status = 0 ∧ n ≠ 0 then 10 else k.status
        let b := completionBytes k status n floor
        let g := max floor k.startT
        match workStore k.ctx (k.cmpa.toNat + 8) b.1 g (setCtx u { c with floor := floor }) with
        | none => laterFor .taskCompletion k.ctx [k.cmpa.toNat] s
        | some (u, _) => match workStore k.ctx k.cmpa.toNat b.2 g u with
          | none => later .taskCompletion s
          | some (u, _) =>
            let u := if k.msix.getLsbD 15 then sendMsix (k.msix.toNat % 2048) u else u
            .next (retire k.q k.recId (removeTask k.id u))

/-! ## `launch` (R355, R365) -/

/-- What `launch` does at the headworks: the status, and the record appended where it is 0. -/
def appendRecord (q : Nat) (bytes : List Byte) (floor : Nat) (s : State) : State × Nat :=
  if !qOn s q then (s, 2)
  else if ahead (qTail s q) (qHead s q) ≥ qSlots s q then (s, 1)
  else
    let n := qTail s q
    let s := writeHost (qSlot s q n) bytes s
    let s := writeHost (regGet s 0x041 q).toNat (leBytes 8 ((n + 1) % 2 ^ 32)) s
    (takeRecord { q := q, n := n, bytes := writeBytes [] 0 bytes, floor := floor } (setQst q (n + 1) (qHead s q) s), 0)

end Sys2Proof.Machine
end

