-- ==== Sys2Proof/Machine/Headworks.lean ====
section
/-! DEFINITION. Team dispatch (R57–R60, R383), migration (R62–R65), shadow banks: fill, swap and spill (R316–R321). -/

namespace Sys2Proof.Machine

/-! ## Putting a team on a core (R36, R44, R48, R354) -/

/-- Gangs of a team that stand somewhere. -/
def teamGangs (s : State) (t : Team) : List Gang := (allGangs s).filter fun g => g.gid != 0 && g.team == t.uid && g.place != .ended

/-- A quarter for gang 0 of a team in a bank of a core; none where it does not fit. A handler gang takes one of the reserved slots. -/
def bankRoom (s : State) (core : Nat) (p : Place) (t : Team) : Option Nat :=
  let k := taskOf s t.task
  let old := teamGangs s t
  if t.msgr then
    (List.range 4).find? fun q => !((allGangs s).any fun g => g.place == p && g.quarter == q && (let u := teamOf s g.team; u.core == core && u.msgr))
  else chooseQuarter s core p (if old.isEmpty then List.range (ceilDiv (threadsOf k) 32) else old.map (·.num)) (if old.isEmpty then k.regs else (old.map (·.regs)).headD 8)

/-- Gangs of a new team, gang 0 in quarter q0, each with the context's floor and the task's as its time (R36, R187). -/
def makeGangs (k : Task) (uid q0 : Nat) (p : Place) (s : State) : State :=
  let n := ceilDiv (threadsOf k) 32
  let gts := max (ctxOf s k.ctx).floor k.startT
  let make := fun i =>
    let live := maskOf fun l => decide (32 * i + l < threadsOf k)
    { loadArgs k.args (newGang (s.nextId + i) uid i k.regs ((i + q0) % 4) gts s.clk live k.entry) with place := p }
  addGangs ((List.range n).map make) { s with nextId := s.nextId + n }

/-- A team goes to a bank of a core: a new one finds its scratch as R44 says, once it holds space there, a saved one as it was saved, its gangs pending
and aged by their arrival (R49). A task that starts on the core by it drops the core's instruction cache (R67). -/
def putTeam (t : Team) (core q0 : Nat) (p : Place) (placed : Bool) (s : State) : State :=
  let k := taskOf s t.task
  let fresh := (teamGangs s t).isEmpty
  let s := if p == .running then taskStarts t.task core s else s
  let t' := { t with core := core, place := p, placed := placed, begun := true, reserved := t.reserved && p != .running }
  let s := if s.teams.any (·.uid == t.uid) then setTeam s t' else { s with teams := s.teams ++ [t'] }
  let s := if placed then placeSpace t.uid s else s
  let k := taskOf s k.id
  let s := setTask s { k with clusters := insertNat (clusterOf core) k.clusters }
  let s := { s with fresh := s.fresh + 1 }
  if fresh then makeGangs k t.uid q0 p s
  else onGangs s (fun g => g.team == t.uid && g.place != .ended) fun g =>
    { g with place := p, quarter := (g.num + q0) % 4, age := s.clk, active := false }

/-- One more team of a task has been dispatched; with the last its record may retire (R364). -/
def countTeam (k : Nat) (s : State) : State :=
  let x := taskOf s k
  let s := setTask s { x with placedN := x.placedN + 1 }
  if x.placedN + 1 = gridSize x then retire x.q x.recId s else s

/-! ## Dispatch (R57–R60, R370, R383) -/

/-- A context whose energy budget is spent (R383). -/
def energyBlocked (s : State) (ctx : Nat) : Bool := regGet s 0x084 ctx != 0 && decide ((regGet s 0x084 ctx).toNat ≤ (regGet s 0x083 ctx).toNat)

/-- Whether a core can take a team in its running bank (R57, R354). -/
def coreTakes (s : State) (core : Nat) (t : Team) : Bool :=
  (match runs s core with
    | some c => c == t.ctx
    | none => (coreTeams s core).isEmpty) && (bankRoom s core .running t).isSome && spaceFits s core t && lateralsFit s core t.uid

/-- The core of a die with the most free slots among those that can take the team, the lowest of several. -/
def chooseCore (s : State) (die : Nat) (t : Team) : Option Nat :=
  ((List.range 512).map (512 * die + ·)).foldl (fun m c =>
    if !coreTakes s c t then m
    else match m with
      | none => some c
      | some x => if freeSlots s x .running < freeSlots s c .running then some c else some x) none

/-- The team becomes an object of its own: its task's next index is taken. -/
def drawTeam (t : Team) (s : State) : Team × State :=
  if t.uid ≠ 0 then (t, s)
  else
    let (id, s) := newId s
    let k := taskOf s t.task
    ({ t with uid := id }, setTask s { k with next := k.next + 1 })

/-- A head team is dispatched onto a core. -/
def dispatch (t : Team) (core : Nat) (s : State) : State :=
  let (t, s) := drawTeam t s
  let restored := !(teamGangs s t).isEmpty
  let s := setRuns core (some t.ctx) (putTeam t core ((bankRoom s core .running t).getD 0) .running true s)
  if restored then s else countTeam t.task s

/-- The choice of a visit: the queues' classes come into force (R362), credits grow, the largest is visited and pays the sum of the weights (R58). -/
def chooseVisit (die : Nat) (s : State) : State :=
  let s := idleCredits die (takeClasses die s)
  let b := backlogged s die
  let total := (b.map (weight s die)).sum
  let s := b.foldl (fun s c => setCredit die c (credit s die c + weight s die c) s) s
  match (b.filter fun c => weight s die c != 0).foldl (fun (m : Option Nat) c => match m with
      | none => some c
      | some x => if credit s die x < credit s die c then some c else some x) none with
  | none => s
  | some c => { setCredit die c (credit s die c - total) s with visits := ⟨die, c, regField s 0x031 die 6 0⟩ :: s.visits.filter (·.die != die) }

def endVisit (die : Nat) (s : State) : State := { s with visits := s.visits.filter (·.die != die) }

/-- Whether batches in flight are bound for a team: its restoring waits for them (R277). -/
def batchesBound (s : State) (team : Nat) : Bool := s.laterals.any fun l => !l.closed.isEmpty && l.sub == team

/-- TEAM_DISPATCH: one team-dispatch slot of a die. A visit ends with its last team, when nothing of its class can be placed, and when its class ceases
to be backlogged (R58). -/
def execTeamDispatch (s : State) : Out :=
  let die := s.obj.1
  let s := idleCredits die s
  if (backlogged s die).isEmpty then .next (endVisit die s)
  else
    let s := if s.visits.any (·.die == die) then s else chooseVisit die s
    match s.visits.find? (·.die == die) with
    | none => later .teamDispatch s
    | some v => match headTeam s die v.cls with
      | none => later .teamDispatch (endVisit die s)
      | some t =>
        if !(teamGangs s t).isEmpty && batchesBound s t.uid then later .teamDispatch s
        else if energyBlocked s t.ctx then later .teamDispatch (endVisit die s)
        else match chooseCore s die t with
          | none => later .teamDispatch (endVisit die s)
          | some core =>
            let s := dispatch t core s
            let s := if v.left ≤ 1 then endVisit die s
              else { s with visits := s.visits.map fun x => if x.die == die then { x with left := v.left - 1 } else x }
            later .teamDispatch (idleCredits die s)

/-! ## Migration (R62–R65) -/

/-- Cores of a die that run no context, hold no team and have an EMPTY shadow bank. -/
def freeCores (s : State) (die : Nat) : Nat :=
  (List.range 512).countP fun i => (runs s (512 * die + i)).isNone && sbsState s (512 * die + i) == 0 &&
    !(s.teams.any fun t => t.core == 512 * die + i && (t.place == .running || t.place == .shadow))

/-- MIGRATION_ADVERTISE: a die advertises its free team capacity. -/
def execMigrationAdvertise (s : State) : Out :=
  let die := s.obj.1
  if die ≥ 8 then .next s
  else
    let n := freeCores s die
    .next { regSet s 0x032 die (putField (regGet s 0x032 die) 23 16 (min 255 n)) with adv := set0 s.adv die (BitVec.ofNat 64 n) }

/-- Teams a die may offer: undispatched, or suspended with their state saved, long enough; one whose matrix operations have not all completed is not
(R244). -/
def offerable (s : State) (die : Nat) : List Team :=
  let wait := 1000 * regField s 0x032 die 15 0
  let new := (openTasks s die).map fun k => newTeam k 0 k.next (512 * die) k.since
  let old := s.teams.filter fun t => dieOf t.core == die && (t.place == .undispatched || (t.place == .saved && !s.mmas.any (·.team == t.uid)))
  (new ++ old).filter fun t => decide (t.since + wait ≤ s.clk)

/-- The die with the largest advertised capacity, the lowest of several; none while none has any. -/
def offerTarget (s : State) (die : Nat) : Option Nat :=
  ((List.range 8).filter fun d => d != die && get0 s.adv d != 0).foldl (fun m d => match m with
    | none => some d
    | some x => if get0 s.adv x < get0 s.adv d then some d else some x) none

/-- Every update published to the team is applied to its image before that is sent (R63). -/
def settleLaterals (team : Nat) (s : State) : Option State :=
  let s := (s.laterals.filter (·.sub == team)).foldl (fun s l => closeBatch l s) s
  (s.laterals.filter (·.sub == team)).foldlM flushEntry s

/-- MIGRATION_OFFER: a die offers the team that has waited longest, at most one per receiving die and µs, and sends it. -/
def execMigrationOffer (s : State) : Out :=
  let die := s.obj.1
  if !(regGet s 0x032 die).getLsbD 31 then .next s
  else
    let first := (offerable s die).foldl (fun (m : Option Team) t => match m with
      | none => some t
      | some x => if t.since < x.since then some t else some x) none
    match first, offerTarget s die with
    | some t, some d =>
      let last := (get0 s.offers (8 * die + d)).toNat
      if last ≠ 0 ∧ s.clk + 1 < last + 1000 then .next s
      else
        let (t, s) := drawTeam t s
        match settleLaterals t.uid s with
        | none => .next s
        | some s =>
          let t := { (s.teams.find? (·.uid == t.uid)).getD t with place := .moving, core := 512 * d, placed := false }
          let s := if s.teams.any (·.uid == t.uid) then setTeam s t else { s with teams := s.teams ++ [t] }
          .next (due .migrationArrival t.uid { idleCredits die s with offers := set0 s.offers (8 * die + d) (BitVec.ofNat 64 (s.clk + 1)) })
    | _, _ => .next s

/-- MIGRATION_ARRIVAL: the receiving die holds the team as undispatched work, in its class and queue position. -/
def execMigrationArrival (s : State) : Out :=
  match s.teams.find? (·.uid == s.obj.1) with
  | none => .next s
  | some t =>
    if t.place != .moving then .next s
    else .next (due .teamDispatch (dieOf t.core) (setTeam (idleCredits (dieOf t.core) s) { t with place := .undispatched, since := s.clk }))

/-! ## Shadow banks (R316–R321) -/

/-- Teams in a core's shadow bank. -/
def shadowTeams (s : State) (core : Nat) : List Team := s.teams.filter fun t => t.core == core && t.place == .shadow

/-- The reservation of a saved team in its context's save area (R320). -/
def reservation (s : State) (t : Team) : Nat :=
  let gs := teamGangs s t
  ceilDiv (8192 + (gs.map fun g => 4096 + 128 * g.regs).sum + t.scr + 4096 * raceUnits t) 65536 * 65536

/-- Teams of a context that hold a reservation: from the beginning of their saving until they are restored or end. -/
def reserving (s : State) (ctx : Nat) : List Team := s.teams.filter fun t => t.ctx == ctx && t.reserved && t.place != .ended

/-- Whether the outgoing teams of a core fit in their context's save area (status 3 of R320). -/
def saveFits (s : State) (core ctx : Nat) : Bool :=
  let len := 65536 * (regGet s 0x016 ctx).toNat
  len != 0 && (ctxOf s ctx).key && decide ((((reserving s ctx) ++ coreTeams s core).map (reservation s)).sum ≤ len)

/-- A swap: late causes already pending at the outgoing gangs' boundaries are taken first (R319); the banks exchange roles; the outgoing context spills, its
publishers' open batches close (R277, R316, R317); a task of the incoming context that starts by it drops the instruction cache (R67). -/
def swap (core : Nat) (s : State) : State :=
  let me := s.g.gid
  let s := (coreTeams s core).foldl (fun s t => (gangsOf s t.uid).foldl (fun s g =>
    match nextPending g with
    | some r => if atRest g then takePending g.gid r s else s
    | none => s) s) s
  let s := switchTo s me
  let out := coreTeams s core
  let inn := shadowTeams s core
  let now := runs s core
  let s := out.foldl (fun s t => setTeam (closeTeam t.uid s) { teamOf (closeTeam t.uid s) t.uid with place := .shadow, reserved := true }) s
  let s := inn.foldl (fun s t => setTeam (taskStarts t.task core s) { t with place := .running, reserved := false }) s
  let s := onGangs s (fun g => g.place != .ended && out.any (·.uid == g.team)) fun g => { g with place := .shadow, active := false }
  let s := onGangs s (fun g => g.place != .ended && inn.any (·.uid == g.team)) fun g =>
    { g with place := .running, active := false, age := s.clk, issueAt := s.clk + 66 }
  let s := setRuns core (inn.head?.map (·.ctx)) s
  let s := setSbs core 49 44 (now.getD 0) (setSbs core 36 34 3 (setSbs core 33 33 0 s))
  let s := setSbs core 31 0 (regField s 0x022 core 31 0 + 1) s
  let s := inn.foldl (fun s t => if t.placed then s else due .deferredTeamPlacement t.uid s) s
  due .spillComplete core s

/-- The status of `ctx.save` of a core (R320); where it is 0, the swap is taken. -/
def saveStatus (s : State) (core : Nat) : Nat :=
  match runs s core with
  | none => 1
  | some ctx =>
    let st := sbsState s core
    if st = 1 ∨ st = 3 then 2 else if !saveFits s core ctx then 3 else 0

/-- A gang that something outstanding still holds from being spilled: its own operations and replies (R319). -/
def spillBusy (s : State) (g : Gang) : Bool :=
  !(opsOf s g.gid).isEmpty || (match g.wait with
    | .reply _ => g.wake.isNone
    | _ => false)

/-- A team whose parts an engine has yet to read or write, whether or not a gang of it is left: matrix operations that read its headraces, and relays that
write its scratch, registers or headraces (R162, R244). -/
def partsBusy (s : State) (t : Team) : Bool :=
  s.mmas.any (fun m => m.team == t.uid && !m.computed) || s.relays.any fun r => r.team == t.uid && match slotOf s r.ctx r.dst with
    | some d => d.res != 0
    | none => false

/-- SPILL_COMPLETE: the last gang of the outgoing context is in its save area; its teams are suspended and their space is free. Batches that relay sectors
have opened since the swap close first (R277). -/
def execSpillComplete (s : State) : Out :=
  let core := s.obj.1
  if sbsState s core ≠ 3 then .next s
  else
    let out := shadowTeams s core
    if (allGangs s).any (fun g => g.place == .shadow && out.any (·.uid == g.team) && spillBusy s g) || out.any (partsBusy s) then later .spillComplete s
    else
      let s := out.foldl (fun s t =>
        let s := leaveSpace t (closeTeam t.uid s)
        setTeam s { t with place := .saved, placed := false, units := [], since := s.clk, races := t.races.map fun r => { r with units := [] } }) s
      let s := onGangs s (fun g => g.place == .shadow && out.any (·.uid == g.team)) fun g => { g with place := .saved }
      .next (setSbs core 49 44 0 (setSbs core 36 34 0 s))

/-- Teams a fill may take, in its order: suspended ones of the core's die, oldest first, then undispatched ones (R321). -/
def fillList (s : State) (core ctx : Nat) : List Team :=
  let d := dieOf core
  let saved := s.teams.filter fun t => t.ctx == ctx && t.place == .saved && dieOf t.core == d
  let sorted := saved.foldl (fun l t => (l.takeWhile fun x => decide (x.since ≤ t.since)) ++ t :: (l.dropWhile fun x => decide (x.since ≤ t.since))) []
  let moved := (waitingTeams s d).filter (·.ctx == ctx)
  let new := ((openTasks s d).filter (·.ctx == ctx)).flatMap fun k => (List.range (min 128 (gridSize k - k.next))).map fun i => newTeam k 0 (k.next + i) (512 * d) k.since
  let before := fun (t x : Team) => orderLt (teamOrder s x) (teamOrder s t)
  sorted ++ (moved ++ new).foldl (fun l t => (l.takeWhile (before t)) ++ t :: (l.dropWhile (before t))) []

/-- One team joins the shadow bank where it fits (R48, R354); the count of those that did. -/
def fillOne (core : Nat) (a : State × Nat) (t : Team) : State × Nat :=
  let s := a.1
  match bankRoom s core .shadow t with
  | none => a
  | some q0 =>
    if !lateralsFit s core t.uid then a
    else
      let (t, s) := drawTeam t s
      let restored := !(teamGangs s t).isEmpty
      let s := putTeam t core q0 .shadow (spaceFits s core t) s
      (if restored then s else countTeam t.task s, a.2 + 1)

/-- `ctx.load` of a core: the status, and the fill begun where it is 0 (R321). -/
def loadCore (core ctx : Nat) (sw : Bool) (s : State) : State × Nat :=
  if sbsState s core ≠ 0 then (s, 1)
  else if !s.ctxs.any (·.id == ctx) then (s, 3)
  else
    let s := setSbs core 36 34 1 s
    let (u, n) := (fillList s core ctx).foldl (fillOne core) (s, 0)
    if n = 0 then (setSbs core 36 34 0 s, 2)
    else (due .fillComplete core (setSbs core 33 33 (if sw then 1 else 0) (setSbs core 49 44 ctx (idleCredits (dieOf core) u))), 0)

/-- FILL_COMPLETE: once no batch in flight is bound for a restored team (R277) the shadow bank is FULL; a swap on fill follows where the outgoing context's save area has room. -/
def execFillComplete (s : State) : Out :=
  let core := s.obj.1
  if sbsState s core ≠ 1 then .next s
  else
    if (shadowTeams s core).any fun t => batchesBound s t.uid then later .fillComplete s
    else
    let s := (shadowTeams s core).foldl (fun s t => if !t.placed && spaceFits s core t then placeSpace t.uid (setTeam s { t with placed := true, reserved := false })
      else setTeam s { t with reserved := false }) s
    let s := setSbs core 36 34 2 s
    if !(regGet s 0x022 core).getLsbD 33 then .next s
    else match runs s core with
      | none => .next (swap core s)
      | some ctx => .next (if saveFits s core ctx then swap core s else setSbs core 33 33 0 s)

/-- DEFERRED_TEAM_PLACEMENT: a team of the running bank whose scratch and headraces fit now holds their space. -/
def execDeferredTeamPlacement (s : State) : Out :=
  match s.teams.find? (·.uid == s.obj.1) with
  | none => .next s
  | some t =>
    if t.placed || t.place != .running then .next s
    else if spaceFits s t.core t then .next (placeSpace t.uid (setTeam s { t with placed := true })) else later .deferredTeamPlacement s

end Sys2Proof.Machine
end

