-- ==== Sys2Proof/Machine/Sys.lean ====
section
/-! DEFINITION. The SYS class (R308–R325, R355): system registers and what a write of each does (R311–R315 and the register maps),
translation invalidation (R284), remote ways (R20, R21), the reshape (R293, R294), banks (R16, R17, R322), keys (R323, R324). -/

namespace Sys2Proof.Machine

/-- A gang of a context created with the supervisor flag (R311). -/
def supervisor (s : State) : Bool := (myCtx s).sup

/-- The state a meaning leaves. -/
def settled (s : State) : Out → State
  | .next t => t
  | _ => s

/-! ## Remote ways (R20, R21) -/

/-- Lines homed on a slice that stand in ways which RWR reserves now. -/
def inReserved (s : State) (slice : Nat) : List ScLine := s.sc.filter fun x => x.slice == slice && decide (localWays s slice ≤ x.way)

/-- A line that a window holds leaves the reserved ways for a lower one of its set, where another line gives way to it (R21, R227). -/
def lowerWay (x : ScLine) (s : State) : State :=
  let set := s.sc.filter fun y => y.slice == x.slice && y.line != x.line && decide (y.way < localWays s x.slice) && sameSet y.line x.line
  let move := fun (w : Nat) (s : State) => { s with sc := modFirst (·.line == x.line) (fun y => { y with way := w }) s.sc }
  match (List.range (localWays s x.slice)).find? fun w => !set.any (·.way == w) with
  | some w => move w s
  | none => match set.find? fun y => !pinned s y && !lineOwned s y.line with
    | some y => move y.way (leaveSlice y.line s)
    | none => s

/-- The local lines of newly reserved ways are written back and invalidated; one that an engine owns is left for later (R21, R196). -/
def sweepWays (slice : Nat) (s : State) : State :=
  (inReserved s slice).foldl (fun s x => if pinned s x then lowerWay x s else if lineOwned s x.line then s else leaveSlice x.line s) s

/-- RWR_WRITE: RESV changes unless the value is out of range or a change is in progress. Copies in released ways are dropped, local lines in newly
reserved ways are written back and invalidated; BUSY until the last affected line has been handled (R21). -/
def execRwrWrite (slice : Nat) (val : Word) (s : State) : Out :=
  let old := regGet s 0x021 slice
  let n := field val.toNat 3 0
  if old.getLsbD 31 || decide (8 < n) then .next s
  else
    let s := { s with copies := s.copies.filter fun c => !(c.remote && c.holder == slice && decide (c.slot < 16 - n)) }
    .next (due .rwrChangeComplete slice (sweepWays slice (regSet s 0x021 slice (BitVec.ofNat 64 (2 ^ 31 + n)))))

/-- RWR_CHANGE_COMPLETE: what is left in the newly reserved ways is handled; with the last line BUSY clears. -/
def execRwrChangeComplete (s : State) : Out :=
  let s := sweepWays s.obj.1 s
  if !(inReserved s s.obj.1).isEmpty then later .rwrChangeComplete s
  else .next (regSet s 0x021 s.obj.1 (putField (regGet s 0x021 s.obj.1) 31 31 0))

/-! ## Translation invalidation (R283, R284) -/

/-- TLB_WALK: a core's walker fills the TLB for a page. Object: 64·core + context, address. -/
def execTlbWalk (s : State) : Out := .next (fillPage (s.obj.1 / 64) (s.obj.1 % 64) s.obj.2 0 s)

/-- Whether an invalidation covers part of a page. -/
def tinvCovers (v : Nat) (ctx va size : Nat) : Bool :=
  field v 15 10 == ctx && (v.testBit 9 || !disjoint (v / 65536 * 65536) (65536 * (field v 8 0 + 1)) va size)

/-- TINV_WRITE: the range's TLB entries go; BUSY until nothing translated through them is under way. -/
def execTinvWrite (val : DWord) (s : State) : Out :=
  if (regGet s 0x039 0).getLsbD 0 then .next s
  else
    let s := { s with tlb := s.tlb.filter fun t => !tinvCovers val.toNat t.ctx t.va t.size }
    .next (due .tinvComplete 0 (regSet (regSet s 0x038 0 val) 0x039 0 1))

/-- Memory that a relay moves from and to, with its row table and its scale bytes: addresses and lengths. -/
def relayMemory (s : State) (r : Relay) : List (Nat × Nat) :=
  let rest := fun (d : Slot) => (if r.kind == .gx && !r.tscr then [(r.tbl.toNat, 4 * d.ext.getD (d.rank - 1) 0)] else []) ++
    if r.scl then [(r.scla.toNat, ceilDiv (2 ^ d.n) 32)] else []
  ((lockedSpans s r).filter (·.res == 0)).map (fun p => (p.lo, p.len)) ++ ((slotOf s r.ctx r.dst).map rest).getD []

/-- The rows of the tile that a matrix operation adds to: addresses and lengths. -/
def tileMemory (m : MmaOp) : List (Nat × Nat) :=
  (List.range m.tile.1).map fun i => (m.p.caddr.toNat + i * m.p.ldc, m.tile.2.1 * accSize m.p.act)

/-- Whether an access that a range of TINV covers is under way: an operation's, a write-back's that a fence waits for, a contribution's, an
`acc.init`'s, a relay's, or a matrix operation's (R284). -/
def tinvPending (v : Nat) (s : State) : Bool :=
  s.ops.any (fun o => if o.kind == .fence then o.lines.any fun r => !r.granted && tinvCovers v o.ctx (128 * r.va) 128
      else o.lanes.any fun l => tinvCovers v o.ctx l.va.toNat l.size)
    || s.contribs.any (fun q => !q.arrived && q.elems.any fun e => tinvCovers v q.ctx e.va.toNat (q.width / 8))
    || s.merges.any (fun m => !m.isOpen && m.lines.any fun r => tinvCovers v m.ctx (128 * r.va) 128)
    || s.relays.any (fun r => (relayMemory s r).any fun p => tinvCovers v r.ctx p.1 p.2)
    || s.mmas.any fun m => !m.computed && (tileMemory m).any fun p => tinvCovers v (teamOf s m.team).ctx p.1 p.2

/-- TINV_COMPLETE: every access translated through an old entry has been performed or refused; BUSY clears. -/
def execTinvComplete (s : State) : Out :=
  let v := (regGet s 0x038 0).toNat
  if !(regGet s 0x039 0).getLsbD 0 then .next s
  else if tinvPending v s then later .tinvComplete s
  else .next (regSet s 0x039 0 0)

/-! ## The reshape (R293, R294) -/

/-- The staged copy of an interleave register. -/
def stagedGet (s : State) (num inst : Nat) : DWord := tget (tget regReset s.sysregs) s.staged (regKey num inst)
def stagedSet (num inst : Nat) (v : DWord) (s : State) : State := { s with staged := tset (tget regReset s.sysregs) s.staged (regKey num inst) v }

/-- Whether a valid leaf under a table names one of some domains. -/
def tableNames (s : State) (ds : List Nat) : Nat → Nat → Bool
  | level, table => (List.range (if level = 0 then 32 else 512)).any fun i =>
    let e := leNat (homeBytes s (table + 8 * i) 8)
    pteV e && if pteLeaf e then decide (level ≤ 2) && leafOk s e (leafSize level) && ds.contains (pteDom e)
      else match level with
        | 0 => false
        | l + 1 => tableNames s ds l (field e 51 12 * 4096)

/-- Check 1 of R294 on the staged copies. -/
def stagingOk (s : State) : Bool :=
  let v := fun n => (stagedGet s 0x03B n).toNat
  let on := fun n => (v n).testBit 63
  let each := (List.range 64).all fun n => !on n || (field (v n) 8 0 % 2 ^ field (v n) 51 48 == 0 &&
    (!(v n).testBit 62 || (on (field (v n) 61 56) && !(v (field (v n) 61 56)).testBit 62)))
  let lost := (List.range 64).filter fun n => (regGet s 0x03B n).getLsbD 63 && !on n
  each && (lost.isEmpty || !((List.range 64).any fun c => let t := (regGet s 0x010 c).toNat
    t.testBit 63 && tableNames s lost 4 (field t 51 12 * 4096)))

/-- A dirty line of a slice written back where it is. -/
def cleanLine (line : Nat) (s : State) : State :=
  match scOf s line with
  | none => s
  | some x =>
    if x.dirty = 0 then s
    else
      { s with sc := modFirst (·.line == line) (fun x => { x with dirty := 0 }) s.sc, flips := tfilter (fun k => !freshKey x k) s.flips
               lineCode := set0 s.lineCode line (BitVec.ofNat 8 (codeOf x.cls))
               lineKey := if x.dm then set0 s.lineKey line (keyMark s x.ctx) else s.lineKey }

/-- Windows recorded on every die that has become a home for their lines, and their lines brought in there (R227, R294). -/
def repin (s : State) : State :=
  s.ctxs.foldl (fun s c => (dedup (c.pins.map (·.lo))).foldl (fun s lo => dueOnce .pinPromotion c.id lo s) (widenPins c.id s)) s

/-- Whether a monitor stands at a slice that is no longer its line's home. -/
def strayed (s : State) (m : Monitor) : Bool := m.slice != homeOf s m.dom (m.pa / 128)

/-- The reshape is over once every line and monitor stands at its home: BUSY clears, windows are recorded again, and the pins that waited are made (R294, R371). -/
def endReshape (s : State) : State :=
  if (s.sc.any fun x => x.slice != homeOf s x.dom x.line) || s.monitors.any (strayed s) then s
  else (List.range 512).foldl (fun s q => prefetch q s) (repin { regSet s 0x03A 0 (putField (regGet s 0x03A 0) 30 30 0) with mapBefore := [] })

/-- Whether two maps may give a line of a domain two homes. -/
def domainMoves (old new : State) (d : Nat) : Bool :=
  let a := homeDom old d
  let b := homeDom new d
  regGet old idmKey a != regGet new idmKey b || (List.range 9).any fun k => regGet old hmrKey (16 * a + k) != regGet new hmrKey (16 * b + k)

/-- For each line whose home has changed, the memory time of the new home is at least that of the old one (step 4 of R294). The home of a line depends
on its low 23 bits and its domain (R292). -/
def raiseTimes (old s : State) : State :=
  { s with mt := ((List.range 64).filter (domainMoves old s)).foldl (fun t d => (List.range (2 ^ 23)).foldl (fun t l =>
      let a := homeOf old d l
      let b := homeOf s d l
      if a = b then t else set0 t b (BitVec.ofNat 64 (max (get0 t b).toNat (get0 old.mt a).toNat))) t) s.mt }

/-- IRC_RESHAPE: a write to IRC. With GO and sound staging the dirty lines that move are written back, the staged copies become active,
and the hand-offs are due; memory times of new homes grow to those of the old ones (steps 1 to 4). -/
def execIrcReshape (val : Word) (s : State) : Out :=
  if !val.getLsbD 31 || reshaping s then .next s
  else if !stagingOk s then .next (regSet s 0x03A 0 0x10000000)
  else
    let u : State := { s with sysregs := s.staged.foldl (fun t e => tset regReset t e.1 e.2) s.sysregs, staged := [], mapBefore := s.sysregs }
    let moved := (u.sc.filter fun x => x.slice != homeOf u x.dom x.line).map (·.line)
    let watched := dedup (((u.monitors.filter (strayed u)).map (·.pa / 128)).filter fun l => !moved.contains l)
    let u := moved.foldl (fun u l => cleanLine l u) u
    let u := (moved ++ watched).foldl (fun u l => due .reshapeHandoff l u) (regSet (raiseTimes s u) 0x03A 0 0x40000000)
    .next (endReshape u)

/-- A line leaves its old home and stands in its new one, with the times it carries. -/
def handOver (x : ScLine) (h : Nat) (s : State) : State :=
  let s := makeRoom h x.line { s with sc := s.sc.filter (·.line != x.line) }
  let free := (List.range (localWays s h)).filter fun w => !(s.sc.any fun y => y.slice == h && y.way == w && sameSet y.line x.line)
  { s with sc := { x with slice := h, dirty := 0, way := free.getD (Config.wayPick s.fresh x.line % free.length) 0
                          held := windowHas s x.ctx (h / 64) x.va && mayHold s h x.line } :: s.sc, fresh := s.fresh + 1 }

/-- RESHAPE_HANDOFF: a line that no engine and no merge entry owns goes to its new home with its times, where its old one holds it, and its monitors; a
monitor that finds its new slice full polls (step 4). -/
def execReshapeHandoff (s : State) : Out :=
  let line := s.obj.1
  if !reshaping s then .next s
  else if lineOwned s line then later .reshapeHandoff s
  else
    let s := match scOf s line with
      | some x => if x.slice = homeOf s x.dom line then s else handOver x (homeOf s x.dom line) (cleanLine line s)
      | none => s
    .next (endReshape (rehome (fun m => m.pa / 128 == line && strayed s m) s))

/-! ## System registers (R311–R313) -/

/-- Instances of a register number; none for a number that is not assigned. -/
def regInstances (num : Nat) : Option Nat :=
  match num with
  | 0x000 | 0x001 | 0x002 | 0x006 | 0x035 | 0x038 | 0x039 | 0x03A | 0x058 | 0x059 | 0x05A | 0x05B | 0x05C | 0x080 | 0x081 => some 1
  | 0x003 | 0x004 | 0x005 => some 32
  | 0x010 | 0x011 | 0x012 | 0x013 | 0x014 | 0x015 | 0x016 | 0x017 | 0x03B | 0x083 | 0x084 => some 64
  | 0x018 | 0x019 | 0x01A | 0x020 | 0x03C => some 1024
  | 0x021 | 0x040 | 0x041 | 0x042 | 0x043 | 0x044 => some 512
  | 0x022 => some 4096
  | 0x024 | 0x025 | 0x026 => some 2048
  | 0x030 => some 128
  | 0x031 | 0x032 | 0x033 | 0x034 | 0x050 | 0x051 | 0x082 => some 8
  | 0x048 | 0x049 => some 16
  | _ => none

/-- An instance within its register's range; rows of a domain are 0–8. -/
def instanceOk (num inst : Nat) : Bool :=
  match regInstances num with
  | some n => decide (inst < n) && (num != 0x03C || decide (inst % 16 < 9))
  | none => false

/-- Registers of the gang and of its threads. -/
def gangReg (num : Nat) : Bool := decide (1 ≤ num) && decide (num ≤ 6)

/-- The context of a context register. -/
def ctxReg (num inst : Nat) : Option Nat :=
  if 0x010 ≤ num ∧ num ≤ 0x017 then some inst else if 0x018 ≤ num ∧ num ≤ 0x01A then some (inst / 16) else none

/-- What task level may read, and write (R311). -/
def taskReads (s : State) (num inst : Nat) : Bool := num == 0 || gangReg num || ctxReg num inst == some (myTeam s).ctx
def taskWrites (s : State) (num : Nat) : Bool := num == 1 || num == 2 || (decide (3 ≤ num) && decide (num ≤ 5) && s.g.prio)

/-- A read of a register. -/
def sysRead (s : State) (num inst : Nat) : DWord :=
  match num with
  | 0x000 => BitVec.ofNat 64 s.clk
  | 0x001 => s.g.fmode.setWidth 64
  | 0x002 => s.g.fstat.setWidth 64
  | 0x003 => get0 s.g.pc inst
  | 0x004 => get0 s.g.meet inst
  | 0x005 => get0 s.g.lk inst
  | 0x006 => s.g.live.setWidth 64
  | 0x030 =>
    if (headTeam s (inst / 16) (inst % 16)).isSome then putField (regGet s 0x030 inst) 31 31 1
    else putField (putField (regGet s 0x030 inst) 31 31 0) 23 8 0
  | 0x038 => 0
  | _ => regGet s num inst

/-- A register whose bits in a mask are written. -/
def maskWrite (num inst : Nat) (m v : DWord) (s : State) : State := regSet s num inst ((regGet s num inst &&& ~~~m) ||| (v &&& m))

/-- A field written only within a range. -/
def rangeWrite (num inst hi lo least most : Nat) (v : DWord) (s : State) : State :=
  let x := field v.toNat hi lo
  if least ≤ x ∧ x ≤ most then regSet s num inst (putField (regGet s num inst) hi lo x) else s

/-- Watermarks: ignored where HIGH would fall below LOW (R289). -/
def twmWrite (num inst : Nat) (m v : DWord) (s : State) : State := if field v.toNat 19 10 < field v.toNat 9 0 then s else maskWrite num inst m v s

/-- A write of a register of the gang or of one of its threads; a lane that is not live takes none (R312). -/
def gangWrite (num inst : Nat) (v : DWord) (g : Gang) : Gang :=
  let set := fun (t : Table 64) => if g.live.getLsbD inst then set0 t inst v else t
  match num with
  | 0x001 =>
    let rm := field v.toNat 2 0
    { g with fmode := BitVec.ofNat 32 ((if v.getLsbD 3 then 8 else 0) + (if rm = 0 ∨ rm = 7 then g.fmode.toNat % 8 else rm)) }
  | 0x002 => { g with fstat := g.fstat &&& ~~~(v.truncate 32 &&& 0x3F) }
  | 0x003 => { g with pc := set g.pc }
  | 0x004 => { g with meet := set g.meet }
  | 0x005 => { g with lk := set g.lk }
  | _ => g

/-- Shares of dies: each free, at most its cap, their sum at most what is left of the limit (R381). -/
def grantShares (fresh : Nat) : List (Nat × Nat) → Nat → List Nat
  | [], _ => []
  | (d, cap) :: ds, left => let x := Config.diePower fresh d % (min cap left + 1)
    x :: grantShares fresh ds (left - x)

/-- A lower limit lowers the shares at once, so that their sum never exceeds it (R381): none grows. -/
def cutShares (s : State) : State :=
  let limit := regField s 0x080 0 11 0
  if s.shares.sum ≤ limit then s
  else { s with shares := grantShares s.fresh (s.shares.zipIdx.map fun x => (x.2, x.1)) limit, fresh := s.fresh + 1 }

/-- A write of a register (R5, R6 and the register's own map). -/
def sysWrite (num inst : Nat) (v : DWord) (s : State) : State :=
  match num with
  | 0x001 | 0x002 | 0x003 | 0x004 | 0x005 => { s with g := gangWrite num inst v s.g }
  | 0x010 => maskWrite num inst 0x800FFFFFFFFFF000 v s
  | 0x011 => rangeWrite num inst 10 0 1 1024 v s
  | 0x012 => if canonical v then regSet s num inst (v &&& ~~~3) else s
  | 0x013 | 0x014 | 0x016 => maskWrite num inst 0xFFFFFFFF v s
  | 0x015 => maskWrite num inst 0xFFFFFFFFFFFF0000 v s
  | 0x017 => rangeWrite num inst 4 0 0 16 v (maskWrite num inst 0x80000000 v s)
  | 0x018 => if poolOn s (inst / 16) (inst % 16) then s else regSet s num inst ((v.truncate 57).signExtend 64 &&& 0xFFFFFFFFFFFF0000)
  | 0x019 => settled s (if v.getLsbD 63 then execPoolEnable inst v s else execPoolDisable inst v s)
  | 0x021 => settled s (execRwrWrite inst (v.truncate 32) s)
  | 0x024 =>
    let s := (canalAct inst s).1
    if cnlOn s inst then s else maskWrite num inst 0xFFFFFFFFFFFFFF80 v s
  | 0x026 => (canalAct inst s).1
  | 0x025 => settled s (if v.getLsbD 63 then execCanalEnable inst v s else execCanalDisable inst v s)
  | 0x030 => maskWrite num inst 0xFF v s
  | 0x031 => rangeWrite num inst 6 0 1 64 v s
  | 0x032 => rangeWrite num inst 15 0 1 65535 v (maskWrite num inst 0x80000000 v s)
  | 0x033 | 0x034 => twmWrite num inst 0x800FFFFF v s
  | 0x035 => twmWrite num inst 0xFFFFFFFF800FFFFF v s
  | 0x038 => settled s (execTinvWrite v s)
  | 0x03A => settled s (execIrcReshape (v.truncate 32) s)
  | 0x03B =>
    let old := stagedGet s num inst
    let v := v &&& 0xFF0F0000000001FF
    stagedSet num inst (if 9 < field v.toNat 51 48 then putField v 51 48 (field old.toNat 51 48) else v) s
  | 0x03C => stagedSet num inst (v &&& 0x7FFFFF) s
  | 0x040 => if qOn s inst then s else maskWrite num inst 0x000FFFFFFFFFFC00 v s
  | 0x041 | 0x042 => if qOn s inst then s else maskWrite num inst 0x000FFFFFFFFFFF80 v s
  | 0x043 => settled s (execQueueEnable inst v s)
  | 0x048 => if (regGet s 0x049 inst).getLsbD 63 then s else regSet s num inst ((v.truncate 57).signExtend 64 &&& 0xFFFFFFFFFFFF0000)
  | 0x049 => if (regGet s num inst).getLsbD 63 && v.getLsbD 63 then s else maskWrite num inst 0xFF80000001FFFFFF v s
  | 0x050 => maskWrite num inst 0xFE00000000000000 v s
  | 0x051 | 0x083 | 0x084 => regSet s num inst v
  | 0x058 => if (regGet s 0x059 0).getLsbD 63 then s else maskWrite num inst 0x000FFFFFFFFFFFC0 v s
  | 0x059 => settled s (execStorageRingEnable v s)
  | 0x05A => if (regGet s 0x059 0).getLsbD 63 then s else maskWrite num inst 0x000FFFFFFFFFFF80 v s
  | 0x05C => if (regGet s 0x059 0).getLsbD 63 then s else maskWrite num inst 0x000FFFFFFFFF0000 v s
  | 0x080 => cutShares (rangeWrite num inst 11 0 500 3600 v s)
  | _ => s

/-! ## `sysrd`, `syswr` (R312) -/

/-- The register a form names. -/
def regNum (w : MWord) : Nat := w.ofs.toNat % 2048

/-- The fields of both forms, and a number that is assigned. -/
def sysFields (w : MWord) (wc : Nat) : Bool :=
  modOk {} w.pre && w.w.toNat == wc && w.base == 192 && dataS w && w.sc == 0 && w.hint == 0 && w.la == 0 && decide (w.ofs.toNat < 2048)
    && (regInstances (regNum w)).isSome && (w.idx == 0xFF || isS w.idx.toNat || (decide (192 ≤ w.idx.toNat) && decide (w.idx.toNat < 208)))

/-- The instance it names. -/
def regInst (w : MWord) (s : State) : Nat :=
  if w.idx = 0xFF then 0 else if isS w.idx.toNat then (sGet s.g (w.idx.toNat - 128)).toNat else w.idx.toNat - 192

/-- A register of a canal (R346). -/
def canalReg (num : Nat) : Bool := decide (0x024 ≤ num) && decide (num ≤ 0x026)

/-- Whether a register form waits: for the gang's earlier stores, but at its own registers (R315); at a canal's, an ORDERED atomic, for its loads too (R183,
R347). -/
def registerWaits (num : Nat) (s : State) : Bool :=
  (!gangReg num && storesOut s) || (canalReg num && (opsOf s s.g.gid).any fun o => o.kind == .load)

/-- `sysrd`. A read of a canal's register is an action at the canal's home (R347). -/
def execSysrd (w : MWord) (s : State) : Out :=
  wordOr (mLen w) w.nxt s do
    need bad (sysFields w 0)
    if active s.g = 0 then .ok (some s)
    else
      let n := regNum w
      let i := regInst w s
      need bad (instanceOk n i)
      need (plain .privileged) (supervisor s || taskReads s n i)
      if registerWaits n s then .ok none
      else
        let s := if canalReg n then (canalAct i s).1 else s
        .ok (some { s with g := sSet s.g (sOfData w) (sysRead s n i) })

/-- `syswr`. -/
def execSyswr (w : MWord) (s : State) : Out :=
  wordOr (mLen w) w.nxt s do
    need bad (sysFields w 1)
    if active s.g = 0 then .ok (some s)
    else
      let n := regNum w
      let i := regInst w s
      let v := sGet s.g (sOfData w)
      need bad (instanceOk n i && (!(n == 3 || n == 4) || clauseAddr v))
      need (plain .privileged) (supervisor s || taskWrites s n)
      if registerWaits n s then .ok none
      else .ok (some (sysWrite n i v s))

/-! ## `tret`, `trec` (R308–R310) -/

/-- `tret`. -/
def execTret (w : MWord) (s : State) : Out :=
  word (mLen w) w.nxt s do
    need bad (modOk {} w.pre && w.w == 0 && w.base == 192 && w.data == 0 && w.la == 0 && w.nxt == 0 && w.ofs == 0 && w.hint == 0 && w.sc == 0 && w.idx == 0xFF)
    if active s.g = 0 then .ok s
    else do
      need bad s.g.prio
      .ok (doTret s)

/-- Doublewords of the header, or of a record; zeros above NREC. -/
def areaGroup (g : Gang) (n : Nat) : TrapRec := if n = 0 then g.area else g.recs.getD (n - 1) {}

/-- `trec`. -/
def execTrec (w : MWord) (s : State) : Out :=
  word (mLen w) w.nxt s do
    need bad (modOk {} w.pre && w.w == 0 && w.base == 192 && dataS w && w.data.toNat % 4 == 0 && w.la == 0 && w.hint == 0 && w.sc == 0
      && (w.idx == 0xFF || isS w.idx.toNat))
    if active s.g = 0 then .ok s
    else
      let v : DWord := if w.idx = 0xFF then 0 else sGet s.g (w.idx.toNat - 128)
      let n := (v + w.ofs.signExtend 64).toNat
      need bad (decide (n ≤ 32))
      let r := areaGroup s.g n
      let d := sOfData w
      .ok { s with g := sSet (sSet (sSet (sSet s.g d r.dw0) (d + 1) r.dw1) (d + 2) r.dw2) (d + 3) r.dw3 }

/-! ## Supervisor forms with a status -/

/-- The fields of a form whose BASE names an s register and whose DATA receives a status. -/
def statusFields (w : MWord) (wc : Nat) : Bool :=
  modOk {} w.pre && w.w.toNat == wc && isS w.base.toNat && dataS w && w.sc == 0 && w.la == 0

def baseVal (w : MWord) (s : State) : Nat := (sGet s.g (w.base.toNat - 128)).toNat

/-- The status a form returns. -/
def putStatus (w : MWord) (v : Nat) (s : State) : State := { s with g := sSet s.g (sOfData w) (BitVec.ofNat 64 v) }

/-- `launch` (R355). -/
def execLaunch (w : MWord) (s : State) : Out :=
  wordOr (mLen w) w.nxt s do
    need bad (modOk {} w.pre && w.w == 0 && (isS w.base.toNat || w.base == 192) && isS w.idx.toNat && dataS w && w.sc == 0 && w.hint == 0 && w.la == 0)
    if active s.g = 0 then .ok (some s)
    else
      need (plain .privileged) (supervisor s)
      let a := ((if w.base = 192 then 0 else sGet s.g (w.base.toNat - 128)) + w.ofs.signExtend 64).toNat
      need (memCause s .misaligned a) (a % 64 == 0)
      let q := (sGet s.g (w.idx.toNat - 128)).toNat
      need (uniCause s .launchInvalid a 7) (decide (q < 512) && qDev s q && qCtx s q == (myTeam s).ctx)
      checkBlock s { r := true } 0 a 1024
      match readBlock a 1024 s with
      | none => .ok none
      | some (u, bs, evs) =>
        let u := chargeGang s.g.gid (myTeam s).ctx s.g.cl.addr (wordIx s.g) 0 (fun _ => elected s) evs { u with g := { u.g with gts := s.g.gts } }
        let (u, st) := appendRecord q bs s.g.gts u
        .ok (some (putStatus w st u))

/-- What `ctx.save` finds: nothing to do, a wait, or its core. -/
def saveTarget (w : MWord) (s : State) : Except Raised (Option (Option Nat)) := do
  need bad (statusFields w 0 && w.idx == 0xFF && w.ofs == 0 && w.hint == 0)
  if active s.g = 0 then .ok (some none)
  else
    need (plain .privileged) (supervisor s)
    need bad (decide (baseVal w s < 4096))
    if storesOut s then .ok none else .ok (some (some (baseVal w s)))

/-- `ctx.save` (R320). A swap of the gang's own core takes it after the word. -/
def execCtxSaveInstr (w : MWord) (s : State) : Out :=
  let own := (myTeam s).core
  let out := wordOr (mLen w) w.nxt s do
    match ← saveTarget w s with
    | none => .ok none
    | some none => .ok (some s)
    | some (some core) =>
      let st := saveStatus s core
      let u := putStatus w st s
      .ok (some (if st = 0 ∧ core ≠ own then swap core u else u))
  match out, saveTarget w s with
  | .next u, .ok (some (some core)) => .next (if core = own ∧ saveStatus s core = 0 ∧ u.g.issued = s.g.issued + 1 then swap core u else u)
  | o, _ => o

/-- `ctx.load`, `ctx.load.sw` (R321). -/
def execCtxLoadInstr (w : MWord) (s : State) : Out :=
  wordOr (mLen w) w.nxt s do
    need bad (statusFields w 1 && isS w.idx.toNat && w.ofs == 0 && decide (w.hint.toNat < 2))
    if active s.g = 0 then .ok (some s)
    else
      need (plain .privileged) (supervisor s)
      let ctx := (sGet s.g (w.idx.toNat - 128)).toNat
      need bad (decide (baseVal w s < 4096) && decide (ctx < 64))
      if storesOut s then .ok none
      else
        let (u, st) := loadCore (baseVal w s) ctx (w.hint == 1) s
        .ok (some (putStatus w st u))

/-! ## Banks (R16, R17, R322) -/

/-- The bound units of a FIFO bank that leaves the mode move, with their bytes, to free units of the other FIFO banks; its units hold nothing any more
(R17). -/
def vacate (cluster b : Nat) (s : State) : State :=
  let gone := fun (u : Nat) => u / 8 == b
  let free := (freeUnits s cluster).filter fun u => !gone u
  let bound := ((holders s cluster).flatMap fun t => t.races.flatMap (·.units)).filter gone
  let pairs := bound.zip (pickUnits s.fresh bound.length free)
  let move := fun (u : Nat) => ((pairs.find? (·.1 == u)).map (·.2)).getD u
  let here := (holders s cluster).map (·.uid)
  { s with
    fresh := s.fresh + 1
    teams := s.teams.map fun t => if here.contains t.uid then { t with races := t.races.map fun r => { r with units := r.units.map move } } else t
    fifo := tfilter (fun a => !(a / 4096 / 256 == cluster && gone (a / 4096 % 256))) s.fifo
    fifoCtx := tfilter (fun k => !(k / 256 == cluster && gone (k % 256))) s.fifoCtx }

/-- A bank takes a mode: what it held in the mode it leaves is gone, so that it reads as zero in the new one (R17). -/
def setBank (cluster b m : Nat) (s : State) : State :=
  let cur := bankMode s cluster b
  let s := if cur = m then s else if cur = 1 then forgetBank cluster b s else if cur = 2 then vacate cluster b s else s
  regSet s 0x020 cluster (putField (regGet s 0x020 cluster) (2 * b + 1) (2 * b) m)

/-- Whether a scratch allocation covers any byte of the bank (R17). -/
def bankHeld (s : State) (cluster b : Nat) : Bool := (holders s cluster).any fun t => t.units.any fun u => u / 128 == b

/-- The status of a change of mode (R322). -/
def bankStatus (s : State) (cluster b m : Nat) : Nat :=
  let cur := bankMode s cluster b
  if cur = m then 0
  else if cur = 0 then (if banksIn s cluster 0 ≤ 4 + (s.banks.filter (·.cluster == cluster)).length then 1 else 0)
  else if cur = 1 then (if bankHeld s cluster b then 2 else 0)
  else if fifoUsed s cluster > 8 * (banksIn s cluster 2 - 1) then 3 else 0

/-- `bnk.mode`. A bank that leaves CACHE holds the gang until its lines are written back. -/
def execBnkMode (w : MWord) (s : State) : Out :=
  waitOr (mLen w) w.nxt s do
    let b := field w.ofs.toNat 4 0
    let m := field w.ofs.toNat 9 8
    need bad (statusFields w 0 && w.idx == 0xFF && w.hint == 0 && w.ofs.toNat == b + 256 * m && m != 3)
    if active s.g = 0 then .ok (some (s, .none))
    else
      need (plain .privileged) (supervisor s)
      let cl := baseVal w s
      need bad (decide (cl < 1024))
      if storesOut s || s.banks.any (fun x => x.cluster == cl && x.bank == b) then .ok none
      else
        let st := bankStatus s cl b m
        if st = 0 ∧ bankMode s cl b = 0 ∧ m ≠ 0 then
          .ok (some (due .bankModeComplete cl { s with banks := s.banks ++ [⟨cl, b, m, s.g.gid, sOfData w⟩] } b, .reply cl))
        else .ok (some (putStatus w st (if st = 0 then setBank cl b m s else s), .none))

/-- A quarantined line moves to another CACHE bank of its cluster, where one has room. -/
def moveCopy (c : Copy) (s : State) : State :=
  match bankFor s c.holder c.line with
  | none => s
  | some b => { s with copies := modFirst c.same (fun x => { x with slot := b }) s.copies, fresh := s.fresh + 1 }

/-- BANK_MODE_COMPLETE: the cluster cache writes back and invalidates the bank's lines; the mode changes and the gang goes on with status 0 (R17, R322).
A quarantined line, which may not be written back, moves to another bank, where lines give way to it (R194). -/
def execBankModeComplete (s : State) : Out :=
  match s.banks.find? fun x => x.cluster == s.obj.1 && x.bank == s.obj.2 with
  | none => .next s
  | some x =>
    let mine := fun (s : State) => s.copies.filter fun c => !c.remote && c.holder == x.cluster && c.slot == x.bank
    let s := (mine s).foldl (fun s c => evictCopy c s) s
    let s := if (mine s).isEmpty then s else cacheRoom x.cluster 0 (fun _ => false) s
    let s := ((mine s).filter (·.quarantined)).foldl (fun s c => moveCopy c s) s
    if !(mine s).isEmpty then later .bankModeComplete s
    else
      let s := setBank x.cluster x.bank x.mode { s with banks := s.banks.erase x }
      .next (wakeGang x.gang 0 (onGang s x.gang fun g => sSet g x.reg 0))

/-! ## Keys (R297, R323, R324) -/

/-- The context a key form names, once its checks hold: none where it waits. -/
def keyForm (w : MWord) (wc : Nat) (s : State) : Except Raised (Option Nat) := do
  need bad (statusFields w wc && w.idx == 0xFF && w.ofs == 0 && w.hint == 0)
  if active s.g = 0 then .ok none
  else
    need (plain .privileged) (supervisor s)
    need bad (decide (baseVal w s < 64))
    .ok (some (baseVal w s))

/-- `key.new`: a generation of its own, which no other key has had. -/
def execKeyNew (w : MWord) (s : State) : Out :=
  wordOr (mLen w) w.nxt s do
    match ← keyForm w 0 s with
    | none => .ok (some s)
    | some c =>
      if storesOut s then .ok none
      else if !s.ctxs.any (·.id == c) then .ok (some (putStatus w 2 s))
      else if (ctxOf s c).key then .ok (some (putStatus w 1 s))
      else
        let (id, u) := newId s
        .ok (some (putStatus w 0 (setCtx u { ctxOf u c with key := true, keyGen := id })))

/-- A context is key-absent from now on (step 1). -/
def keyAway (ctx : Nat) (s : State) : State := setCtx s { ctxOf s ctx with key := false }

/-- A deletion is due. -/
def deleteKey (d : KeyDel) (s : State) : State := due .keyDelComplete d.ctx { s with keyDels := s.keyDels ++ [d] }

/-- A deletion of a key: the gang waits for its counts. -/
def keyDelete (w : MWord) (wc : Nat) (drain : Bool) (s : State) : Out :=
  waitOr (mLen w) w.nxt s do
    match ← keyForm w wc s with
    | none => .ok (some (s, .none))
    | some c =>
      if storesOut s || s.keyDels.any (·.ctx == c) then .ok none
      else .ok (some (deleteKey ⟨c, drain, some s.g.gid, sOfData w⟩ (keyAway c s), .reply c))

/-- `key.del.drain`. -/
def execKeyDelDrain (w : MWord) (s : State) : Out := keyDelete w 1 true s

/-- `key.del.scuttle`. -/
def execKeyDelScuttle (w : MWord) (s : State) : Out := keyDelete w 2 false s

/-- A line's slice gives it up without writing it back: its bytes are what was last written outside the slice, which this model does not
hold, so they are free values. -/
def discardLine (line : Nat) (s : State) : State :=
  let s := { s with sc := modFirst (·.line == line) (fun x => { x with dirty := 0 }) s.sc }
  let s := putLine line ((List.range 128).map (Config.staleByte s.fresh)) (leaveSlice line s)
  { s with fresh := s.fresh + 1 }

/-- Whether accesses of a context that passed their checks are under way: its operations', its contributions', its relays' and its matrix operations', and
write-backs that its fences wait for (R324). -/
def accessesOut (s : State) (ctx : Nat) : Bool :=
  (s.ops.any fun o => o.ctx == ctx && if o.kind == .fence then o.lines.any (!·.granted) else o.kind != .message && o.kind != .other)
    || (s.contribs.any fun q => q.ctx == ctx && !q.arrived) || s.relays.any (·.ctx == ctx) || s.mmas.any fun m => (teamOf s m.team).ctx == ctx

/-- Steps 2 to 5 of R324: the state, lines written back, lines discarded; none while accesses that passed their checks are under way or a
line is owned. -/
def dropKey (ctx : Nat) (drain : Bool) (s : State) : Option (State × Nat × Nat) :=
  let mine := s.copies.filter fun c => !c.remote && c.ctx == ctx
  let dirty := mine.filter fun c => !c.dirty.isEmpty
  let inSlice := s.sc.filter fun x => x.ctx == ctx
  if accessesOut s ctx || dirty.any (fun c => lineOwned s c.line) || inSlice.any (fun x => lineOwned s x.line) then none
  else
    let held := (s.refused.filter fun r => r.copy.ctx == ctx).length
    let bad := dirty.filter (·.quarantined)
    let good := dirty.filter fun c => !c.quarantined
    let lines := dedup ((good.map (·.line)) ++ (inSlice.filter (·.dirty != 0)).map (·.line))
    let s := { s with refused := s.refused.filter fun r => !(r.copy.ctx == ctx) }
    let s := if drain then good.foldl (fun s c => writeBackCopy c s) s else s
    let s := { s with copies := s.copies.filter fun c => !(c.ctx == ctx) }
    let s := (s.sc.filter fun x => x.ctx == ctx).foldl (fun s x => if x.dirty != 0 && !drain then discardLine x.line s else leaveSlice x.line s) s
    some (s, if drain then (lines.length, bad.length + held) else (0, lines.length + bad.length + held))

/-- A mailbox command is over: BUSY clears with its result (R375), and every field of ARG that holds no result is zero (R377). -/
def mailDone (result : Nat) (s : State) : State := { s with hg := { s.hg with sts := BitVec.ofNat 64 (2 ^ 63 + result), arg := [] } }

/-- Doubleword i of ARG (R377). -/
def setArg (i : Nat) (v : Nat) (s : State) : State := { s with hg := { s.hg with arg := writeLe s.hg.arg (8 * i) 8 v } }

/-- Whether a key of the register file is a register of a context (R313, R382). -/
def ofContext (ctx k : Nat) : Bool :=
  let n := k / 65536
  let i := k % 65536
  ctxReg n i == some ctx || ((n == 0x083 || n == 0x084) && i == ctx)

/-- Every register of a context takes its reset value (R361, R376). -/
def resetRegs (ctx : Nat) (s : State) : State := { s with sysregs := tfilter (fun k => !ofContext ctx k) s.sysregs }

/-- A destroyed context is gone, and its registers take their reset values again (R376). -/
def forgetCtx (ctx : Nat) (s : State) : State :=
  let s := forgetUnits ctx (resetRegs ctx s)
  let s := { s with
    ctxs := s.ctxs.filter (·.id != ctx)
    tlb := s.tlb.filter (·.ctx != ctx), frames := s.frames.filter (·.ctx != ctx)
    posts := (s.posts.map fun p => { p with inbox := p.inbox.filter fun m => m.ctx != ctx }).filter fun p =>
      !(p.unsent.isEmpty && p.sent.isEmpty && p.inbox.isEmpty) }
  releaseHeld s

/-- KEY_DEL_COMPLETE: the lines are written back or discarded, the key slots cleared, the counts returned to the gang, or to the mailbox
for CTX_DESTROY, which takes the key away once the context's tasks have ended, with their write-backs (R306, R376). -/
def execKeyDelComplete (s : State) : Out :=
  match s.keyDels.find? (·.ctx == s.obj.1) with
  | none => .next s
  | some d =>
    let mine := s.tasks.filter (·.ctx == d.ctx)
    if d.gang.isNone && !mine.isEmpty then later .keyDelComplete (mine.foldl (fun s k => stopTask k.id 9 0 {} s) s)
    else
      let s := if d.gang.isNone then keyAway d.ctx s else s
      match dropKey d.ctx d.drain s with
      | none => later .keyDelComplete s
      | some (u, w, x) =>
        let u := { u with keyDels := u.keyDels.erase d }
        let v := w % 2 ^ 32 + x % 2 ^ 32 * 2 ^ 32
        match d.gang with
        | some g => .next (wakeGang g 0 (onGang u g fun y => sSet y d.reg (BitVec.ofNat 64 v)))
        | none => .next (setArg 0 v (mailDone 0 (forgetCtx d.ctx u)))

/-! ## The error budget (R263, R325) -/

/-- The context of a budget form: the issuing one, or one that an s register names at supervisor level. -/
def budgetCtx (w : MWord) (s : State) : Nat := if w.idx = 0xFF then (myTeam s).ctx else (sGet s.g (w.idx.toNat - 128)).toNat

def budgetFields (w : MWord) (wc : Nat) : Bool :=
  modOk {} w.pre && w.w.toNat == wc && w.base == 192 && dataS w && w.sc == 0 && w.hint == 0 && w.la == 0 && w.ofs == 0 && (w.idx == 0xFF || isS w.idx.toNat)

/-- `errb.rd`. -/
def execErrbRd (w : MWord) (s : State) : Out :=
  wordOr (mLen w) w.nxt s do
    need bad (budgetFields w 0)
    if active s.g = 0 then .ok (some s)
    else
      need (plain .privileged) (supervisor s || w.idx == 0xFF)
      need bad (decide (budgetCtx w s < 64))
      if storesOut s then .ok none
      else .ok (some (putStatus w (ctxOf s (budgetCtx w s)).errb.toNat s))

/-- `errb.set`. -/
def execErrbSet (w : MWord) (s : State) : Out :=
  wordOr (mLen w) w.nxt s do
    need bad (budgetFields w 1)
    if active s.g = 0 then .ok (some s)
    else
      need (plain .privileged) (supervisor s)
      let c := budgetCtx w s
      need bad (decide (c < 64))
      if storesOut s then .ok none
      else .ok (some (setCtx s { ctxOf s c with errb := (sGet s.g (sOfData w)).truncate 32 }))

end Sys2Proof.Machine
end

