-- ==== Sys2Proof/Machine/Host.lean ====
section
/-! DEFINITION. The host and the peers: CXL requests (R357–R360), snoops (R358, R363), peer accesses (R188, R373). A reply with data is
appended to `answers`; one without data is the poison indication (R359). -/

namespace Sys2Proof.Machine

/-- A reply; its meta-data are zero (R358). -/
def answer (a : Option (List Byte)) (s : State) : State := { s with answers := s.answers ++ [⟨a, 0⟩] }

/-! ## Windows (R360) -/

/-- What an offset of the HDM range names: context, line, physical address; none where the access is refused. DEDUCED (log entry 108): a page in tier 3
has no physical address, so its translation fails. -/
def windowAt (s : State) (peer rd wr : Bool) (off : Nat) : Option (Nat × LineReq × Nat) :=
  let w := off / 2 ^ 40
  let o := off % 2 ^ 40
  let c := (regGet s 0x049 w).toNat
  if 16 ≤ w || !c.testBit 63 || !(if peer then c.testBit 55 else c.testBit 56) || decide (65536 * field c 24 0 ≤ o) then none
  else
    let ctx := field c 62 57
    let va : DWord := regGet s 0x048 w + BitVec.ofNat 64 o
    if !canonical va || !(ctxOf s ctx).key then none
    else match (walk s ctx va.toNat).1 with
      | .error _ => none
      | .ok (e, z) =>
        if (wr && !pteW e) || (rd && !pteR e) || !pteDm e || inStorage e then none
        else some (ctx, reqOf s e (paOf e z va.toNat) va.toNat, paOf e z va.toNat)

/-- A refused access is logged (R359). -/
def refuseAccess (off : Nat) (s : State) : State := logEvent 4 off 0 s

/-- An error event that a host's or peer's access meets is not counted, only logged (R260). -/
def logOutside (ev : Option Event) (s : State) : State :=
  match ev with
  | some e => if e.bad then logEvent (eventKind e) (eventAt e) e.cls s else s
  | none => s

/-- Bytes read at a line's home by the host or a peer: time rts, no lease (R188); none for an uncorrectable line. -/
def outsideRead (ctx : Nat) (r : LineReq) (pa n : Nat) (s : State) : State × Option (List Byte) :=
  let b := blockOf r.cls (pa % 128) (pa % 128 + n)
  let r := { r with lo := b.1, hi := b.2 }
  let (s, ev) := enterLine r ctx s
  let s := logOutside ev (countAccess r ctx s)
  (s, if (ev.map (·.bad)).getD false then none else some (homeBytes s pa n))

/-- Bytes stored at a line's home by the host or a peer, at time rts + 1 (R188). -/
def outsideWrite (ctx : Nat) (r : LineReq) (pa : Nat) (bytes : List (Option Byte)) (s : State) : State :=
  let b := blockOf r.cls (pa % 128) (pa % 128 + bytes.length)
  let r := { r with lo := b.1, hi := b.2 }
  let (s, ev) := enterLine r ctx s
  let s := logOutside ev (countAccess r ctx s)
  let old := homeBytes s pa bytes.length
  (writeHome r ctx 0 pa (bytes.mapIdx fun i b => b.getD (old.getD i 0)) 0xFF s).1

/-- Whether an outside access must wait: an owned line, a locked footprint, a line on its way (R160, R196, R294). -/
def outsideWaits (s : State) (ctx : Nat) (r : LineReq) (pa n : Nat) (wr : Bool) : Bool :=
  !lineFree s r || (wr && (lockedMem s ctx (128 * r.va + pa % 128) n).isSome)

/-- MEMRD: 64 bytes at an HDM offset. -/
def execMemrd (s : State) : Out :=
  let a := s.obj.1 / 64 * 64
  match windowAt s false true false a with
  | none => .next (answer none (refuseAccess a s))
  | some (ctx, r, pa) =>
    if outsideWaits s ctx r pa 64 false then later .memrd s
    else let (u, b) := outsideRead ctx r pa 64 s
      .next (answer b u)

/-- MEMWR: 64 bytes at an HDM offset. -/
def execMemwr (addr : Nat) (bytes : List Byte) (s : State) : Out :=
  match windowAt s false false true addr with
  | none => .next (refuseAccess addr s)
  | some (ctx, r, pa) =>
    if outsideWaits s ctx r pa bytes.length true then later (.memwr addr bytes) s else .next (outsideWrite ctx r pa (bytes.map some) s)

/-- MEMWRPTL: those of 64 bytes that are given. -/
def execMemwrptl (addr : Nat) (bytes : List (Option Byte)) (s : State) : Out :=
  match windowAt s false false true addr with
  | none => .next (refuseAccess addr s)
  | some (ctx, r, pa) =>
    if outsideWaits s ctx r pa bytes.length true then later (.memwrptl addr bytes) s else .next (outsideWrite ctx r pa bytes s)

/-- The space-3 forms of a peer's request: a load (0), a store (1), or an atomic by its opcode. -/
def peerAtomic (op : Nat) : Bool := decide (0xB6 ≤ op) && decide (op ≤ 0xC2)

/-- PEER_ACCESS: a peer's load, store or atomic through a window that admits peers, performed at the home slice (R360, R373). -/
def execPeerAccess (port addr op w ty : Nat) (g0 g1 : DWord) (bytes : List (Option Byte)) (s : State) : Out :=
  let n := if peerAtomic op then 2 ^ w else bytes.length
  match windowAt s true (op != 1) (op != 0) addr with
  | none => .next (answer none (refuseAccess addr s))
  | some (ctx, r, pa) =>
    if outsideWaits s ctx r pa n (op != 0) then later (.peerAccess port addr op w ty g0 g1 bytes) s
    else if op = 0 then let (u, b) := outsideRead ctx r pa n s
      .next (answer b u)
    else if op = 1 then .next (outsideWrite ctx r pa bytes s)
    else if !peerAtomic op || addr % n != 0 then .next (answer none (refuseAccess addr s))
    else
      let (u, b) := outsideRead ctx r pa n s
      let m := leNat (b.getD (homeBytes u pa n))
      let x := atomFun op ty (8 * n) m g0.toNat g1.toNat
      .next (answer (some (leBytes n x.2)) (writeHome r ctx 0 pa (leBytes n x.1) 0xFF u).1)

/-! ## CXL.io (R358) -/

/-- CONFIG_REQUEST: a configuration read answers what the CXL specification gives; what a write changes is no state of this manual. -/
def execConfigRequest (reg : Nat) (val : Option Word) (s : State) : Out :=
  .next (match val with
    | none => answer (some (leBytes 4 (Config.configSpace reg).toNat)) s
    | some _ => s)

/-- MSIX_TABLE_ACCESS: a read or write of the MSI-X table in BAR2. -/
def execMsixTableAccess (off : Nat) (val : Option Word) (s : State) : Out :=
  .next (match val with
    | none => answer (some (leBytes 4 (get0 s.msix (off / 4)).toNat)) s
    | some v => { s with msix := set0 s.msix (off / 4) v })

/-- UNSUPPORTED_REQUEST: answered as the CXL specification says, and logged. -/
def execUnsupportedRequest (s : State) : Out := .next (answer (some (Config.unsupportedReply s.obj.1)) (logEvent 5 s.obj.1 0 s))

/-! ## Snoops (R358, R363) -/

/-- What losing a line that was held as a sharer wakes: the queues whose tail line it is, and the storage ring (R363, R374). -/
def loseLine (line : Nat) (s : State) : State :=
  if !s.hostLines.contains line then s
  else
    let s := { s with hostLines := s.hostLines.filter (· != line) }
    let s := ((List.range 512).filter fun q => qOn s q && !qDev s q && (regGet s 0x041 q).toNat / 128 == line).foldl (fun s q => due .queueTailUpdate q s) s
    if (regGet s 0x059 0).getLsbD 63 && (regGet s 0x05A 0).toNat / 128 == line then due .storageAck 0 s else s

/-- The bytes that the host gets of a line of its memory: those of a device-managed page encrypted under the key of the context that has written it, from
its slice too, and with the errors of the stored copy where no slice holds them (R296, R358). -/
def hostView (s : State) (line : Nat) : List Byte :=
  let bs := readBytes s.mem (128 * line) 128
  let x := scOf s line
  let k := if x.any fun x => x.dm && x.dirty != 0 then keyMark s ((x.map (·.ctx)).getD 0) else get0 s.lineKey line
  (List.range 128).map fun i =>
    if x.any fun x => x.valid.getLsbD (i / 16) then if k = 0 ∨ k = rawMark then bs.getD i 0 else Config.cipher k.toNat line bs i
    else (outsideBytes s line).getD i 0

/-- The 64 bytes at an address of host memory, as the host gets them. -/
def snooped (s : State) (pa : Nat) : List Byte := ((hostView s (pa / 128)).drop (pa % 128)).take 64

/-- Whether a relay locks one of n bytes of a physical line from pa on (R160). -/
def lockedAt (s : State) (pa n : Nat) : Bool :=
  s.relays.any fun r => (lockedSpans s r).any fun p => p.res == 0 && (List.range (ceilDiv (p.lo % 128 + p.len) 128)).any fun i =>
    let va := p.lo / 128 * 128 + 128 * i
    lineOfVa s (teamOf s r.team).core r.ctx va == some (pa / 128) && p.hits (va + pa % 128) n

/-- One of the host's stores to its own memory, within a line: the device's copy is snooped away, the bytes change at a new time, and monitors of the words
compare (R188, R218, R363). -/
def storeLine (pa : Nat) (bytes : List Byte) (s : State) : State := loseLine (pa / 128) (writeHost pa bytes s)

/-- SNPINV: the host takes a line of its memory away: a slice that holds it gives it up, and a held line is lost. What the host stores to it waits while a
relay locks it (R160). -/
def execSnpinv (s : State) : Out :=
  let line := s.obj.1 / 128
  let mine := s.hostStores.filter fun e => e.1 / 128 == line
  if spaceOf s.obj.1 ≠ 2 then .next s
  else if lineOwned s line || mine.any fun e => lockedAt s e.1 e.2.length then later .snpinv s
  else
    let s := { s with hostStores := s.hostStores.filter fun e => e.1 / 128 != line }
    .next (loseLine line (leaveSlice line (mine.foldl (fun s e => storeLine e.1 e.2 s) s)))

/-- SNPDATA: the host takes the current 64 bytes of a line of its memory; a slice keeps it clean. -/
def execSnpdata (s : State) : Out :=
  let pa := s.obj.1 / 64 * 64
  if spaceOf pa ≠ 2 then .next s
  else if lineOwned s (pa / 128) then later .snpdata s
  else .next (answer (some (snooped s pa)) (cleanLine (pa / 128) s))

/-- SNPCUR: the host takes the current 64 bytes; nothing changes. -/
def execSnpcur (s : State) : Out :=
  let pa := s.obj.1 / 64 * 64
  if spaceOf pa ≠ 2 then .next s
  else if lineOwned s (pa / 128) then later .snpcur s
  else .next (answer (some (snooped s pa)) s)

/-- Whether a store of the host to n bytes of a line waits: for an engine or a merge entry that owns the line, a relay that locks it, or an earlier store of
the host (R160, R196). -/
def hostWaits (s : State) (pa n : Nat) : Bool := lineOwned s (pa / 128) || lockedAt s pa n || s.hostStores.any fun e => e.1 / 128 == pa / 128

/-- The host stores to its own memory (space 2), line by line; what has to wait goes with the snoop of its line. -/
def hostStore (pa : Nat) (bytes : List Byte) (s : State) : State :=
  if spaceOf pa ≠ 2 then s
  else (pieces pa bytes.length).foldl (fun s p =>
    let part := (bytes.drop (p.1 - pa)).take p.2
    if hostWaits s p.1 p.2 then dueOnce .snpinv (p.1 / 128 * 128) 0 { s with hostStores := s.hostStores ++ [(p.1, part)] } else storeLine p.1 part s) s

end Sys2Proof.Machine
end

