-- ==== Sys2Proof/Machine/Headgate.lean ====
section
/-! DEFINITION. Headgate: mailbox (R375–R377), log (R378), firmware and attestation (R379, R380); power (R381–R383); soft errors (R262);
reset and power loss (R384). -/

namespace Sys2Proof.Machine

/-! ## The mailbox (R375) -/

/-- Whether a command is taken: READY, and none under way. -/
def mailReady (s : State) : Bool := s.hg.sts.getLsbD 63 && !s.hg.sts.getLsbD 62

/-- A command as the host posts it: its code in CMD with GO cleared, its arguments in ARG. -/
def post (code : Nat) (args : List (Nat × Nat)) (s : State) : State :=
  args.foldl (fun s a => setArg a.1 a.2 s) { s with hg := { s.hg with cmd := BitVec.ofNat 64 code, arg := [] } }

/-- A command under way. -/
def mailBusy (s : State) : State := { s with hg := { s.hg with sts := 0xC000000000000000 } }

/-- CTX_CREATE: refused if the context is resident; every context register is at its reset value, and ERRB too (R263, R361). -/
def execCtxCreate (ctx : Nat) (sup : Bool) (s : State) : Out :=
  if !mailReady s then .next s
  else
    let s := post 0x01 [(0, ctx + if sup then 256 else 0)] s
    if 64 ≤ ctx ∨ s.ctxs.any (·.id == ctx) then .next (mailDone 2 s)
    else .next (mailDone 0 { resetRegs ctx s with ctxs := s.ctxs ++ [{ id := ctx, sup := sup }] })

/-- CTX_DESTROY: its tasks are stopped, its key is scuttled, then its registers are freed; a0 is the count (R376). -/
def execCtxDestroy (s : State) : Out :=
  let ctx := s.obj.1
  if !mailReady s then .next s
  else
    let s := post 0x02 [(0, ctx)] s
    if !s.ctxs.any (·.id == ctx) || s.keyDels.any (·.ctx == ctx) then .next (mailDone 2 s)
    else
      let s := (s.tasks.filter (·.ctx == ctx)).foldl (fun s k => stopTask k.id 9 0 {} s) s
      .next (deleteKey ⟨ctx, false, none, 0⟩ (mailBusy s))

/-- CTX_SAVE: `ctx.save` of a core (R320); a0 is its status. -/
def execCtxSave (s : State) : Out :=
  let core := s.obj.1
  if !mailReady s then .next s
  else
    let s := post 0x03 [(0, core)] s
    if 4096 ≤ core then .next (mailDone 2 s)
    else
      let st := saveStatus s core
      .next (setArg 0 st (mailDone 0 (if st = 0 then swap core s else s)))

/-- CTX_LOAD: `ctx.load`, or `ctx.load.sw` (R321); a0 is its status. -/
def execCtxLoad (core ctx : Nat) (sw : Bool) (s : State) : Out :=
  if !mailReady s then .next s
  else
    let s := post 0x04 [(0, core + 65536 * ctx + if sw then 2 ^ 24 else 0)] s
    if 4096 ≤ core ∨ 64 ≤ ctx then .next (mailDone 2 s)
    else
      let (u, st) := loadCore core ctx sw s
      .next (setArg 0 st (mailDone 0 u))

/-- The codes of the mailbox commands (R376). -/
def mailCodes : List Nat := [0x01, 0x02, 0x03, 0x04, 0x10, 0x20, 0x21, 0x30]

/-- MAILBOX_UNKNOWN_COMMAND: any other code gives result 1. -/
def execMailboxUnknownCommand (s : State) : Out :=
  let code := s.obj.1 % 65536
  if !mailReady s || mailCodes.contains code then .next s else .next (mailDone 1 (post code [] s))

/-! ## The log (R377, R378) -/

/-- The 32 bytes of a record. -/
def recordBytes (r : LogRec) : List Byte := leBytes 8 r.clk ++ leBytes 8 (Config.logKind r.kind % 65536) ++ leBytes 8 r.loc.toNat ++ leBytes 8 r.data.toNat

/-- LOG_READ: BUF takes a header record and the records asked for that are still held; a0 counts them. -/
def execLogRead (s : State) : Out :=
  let first := s.obj.1
  let count := s.obj.2
  if !mailReady s then .next s
  else
    let s := post 0x10 [(0, first), (1, count)] s
    if 2 ^ 32 ≤ first ∨ count = 0 ∨ 1919 < count then .next (mailDone 2 s)
    else
      let h := s.hg
      let rs := (h.log.zipIdx.filter fun r => decide (first ≤ h.logFirst + r.2) && decide (h.logFirst + r.2 < first + count)).map (·.1)
      let head := leBytes 8 h.lost ++ leBytes 8 h.logFirst ++ leBytes 8 (h.logFirst + h.log.length) ++ leBytes 8 0
      let s := { s with hg := { h with buf := writeBytes h.buf 0 (head ++ rs.flatMap recordBytes) } }
      .next (setArg 0 rs.length (mailDone 0 s))

/-! ## Firmware and attestation (R379, R380) -/

/-- The bank that does not run. -/
def otherBank (h : Headgate) : Nat := 1 - h.bank

/-- An image, as far as it has come, in a bank that is not valid (R379). -/
def imageIn (b : Nat) (img : List Byte) (h : Headgate) : Headgate := { h with staged := img, image := h.image.set b (some img), valid := h.valid.set b false }

/-- FW_STAGE: the next piece of an image goes to the inactive bank; after the last piece the image is checked. A piece out of order discards
the staged image. -/
def execFwStage (total off : Nat) (piece : List Byte) (s : State) : Out :=
  if !mailReady s then .next s
  else
    let s := post 0x20 [(0, total), (1, off), (2, piece.length)] s
    let h := { s.hg with buf := writeBytes s.hg.buf 0 piece }
    let n := piece.length
    if total = 0 ∨ 8388608 < total ∨ n = 0 ∨ 61440 < n then .next (mailDone 2 s)
    else if off ≠ h.staged.length ∨ total < off + n then .next (mailDone 2 { s with hg := { h with staged := [] } })
    else
      let img := h.staged ++ piece
      let b := otherBank h
      let h := imageIn b img h
      if img.length < total then .next (mailDone 0 { s with hg := h })
      else
        let v := Config.imageVersion img
        let good := Config.imageGood img && decide (h.rollback ≤ v)
        let s := { s with hg := { h with staged := [], valid := h.valid.set b good, version := if good then h.version.set b v else h.version } }
        .next (mailDone (if good then 0 else 3) (logEvent 10 b 0 s))

/-- FW_ACTIVATE: the staged image is selected for the next reset. -/
def execFwActivate (s : State) : Out :=
  if !mailReady s then .next s
  else
    let s := post 0x21 [] s
    let b := otherBank s.hg
    if s.hg.valid.getD b false then .next (mailDone 0 { s with hg := { s.hg with next := some b } }) else .next (mailDone 2 s)

/-- The bytes of a report that its signature covers: the digest of the active bank's image among them (R380). -/
def reportBody (h : Headgate) (nonce : List Byte) : List Byte :=
  (List.range 0x120).map fun i =>
    if i < 0x30 then nonce.getD i 0
    else if i < 0x60 then Config.romDigest (i - 0x30)
    else if i < 0x90 then Config.imageDigest (h.image.getD h.bank none) (i - 0x60)
    else if i < 0x98 then BitVec.ofNat 8 (h.version.getD h.bank 0 / 256 ^ (i - 0x90))
    else if i < 0xA0 then BitVec.ofNat 8 (h.rollback / 256 ^ (i - 0x98))
    else if i = 0xA0 then 4
    else if i < 0x101 then Config.publicKey (i - 0xA1)
    else 0

/-- The 384 bytes of a report; two signatures over the same bytes may differ. -/
def report (fresh : Nat) (h : Headgate) (nonce : List Byte) : List Byte :=
  reportBody h nonce ++ (List.range 0x60).map (Config.signature (reportBody h nonce) fresh)

/-- ATTEST: the report over the nonce is in BUF; a0 is its length. -/
def execAttest (nonce : List Byte) (s : State) : Out :=
  if !mailReady s then .next s
  else
    let s := post 0x30 [] s
    let h := s.hg
    let arg := writeBytes [] 0 (nonce.take 48)
    let s := { s with fresh := s.fresh + 1, hg := { h with arg := arg, buf := writeBytes h.buf 0 (report s.fresh h nonce) } }
    .next (setArg 0 384 (mailDone 0 s))

/-! ## BAR0 (R375, R377) -/

/-- The bytes of BAR0. DESIGN CHOICE (log entry 109): an offset that names no field reads as zero. -/
def barByte (h : Headgate) (o : Nat) : Byte :=
  if o < 8 then BitVec.ofNat 8 (h.cmd.toNat / 256 ^ o)
  else if o < 16 then BitVec.ofNat 8 (h.sts.toNat / 256 ^ (o - 8))
  else if o < 0x100 then get0 h.arg (o - 16)
  else if 0x1000 ≤ o ∧ o < 0x10000 then get0 h.buf (o - 0x1000)
  else 0

/-- The host reads BAR0. -/
def barRead (off n : Nat) (s : State) : State := answer (some ((List.range n).map fun i => barByte s.hg (off + i))) s

/-- The command that stands in CMD with GO = 1 runs with the arguments in ARG; one that breaks the limits of R377 gives result 2. -/
def runCommand (s : State) : Out :=
  let a := fun i => readLe s.hg.arg (8 * i) 8
  let code := s.hg.cmd.toNat % 65536
  let only := fun (n : Nat) => s.hg.arg.all fun e => decide (e.1 < n)
  let refuse : Out := .next (mailDone 2 { s with hg := { s.hg with cmd := BitVec.ofNat 64 code } })
  match code with
  | 0x01 => if only 8 && field (a 0) 63 9 == 0 && field (a 0) 7 6 == 0 then execCtxCreate (a 0 % 64) ((a 0).testBit 8) s else refuse
  | 0x02 => if only 8 && decide (a 0 < 64) then execCtxDestroy { s with obj := (a 0, 0) } else refuse
  | 0x03 => if only 8 && decide (a 0 < 4096) then execCtxSave { s with obj := (a 0, 0) } else refuse
  | 0x04 => if only 8 && field (a 0) 63 25 == 0 && field (a 0) 23 22 == 0 && field (a 0) 15 12 == 0
      then execCtxLoad (a 0 % 4096) (field (a 0) 21 16) ((a 0).testBit 24) s else refuse
  | 0x10 => if only 16 && decide (a 0 < 2 ^ 32) && decide (a 1 < 2 ^ 32) then execLogRead { s with obj := (a 0, a 1) } else refuse
  | 0x20 => if only 24 && decide (a 0 < 2 ^ 32) && decide (a 1 < 2 ^ 32) && decide (a 2 ≤ 61440) then execFwStage (a 0) (a 1) (readBytes s.hg.buf 0 (a 2)) s else refuse
  | 0x21 => if only 0 then execFwActivate s else refuse
  | 0x30 => if only 48 then execAttest (readBytes s.hg.arg 0 48) s else refuse
  | _ => execMailboxUnknownCommand { s with obj := (code, 0) }

/-- The host writes BAR0: ARG and BUF take the bytes; a write to CMD is ignored while BUSY = 1 or READY = 0, and starts the command where it sets GO. DESIGN
CHOICE (log entry 109): STS, and offsets that name no field, take nothing. -/
def barWrite (off : Nat) (bytes : List Byte) (s : State) : State :=
  let spots := bytes.zipIdx.map fun b => (off + b.2, b.1)
  let put := fun lo hi (t : Table 8) => (spots.filter fun e => decide (lo ≤ e.1) && decide (e.1 < hi)).foldl (fun t e => set0 t (e.1 - lo) e.2) t
  let s := { s with hg := { s.hg with arg := put 0x10 0x100 s.hg.arg, buf := put 0x1000 0x10000 s.hg.buf } }
  if (spots.any fun e => decide (e.1 < 8)) && mailReady s then
    let v := leNat (readBytes (put 0 8 (writeBytes [] 0 (leBytes 8 s.hg.cmd.toNat))) 0 8)
    let s := { s with hg := { s.hg with cmd := BitVec.ofNat 64 (v % 65536) } }
    if v.testBit 63 then settled s (runCommand s) else s
  else s

/-! ## Power (R381–R383) -/

/-- POWER_ARBITRATION: the arbiter estimates each die's power and grants each a share; a die over its share is throttled, which PWS shows
and the log records. -/
def execPowerArbitration (s : State) : Out :=
  let limit := regField s 0x080 0 11 0
  let shares := grantShares s.fresh ((List.range 8).map fun d => (d, limit)) limit
  let hot := (List.range 8).filter fun d => decide (shares.getD d 0 < Config.diePower (s.fresh + 1) d)
  let s := { s with fresh := s.fresh + 2, shares := shares }
  let s := regSet s 0x081 0 (BitVec.ofNat 64 (hot.map (2 ^ ·)).sum)
  .next (hot.foldl (fun s d => logEvent 8 d (shares.getD d 0) s) s)

/-- Cycles since the last step count as busy for the context that each core runs (R383). DESIGN CHOICE (log entry 129): a core is busy while it runs a
context. -/
def countBusy (s : State) : State :=
  if s.clk ≤ s.busyTo then s
  else
    let n := BitVec.ofNat 64 (s.clk - s.busyTo)
    let ks := s.sysregs.filterMap fun e => if e.1 / 65536 = 0x022 then (runs s (e.1 % 65536)).map (64 * (e.1 % 65536 / 512) + ·) else none
    { s with busy := ks.foldl (fun t k => set0 t k (get0 t k + n)) s.busy, busyTo := s.clk }

/-- Energy divided among contexts in proportion to their cycles, t in all, of which those of the contexts before sum to `b`: r, below t, says how the
shares are rounded, whose sum is e. -/
def splitEnergy (e t r : Nat) : Nat → List (Nat × Nat) → List (Nat × Nat)
  | _, [] => []
  | b, (c, n) :: rest => (c, (e * (b + n) + r) / t - (e * b + r) / t) :: splitEnergy e t r (b + n) rest

/-- Busy cycles on a die since its last charge, by context. -/
def dieBusy (s : State) (die : Nat) : List (Nat × Nat) := (s.busy.filter fun e => e.1 / 64 == die).map fun e => (e.1 % 64, e.2.toNat)

/-- ENERGY_CHARGE: a die's energy of 10 µs goes to its counter and, in proportion to their cores' busy cycles in them, to contexts (R383). -/
def execEnergyCharge (s : State) : Out :=
  let die := s.obj.1
  if 8 ≤ die then .next s
  else
    let e := Config.dieEnergy s.fresh die
    let s := regSet s 0x082 die (regGet s 0x082 die + BitVec.ofNat 64 e)
    let t := ((dieBusy s die).map (·.2)).sum
    let parts := splitEnergy e t (Config.energyRound s.fresh die % t) 0 (dieBusy s die)
    .next (parts.foldl (fun s p => regSet s 0x083 p.1 (regGet s 0x083 p.1 + BitVec.ofNat 64 p.2))
      { s with fresh := s.fresh + 1, busy := tfilter (fun k => k / 64 != die) s.busy })

/-- THERMAL_LIMIT: logged (R378). -/
def execThermalLimit (loc : Nat) (data : DWord) (s : State) : Out := .next (logEvent 7 loc data.toNat s)

/-! ## Soft errors (R257–R262) -/

/-- The gang, clause address and word index of the read that finds an error on chip: those of the operation r, where it is one of that gang's that is
outstanding, and else the word that the gang stands at (R260, R262, R265). -/
def sramReader (s : State) (g r : Nat) (x : Gang) : DWord × Nat :=
  let found := ((s.ops.find? fun o => o.id == r && o.gang == g).map fun o => (o.cpc, o.cwi)).or
    (((s.relays.find? fun o => o.id == r && o.gang == g).map fun o => (o.cpc, o.cwi)).or
      ((s.mmas.find? fun o => o.id == r && o.gang == g).map fun o => (o.cpc, o.cwi)))
  found.getD ((boundary s x).addr, (boundary s x).x + if x.inH then 16 else 0)

/-- Where the SRAM of a soft error's place stands: the slice of a line or merge entry, or the core of a gang (R378). -/
def softAt (s : State) (place g key : Nat) : Nat :=
  match place with
  | 5 | 7 => ((scOf s (key / 128)).map (·.slice)).getD 0
  | 6 => ((s.merges.filterMap fun m => (m.homes.find? (·.1 == key / 128)).map (·.2)).head?).getD 0
  | _ => (gangTeam s g).core

/-- An event of on-chip SRAM charged to the gang whose read found it, or whose engine operation's read did (R262). -/
def chargeSram (g r line loc : Nat) (s : State) : State :=
  match gangOf s g with
  | none => s
  | some x =>
    let t := teamOf s x.team
    let copy := s.copies.find? fun c => !c.remote && c.holder == clusterOf t.core && c.line == line
    let held := (scOf s line).map fun y => (y.va, y.cls)
    let (va, cls) := ((copy.map fun c => (c.va.toNat / 128, c.cls)).or held).getD (0, 0)
    let at0 := sramReader s g r x
    chargeGang g t.ctx at0.1 at0.2 0 (fun _ => 0) [{ line := line, va := va, cls := cls, bad := true, sram := true, place := loc }] s

/-- Whether a copy is the one of a gang's cluster and context of a line. -/
def ownCopy (s : State) (g line : Nat) (c : Copy) : Bool :=
  !c.remote && c.holder == clusterOf (gangTeam s g).core && c.ctx == (gangTeam s g).ctx && c.line == line

/-- The byte that a soft error of a place changes, where the place stands for a gang's v register, scratch, headrace, cluster cache, slice line, merge
entry, s register or k register: `key` is the byte's position. -/
def flipByte (place g key : Nat) (flip : Byte) (s : State) : State :=
  let t := gangTeam s g
  match place with
  | 1 => onGang s g fun x => { x with v := set0 x.v (key / 4) (get0 x.v (key / 4) ^^^ (flip.setWidth 32 <<< (8 * (key % 4)))) }
  | 2 => setTeam s { t with scratch := set0 t.scratch key (get0 t.scratch key ^^^ flip) }
  | 3 => setTeam s { t with races := t.races.map fun r => if r.num = key / 2 ^ 20 then { r with bytes := set0 r.bytes (key % 2 ^ 20) (get0 r.bytes (key % 2 ^ 20) ^^^ flip) } else r }
  | 4 => { s with copies := s.copies.map fun c => if ownCopy s g (key / 128) c && get0 c.dirty (key % 128) != 0
      then { c with bytes := set0 c.bytes (key % 128) (get0 c.bytes (key % 128) ^^^ flip) } else c }
  | 5 => { s with mem := set0 s.mem key (get0 s.mem key ^^^ flip) }
  | 8 => onGang s g fun x => { x with s := set0 x.s (key / 8) (get0 x.s (key / 8) ^^^ (flip.setWidth 64 <<< (8 * (key % 8)))) }
  | 9 => onGang s g fun x => { x with k := set0 x.k (key / 4) (get0 x.k (key / 4) ^^^ (flip.setWidth 32 <<< (8 * (key % 4)))) }
  | _ => { s with merges := s.merges.map fun m => { m with elems := m.elems.map fun e => if e.pa = key then { e with value := e.value ^^^ flip.setWidth 64, sum := e.sum + flip.toNat } else e } }

/-- Whether the place holds the only copy of the byte: a clean copy is fetched again instead (R262). -/
def onlyCopy (place g key : Nat) (s : State) : Bool :=
  match place with
  | 4 => s.copies.any fun c => ownCopy s g (key / 128) c && get0 c.dirty (key % 128) != 0
  | 5 => match scOf s (key / 128) with | some x => x.dirty.getLsbD (key % 128 / 32) | none => false
  | _ => true

/-- A clean copy with a double-bit error goes; it will be fetched again. What is dirty of the same line stays. -/
def refetch (place g key : Nat) (s : State) : State :=
  let t := gangTeam s g
  let line := key / 128
  if place = 4 then match copyOf s (clusterOf t.core) t.ctx line with
    | none => s
    | some c => if c.dirty.isEmpty then dropCopy c.holder c.ctx line s
      else setCopy { c with valid := c.dirty.foldl (fun m e => m ||| (1#128 <<< e.1)) 0 } s
  else leaveSlice line s

/-- SOFT_ERROR: place 0 is a stored byte of a memory line, whose check finds it at its next fetch (R258, R259). Any other place is on-chip
SRAM, and the step stands for the read that finds the error: one bit is corrected and logged; two bits are logged, and charged to the reading
gang, or to the gang of the engine operation place / 16 that reads, unless a clean copy, then discarded, can be fetched again. Places 7 and 10 are a dirty line of a slice
and of a cluster cache, found at its write-back with no gang: it is written as read (R262). The gang is key / 2^60, the byte's position the rest. -/
def execSoftError (place key : Nat) (flip : Byte) (s : State) : Out :=
  let g := key / 2 ^ 60
  let k := key % 2 ^ 60
  let p := place % 16
  if place = 0 then .next { s with flips := set0 s.flips key (get0 s.flips key ^^^ flip) }
  else if flip = 0 then .next s
  else if popc flip = 1 then .next (logEvent 1 (softAt s p g k) place s)
  else if p = 7 then
    match scOf s (k / 128) with
    | none => .next s
    | some x => if x.dirty = 0 then .next s
      else .next (cleanLine x.line (chargeCtx x.ctx (some { line := x.line, va := x.va, cls := x.cls, bad := true, sram := true, place := x.slice }) (flipByte 5 g k flip s)))
  else if p = 10 then
    let u := flipByte 4 g k flip s
    match u.copies.find? fun c => ownCopy u g (k / 128) c && get0 c.dirty (k % 128) != 0 with
    | none => .next s
    | some c =>
      if !wbMay s c then later (.softError place key flip) s
      else .next (writeBackCopy c (chargeCtx c.ctx (some { line := c.line, va := c.va.toNat / 128, cls := c.cls, bad := true, sram := true, place := softAt s p g k }) u))
  else if !onlyCopy p g k s then .next (refetch p g k (logEvent 2 (softAt s p g k) place s))
  else .next (chargeSram g (place / 16) (if p = 4 ∨ p = 5 ∨ p = 6 then k / 128 else 0) (softAt s p g k) (flipByte p g k flip s))

/-! ## Reset and power loss (R26, R379, R384) -/

/-- The bank that bring-up verifies: the one selected, the active one, else the other; none where neither is valid. -/
def bootBank (h : Headgate) : Option Nat :=
  let good := fun b => h.valid.getD b false && decide (h.rollback ≤ h.version.getD b 0)
  let first := h.next.getD h.bank
  if good first then some first else if good (1 - first) then some (1 - first) else none

/-- The package in reset: READY is 0 until the last step of a bring-up (R384). -/
def inReset (s : State) : State := { s with power := false, hg := { s.hg with sts := 0 } }

/-- POWER_ON_RESET: without a valid bank or with a die link that does not train, the package stays in reset. Otherwise every line and array
is zero, every register takes its reset value, CLK starts and READY is set. Flash, host memory, peers and host storage are outside the
package; so are what it has sent and the schedule. -/
def execPowerOnReset (s : State) : Out :=
  match bootBank s.hg with
  | none => .next (inReset s)
  | some b =>
    if Config.bringUpFails s.fresh then .next (inReset { logEvent 6 0 0 s with fresh := s.fresh + 1 })
    else
      let h := s.hg
      let out := fun (k : Nat) => decide (2 ≤ field k 51 49)
      let s := (s.sc.filter fun x => x.dirty != 0 && out (128 * x.line)).foldl (fun s x => discardLine x.line s) s
      .next { State.reset with
        mem := s.hostStores.foldl (fun t e => writeBytes t e.1 e.2) (tfilter out s.mem), flips := tfilter (fun k => out (k / 2)) s.flips, lineCode := tfilter (fun l => out (128 * l)) s.lineCode
        lineKey := tfilter (fun l => out (128 * l)) s.lineKey, stored := s.stored, msgs := s.msgs, answers := s.answers
        fresh := s.fresh + 1, nextId := s.nextId, sched := s.sched, turn := s.turn
        hg := { sts := 0x8000000000000000, bank := b, version := h.version, valid := h.valid, image := h.image, rollback := max h.rollback (h.version.getD b 0) } }

/-- POWER_LOSS: nothing runs until the next bring-up. A staged image is incomplete: its bank stays invalid, the active one unchanged. -/
def execPowerLoss (s : State) : Out :=
  .next (inReset { s with hg := { s.hg with staged := [] } })

end Sys2Proof.Machine
end

