-- ==== Sys2Proof/Machine/Lane.lean ====
section
/-! DEFINITION. Lane instructions (R143, R144) and mask instructions (R145). -/

namespace Sys2Proof.Machine

/-- A shuffle: each active lane takes a of the lane `src` gives, or its own (R143). B is read as 32 bits (R144), so one register serves
.b64 too (DEDUCED, log entry 88). -/
def shfl (w : AWord) (s : State) (src : Nat → Nat → Option Nat) : Out :=
  word (aLen w) w.nxt s do
    let t ← tyCheck { ty := true } .b32 bitTypes w
    let wide := tyBits t == 64
    need bad (abd w s wide false)
    .ok (putD w s wide fun l => laneA w s t ((src l (laneB32 w s l)).getD l))

def execShflIdx (w : AWord) (s : State) : Out := shfl w s fun _ b => some (b % 32)
def execShflXor (w : AWord) (s : State) : Out := shfl w s fun l b => some (l ^^^ (b % 32))
def execShflUp (w : AWord) (s : State) : Out := shfl w s fun l b => if b ≤ l then some (l - b) else none
def execShflDn (w : AWord) (s : State) : Out := shfl w s fun l b => if l + b ≤ 31 then some (l + b) else none

/-- A vote: the active lanes, and those of them whose bit b of a is set (R143, R144). `unused` are the bits of D that
must be zero. -/
def vote (w : AWord) (s : State) (unused : BitVec 7) (toK : Bool) (f : Mask → Mask → Gang → Gang) : Out :=
  word (aLen w) w.nxt s do
    let t ← tyCheck { ty := true } .b32 bitTypes w
    let wide := tyBits t == 64
    need bad (okA s.g.regs true wide w.a.toNat && decide (96 ≤ w.b.toNat) && okB s.g.regs true wide w.b.toNat
      && (w.d &&& unused) == 0 && (!toK || w.d.toNat % 8 != 0))
    let bit := laneB w s t 0
    need bad (decide (bit < tyBits t))
    let act := active s.g
    let set := maskOf fun l => act.getLsbD l && (laneA w s t l).testBit bit
    .ok { s with g := f act set s.g }

def execVoteAny (w : AWord) (s : State) : Out :=
  vote w s 0x78 true fun _ set g => kSet g (w.d.toNat % 8) (fill 32 (set != 0))
def execVoteAll (w : AWord) (s : State) : Out :=
  vote w s 0x38 true fun act set g => kSet g (w.d.toNat % 8) (fill 32 (set == act))
def execVoteBal (w : AWord) (s : State) : Out := vote w s 0x78 true fun _ set g => kSet g (w.d.toNat % 8) set
def execVoteCnt (w : AWord) (s : State) : Out :=
  vote w s 0x40 false fun _ set g => sSet g (w.d.toNat % 64) (BitVec.ofNat 64 (popc set))

/-- The checks of a reduction, and its type; RM and FTZ only for f32 `lred.add` (R144). -/
def lredCheck (w : AWord) (s : State) (rm : Bool) : Except Raised Ty := do
  let f32ty := typeCode w.pre == 12
  let t ← tyCheck { ty := true, ftz := rm && f32ty, rm := rm && f32ty } .i32 (intTypes ++ [.f32]) w
  need bad (okA s.g.regs true (tyBits t == 64) w.a.toNat && w.b == 112 && !w.d.getLsbD 6)
  .ok t

/-- The values of the active lanes, as integers. -/
def lredInts (w : AWord) (s : State) (t : Ty) : List Int :=
  (lanesOf (active s.g)).map fun l => intOf (tySigned t) (tyBits t) (laneA w s t l)

def lredVals (w : AWord) (s : State) (ftz : Bool) : List Val :=
  (lanesOf (active s.g)).map fun l => srcVal f32 ftz false false (readA s (.fp f32 false) w.la l w.a.toNat).toNat

/-- The exact sum of f32 values: a NaN decides first, so that the order of lanes does not matter (R144). DESIGN CHOICE (log entry 120): an exact zero has
the sign of its terms where they share one, and else − under RDN alone. -/
def fsumV (rdn : Bool) (vs : List Val) : Val × FFlags :=
  if vs.any Val.isNan then (.nan false, { nv := vs.any Val.isSig })
  else match vs with
    | [] => (ofInt 0, {})
    | v :: vs => vs.foldl (fun acc x => let r := vadd rdn acc.1 x; (r.1, r.2.or acc.2)) (v, {})

/-- The f32 result of a reduction, zero-extended, with its flags (R108, R119). -/
def putRed (w : AWord) (s : State) (r : Nat × FFlags) : State :=
  { s with g := setFlags r.2 (sSet s.g (w.d.toNat % 64) (BitVec.ofNat 64 r.1)) }

/-- `lred.add` (R144). -/
def execLredAdd (w : AWord) (s : State) : Out :=
  word (aLen w) w.nxt s do
    let t ← lredCheck w s true
    if t = .f32 then
      let ftz := ftzOf s w.pre
      let mode := modeOf s w.pre
      let v := fsumV (mode == .rdn) (lredVals w s ftz)
      let r := fpRound f32 mode false ftz 1 (fun _ => v.1) 0
      .ok (putRed w s (r.1, r.2.or v.2))
    else .ok { s with g := writeS t (w.d.toNat % 64) (modPow (lredInts w s t).sum (tyBits t)) s.g }

/-- Least or greatest f32 value of the active lanes, as R132; ±∞ for none (R144). -/
def fredV (isMax : Bool) (vs : List Val) : Nat × FFlags :=
  match vs with
  | [] => (signBit f32 isMax + infCode f32, {})
  | v :: vs =>
    let r := vs.foldl (fun acc x => let m := fminmaxV f32 isMax (decodeF f32 acc.1) x; (m.1, m.2.or acc.2))
      (if v.isNan then nanCode f32 else (rnd f32 .rne false 0 v).1, ({ nv := v.isSig } : FFlags))
    r

/-- `lred.min` and `lred.max` (R144). -/
def lredMM (w : AWord) (s : State) (isMax : Bool) : Out :=
  word (aLen w) w.nxt s do
    let t ← lredCheck w s false
    if t = .f32 then .ok (putRed w s (fredV isMax (lredVals w s false)))
    else
      let sg := tySigned t
      let n := tyBits t
      let start := if isMax then intMin sg n else intMax sg n
      let r := (lredInts w s t).foldl (fun m x => if isMax then Max.max m x else Min.min m x) start
      .ok { s with g := writeS t (w.d.toNat % 64) (modPow r n) s.g }

def execLredMin (w : AWord) (s : State) : Out := lredMM w s false
def execLredMax (w : AWord) (s : State) : Out := lredMM w s true

/-- `lscan.add`: an inclusive scan over the active lanes (R143). -/
def execLscanAdd (w : AWord) (s : State) : Out :=
  word (aLen w) w.nxt s do
    let t ← tyCheck { ty := true } .i32 intTypes w
    let wide := tyBits t == 64
    need bad (abd w s wide wide && w.b == 112)
    let ls := lanesOf (active s.g)
    .ok (putD w s wide fun l => ((ls.filter (· ≤ l)).map fun j => laneA w s t j).sum % 2 ^ tyBits t)

/-- `lmatch`: the active lanes with an equal value, in 32 bits (R143). -/
def execLmatch (w : AWord) (s : State) : Out :=
  word (aLen w) w.nxt s do
    let t ← tyCheck { ty := true } .b32 bitTypes w
    need bad (okA s.g.regs true (tyBits t == 64) w.a.toNat && w.b == 112 && vregOk s.g.regs false w.d.toNat)
    let act := active s.g
    .ok (putD w s false fun l => (maskOf fun j => act.getLsbD j && laneA w s t j == laneA w s t l).toNat)

/-! ## Mask forms (R145) -/

/-- A form with a k destination; `unused` are the bits of D that must be zero. -/
def maskK (w : AWord) (s : State) (unused : BitVec 7) (twoSrc : Bool) (f : Mask → Mask → Mask) : Out :=
  word (aLen w) w.nxt s do
    need bad (modOk {} w.pre && decide (w.a.toNat < 8) && (if twoSrc then decide (w.b.toNat < 8) else w.b == 0)
      && (w.d &&& unused) == 0 && w.d.toNat % 8 != 0)
    .ok { s with g := kSet s.g (w.d.toNat % 8) (f (kGet s.g w.a.toNat) (kGet s.g w.b.toNat)) }

def execKand (w : AWord) (s : State) : Out := maskK w s 0x08 true (· &&& ·)
def execKor (w : AWord) (s : State) : Out := maskK w s 0x08 true (· ||| ·)
def execKxor (w : AWord) (s : State) : Out := maskK w s 0x08 true (· ^^^ ·)
def execKnot (w : AWord) (s : State) : Out := maskK w s 0x08 false fun a _ => ~~~a
def execKmov (w : AWord) (s : State) : Out := maskK w s 0x08 false fun a _ => a

/-- A form with an s destination. -/
def maskS (w : AWord) (s : State) (f : Mask → Nat) : Out :=
  word (aLen w) w.nxt s do
    need bad (modOk {} w.pre && decide (w.a.toNat < 8) && w.b == 0)
    .ok { s with g := sSet s.g (w.d.toNat % 64) (BitVec.ofNat 64 (f (kGet s.g w.a.toNat))) }

def execKpop (w : AWord) (s : State) : Out := maskS w s popc
def execKffs (w : AWord) (s : State) : Out := maskS w s lowLane
def execK2s (w : AWord) (s : State) : Out := maskS w s BitVec.toNat

/-- `s2k` (R145). -/
def execS2k (w : AWord) (s : State) : Out :=
  word (aLen w) w.nxt s do
    let c := w.a.toNat
    need bad (modOk {} w.pre && ((decide (128 ≤ c) && decide (c < 224)) || c == 240) && w.b == 0
      && (w.d &&& 0x38) == 0 && w.d.toNat % 8 != 0)
    .ok { s with g := kSet s.g (w.d.toNat % 8) ((readA s (.int 32) w.la 0 c).truncate 32) }

end Sys2Proof.Machine
end

