-- ==== Sys2Proof/Machine/Dispatch.lean ====
section
/-! DEFINITION. One arm per constructor of `Instr`: the one place that says which meaning a row of the opcode table has. -/

namespace Sys2Proof.Machine

def exec (i : Instr) (s : State) : Host.Outcome State Fault Refusal :=
  match i with
  | .sadd w => Sys2Proof.Machine.execSadd w s
  | .ssub w => Sys2Proof.Machine.execSsub w s
  | .smul w => Sys2Proof.Machine.execSmul w s
  | .smulh w => Sys2Proof.Machine.execSmulh w s
  | .sand w => Sys2Proof.Machine.execSand w s
  | .sor w => Sys2Proof.Machine.execSor w s
  | .sxor w => Sys2Proof.Machine.execSxor w s
  | .sshl w => Sys2Proof.Machine.execSshl w s
  | .sshr w => Sys2Proof.Machine.execSshr w s
  | .ssar w => Sys2Proof.Machine.execSsar w s
  | .smin w => Sys2Proof.Machine.execSmin w s
  | .smax w => Sys2Proof.Machine.execSmax w s
  | .scmp w => Sys2Proof.Machine.execScmp w s
  | .smov w => Sys2Proof.Machine.execSmov w s
  | .sbfx w => Sys2Proof.Machine.execSbfx w s
  | .sclz w => Sys2Proof.Machine.execSclz w s
  | .spop w => Sys2Proof.Machine.execSpop w s
  | .sld w => Sys2Proof.Machine.execSld w s
  | .meet w => Sys2Proof.Machine.execMeet w s
  | .setlc w => Sys2Proof.Machine.execSetlc w s
  | .nop w => Sys2Proof.Machine.execNop w s
  | .yield w => Sys2Proof.Machine.execYield w s
  | .exit w => Sys2Proof.Machine.execExit w s
  | .compact w => Sys2Proof.Machine.execCompact w s
  | .sleepUntil w => Sys2Proof.Machine.execSleepUntil w s
  | .sleepR w => Sys2Proof.Machine.execSleepR w s
  | .brk w => Sys2Proof.Machine.execBrk w s
  | .trap w => Sys2Proof.Machine.execTrap w s
  | .add w => Sys2Proof.Machine.execAdd w s
  | .sub w => Sys2Proof.Machine.execSub w s
  | .adds w => Sys2Proof.Machine.execAdds w s
  | .subs w => Sys2Proof.Machine.execSubs w s
  | .addc w => Sys2Proof.Machine.execAddc w s
  | .mulLo w => Sys2Proof.Machine.execMulLo w s
  | .mulHi w => Sys2Proof.Machine.execMulHi w s
  | .mad w => Sys2Proof.Machine.execMad w s
  | .min w => Sys2Proof.Machine.execMin w s
  | .max w => Sys2Proof.Machine.execMax w s
  | .abs w => Sys2Proof.Machine.execAbs w s
  | .and w => Sys2Proof.Machine.execAnd w s
  | .or w => Sys2Proof.Machine.execOr w s
  | .xor w => Sys2Proof.Machine.execXor w s
  | .not w => Sys2Proof.Machine.execNot w s
  | .shl w => Sys2Proof.Machine.execShl w s
  | .shr w => Sys2Proof.Machine.execShr w s
  | .sar w => Sys2Proof.Machine.execSar w s
  | .rot w => Sys2Proof.Machine.execRot w s
  | .bfx w => Sys2Proof.Machine.execBfx w s
  | .bfi w => Sys2Proof.Machine.execBfi w s
  | .popc w => Sys2Proof.Machine.execPopc w s
  | .clz w => Sys2Proof.Machine.execClz w s
  | .ctz w => Sys2Proof.Machine.execCtz w s
  | .brev w => Sys2Proof.Machine.execBrev w s
  | .sel w => Sys2Proof.Machine.execSel w s
  | .cmp w => Sys2Proof.Machine.execCmp w s
  | .dot4 w => Sys2Proof.Machine.execDot4 w s
  | .dot2 w => Sys2Proof.Machine.execDot2 w s
  | .hmix w => Sys2Proof.Machine.execHmix w s
  | .lut3 w => Sys2Proof.Machine.execLut3 w s
  | .fadd w => Sys2Proof.Machine.execFadd w s
  | .fsub w => Sys2Proof.Machine.execFsub w s
  | .fmul w => Sys2Proof.Machine.execFmul w s
  | .ffma w => Sys2Proof.Machine.execFfma w s
  | .fmin w => Sys2Proof.Machine.execFmin w s
  | .fmax w => Sys2Proof.Machine.execFmax w s
  | .fcmp w => Sys2Proof.Machine.execFcmp w s
  | .fdiv w => Sys2Proof.Machine.execFdiv w s
  | .frcp w => Sys2Proof.Machine.execFrcp w s
  | .fsqrt w => Sys2Proof.Machine.execFsqrt w s
  | .frsq w => Sys2Proof.Machine.execFrsq w s
  | .fexp2 w => Sys2Proof.Machine.execFexp2 w s
  | .flog2 w => Sys2Proof.Machine.execFlog2 w s
  | .fclass w => Sys2Proof.Machine.execFclass w s
  | .fscale w => Sys2Proof.Machine.execFscale w s
  | .frnd w => Sys2Proof.Machine.execFrnd w s
  | .ffrac w => Sys2Proof.Machine.execFfrac w s
  | .fabsdiff w => Sys2Proof.Machine.execFabsdiff w s
  | .fsum4 w => Sys2Proof.Machine.execFsum4 w s
  | .cvt w => Sys2Proof.Machine.execCvt w s
  | .cvtSr w => Sys2Proof.Machine.execCvtSr w s
  | .pack w => Sys2Proof.Machine.execPack w s
  | .unpack w => Sys2Proof.Machine.execUnpack w s
  | .qdeq w => Sys2Proof.Machine.execQdeq w s
  | .qenc w => Sys2Proof.Machine.execQenc w s
  | .bexp w => Sys2Proof.Machine.execBexp w s
  | .bscale w => Sys2Proof.Machine.execBscale w s
  | .shflIdx w => Sys2Proof.Machine.execShflIdx w s
  | .shflXor w => Sys2Proof.Machine.execShflXor w s
  | .shflUp w => Sys2Proof.Machine.execShflUp w s
  | .shflDn w => Sys2Proof.Machine.execShflDn w s
  | .voteAny w => Sys2Proof.Machine.execVoteAny w s
  | .voteAll w => Sys2Proof.Machine.execVoteAll w s
  | .voteBal w => Sys2Proof.Machine.execVoteBal w s
  | .voteCnt w => Sys2Proof.Machine.execVoteCnt w s
  | .lredAdd w => Sys2Proof.Machine.execLredAdd w s
  | .lredMin w => Sys2Proof.Machine.execLredMin w s
  | .lredMax w => Sys2Proof.Machine.execLredMax w s
  | .lscanAdd w => Sys2Proof.Machine.execLscanAdd w s
  | .lmatch w => Sys2Proof.Machine.execLmatch w s
  | .kand w => Sys2Proof.Machine.execKand w s
  | .kor w => Sys2Proof.Machine.execKor w s
  | .kxor w => Sys2Proof.Machine.execKxor w s
  | .knot w => Sys2Proof.Machine.execKnot w s
  | .kmov w => Sys2Proof.Machine.execKmov w s
  | .kpop w => Sys2Proof.Machine.execKpop w s
  | .kffs w => Sys2Proof.Machine.execKffs w s
  | .k2s w => Sys2Proof.Machine.execK2s w s
  | .s2k w => Sys2Proof.Machine.execS2k w s
  | .ld w => Sys2Proof.Machine.execLd w s
  | .st w => Sys2Proof.Machine.execSt w s
  | .ldu w => Sys2Proof.Machine.execLdu w s
  | .lds w => Sys2Proof.Machine.execLds w s
  | .sts w => Sys2Proof.Machine.execSts w s
  | .pref w => Sys2Proof.Machine.execPref w s
  | .atomAdd w => Sys2Proof.Machine.execAtomAdd w s
  | .atomMin w => Sys2Proof.Machine.execAtomMin w s
  | .atomMax w => Sys2Proof.Machine.execAtomMax w s
  | .atomAnd w => Sys2Proof.Machine.execAtomAnd w s
  | .atomOr w => Sys2Proof.Machine.execAtomOr w s
  | .atomXor w => Sys2Proof.Machine.execAtomXor w s
  | .atomXchg w => Sys2Proof.Machine.execAtomXchg w s
  | .atomCas w => Sys2Proof.Machine.execAtomCas w s
  | .atomFadd w => Sys2Proof.Machine.execAtomFadd w s
  | .atomBinc w => Sys2Proof.Machine.execAtomBinc w s
  | .atomBfins w => Sys2Proof.Machine.execAtomBfins w s
  | .atomFfcs w => Sys2Proof.Machine.execAtomFfcs w s
  | .atomPlset w => Sys2Proof.Machine.execAtomPlset w s
  | .stAcc w => Sys2Proof.Machine.execStAcc w s
  | .weir w => Sys2Proof.Machine.execWeir w s
  | .fenceRel w => Sys2Proof.Machine.execFenceRel w s
  | .fenceAcq w => Sys2Proof.Machine.execFenceAcq w s
  | .clean w => Sys2Proof.Machine.execClean w s
  | .inval w => Sys2Proof.Machine.execInval w s
  | .cleanDiscard w => Sys2Proof.Machine.execCleanDiscard w s
  | .stn w => Sys2Proof.Machine.execStn w s
  | .stnBlk w => Sys2Proof.Machine.execStnBlk w s
  | .rlq w => Sys2Proof.Machine.execRlq w s
  | .pin w => Sys2Proof.Machine.execPin w s
  | .unpin w => Sys2Proof.Machine.execUnpin w s
  | .ldt w => Sys2Proof.Machine.execLdt w s
  | .stt w => Sys2Proof.Machine.execStt w s
  | .hrBind w => Sys2Proof.Machine.execHrBind w s
  | .hrFree w => Sys2Proof.Machine.execHrFree w s
  | .mma w => Sys2Proof.Machine.execMma w s
  | .mmaThin w => Sys2Proof.Machine.execMmaThin w s
  | .mmaQ w => Sys2Proof.Machine.execMmaQ w s
  | .accInit w => Sys2Proof.Machine.execAccInit w s
  | .accDrop w => Sys2Proof.Machine.execAccDrop w s
  | .cisArm w => Sys2Proof.Machine.execCisArm w s
  | .cisSub w => Sys2Proof.Machine.execCisSub w s
  | .cisWait w => Sys2Proof.Machine.execCisWait w s
  | .cisRd w => Sys2Proof.Machine.execCisRd w s
  | .cisRearm w => Sys2Proof.Machine.execCisRearm w s
  | .laySet w => Sys2Proof.Machine.execLaySet w s
  | .layGet w => Sys2Proof.Machine.execLayGet w s
  | .layChk w => Sys2Proof.Machine.execLayChk w s
  | .layPlace w => Sys2Proof.Machine.execLayPlace w s
  | .layFree w => Sys2Proof.Machine.execLayFree w s
  | .relayMv w => Sys2Proof.Machine.execRelayMv w s
  | .relayCp w => Sys2Proof.Machine.execRelayCp w s
  | .relayGx w => Sys2Proof.Machine.execRelayGx w s
  | .relayWait w => Sys2Proof.Machine.execRelayWait w s
  | .barInit w => Sys2Proof.Machine.execBarInit w s
  | .barArr w => Sys2Proof.Machine.execBarArr w s
  | .barArd w => Sys2Proof.Machine.execBarArd w s
  | .barC w => Sys2Proof.Machine.execBarC w s
  | .amsgSend w => Sys2Proof.Machine.execAmsgSend w s
  | .amsgPay w => Sys2Proof.Machine.execAmsgPay w s
  | .cnlRes w => Sys2Proof.Machine.execCnlRes w s
  | .cnlPub w => Sys2Proof.Machine.execCnlPub w s
  | .cnlTake w => Sys2Proof.Machine.execCnlTake w s
  | .cnlRel w => Sys2Proof.Machine.execCnlRel w s
  | .latSub w => Sys2Proof.Machine.execLatSub w s
  | .latEnd w => Sys2Proof.Machine.execLatEnd w s
  | .sysrd w => Sys2Proof.Machine.execSysrd w s
  | .syswr w => Sys2Proof.Machine.execSyswr w s
  | .launch w => Sys2Proof.Machine.execLaunch w s
  | .tret w => Sys2Proof.Machine.execTret w s
  | .trec w => Sys2Proof.Machine.execTrec w s
  | .bnkMode w => Sys2Proof.Machine.execBnkMode w s
  | .keyNew w => Sys2Proof.Machine.execKeyNew w s
  | .keyDelDrain w => Sys2Proof.Machine.execKeyDelDrain w s
  | .keyDelScuttle w => Sys2Proof.Machine.execKeyDelScuttle w s
  | .errbRd w => Sys2Proof.Machine.execErrbRd w s
  | .errbSet w => Sys2Proof.Machine.execErrbSet w s
  | .ctxSaveInstr w => Sys2Proof.Machine.execCtxSaveInstr w s
  | .ctxLoadInstr w => Sys2Proof.Machine.execCtxLoadInstr w s
  | .memwr addr bytes => Sys2Proof.Machine.execMemwr addr bytes s
  | .memwrptl addr bytes => Sys2Proof.Machine.execMemwrptl addr bytes s
  | .configRequest reg val => Sys2Proof.Machine.execConfigRequest reg val s
  | .msixTableAccess off val => Sys2Proof.Machine.execMsixTableAccess off val s
  | .peerAccess port addr op w ty g0 g1 bytes => Sys2Proof.Machine.execPeerAccess port addr op w ty g0 g1 bytes s
  | .stackLoadReport loads => Sys2Proof.Machine.execStackLoadReport loads s
  | .peerMessage port send core team target ctl gts bytes => Sys2Proof.Machine.execPeerMessage port send core team target ctl gts bytes s
  | .rwrWrite slice val => Sys2Proof.Machine.execRwrWrite slice val s
  | .tinvWrite val => Sys2Proof.Machine.execTinvWrite val s
  | .ircReshape val => Sys2Proof.Machine.execIrcReshape val s
  | .queueEnable q val => Sys2Proof.Machine.execQueueEnable q val s
  | .poolEnable inst val => Sys2Proof.Machine.execPoolEnable inst val s
  | .poolDisable inst val => Sys2Proof.Machine.execPoolDisable inst val s
  | .canalEnable c val => Sys2Proof.Machine.execCanalEnable c val s
  | .canalDisable c val => Sys2Proof.Machine.execCanalDisable c val s
  | .storageRingEnable val => Sys2Proof.Machine.execStorageRingEnable val s
  | .storageRequestWrite op size host handle => Sys2Proof.Machine.execStorageRequestWrite op size host handle s
  | .ctxCreate ctx sup => Sys2Proof.Machine.execCtxCreate ctx sup s
  | .ctxLoad core ctx sw => Sys2Proof.Machine.execCtxLoad core ctx sw s
  | .fwStage total off piece => Sys2Proof.Machine.execFwStage total off piece s
  | .attest nonce => Sys2Proof.Machine.execAttest nonce s
  | .softError place key flip => Sys2Proof.Machine.execSoftError place key flip s
  | .thermalLimit loc data => Sys2Proof.Machine.execThermalLimit loc data s
  | .clauseIssue => Sys2Proof.Machine.execClauseIssue s
  | .longLatencyTimeout => Sys2Proof.Machine.execLongLatencyTimeout s
  | .activeSetFill => Sys2Proof.Machine.execActiveSetFill s
  | .starvation => Sys2Proof.Machine.execStarvation s
  | .exchangeByWaiting => Sys2Proof.Machine.execExchangeByWaiting s
  | .gangEnd => Sys2Proof.Machine.execGangEnd s
  | .teamEnd => Sys2Proof.Machine.execTeamEnd s
  | .compactRepack => Sys2Proof.Machine.execCompactRepack s
  | .teamDispatch => Sys2Proof.Machine.execTeamDispatch s
  | .migrationAdvertise => Sys2Proof.Machine.execMigrationAdvertise s
  | .migrationOffer => Sys2Proof.Machine.execMigrationOffer s
  | .migrationArrival => Sys2Proof.Machine.execMigrationArrival s
  | .queueTailUpdate => Sys2Proof.Machine.execQueueTailUpdate s
  | .recordFetch => Sys2Proof.Machine.execRecordFetch s
  | .launchRecordStart => Sys2Proof.Machine.execLaunchRecordStart s
  | .edgeDoneWake => Sys2Proof.Machine.execEdgeDoneWake s
  | .gridWordResolve => Sys2Proof.Machine.execGridWordResolve s
  | .residencyLeaseGrant => Sys2Proof.Machine.execResidencyLeaseGrant s
  | .pagePromotion => Sys2Proof.Machine.execPagePromotion s
  | .taskCompletion => Sys2Proof.Machine.execTaskCompletion s
  | .orphanCause => Sys2Proof.Machine.execOrphanCause s
  | .homeLoad => Sys2Proof.Machine.execHomeLoad s
  | .loadReply => Sys2Proof.Machine.execLoadReply s
  | .homeStore => Sys2Proof.Machine.execHomeStore s
  | .atomicAtHome => Sys2Proof.Machine.execAtomicAtHome s
  | .storeTimeReturn => Sys2Proof.Machine.execStoreTimeReturn s
  | .weirPoll => Sys2Proof.Machine.execWeirPoll s
  | .lineFetch => Sys2Proof.Machine.execLineFetch s
  | .evictionWriteback => Sys2Proof.Machine.execEvictionWriteback s
  | .movedReply => Sys2Proof.Machine.execMovedReply s
  | .memrd => Sys2Proof.Machine.execMemrd s
  | .snpinv => Sys2Proof.Machine.execSnpinv s
  | .snpdata => Sys2Proof.Machine.execSnpdata s
  | .snpcur => Sys2Proof.Machine.execSnpcur s
  | .unsupportedRequest => Sys2Proof.Machine.execUnsupportedRequest s
  | .relayAccept => Sys2Proof.Machine.execRelayAccept s
  | .relaySectorLand => Sys2Proof.Machine.execRelaySectorLand s
  | .relayPassComplete => Sys2Proof.Machine.execRelayPassComplete s
  | .relayCompletion => Sys2Proof.Machine.execRelayCompletion s
  | .sleepWake => Sys2Proof.Machine.execSleepWake s
  | .mmaAccept => Sys2Proof.Machine.execMmaAccept s
  | .mmaCompletion => Sys2Proof.Machine.execMmaCompletion s
  | .contributionArrival => Sys2Proof.Machine.execContributionArrival s
  | .contributionReply => Sys2Proof.Machine.execContributionReply s
  | .accInitSlice => Sys2Proof.Machine.execAccInitSlice s
  | .accInitReply => Sys2Proof.Machine.execAccInitReply s
  | .accDropSlice => Sys2Proof.Machine.execAccDropSlice s
  | .headraceRelease => Sys2Proof.Machine.execHeadraceRelease s
  | .namelessStoreChoice => Sys2Proof.Machine.execNamelessStoreChoice s
  | .nameReturn => Sys2Proof.Machine.execNameReturn s
  | .rlqApply => Sys2Proof.Machine.execRlqApply s
  | .pinPromotion => Sys2Proof.Machine.execPinPromotion s
  | .windowFade => Sys2Proof.Machine.execWindowFade s
  | .lateralBatchTimeout => Sys2Proof.Machine.execLateralBatchTimeout s
  | .lateralBatchApply => Sys2Proof.Machine.execLateralBatchApply s
  | .lateralSubReply => Sys2Proof.Machine.execLateralSubReply s
  | .cohortArrival => Sys2Proof.Machine.execCohortArrival s
  | .cohortCompletionDelivery => Sys2Proof.Machine.execCohortCompletionDelivery s
  | .messageSend => Sys2Proof.Machine.execMessageSend s
  | .inboxAccept => Sys2Proof.Machine.execInboxAccept s
  | .handlerSpawn => Sys2Proof.Machine.execHandlerSpawn s
  | .payloadDelivery => Sys2Proof.Machine.execPayloadDelivery s
  | .trapEntry => Sys2Proof.Machine.execTrapEntry s
  | .watchdog => Sys2Proof.Machine.execWatchdog s
  | .extTimeout => Sys2Proof.Machine.execExtTimeout s
  | .spillComplete => Sys2Proof.Machine.execSpillComplete s
  | .fillComplete => Sys2Proof.Machine.execFillComplete s
  | .deferredTeamPlacement => Sys2Proof.Machine.execDeferredTeamPlacement s
  | .bankModeComplete => Sys2Proof.Machine.execBankModeComplete s
  | .rwrChangeComplete => Sys2Proof.Machine.execRwrChangeComplete s
  | .tlbWalk => Sys2Proof.Machine.execTlbWalk s
  | .tinvComplete => Sys2Proof.Machine.execTinvComplete s
  | .demotion => Sys2Proof.Machine.execDemotion s
  | .hotPagePromotion => Sys2Proof.Machine.execHotPagePromotion s
  | .accessCountInterval => Sys2Proof.Machine.execAccessCountInterval s
  | .pageMove => Sys2Proof.Machine.execPageMove s
  | .classChangeMigration => Sys2Proof.Machine.execClassChangeMigration s
  | .reshapeHandoff => Sys2Proof.Machine.execReshapeHandoff s
  | .storageAck => Sys2Proof.Machine.execStorageAck s
  | .powerArbitration => Sys2Proof.Machine.execPowerArbitration s
  | .energyCharge => Sys2Proof.Machine.execEnergyCharge s
  | .powerOnReset => Sys2Proof.Machine.execPowerOnReset s
  | .ctxDestroy => Sys2Proof.Machine.execCtxDestroy s
  | .ctxSave => Sys2Proof.Machine.execCtxSave s
  | .logRead => Sys2Proof.Machine.execLogRead s
  | .fwActivate => Sys2Proof.Machine.execFwActivate s
  | .mailboxUnknownCommand => Sys2Proof.Machine.execMailboxUnknownCommand s
  | .powerLoss => Sys2Proof.Machine.execPowerLoss s
  | .accDropReply => Sys2Proof.Machine.execAccDropReply s
  | .keyDelComplete => Sys2Proof.Machine.execKeyDelComplete s
  | .writebackAtHome => Sys2Proof.Machine.execWritebackAtHome s
  | .peerPortAccept => Sys2Proof.Machine.execPeerPortAccept s

end Sys2Proof.Machine
end

