-- ==== Sys2Proof/Machine/Schedule.lean ====
section
/-! DEFINITION. Which agent moves next: the order of R50 and the plan of one step. The schedule is plain data of the state; where it is empty a default order holds. No
value an instruction computes depends on which step comes first, but for what the manual itself leaves to timing. -/

namespace Sys2Proof.Machine

/-! ## Readiness as time passes (R51, R53) -/

/-- Since when a gang has been ready: as it was, from now, or not at all. A gang that cannot tell whether its word can be taken without trying
it counts as ready in the pending set alone (log entry 79). -/
def markReady (s : State) (x : Gang) : Gang :=
  let r := if x.active then x.wait != .room && readyGang s x.gid else pendingReady s x
  { x with readyFrom := if r then x.readyFrom.or (some s.clk) else none, starved := x.starved && r }

/-- Gangs, the oldest first. -/
def insertAge (x : Gang) : List Gang → List Gang
  | [] => [x]
  | y :: ys => if y.age ≤ x.age then y :: insertAge x ys else x :: y :: ys
def byAge (gs : List Gang) : List Gang := gs.foldr insertAge []

/-- Gangs at trap priority that are in no active set. -/
def trapsWaiting (s : State) : List Gang := (allGangs s).filter fun x => x.prio && !x.active && x.place == .running

/-- What the last step has made of the two sets, before anything else moves: a gang that has just met a long-latency dependence gives its place
(R51), gangs at trap priority enter, the oldest first (R52), and the readiness of every gang is marked (R53). It changes no architectural state. -/
def settleSets (s : State) : State :=
  let s := if s.g.longLat then exchange s.g { s with g := { s.g with longLat := false } } else s
  let s := (byAge (trapsWaiting s)).foldl (fun s x => pinTrap x.gid s) s
  { s with g := markReady s s.g, gangs := s.gangs.map (markReady s) }

/-! ## The order of R50 within a quarter -/

/-- The gang of a quarter that issued last, if it has been ready ever since. DEDUCED (log entries 5 and 79): the quarters take their cc in turn, so that it
is the one that issued in its quarter's previous cc (R50). -/
def lastIn (gs : List Gang) : Option Gang :=
  (gs.foldl (fun m x => match m with
    | none => if x.lastIssue = 0 then none else some x
    | some y => if y.lastIssue < x.lastIssue then some x else some y) none).filter fun x => x.readyFrom == some x.lastIssue

/-- The gang that a quarter issues from: the oldest ready one at trap priority; else the one starved longest; else the one that issued last;
else the oldest. Gangs that try again a word that had to wait come last, but for each sixteenth cc in which no gang at trap priority is ready
(log entry 79). -/
def pickIn (s : State) (gs : List Gang) : Option Gang :=
  let all := gs.filter fun g => readyGang s g.gid
  let rs := all.filter fun g => g.wait != .room
  let tries := all.filter fun g => g.wait == .room
  match oldest (rs.filter (·.prio)) with
  | some g => some g
  | none =>
    if s.clk % 16 = 0 ∧ !tries.isEmpty then tries[s.clk / 16 % tries.length]?
    else match leastGang (fun x => x.readyFrom.getD 0) (rs.filter (·.starved)) with
    | some g => some g
    | none => match (lastIn gs).filter fun x => rs.any (·.gid == x.gid) with
      | some g => some g
      | none => match oldest rs with
        | some g => some g
        | none => leastGang (·.waitFrom) tries

/-- Of numbered things that take turns, the next one round. -/
def nextRound (after : Nat) (ks : List Nat) : Option Nat :=
  match minOf (ks.filter (after < ·)) with
  | some k => some k
  | none => minOf ks

/-- A quarter's number in the package. -/
def quarterOf (s : State) (x : Gang) : Nat := 4 * (teamOf s x.team).core + x.quarter

/-- The gang that issues next in the default order: the quarters that have one take turns. -/
def pickGang (s : State) : Option Nat :=
  let ready := (allGangs s).filter fun x => readyGang s x.gid
  match nextRound (quarterOf s s.g) (ready.map (quarterOf s)) with
  | none => none
  | some q => (ready.find? fun x => quarterOf s x == q).bind fun x => (pickIn s (besides s x)).map (·.gid)

/-! ## The plan of one step -/

/-- An instruction or event to run in a state, or the state a step without a row of its own leaves. -/
abbrev Plan := Sum (Instr × State) State

/-- Whether gang g may issue now: it is the one its quarter issues from (R50). -/
def mayIssue (s : State) (g : Nat) : Bool :=
  match gangOf s g with
  | none => false
  | some x => readyGang s g && (match pickIn s (besides s x) with | some y => y.gid == g | none => false)

/-- The moving gang issues: it goes on from its wait, begins a clause, or runs its next word. -/
def planIssue (s : State) : Plan :=
  if s.g.wake.isSome || phasePassed s s.g then .inr (finishWait s)
  else if s.g.cl.x = 0 then .inl (.clauseIssue, s)
  else
    let s := if s.g.wait == .room then s else { s with g := { s.g with wait := .none } }
    let nxt := ((nextWords s.g).headD 0).truncate 2
    match decodeWords (s.g.cl.words.drop (s.g.cl.x - 1)) with
    | .ok (i, _) => .inl (i, s)
    | .error .selector => .inr (raised (if exitRefused s.g nxt then plain .illegalClause else bad) s)
    | .error .opcode => .inr (raised (plain .illegalOpcode) s)
    | .error .form => .inr (raised (plain .illegalClause) s)

/-- Whether a row of the table is a device step and no instruction word. -/
def isEvent (i : Instr) : Bool := (encode i).isEmpty

/-- A choice of the schedule, already taken off it. A choice that is not possible passes a cc. -/
def planChoice (c : Choice) (s : State) : Plan :=
  let idle : Plan := .inr { s with clk := s.clk + 1 }
  match c with
  | .issue g => if mayIssue s g then planIssue (switchTo s g) else idle
  | .due k => match s.agenda[k]? with
    | some (e, a, b) => .inl (e, { s with agenda := s.agenda.eraseIdx k, obj := (a, b) })
    | none => idle
  | .event e a b => if isEvent e then .inl (e, { s with obj := (a, b) }) else idle
  | .tick n => .inr { s with clk := s.clk + n }
  | .dropCode c => .inr { s with icache := s.icache.filter (·.1 != c) }
  | .dropTlb c => .inr { s with tlb := s.tlb.filter (·.core != c) }
  | .host a bytes => .inr (hostStore a bytes s)
  | .barRead off n => .inr (barRead off n s)
  | .barWrite off bytes => .inr (barWrite off bytes s)

/-- A pending gang that is ready: it enters the active set where that has room, or by waiting, one of each in a cc (R51, R53). -/
def planPending (s : State) : Option Plan :=
  let ps := (allGangs s).filter (pendingReady s)
  let place := fun (x : Gang) => ((teamOf s x.team).core, x.quarter)
  match ps.find? fun x => decide ((besides s x).countP (·.active) < 8) && !justEntered s (besides s x) 1 with
  | some x => some (.inl (.activeSetFill, { s with obj := place x }))
  | none => (ps.find? fun x => readyFor s x 256 && ((besides s x).any fun y => y.active && !y.prio) && !justEntered s (besides s x) 2).map fun x =>
      .inl (.exchangeByWaiting, { s with obj := place x })

/-- An active gang that R53 calls starved, or one that has been stalled for long while a pending one is ready (R51). -/
def planFair (s : State) : Option Plan :=
  let gs := (allGangs s).filter fun g => g.active && !g.prio
  match gs.find? fun g => !g.starved && readyFor s g 16 && readyGang s g.gid with
  | some g => some (.inl (.starvation, { s with obj := (g.gid, 0) }))
  | none =>
    let late := gs.find? fun g => decide (g.waitFrom + 32 ≤ s.clk) && stalled s g && (besides s g).any (pendingReady s)
    late.map fun g => .inl (.longLatencyTimeout, { s with obj := (g.gid, 0) })

/-- The default order: due steps, then gangs, in turn; else a cc passes. -/
def planDefault (s : State) : Plan :=
  let s := { s with turn := !s.turn }
  match s.turn, s.agenda with
  | false, (e, a, b) :: rest => .inl (e, { s with agenda := rest, obj := (a, b) })
  | _, _ => match planPending s with
    | some p => p
    | none => match planFair s with
      | some p => p
      | none => match pickGang s with
        | some g => planIssue (switchTo s g)
        | none => .inr { s with clk := s.clk + 1 }

/-- What the next step does, once the cycles are counted and the sets settled. Without power only POWER_ON_RESET can (R384); `none`: nothing. -/
def plan (s : State) : Option Plan :=
  let s := settleSets (countBusy s)
  match s.sched with
  | c :: r => if s.power || c == .event .powerOnReset 0 0 then some (planChoice c { s with sched := r }) else none
  | [] => if s.power then some (planDefault s) else none

/-! ## A word placed where the next step fetches -/

/-- The instruction of a table word as the clause in progress of a new gang: a resident context, task and team, every lane
live, every register allocated, on a core of its own, the class that the opcode asks for; the schedule names that gang next. It stands for all
that brings a program in: a context, a queue, a record, a dispatch and a clause fetch (log entry 4). -/
def placeWord (s : State) (nbits w : Nat) : State :=
  let ws := tableWords nbits w
  let x := ws.headD 0
  let words := ws.take (wordLen x)
  let eng := (opClass (opcodeOf x)).getD 0
  let n := s.nextId
  let all : Mask := BitVec.allOnes 32
  let core := ((List.range (s.teams.length + 1)).find? fun c => !s.teams.any (·.core == c)).getD 0
  let hdr : Word := BitVec.ofNat 32 (words.length + 16 * eng + 2 ^ 15)
  let g : Gang := { gid := n, team := n, regs := 128, place := .running, live := all, k := [(1, all), (2, all), (3, all)],
                    cl := { hdr := hdr, words := words, x := 1, set := all }, active := true }
  { s with power := true, nextId := n + 1, sched := .issue n :: s.sched, g := g
           gangs := if s.g.gid = 0 then s.gangs else s.gangs ++ [s.g]
           teams := { uid := n, task := n, ctx := n, core := core, place := .running } :: s.teams
           tasks := { id := n, ctx := n, stage := .running, tx := 32, regs := 128, gx := 1, gy := 1, gz := 1 } :: s.tasks
           ctxs := { id := n } :: s.ctxs }

end Sys2Proof.Machine
end

