-- ==== Sys2Proof/Machine/Step.lean ====
section
/-! DEFINITION. One step of the machine, and a word placed where it fetches. -/

namespace Sys2Proof.Machine

/-- One step: what the plan says; without power, nothing can run. -/
def step (s : State) : Host.Outcome State Fault Refusal :=
  match plan s with
  | none => .fault .noPower
  | some (.inr t) => .next t
  | some (.inl (i, t)) => exec i t

/-- The state with a table word placed as the instruction the next step runs. -/
def State.withFetchWord (s : State) (nbits w : Nat) : State := placeWord s nbits w

end Sys2Proof.Machine
end

