-- ==== Sys2Proof/Certificates/Slice0/Obligations.lean ====
section
/-! DEFINITION. The statements for the provers. Each `Obligations.<Name>` is one statement; what stands before them in
`Sys2Proof.Claims` are the words they are written in: operand values as bit vectors, legality of a word, and the shape of
a result. `Claims.Runs i len nxt s t` reads: the word i, whose own effect leads from s to t, is not refused and the gang
goes on past it by its exit. -/

namespace Sys2Proof.Claims

open Sys2Proof Machine

/-! ## Words: their exit and what follows -/

/-- The word i of `len` words answers a next state: its own effect has led from s to t, its exit is taken there, and the gang goes on
(R74, R75). Where no exit is picked, the word always completes so, from t as it is. -/
def Runs (i : Instr) (len : Nat) (nxt : BitVec 2) (s t : State) : Prop :=
  (nxt = 0 → exec i s = .next (goOn len s t)) ∧ ∀ u, takeExit nxt t = .ok u → exec i s = .next (goOn len s u)

/-- The exit selector of a word is not one that R72 refuses. -/
def mayExit (s : State) (nxt : BitVec 2) : Bool := !exitRefused s.g nxt

/-! ## Operands as bit vectors of the operand's width -/

/-- The value of A in lane l, and of B, at a type's width. -/
def aVal (w : AWord) (s : State) (t : Ty) (l : Nat) : BitVec (tyBits t) := BitVec.ofNat _ (laneA w s t l)
def bVal (w : AWord) (s : State) (t : Ty) (l : Nat) : BitVec (tyBits t) := BitVec.ofNat _ (laneB w s t l)

/-- The value of D in lane l before the word. -/
def dVal (w : AWord) (s : State) (t : Ty) (l : Nat) : BitVec (tyBits t) := BitVec.ofNat _ (laneD w s (tyBits t == 64) l)

/-- The count of a shift: B[7:0] (R127). -/
def count (w : AWord) (s : State) (l : Nat) : Nat := laneB32 w s l % 256

/-- A vector word's own effect: every active lane of D holds what f gives; nothing else of the state changes. -/
def wroteV (w : AWord) (s : State) (wide : Bool) (f : Nat → DWord) : State :=
  { s with g := writeLanes wide w.d.toNat ((lanesOf (active s.g)).map fun l => (l, f l)) s.g }

/-- FSTAT flags that became set beside it. -/
def flagged (f : FFlags) (s : State) : State := { s with g := { s.g with fstat := s.g.fstat ||| flagBits f } }

/-- A uniform word's own effect: s[d] holds x. -/
def wroteS (w : AWord) (s : State) (x : DWord) : State := { s with g := sSet s.g (w.d.toNat % 64) x }

/-- A 32-bit or 64-bit result in an s register: sign-extended for .i, zero-extended otherwise (R119). -/
def extend (t : Ty) (x : BitVec (tyBits t)) : DWord := if tySigned t then x.signExtend 64 else x.setWidth 64

/-- The high half of the product. -/
def highHalf (sg : Bool) (n : Nat) (a b : BitVec n) : BitVec n :=
  let x := fun (v : BitVec n) => if sg then v.signExtend (2 * n) else v.setWidth (2 * n)
  ((x a * x b) >>> n).setWidth n

/-- a ≤ b as signed or unsigned numbers. -/
def leq (sg : Bool) {n : Nat} (a b : BitVec n) : Bool := if sg then a.sle b else a.ule b

/-- Condition codes 0–5 (R121). -/
def holds (c : Nat) (sg : Bool) {n : Nat} (a b : BitVec n) : Bool :=
  match c with
  | 0 => a == b
  | 1 => a != b
  | 2 => !leq sg b a
  | 3 => leq sg a b
  | 4 => !leq sg a b
  | _ => leq sg b a

/-- The bits of a field that starts at `pos` and has `len` bits, cut at the width (R127). -/
def cut (n pos len : Nat) : Nat := if pos ≥ n then 0 else Nat.min len (n - pos)

/-- A field of x at bit 0, sign- or zero-extended; 0 for an empty field (R127). -/
def extract (sg : Bool) {n : Nat} (x : BitVec n) (pos len : Nat) : BitVec n :=
  let k := cut n pos len
  let f : BitVec k := x.extractLsb' pos k
  if k = 0 then 0 else if sg then f.signExtend n else f.setWidth n

/-- d with the low bits of x inserted at a field (R127). -/
def insert {n : Nat} (d x : BitVec n) (pos len : Nat) : BitVec n :=
  let m : BitVec n := ((BitVec.allOnes (cut n pos len)).setWidth n) <<< pos
  (d &&& ~~~m) ||| ((x <<< pos) &&& m)

/-- The lowest set bit's position; the width for 0. -/
def lowest {n : Nat} (x : BitVec n) : Nat := ((List.range n).find? x.getLsbD).getD n

/-- The number of zeros above the highest set bit; the width for 0. -/
def zerosAbove {n : Nat} (x : BitVec n) : Nat := lowest x.reverse

/-! ## Uniform words -/

/-- Whether a uniform word is legal at the type (R79, R87, R120). -/
abbrev uniLegal (w : AWord) (s : State) (t : Ty) : Prop := uniCheck w s = .ok t ∧ w.d.getLsbD 6 = false

def ua (w : AWord) (s : State) (t : Ty) : BitVec (tyBits t) := BitVec.ofNat _ (uniA w s t)
def ub (w : AWord) (s : State) (t : Ty) : BitVec (tyBits t) := BitVec.ofNat _ (uniB w s t)

/-- s[d] ← f(a, b). -/
def uniOps : List ((AWord → Instr) × (Bool → (n : Nat) → BitVec n → BitVec n → BitVec n)) :=
  [(.sadd, fun _ _ a b => a + b), (.ssub, fun _ _ a b => a - b), (.smul, fun _ _ a b => a * b), (.smulh, highHalf),
   (.sand, fun _ _ a b => a &&& b), (.sor, fun _ _ a b => a ||| b), (.sxor, fun _ _ a b => a ^^^ b),
   (.smin, fun sg _ a b => if leq sg a b then a else b), (.smax, fun sg _ a b => if leq sg b a then a else b)]

/-- s[d] ← f(a, B[7:0], B[15:8]). -/
def uniShifts : List ((AWord → Instr) × (Bool → (n : Nat) → BitVec n → Nat → Nat → BitVec n)) :=
  [(.sshl, fun _ _ a c _ => a <<< c), (.sshr, fun _ _ a c _ => a >>> c), (.ssar, fun _ _ a c _ => a.sshiftRight c),
   (.sbfx, fun sg _ a pos len => extract sg a pos len)]

/-- s[d] ← f(a); B is not used. -/
def uniUnary : List ((AWord → Instr) × ((n : Nat) → BitVec n → BitVec n)) :=
  [(.smov, fun _ a => a), (.sclz, fun n a => BitVec.ofNat n (zerosAbove a)), (.spop, fun n a => BitVec.ofNat n (popc a))]

/-! ## Vector integer words -/

/-- Whether a vector word is legal at the type: MOD holds TYPE alone, A, B and D are legal at its width. `narrowB`: B is a 32-bit
operand whatever the type. -/
abbrev vecLegal (dflt : Ty) (tys : List Ty) (narrowB : Bool) (w : AWord) (s : State) (t : Ty) : Prop :=
  tyCheck { ty := true } dflt tys w = .ok t ∧ abd w s (tyBits t == 64) (tyBits t == 64 && !narrowB) = true

/-- D[lane] ← f(d, a, b) at an integer type (.i32, .n32, .i64, .n64). -/
def intOps : List ((AWord → Instr) × (Bool → (n : Nat) → BitVec n → BitVec n → BitVec n → BitVec n)) :=
  [(.add, fun _ _ _ a b => a + b), (.sub, fun _ _ _ a b => a - b), (.mulLo, fun _ _ _ a b => a * b),
   (.mulHi, fun sg n _ a b => highHalf sg n a b), (.mad, fun _ _ d a b => d + a * b),
   (.min, fun sg _ _ a b => if leq sg a b then a else b), (.max, fun sg _ _ a b => if leq sg b a then a else b)]

/-- D[lane] ← f(d, a, b) at a bit type (.b32, .b64). -/
def bitOps : List ((AWord → Instr) × ((n : Nat) → BitVec n → BitVec n → BitVec n)) :=
  [(.and, fun _ a b => a &&& b), (.or, fun _ a b => a ||| b), (.xor, fun _ a b => a ^^^ b)]

/-- D[lane] ← f(a) at a bit type; B is not used. -/
def bitUnary : List ((AWord → Instr) × ((n : Nat) → BitVec n → BitVec n)) :=
  [(.not, fun _ a => ~~~a), (.popc, fun n a => BitVec.ofNat n (popc a)), (.clz, fun n a => BitVec.ofNat n (zerosAbove a)),
   (.ctz, fun n a => BitVec.ofNat n (lowest a)), (.brev, fun _ a => a.reverse)]

/-- Shifts and the rotate: D[lane] ← f(a, B[7:0]) at a bit type. -/
def shifts : List ((AWord → Instr) × ((n : Nat) → BitVec n → Nat → BitVec n)) :=
  [(.shl, fun _ a c => a <<< c), (.shr, fun _ a c => a >>> c), (.sar, fun _ a c => a.sshiftRight c), (.rot, fun _ a c => a.rotateLeft c)]

/-- A number as a value of the type, clamped to its range, and whether it was out of it. -/
def clamped (t : Ty) (x : Int) : DWord × Bool :=
  let lo := intMin (tySigned t) (tyBits t)
  let hi := intMax (tySigned t) (tyBits t)
  ((BitVec.ofInt (tyBits t) (Max.max lo (Min.min hi x))).setWidth 64, decide (x < lo) || decide (hi < x))

/-- The number an operand of the type stands for. -/
def num (t : Ty) (x : BitVec (tyBits t)) : Int := if tySigned t then x.toInt else x.toNat

/-- The effect of a word whose lanes are clamped: FSTAT.SA when any active lane was (R108, R126). -/
def wroteClamped (w : AWord) (s : State) (t : Ty) (x : Nat → Int) : State :=
  flagged { sa := (lanesOf (active s.g)).any fun l => (clamped t (x l)).2 } (wroteV w s (tyBits t == 64) fun l => (clamped t (x l)).1)

end Sys2Proof.Claims

open Sys2Proof Sys2Proof.Machine Sys2Proof.Claims

/-- R120, R119: every two-operand, shift, field and one-operand uniform word runs at every type it takes, writing only s[d]. -/
def Obligations.UniformWordsWriteTheirResult : Prop :=
  (∀ p ∈ uniOps, ∀ w s t, mayExit s w.nxt = true → uniLegal w s t →
    Runs (p.1 w) (aLen w) w.nxt s (wroteS w s (extend t (p.2 (tySigned t) _ (ua w s t) (ub w s t))))) ∧
  (∀ p ∈ uniShifts, ∀ w s t, mayExit s w.nxt = true → uniLegal w s t →
    Runs (p.1 w) (aLen w) w.nxt s (wroteS w s (extend t (p.2 (tySigned t) _ (ua w s t) (uniB32 w s % 256) (uniB32 w s / 256 % 256))))) ∧
  (∀ p ∈ uniUnary, ∀ w s t, mayExit s w.nxt = true → uniLegal w s t → w.b = 112 →
    Runs (p.1 w) (aLen w) w.nxt s (wroteS w s (extend t (p.2 _ (ua w s t))))) ∧
  (∀ w s t, mayExit s w.nxt = true → uniCheck w s = .ok t → w.d.toNat % 8 ≠ 0 → w.d.toNat / 8 < 6 →
    Runs (.scmp w) (aLen w) w.nxt s
      { s with g := kSet s.g (w.d.toNat % 8) (fill 32 (holds (w.d.toNat / 8) (tySigned t) (ua w s t) (ub w s t))) }) ∧
  (∀ w s, mayExit s w.nxt = true → modOk {} w.pre = true → okA s.g.regs false false w.a.toNat = true → okB s.g.regs false false w.b.toNat = true →
    w.d.getLsbD 6 = false →
    Runs (.sld w) (aLen w) w.nxt s (wroteS w s
      (((readB s (.int 32) w.lb 0 w.b.toNat).truncate 32 : Word) ++ ((readA s (.int 32) w.la 0 w.a.toNat).truncate 32 : Word))))

/-- R126, R127: the vector integer words of one result, the shifts, the rotate and the field words run at every type they take, writing D in the active lanes
only; a shift by the width or more leaves the fill; a 64-bit shift whose count does not name an even register is ILLEGAL_OPERAND. The uniform shifts and `sbfx` read their counts and field
controls as the vector words do (R127). -/
def Obligations.VectorIntegerWordsWriteTheirResult : Prop :=
  (∀ p ∈ intOps, ∀ w s t, mayExit s w.nxt = true → vecLegal .i32 intTypes false w s t →
    Runs (p.1 w) (aLen w) w.nxt s (wroteV w s (tyBits t == 64) fun l => (p.2 (tySigned t) _ (dVal w s t l) (aVal w s t l) (bVal w s t l)).setWidth 64)) ∧
  (∀ p ∈ bitOps, ∀ w s t, mayExit s w.nxt = true → vecLegal .b32 bitTypes false w s t →
    Runs (p.1 w) (aLen w) w.nxt s (wroteV w s (tyBits t == 64) fun l => (p.2 _ (aVal w s t l) (bVal w s t l)).setWidth 64)) ∧
  (∀ p ∈ bitUnary, ∀ w s t, mayExit s w.nxt = true → vecLegal .b32 bitTypes false w s t → w.b = 112 →
    Runs (p.1 w) (aLen w) w.nxt s (wroteV w s (tyBits t == 64) fun l => (p.2 _ (aVal w s t l)).setWidth 64)) ∧
  (∀ p ∈ shifts, ∀ w s t, mayExit s w.nxt = true → vecLegal .b32 bitTypes false w s t →
    Runs (p.1 w) (aLen w) w.nxt s (wroteV w s (tyBits t == 64) fun l => (p.2 _ (aVal w s t l) (count w s l)).setWidth 64)) ∧
  (∀ p ∈ shifts, ∀ w s t, mayExit s w.nxt = true → tyCheck { ty := true } .b32 bitTypes w = .ok t →
    abd w s (tyBits t == 64) (tyBits t == 64) = false → exec (p.1 w) s = .next (raised (plain .illegalOperand) s)) ∧
  (∀ w s t, mayExit s w.nxt = true → vecLegal .n32 intTypes false w s t →
    Runs (.bfx w) (aLen w) w.nxt s (wroteV w s (tyBits t == 64) fun l =>
      (extract (tySigned t) (aVal w s t l) (count w s l) (laneB32 w s l / 256 % 256)).setWidth 64) ∧
    Runs (.bfi w) (aLen w) w.nxt s (wroteV w s (tyBits t == 64) fun l =>
      (insert (dVal w s t l) (aVal w s t l) (count w s l) (laneB32 w s l / 256 % 256)).setWidth 64)) ∧
  (∀ p ∈ uniShifts, ∀ w s t, mayExit s w.nxt = true → uniLegal w s t →
    Runs (p.1 w) (aLen w) w.nxt s (wroteS w s (extend t (p.2 (tySigned t) _ (ua w s t) (uniB32 w s % 256) (uniB32 w s / 256 % 256)))))

/-- R126, R108: saturating sums, the absolute value, carries, selection, comparison, dot products, the hash step and lut3 run at every type they take. -/
def Obligations.VectorIntegerWordsWithFlagsOrMasks : Prop :=
  (∀ w s t, mayExit s w.nxt = true → vecLegal .i32 intTypes false w s t →
    Runs (.adds w) (aLen w) w.nxt s (wroteClamped w s t fun l => num t (aVal w s t l) + num t (bVal w s t l)) ∧
    Runs (.subs w) (aLen w) w.nxt s (wroteClamped w s t fun l => num t (aVal w s t l) - num t (bVal w s t l))) ∧
  (∀ w s t, mayExit s w.nxt = true → tyCheck { ty := true } .i32 intTypes w = .ok t → okA s.g.regs true (tyBits t == 64) w.a.toNat = true →
    okB s.g.regs true (tyBits t == 64) w.b.toNat = true → w.d.toNat % 8 ≠ 0 → w.d.toNat / 8 < 6 → Runs (.cmp w) (aLen w) w.nxt s
      { s with g := writeKLanes (w.d.toNat % 8) ((lanesOf (active s.g)).map fun l => (l, holds (w.d.toNat / 8) (tySigned t) (aVal w s t l) (bVal w s t l))) s.g }) ∧
  (∀ w s t, mayExit s w.nxt = true → tyCheck { ty := true, sat := true } .i32 [.i32, .i64] w = .ok t →
    abd w s (tyBits t == 64) (tyBits t == 64) = true → w.b = 112 →
    Runs (.abs w) (aLen w) w.nxt s
      (if modBit (·.sat) w.pre then wroteClamped w s t fun l => ((aVal w s t l).toInt.natAbs : Int)
       else wroteV w s (tyBits t == 64) fun l => (BitVec.ofInt (tyBits t) ((aVal w s t l).toInt.natAbs : Int)).setWidth 64)) ∧
  (∀ w s t, mayExit s w.nxt = true → vecLegal .n32 intTypes false w s t →
    let sum := fun l => (aVal w s t l).toNat + (bVal w s t l).toNat + (if (kc s.g).getLsbD l then 1 else 0)
    let u := wroteV w s (tyBits t == 64) fun l => (BitVec.ofNat (tyBits t) (sum l)).setWidth 64
    let carry := (lanesOf (active s.g)).map fun l => (l, decide (2 ^ tyBits t ≤ sum l))
    Runs (.addc w) (aLen w) w.nxt s { u with g := writeKLanes (hdrKc s.g.cl.hdr) carry u.g }) ∧
  (∀ w s t, mayExit s w.nxt = true → vecLegal .b32 bitTypes false w s t →
    Runs (.sel w) (aLen w) w.nxt s (wroteV w s (tyBits t == 64) fun l =>
      (if (kc s.g).getLsbD l then aVal w s t l else bVal w s t l).setWidth 64) ∧
    (∀ tbl : Word, w.lt = some tbl → tbl.toNat < 256 → Runs (.lut3 w) (aLen w) w.nxt s (wroteV w s (tyBits t == 64) fun l =>
      let bit := fun j => tbl.getLsbD (((aVal w s t l).getLsbD j).toNat + 2 * ((bVal w s t l).getLsbD j).toNat + 4 * ((dVal w s t l).getLsbD j).toNat)
      BitVec.ofNat 64 (((List.range (tyBits t)).filter bit).map fun j => 2 ^ j).sum))) ∧
  (∀ w s, mayExit s w.nxt = true → modOk {} w.pre = true → abd w s false false = true →
    Runs (.hmix w) (aLen w) w.nxt s (wroteV w s false fun l =>
      let x : Word := (aVal w s .b32 l).rotateLeft 5 ^^^ bVal w s .b32 l
      let y := x * 0x9E3779B1#32
      let z := (y ^^^ (y >>> 16)) * 0x85EBCA6B#32
      (z ^^^ (z >>> 13)).setWidth 64)) ∧
  (∀ w s t, mayExit s w.nxt = true → abd w s false false = true →
    let r : Ty := if tySigned t then .i32 else .n32
    let dot := fun (e l : Nat) => num r (BitVec.ofNat _ (laneD w s false l)) + ((List.range (32 / e)).map fun i =>
      intOf (tySigned t) e (laneA w s .b32 l / 2 ^ (e * i)) * intOf (tySigned t) e (laneB w s .b32 l / 2 ^ (e * i))).sum
    let put := fun (e : Nat) => if modBit (·.sat) w.pre then wroteClamped w s r (dot e)
      else wroteV w s false fun l => (BitVec.ofInt 32 (dot e l)).setWidth 64
    (tyCheck { ty := true, sat := true } .i8 [.i8, .n8] w = .ok t → Runs (.dot4 w) (aLen w) w.nxt s (put 8)) ∧
    (tyCheck { ty := true, sat := true } .i16 [.i16, .n16] w = .ok t → Runs (.dot2 w) (aLen w) w.nxt s (put 16)))

namespace Sys2Proof.Claims

open Sys2Proof Machine

/-! ## Floating point -/

/-- Source values of element e of a floating-point word: flushed, then absolute value, then negation (R87, R98, R131). -/
def fpA (w : AWord) (s : State) (t : Ty) (e : Nat) : Val :=
  srcVal (fmtOf t) (ftzOf s w.pre) (modBit (·.absa) w.pre) (modBit (·.nega) w.pre)
    (elemOf (fmtOf t).bits (readA s (fpKind t) w.la (e / fpElems t) w.a.toNat).toNat (e % fpElems t))
def fpB (w : AWord) (s : State) (t : Ty) (e : Nat) : Val :=
  srcVal (fmtOf t) (ftzOf s w.pre) (modBit (·.absb) w.pre) (modBit (·.negb) w.pre)
    (elemOf (fmtOf t).bits (readB s (fpKind t) w.lb (e / fpElems t) w.b.toNat).toNat (e % fpElems t))
def fpD (w : AWord) (s : State) (t : Ty) (e : Nat) : Val :=
  srcVal (fmtOf t) (ftzOf s w.pre) false (modBit (·.negc) w.pre)
    (elemOf (fmtOf t).bits (BitVec.ofNat 64 (laneD w s (tyBits t == 64) (e / fpElems t))).toNat (e % fpElems t))

/-- Every element's exact result rounded once under the mode, saturated and flushed as the word says, with its conditions. -/
def wroteF (w : AWord) (s : State) (t : Ty) (mode : RM) (ex : Nat → Val × FFlags) : State :=
  putElems w s (tyBits t == 64) (fpElems t) (fmtOf t).bits fun e =>
    let r := fpRound (fmtOf t) mode (modBit (·.sat) w.pre) (ftzOf s w.pre) (32 * fpElems t) (fun i => (ex i).1) e
    (r.1, r.2.or (ex e).2)

/-- A floating-point word: what it takes of MOD, its types, whether B is unused, and the exact function of its operands; `rdn` says that
an exact zero sum is −0. -/
structure FpOp where
  op    : AWord → Instr
  takes : Takes
  tys   : List Ty
  unary : Bool
  ex    : Bool → Val → Val → Val → Val × FFlags

def fpOps : List FpOp :=
  [⟨.fadd, fpTakes, fpTypes, false, fun z a b _ => vadd z a b⟩, ⟨.fsub, fpTakes, fpTypes, false, fun z a b _ => vadd z a b.neg⟩,
   ⟨.fmul, fpTakes, fpTypes, false, fun _ a b _ => vmul a b⟩, ⟨.fdiv, fpTakes, fpTypes, false, fun _ a b _ => vdiv a b⟩,
   ⟨.ffma, { fpTakes with negc := true }, fpTypes, false, fun z a b d => vfma z a b d⟩,
   ⟨.fabsdiff, fpTakes, fpTypes, false, fun z a b _ => ((vadd z a b.neg).1.abs, (vadd z a b.neg).2)⟩,
   ⟨.frcp, fpTakes1, fpTypes, true, fun _ a _ _ => vdiv (ofInt 1) a⟩, ⟨.fsqrt, fpTakes1, fpTypes, true, fun _ a _ _ => vsqrt a⟩,
   ⟨.ffrac, fpTakes1, fpTypes, true, fun _ a _ _ => vfrac a⟩]

/-- The words that round under RNE whatever FMODE.RM holds (R131). -/
def fpFixed : List ((AWord → Instr) × (Val → Val × FFlags)) := [(.frsq, vrsqrt), (.fexp2, vexp2), (.flog2, vlog2)]

/-- A value as a rational number, where it is one. -/
def ratOf : Val → Option Rat
  | .fin neg n d => some (mkRat (sgn neg n) d)
  | _ => none

/-- A finite value whose denominator is not zero. -/
def isRat : Val → Bool
  | .fin _ _ d => decide (d ≠ 0)
  | _ => false

/-- The formats of R96 and R99. -/
def formats : List Fmt := [f64, Machine.f32, Machine.f16, Machine.bf16, Machine.e4m3, Machine.e5m2, Machine.e2m1]

end Sys2Proof.Claims

open Sys2Proof Sys2Proof.Machine Sys2Proof.Claims

/-- R131, R135, R108: the arithmetic words run at every type they take: each active lane's elements are the exact result rounded once. The model's own
choices in it, no rule of the spec: how the irrational functions are computed (log entry 3), the free flag of an invalid product plus a NaN (log entry
13). -/
def Obligations.FloatWordsRoundTheExactResultOnce : Prop :=
  (∀ p ∈ fpOps, ∀ w s t, mayExit s w.nxt = true → tyCheck p.takes .f32 p.tys w = .ok t →
    abd w s (tyBits t == 64) (tyBits t == 64) = true → (p.unary = true → w.b = 112) →
    Runs (p.op w) (aLen w) w.nxt s
      (wroteF w s t (modeOf s w.pre) fun e => p.ex (modeOf s w.pre == .rdn) (fpA w s t e) (fpB w s t e) (fpD w s t e))) ∧
  (∀ p ∈ fpFixed, ∀ w s t, mayExit s w.nxt = true → tyCheck fpTakes1 .f32 fpNarrow w = .ok t →
    (∀ m, w.pre = some m → m.rm.toNat ≤ 1) → abd w s (tyBits t == 64) (tyBits t == 64) = true → w.b = 112 →
    Runs (p.1 w) (aLen w) w.nxt s (wroteF w s t .rne fun e => p.2 (fpA w s t e)))

/-- R95, R96, R99, R102: sums, products and quotients of finite values are the rational ones and compare as those do; a value that the format can represent is
its own rounding, in every mode, with no condition raised. -/
def Obligations.ExactArithmeticAndItsRounding : Prop :=
  (∀ z a b x y, isRat a = true → isRat b = true → ratOf a = some x → ratOf b = some y →
    ratOf (vadd z a b).1 = some (x + y) ∧ ratOf (vmul a b).1 = some (x * y) ∧ (y ≠ 0 → ratOf (vdiv a b).1 = some (x / y)) ∧
    isRat (vadd z a b).1 = true ∧ isRat (vmul a b).1 = true ∧ (y ≠ 0 → isRat (vdiv a b).1 = true) ∧
    (vlt a b = true ↔ x < y) ∧ (veq a b = true ↔ x = y)) ∧
  (∀ f ∈ formats, ∀ mode sat srb x, x < 2 ^ f.bits → isRat (decodeF f x) = true → rnd f mode sat srb (decodeF f x) = (x, {}))

/-- R131–R134: minimum, maximum, comparison, class, scaling, rounding to an integral value and the four-half sum run at every type they take. The model's own
choice in it, no rule of the spec: the NV of a four-half sum of both infinities and a quiet NaN (log entry 122). -/
def Obligations.FloatSelectCompareAndScaleWords : Prop :=
  (∀ w s t, mayExit s w.nxt = true → tyCheck { fpTakes with sat := false, rm := false } .f32 fpTypes w = .ok t →
    abd w s (tyBits t == 64) (tyBits t == 64) = true →
    Runs (.fmin w) (aLen w) w.nxt s (putElems w s (tyBits t == 64) (fpElems t) (fmtOf t).bits fun e =>
      fminmaxV (fmtOf t) false (fpA w s t e) (fpB w s t e)) ∧
    Runs (.fmax w) (aLen w) w.nxt s (putElems w s (tyBits t == 64) (fpElems t) (fmtOf t).bits fun e =>
      fminmaxV (fmtOf t) true (fpA w s t e) (fpB w s t e))) ∧
  (∀ w s t, mayExit s w.nxt = true → tyCheck { fpTakes with sat := false, rm := false } .f32 [.f32, .f64] w = .ok t →
    okA s.g.regs true (tyBits t == 64) w.a.toNat = true → okB s.g.regs true (tyBits t == 64) w.b.toNat = true →
    w.d.toNat % 8 ≠ 0 → w.d.toNat / 8 < 12 →
    let r := fun l => fcmpV (w.d.toNat / 8)
      (srcVal (fmtOf t) (ftzOf s w.pre) (modBit (·.absa) w.pre) (modBit (·.nega) w.pre) (readA s (fpKind t) w.la l w.a.toNat).toNat)
      (srcVal (fmtOf t) (ftzOf s w.pre) (modBit (·.absb) w.pre) (modBit (·.negb) w.pre) (readB s (fpKind t) w.lb l w.b.toNat).toNat)
    Runs (.fcmp w) (aLen w) w.nxt s (flagged (anyFlags ((lanesOf (active s.g)).map fun l => (r l).2))
      { s with g := writeKLanes (w.d.toNat % 8) ((lanesOf (active s.g)).map fun l => (l, (r l).1)) s.g })) ∧
  (∀ w s t, mayExit s w.nxt = true → tyCheck { ty := true } .f32 fpTypes w = .ok t → okA s.g.regs true (tyBits t == 64) w.a.toNat = true →
    w.b = 112 → vregOk s.g.regs false w.d.toNat = true →
    Runs (.fclass w) (aLen w) w.nxt s (wroteV w s false fun l => BitVec.ofNat 64 ((List.range (fpElems t)).map fun p =>
      fclassV (fmtOf t) (elemOf (fmtOf t).bits (readA s (fpKind t) w.la l w.a.toNat).toNat p) * 2 ^ (16 * p)).sum)) ∧
  (∀ w s t, mayExit s w.nxt = true → tyCheck { fpTakes with bMods := false } .f32 fpTypes w = .ok t →
    abd w s (tyBits t == 64) (tyBits t == 64) = true →
    Runs (.fscale w) (aLen w) w.nxt s (wroteF w s t (modeOf s w.pre) fun e =>
      vscale (BitVec.ofNat 32 (laneB32 w s (e / fpElems t))).toInt (fpA w s t e))) ∧
  (∀ w s t, mayExit s w.nxt = true → tyCheck { fpTakes1 with sat := false } .f32 fpTypes w = .ok t →
    abd w s (tyBits t == 64) (tyBits t == 64) = true → w.b = 112 →
    Runs (.frnd w) (aLen w) w.nxt s (putElems w s (tyBits t == 64) (fpElems t) (fmtOf t).bits fun e =>
      frndV (fmtOf t) (modeOf s w.pre)
        (if modeOf s w.pre == .sr then srFor (fun i => d32Int (fpA w s t i)) (32 * fpElems t) e else 0) (fpA w s t e))) ∧
  (∀ w s t, mayExit s w.nxt = true → tyCheck fpTakes .f16 [.f16, .bf16] w = .ok t → abd w s false false = true →
    let v := fun (l p : Nat) => fpA w s t (2 * l + p)
    let u := fun (l p : Nat) => fpB w s t (2 * l + p)
    let add := fun (x y : Val × FFlags) => ((vadd false x.1 y.1).1, ((vadd false x.1 y.1).2.or x.2))
    let ex := fun l => add (add (add (v l 0, {}) (v l 1, {})) (u l 0, {})) (u l 1, {})
    Runs (.fsum4 w) (aLen w) w.nxt s (putElems w s false 1 32 fun e =>
      let r := fpRound Machine.f32 (modeOf s w.pre) (modBit (·.sat) w.pre) (ftzOf s w.pre) 32 (fun i => (ex i).1) e
      (r.1, r.2.or (ex e).2)))

/-- R136–R142: every conversion word runs at every pair of types it takes. The model's own choices in it, no rule of the spec: the sign of a `qdeq` zero (log
entry 90), a `cvt` that changes a value's sign beyond the format (log entry 97), an `unpack` whose half is no constant (log entry 121). -/
def Obligations.ConversionWordsWriteTheirResult : Prop :=
  (∀ w s (sr : Bool) dt st, mayExit s w.nxt = true → tyPair cvtTakes .f32 .i32 (fun _ _ => true) w = .ok (dt, st) →
    (sr = true → ∀ m, w.pre = some m → m.rm = 0 ∨ m.rm = 6) →
    okA s.g.regs true (tyBits st == 64) w.a.toNat = true → 112 ≤ w.b.toNat → okB s.g.regs true false w.b.toNat = true →
    vregOk s.g.regs (tyBits dt == 64) w.d.toNat = true →
    let dp := laneB32 w s 0 % 8
    let sp := laneB32 w s 0 / 8
    sp < 8 → (dp = 0 ∨ dp * tyBits dt < 32) → (sp = 0 ∨ sp * tyBits st < 32) →
    let mode := if sr then .sr else modeOf s w.pre
    let val := fun l => cvtVal st (ftzOf s w.pre) ((readA s (cvtKind st) w.la l w.a.toNat).toNat / 2 ^ (sp * tyBits st) % 2 ^ tyBits st)
    let r := fun l => cvtCode st dt mode (modBit (·.sat) w.pre) (ftzOf s w.pre)
      (if mode == .sr then srFor (fun i => cvtD32 dt (val i)) 32 l else 0) (val l)
    let u := flagged (anyFlags ((lanesOf (active s.g)).map fun l => (r l).2)) (wroteV w s (tyBits dt == 64) fun l =>
      if tyBits dt = 64 then BitVec.ofNat 64 (r l).1
      else (insert (BitVec.ofNat 32 (laneD w s false l)) (BitVec.ofNat 32 (r l).1) (dp * tyBits dt) (tyBits dt)).setWidth 64)
    (sr = false → Runs (.cvt w) (aLen w) w.nxt s u) ∧ (sr = true → Runs (.cvtSr w) (aLen w) w.nxt s u)) ∧
  (∀ w s dt st, mayExit s w.nxt = true → tyPair cvtTakes .f16 .f32 packOk w = .ok (dt, st) → abd w s false false = true →
    let k := 32 / tyBits dt
    let mode := modeOf s w.pre
    let val := fun e => cvtVal st (ftzOf s w.pre) (elemOf (tyBits st)
      (if e % k < k / 2 then readA s (cvtKind st) w.la (e / k) w.a.toNat else readB s (cvtKind st) w.lb (e / k) w.b.toNat).toNat (e % k % (k / 2)))
    Runs (.pack w) (aLen w) w.nxt s (putElems w s false k (tyBits dt) fun e => cvtCode st dt mode (modBit (·.sat) w.pre) (ftzOf s w.pre)
      (if mode == .sr then srFor (fun i => cvtD32 dt (val i)) (32 * k) e else 0) (val e))) ∧
  (∀ w s dt st, mayExit s w.nxt = true → tyPair { ty := true, sty := true } .f32 .f16 unpackOk w = .ok (dt, st) →
    okA s.g.regs true false w.a.toNat = true → 112 ≤ w.b.toNat → okB s.g.regs true false w.b.toNat = true → vregOk s.g.regs false w.d.toNat = true →
    laneB32 w s 0 < 2 →
    Runs (.unpack w) (aLen w) w.nxt s (putElems w s false (16 / tyBits st) (2 * tyBits st) fun e =>
      cvtCode st dt .rne false false 0 (cvtVal st false (elemOf (tyBits st) (readA s (cvtKind st) w.la (e / (16 / tyBits st)) w.a.toNat).toNat
        (laneB32 w s 0 * (16 / tyBits st) + e % (16 / tyBits st)))))) ∧
  (∀ w s st, mayExit s w.nxt = true → modOk { ty := true, sty := true } w.pre = true → (typeCode w.pre = 0 ∨ typeCode w.pre = 12) →
    pickTy .qa4 [.qa4, .qa8] (stypeCode w.pre) = some st → abd w s false false = true →
    Runs (.qdeq w) (aLen w) w.nxt s (wroteV w s false fun l =>
      let c := laneB32 w s l
      let q := elemOf (qBits st) (laneA w s .b32 l) (c / 2 ^ 24 % 8 % (32 / qBits st))
      BitVec.ofNat 64 (match decodeF Machine.f16 (c % 65536) with
        | .fin neg n d => (rnd Machine.f32 .rne false 0 (vmul (ofInt ((q : Int) - (c / 65536 % 256 : Nat))) (.fin neg n d)).1).1
        | _ => nanCode Machine.f32))) ∧
  (∀ w s dt, mayExit s w.nxt = true → modOk { ty := true, sty := true, rm := true } w.pre = true → (stypeCode w.pre = 0 ∨ stypeCode w.pre = 12) →
    pickTy .qa4 [.qa4, .qa8] (typeCode w.pre) = some dt → abd w s false false = true →
    let mode := modeOf s w.pre
    let ctl := fun l => laneB32 w s l
    let q := fun l => qencQuot (decodeF Machine.f32 (readA s (.fp Machine.f32 false) w.la l w.a.toNat).toNat) (decodeF Machine.f16 (ctl l % 65536))
    let r := fun l => qencCode (qBits dt) mode (if mode == .sr then srFor (fun i => match q i with | some v => d32Int v | none => 0) 32 l else 0)
      (ctl l / 65536 % 256) (q l)
    Runs (.qenc w) (aLen w) w.nxt s (flagged (anyFlags ((lanesOf (active s.g)).map fun l => (r l).2)) (wroteV w s false fun l =>
      (insert (BitVec.ofNat 32 (laneD w s false l)) (BitVec.ofNat 32 (r l).1) (ctl l / 2 ^ 24 % 8 % (32 / qBits dt) * qBits dt) (qBits dt)).setWidth 64))) ∧
  (∀ w s t, mayExit s w.nxt = true → modOk { ty := true } w.pre = true → pickTy .fx8 [.fx8, .fx4, .ix8] (typeCode w.pre) = some t →
    abd w s false false = true → w.b = 112 →
    let e : Int := if t == .fx8 then 7 else if t == .fx4 then 1 else 6
    let vs := (lanesOf (active s.g)).map fun l => decodeF Machine.f32 (readA s (.fp Machine.f32 false) w.la l w.a.toNat).toNat
    Runs (.bexp w) (aLen w) w.nxt s (flagged { nv := vs.any Val.isSig } (wroteV w s false fun _ =>
      (BitVec.ofInt 32 (bexpShift e (maxMag vs))).setWidth 64))) ∧
  (∀ w s, mayExit s w.nxt = true → modOk { ftz := true, rm := true } w.pre = true → abd w s false false = true →
    let a := fun l => srcVal Machine.f32 (ftzOf s w.pre) false false (readA s (.fp Machine.f32 false) w.la l w.a.toNat).toNat
    let ex := fun l => if (BitVec.ofNat 8 (laneB32 w s l)).toInt = -128 then (ofInt 0, { nv := (a l).isSig })
      else vscale (-(BitVec.ofNat 8 (laneB32 w s l)).toInt) (a l)
    Runs (.bscale w) (aLen w) w.nxt s (putElems w s false 1 32 fun l =>
      let r := fpRound Machine.f32 (modeOf s w.pre) false (ftzOf s w.pre) 32 (fun i => (ex i).1) l
      (r.1, r.2.or (ex l).2)))

namespace Sys2Proof.Claims

open Sys2Proof Machine

/-- The lane a shuffle reads, given its own lane and B (R143); its own where the source is outside the gang. -/
def shuffles : List ((AWord → Instr) × (Nat → Nat → Nat)) :=
  [(.shflIdx, fun _ b => b % 32), (.shflXor, fun l b => l ^^^ (b % 32)), (.shflUp, fun l b => if b ≤ l then l - b else l),
   (.shflDn, fun l b => if l + b ≤ 31 then l + b else l)]

/-- The active lanes whose bit `b` of A is set. -/
def voters (w : AWord) (s : State) (t : Ty) : Mask := maskOf fun l => (active s.g).getLsbD l && (aVal w s t l).getLsbD (laneB w s t 0)

/-- Whether a vote is legal (R143). -/
abbrev voteLegal (w : AWord) (s : State) (t : Ty) : Prop :=
  tyCheck { ty := true } .b32 bitTypes w = .ok t ∧ okA s.g.regs true (tyBits t == 64) w.a.toNat = true ∧ 96 ≤ w.b.toNat ∧
    okB s.g.regs true (tyBits t == 64) w.b.toNat = true ∧ laneB w s t 0 < tyBits t

/-- Mask forms with a k destination: the bits of D that must be zero, and the function of the two masks (R145). -/
def maskOps : List ((AWord → Instr) × Bool × (Mask → Mask → Mask)) :=
  [(.kand, true, (· &&& ·)), (.kor, true, (· ||| ·)), (.kxor, true, (· ^^^ ·)), (.knot, false, fun a _ => ~~~a), (.kmov, false, fun a _ => a)]

/-- Mask forms with an s destination. -/
def maskCounts : List ((AWord → Instr) × (Mask → Nat)) := [(.kpop, fun m => popc m), (.kffs, fun m => lowest m), (.k2s, BitVec.toNat)]

end Sys2Proof.Claims

open Sys2Proof Sys2Proof.Machine Sys2Proof.Claims

/-- R143: shuffles, votes, the scan and the match run at every type they take. A source lane need not be active. -/
def Obligations.LaneWordsWriteTheirResult : Prop :=
  (∀ p ∈ shuffles, ∀ w s t, mayExit s w.nxt = true → vecLegal .b32 bitTypes true w s t →
    Runs (p.1 w) (aLen w) w.nxt s (wroteV w s (tyBits t == 64) fun l => (aVal w s t (p.2 l (laneB32 w s l))).setWidth 64)) ∧
  (∀ w s t, mayExit s w.nxt = true → voteLegal w s t → w.d.toNat % 8 ≠ 0 → w.d &&& 0x38 = 0 →
    (w.d.getLsbD 6 = false →
      Runs (.voteAny w) (aLen w) w.nxt s { s with g := kSet s.g (w.d.toNat % 8) (fill 32 (voters w s t != 0)) } ∧
      Runs (.voteBal w) (aLen w) w.nxt s { s with g := kSet s.g (w.d.toNat % 8) (voters w s t) }) ∧
    Runs (.voteAll w) (aLen w) w.nxt s { s with g := kSet s.g (w.d.toNat % 8) (fill 32 (voters w s t == active s.g)) }) ∧
  (∀ w s t, mayExit s w.nxt = true → voteLegal w s t → w.d.getLsbD 6 = false →
    Runs (.voteCnt w) (aLen w) w.nxt s (wroteS w s (BitVec.ofNat 64 (popc (voters w s t))))) ∧
  (∀ w s t, mayExit s w.nxt = true → vecLegal .i32 intTypes false w s t → w.b = 112 →
    Runs (.lscanAdd w) (aLen w) w.nxt s (wroteV w s (tyBits t == 64) fun l =>
      (BitVec.ofNat (tyBits t) (((lanesOf (active s.g)).filter (· ≤ l)).map fun j => (aVal w s t j).toNat).sum).setWidth 64)) ∧
  (∀ w s t, mayExit s w.nxt = true → tyCheck { ty := true } .b32 bitTypes w = .ok t → okA s.g.regs true (tyBits t == 64) w.a.toNat = true →
    w.b = 112 → vregOk s.g.regs false w.d.toNat = true →
    Runs (.lmatch w) (aLen w) w.nxt s (wroteV w s false fun l =>
      (maskOf fun j => (active s.g).getLsbD j && aVal w s t j == aVal w s t l).setWidth 64))

/-- R144: the integer reductions run over the active lanes; of none they give the neutral element. The f32 reductions run too. The model's own choice in it,
no rule of the spec: the sign of an f32 sum that is exactly zero (log entry 120). -/
def Obligations.ReductionsCombineTheActiveLanes : Prop :=
  (∀ w s t, mayExit s w.nxt = true → lredCheck w s true = .ok t → t ≠ .f32 →
    Runs (.lredAdd w) (aLen w) w.nxt s (wroteS w s (extend t (BitVec.ofInt _ ((lanesOf (active s.g)).map fun l => num t (aVal w s t l)).sum)))) ∧
  (∀ w s t, mayExit s w.nxt = true → lredCheck w s false = .ok t → t ≠ .f32 →
    ∃ lo hi : BitVec (tyBits t),
      (∀ l ∈ lanesOf (active s.g), num t lo ≤ num t (aVal w s t l) ∧ num t (aVal w s t l) ≤ num t hi) ∧
      (active s.g ≠ 0 → (∃ l ∈ lanesOf (active s.g), lo = aVal w s t l) ∧ ∃ l ∈ lanesOf (active s.g), hi = aVal w s t l) ∧
      (active s.g = 0 → num t lo = intMax (tySigned t) (tyBits t) ∧ num t hi = intMin (tySigned t) (tyBits t)) ∧
      Runs (.lredMin w) (aLen w) w.nxt s (wroteS w s (extend t lo)) ∧ Runs (.lredMax w) (aLen w) w.nxt s (wroteS w s (extend t hi))) ∧
  (∀ w s, mayExit s w.nxt = true → lredCheck w s true = .ok .f32 →
    let v := fsumV (modeOf s w.pre == .rdn) (lredVals w s (ftzOf s w.pre))
    let r := fpRound Machine.f32 (modeOf s w.pre) false (ftzOf s w.pre) 1 (fun _ => v.1) 0
    Runs (.lredAdd w) (aLen w) w.nxt s (flagged (r.2.or v.2) (wroteS w s (BitVec.ofNat 64 r.1)))) ∧
  (∀ w s, mayExit s w.nxt = true → lredCheck w s false = .ok .f32 →
    let v := lredVals w s false
    Runs (.lredMin w) (aLen w) w.nxt s (flagged (fredV false v).2 (wroteS w s (BitVec.ofNat 64 (fredV false v).1))) ∧
    Runs (.lredMax w) (aLen w) w.nxt s (flagged (fredV true v).2 (wroteS w s (BitVec.ofNat 64 (fredV true v).1))))

/-- R145: the mask words and their selectors; each writes its whole result, whatever lanes are active; k0 as a source is the issue set; operand fields outside
those the rule gives, and a destination k0, are ILLEGAL_OPERAND. -/
def Obligations.MaskWordsWriteTheirResult : Prop :=
  (∀ p ∈ maskOps, ∀ w s, mayExit s w.nxt = true → modOk {} w.pre = true → w.a.toNat < 8 → (if p.2.1 then w.b.toNat < 8 else w.b = 0) →
    w.d &&& 0x08 = 0 → w.d.toNat % 8 ≠ 0 →
    Runs (p.1 w) (aLen w) w.nxt s { s with g := kSet s.g (w.d.toNat % 8) (p.2.2 (kGet s.g w.a.toNat) (kGet s.g w.b.toNat)) }) ∧
  (∀ p ∈ maskCounts, ∀ w s, mayExit s w.nxt = true → modOk {} w.pre = true → w.a.toNat < 8 → w.b = 0 →
    Runs (p.1 w) (aLen w) w.nxt s (wroteS w s (BitVec.ofNat 64 (p.2 (kGet s.g w.a.toNat))))) ∧
  (∀ w s, mayExit s w.nxt = true → modOk {} w.pre = true → ((128 ≤ w.a.toNat ∧ w.a.toNat < 224) ∨ w.a = 240) → w.b = 0 →
    w.d &&& 0x38 = 0 → w.d.toNat % 8 ≠ 0 →
    Runs (.s2k w) (aLen w) w.nxt s { s with g := kSet s.g (w.d.toNat % 8) ((readA s (.int 32) w.la 0 w.a.toNat).truncate 32) }) ∧
  (∀ g : Gang, kGet g 0 = g.cl.set) ∧
  (∀ p ∈ maskOps, ∀ w s, mayExit s w.nxt = true → (modOk {} w.pre = false ∨ 8 ≤ w.a.toNat ∨ (p.2.1 = true ∧ 8 ≤ w.b.toNat) ∨ (p.2.1 = false ∧ w.b ≠ 0) ∨
    w.d &&& 0x08 ≠ 0 ∨ w.d.toNat % 8 = 0) → exec (p.1 w) s = .next (raised (plain .illegalOperand) s)) ∧
  (∀ p ∈ maskCounts, ∀ w s, mayExit s w.nxt = true → (modOk {} w.pre = false ∨ 8 ≤ w.a.toNat ∨ w.b ≠ 0) →
    exec (p.1 w) s = .next (raised (plain .illegalOperand) s)) ∧
  (∀ w s, mayExit s w.nxt = true → (modOk {} w.pre = false ∨ w.a.toNat < 128 ∨ (224 ≤ w.a.toNat ∧ w.a ≠ 240) ∨ w.b ≠ 0 ∨ w.d &&& 0x38 ≠ 0 ∨ w.d.toNat % 8 = 0) →
    exec (.s2k w) s = .next (raised (plain .illegalOperand) s)) ∧
  (∀ (x : Word) rest, x.extractLsb' 17 8 ≠ 240 → x.extractLsb' 25 7 ≠ 124 →
    let w := aFields none x
    let sel := (x.extractLsb' 14 3).toNat
    (x.extractLsb' 2 8 = 0xAC → sel < 3 → decodeWords (x :: rest) = .ok (if sel = 0 then .kand w else if sel = 1 then .kor w else .kxor w, rest)) ∧
    (x.extractLsb' 2 8 = 0xAD → sel < 2 → decodeWords (x :: rest) = .ok (if sel = 0 then .knot w else .kmov w, rest)) ∧
    (x.extractLsb' 2 8 = 0xAE → decodeWords (x :: rest) = .ok (if x.getLsbD 16 then .kffs w else .kpop w, rest)) ∧
    (x.extractLsb' 2 8 = 0xAF → decodeWords (x :: rest) = .ok (if x.getLsbD 16 then .s2k w else .k2s w, rest)))

/-- R34, R35, R47: a register reads what was last written to it and a write leaves every other register alone; pairs are two registers, low
half first; k0 keeps no write. -/
def Obligations.RegistersReadWhatWasWritten : Prop :=
  ∀ (g : Gang) (d r l m : Nat) (x : Word) (y : DWord), l < 32 → m < 32 →
    tableWf zeros g.v = true → tableWf zeros g.s = true → tableWf zeros g.k = true →
    vGet (vSet g d l x) r m = (if r = d ∧ m = l then x else vGet g r m) ∧
    pairGet (pairSet g d l y) d l = y ∧ (r ≠ d → r ≠ d + 1 → vGet (pairSet g d l y) r m = vGet g r m) ∧
    sGet (sSet g d y) r = (if r = d then y else sGet g r) ∧
    (r ≠ 0 → kGet (kSet g d x) r = if r = d then x else kGet g r) ∧ kSet g 0 x = g ∧
    (∀ wide (f : Nat → DWord) (ls : List Nat), ls.Nodup → (∀ i ∈ ls, i < 32) → vGet (writeLanes wide d (ls.map fun i => (i, f i)) g) d m =
      if m ∈ ls then (f m).truncate 32 else vGet g d m)

namespace Sys2Proof.Claims

open Sys2Proof Machine

/-- The word i of `len` words begins a wait: its own effect has led from s to t, its exit can be taken there, and the gang waits at the word with
nothing else changed (R51, R73, R326). Where no exit is picked, the word always does. -/
def Waits (i : Instr) (w : Wait) (len : Nat) (nxt : BitVec 2) (s t : State) : Prop :=
  (nxt = 0 → exec i s = .next (startWait w len nxt t)) ∧ ∀ u, takeExit nxt t = .ok u → exec i s = .next (startWait w len nxt t)

/-- Operand codes of a form without operands, and no prefix (R118, R122). -/
abbrev bare (w : AWord) : Prop := w.pre = none ∧ w.d = 0 ∧ w.a = 192 ∧ w.b = 112

/-- Whether gang x of the moving gang's quarter is pending and ready (R51). -/
abbrev standsBy (s : State) (x : Gang) : Prop := x ∈ besides s s.g ∧ pendingReady s x = true

/-- A gang but for its place in the active set. -/
def placeless (x : Gang) : Gang := { x with active := false, readyFrom := none, starved := false }

/-- The record area a trap leaves (R300): its cause, whether it ends the task, whether it was late, and its boundary. -/
abbrev areaSays (h : TrapRec) (code : Nat) (te late : Bool) (b : Boundary) : Prop :=
  field h.dw0.toNat 6 0 = code ∧ h.dw0.getLsbD 7 = te ∧ h.dw0.getLsbD 14 = late ∧ field h.dw0.toNat 27 24 = b.x % 16 ∧ h.dw1 = b.addr ∧
    h.dw3.truncate 32 = b.set

/-- The moving gang has entered its handler with a cause (R302): its handler pc is THA, it is at trap priority, no word is in
progress, its area holds the header and its records, and it waits for nothing; registers, pcs, masks, time and modes are as before, and of another
gang nothing but its place in the active set may change (R52). -/
abbrev entered (c : Cause) (late : Bool) (b : Boundary) (s t : State) : Prop :=
  t.g.hpc = regGet s 0x012 (myTeam s).ctx ∧ t.g.prio = true ∧ t.g.inH = true ∧ t.g.cl = {} ∧ t.g.wait = .none ∧ t.g.wake = none ∧
    areaSays t.g.area (causeCode c) (taskEnding c) late b ∧ t.g.recs.length ≤ 32 ∧
    t.g.v = s.g.v ∧ t.g.s = s.g.s ∧ t.g.k = s.g.k ∧ t.g.lc = s.g.lc ∧ t.g.pc = s.g.pc ∧ t.g.meet = s.g.meet ∧ t.g.lk = s.g.lk ∧
    t.g.live = s.g.live ∧ t.g.gts = s.g.gts ∧ t.g.fmode = s.g.fmode ∧ t.g.fstat = s.g.fstat ∧ t.g.pending = s.g.pending ∧
    t.mem = s.mem ∧ t.gangs.map placeless = s.gangs.map placeless ∧ t.teams = s.teams ∧ t.tasks = s.tasks ∧ t.ctxs = s.ctxs ∧ t.sysregs = s.sysregs ∧ t.ops = s.ops

/-- The context of the moving gang has a handler, and the gang, outside it, may take a trap as its first. -/
abbrev mayTrap (s : State) : Prop := regGet s 0x012 (myTeam s).ctx ≠ 0 ∧ s.g.prio = false ∧ s.g.inH = false

end Sys2Proof.Claims

open Sys2Proof Sys2Proof.Machine Sys2Proof.Claims

/-- R72–R75, R187: where each exit leads the lanes that a next-address selector picks, the others staying in the clause (the exit TRET
has a statement of its own); a gang whose wait is over goes on past its word by the word's exit, its time joining that of what released it; past a word the gang stays in the clause while lanes and words are left, and after the last word the lanes that are
left go on at the next clause. -/
def Obligations.WordsLeadWhereTheHeaderSays : Prop :=
  (∀ (s : State) (nxt : BitVec 2), s.g.inH = false → tableWf zeros s.g.pc = true → tableWf zeros s.g.lk = true →
      let e := exitLanes s.g nxt
      let c := s.g.cl
      let target := c.addr + (hdrOff c.hdr <<< 2)
      (nxt = 0 → takeExit nxt s = .ok s) ∧
      e = (match nxt.toNat with | 0 => 0 | 1 => c.set | 2 => c.set &&& kc s.g | _ => c.set &&& ~~~kc s.g) ∧
      (e ≠ 0 → hdrExk c.hdr ∈ [1, 2, 3, 4, 7] → ∃ t, takeExit nxt s = .ok t ∧ t.g.cl.set = c.set &&& ~~~e ∧ t.g.cl.fired = true ∧
        t.g.v = s.g.v ∧ t.g.s = s.g.s ∧ t.g.k = s.g.k ∧ t.mem = s.mem ∧
        (∀ l < 32, e.getLsbD l = false → get0 t.g.pc l = get0 s.g.pc l ∧ get0 t.g.lk l = get0 s.g.lk l) ∧
        (∀ l < 32, e.getLsbD l = true →
          (hdrExk c.hdr = 1 → get0 t.g.pc l = target) ∧
          (hdrExk c.hdr = 2 → get0 t.g.pc l = target ∧ get0 t.g.lk l = clauseNext c) ∧
          (hdrExk c.hdr = 3 → get0 t.g.pc l = get0 s.g.lk l) ∧
          (hdrExk c.hdr = 4 → c.loop = none → get0 t.g.pc l = if s.g.lc = 0 then clauseNext c else target) ∧
          (hdrExk c.hdr = 7 → t.g.live.getLsbD l = false)) ∧
        (hdrExk c.hdr = 4 → c.loop = none → t.g.lc = if s.g.lc = 0 then 0 else s.g.lc - 1)) ∧
      (e ≠ 0 → hdrExk c.hdr = 5 →
        let r := field c.hdr.toNat 24 18
        let aligned := (lanesOf e).all fun l => decide ((pairGet s.g r l).toNat % 4 = 0)
        (aligned = true → ∃ t, takeExit nxt s = .ok t ∧ t.g.cl.set = c.set &&& ~~~e ∧ ∀ l ∈ lanesOf e, get0 t.g.pc l = pairGet s.g r l) ∧
        (aligned = false → ∃ x, takeExit nxt s = .error x ∧ x.cause = .misaligned))) ∧
  (∀ (s : State) (len : Nat), s.g.inH = false → tableWf zeros s.g.pc = true →
      let t := stepOver len s
      let c := s.g.cl
      t.clk = s.clk + 1 ∧ t.mem = s.mem ∧ t.g.v = s.g.v ∧ t.g.s = s.g.s ∧ t.g.k = s.g.k ∧ t.g.issued = s.g.issued + 1 ∧
      (c.x ≠ 0 → c.set ≠ 0 → c.x + len ≤ hdrN c.hdr → t.g.cl = { c with x := c.x + len } ∧ t.g.pc = s.g.pc) ∧
      (c.x ≠ 0 → c.set = 0 → t.g.cl = {} ∧ t.g.pc = s.g.pc) ∧
      (c.x ≠ 0 → c.set ≠ 0 → hdrN c.hdr < c.x + len → t.g.cl = {} ∧ ∀ l < 32,
        get0 t.g.pc l = if c.set.getLsbD l then clauseNext c else get0 s.g.pc l)) ∧
  (∀ s : State,
    let u := { s with g := { s.g with wait := .none, wake := none, gts := max s.g.gts (s.g.wake.getD 0) } }
    (s.g.waitNxt = 0 → finishWait s = goOn s.g.waitLen s u) ∧ ∀ v, takeExit s.g.waitNxt u = .ok v → finishWait s = goOn s.g.waitLen s v)

/-- R122, R123, R118, R51: the thread-control words act on the issue set, whatever the KP mask holds. `exit` ends the threads of the issue set. `yield` is a
long-latency event: before anything else moves, the gang gives its active place to the oldest ready pending gang of its quarter, if there is one;
one at trap priority keeps it (R52). -/
def Obligations.ThreadControlWordsActOnTheIssueSet : Prop :=
  (∀ w s, mayExit s w.nxt = true → bare w → Runs (.nop w) (aLen w) w.nxt s s) ∧
  (∀ w s, mayExit s w.nxt = true → bare w → Runs (.yield w) (aLen w) w.nxt s (longLatency s)) ∧
  (∀ w s, mayExit s w.nxt = true → w.pre = none → w.b = 112 → w.d = 0 → okA s.g.regs false false w.a.toNat = true →
    Runs (.setlc w) (aLen w) w.nxt s { s with g := { s.g with lc := (readA s (.int 32) w.la 0 w.a.toNat).truncate 32 } }) ∧
  (∀ w s (a : DWord), mayExit s w.nxt = true → w.pre = none → w.b = 112 → (w.d.getLsbD 6 = true ∨ w.d = 0) →
    (if w.a = 240 then ∃ o : Word, w.la = some o ∧ -8192 ≤ o.toInt ∧ o.toInt ≤ 8191 ∧ a = s.g.cl.addr + (o.signExtend 64 <<< 2)
     else if w.a = 192 then a = 0 else 128 ≤ w.a.toNat ∧ w.a.toNat < 192 ∧ a = sGet s.g (w.a.toNat - 128)) → clauseAddr a = true →
    let g := { s.g with meet := laneSet s.g.meet s.g.cl.set a }
    let g := if w.d.getLsbD 6 then sSet g (w.d.toNat % 64) (get0 s.g.meet (lowLane s.g.cl.set)) else g
    Runs (.meet w) (aLen w) w.nxt s { s with g := g }) ∧
  (∀ w s, bare w → w.nxt = 0 → s.g.cl.x ≠ 0 →
    ∃ t, exec (.exit w) s = .next t ∧ t.g.live = s.g.live &&& ~~~s.g.cl.set ∧ t.g.cl = {} ∧ t.g.pc = s.g.pc ∧ t.g.v = s.g.v ∧
      t.g.s = s.g.s ∧ t.mem = s.mem ∧ t.clk = s.clk + 1 ∧
      t.g.marks = s.g.marks &&& ~~~s.g.cl.set ∧
      t.agenda = s.agenda ++ (if s.g.live &&& ~~~s.g.cl.set = 0 then [(.gangEnd, s.g.gid, 0)] else []) ++
        (if (myTeam s).arrivals.isEmpty then [] else [(.compactRepack, s.g.team, 0)])) ∧
  (∀ w s, w.pre = none → w.b = 112 → w.d = 0 → w.nxt = 0 → w.a.toNat < 128 → vregOk s.g.regs true w.a.toNat = true →
    s.g.prio = false → s.g.cl.x ≠ 0 → (∀ l ∈ lanesOf s.g.cl.set, (pairGet s.g w.a.toNat l).toNat % 4 = 0) → (s.teams.any (·.uid == s.g.team)) = true →
    ∃ t, exec (.compact w) s = .next t ∧ t.g.cl = {} ∧ t.g.live = s.g.live ∧ t.g.pc = s.g.pc ∧ t.g.v = s.g.v ∧ t.mem = s.mem ∧
      (teamOf t s.g.team).arrivals = (teamOf s s.g.team).arrivals ++
        (lanesOf s.g.cl.set).map (fun l => ⟨s.g.gid, l, pairGet s.g w.a.toNat l⟩) ∧
      t.agenda = s.agenda ++ [(.compactRepack, (teamOf s s.g.team).uid, 0)]) ∧
  (∀ s : State, s.g.longLat = true → settleSets s = settleSets (exchange s.g { s with g := { s.g with longLat := false } })) ∧
  (∀ s : State, s.g.prio = true ∨ s.g.active = false ∨ (∀ x, ¬ standsBy s x) → exchange s.g s = s) ∧
  (∀ s : State, s.g.prio = false → s.g.active = true → (∃ x, standsBy s x) → ∃ x, standsBy s x ∧ (∀ y, standsBy s y → x.age ≤ y.age) ∧
    (x.gid ≠ s.g.gid → exchange s.g s = { s with
      g := placeless s.g
      gangs := modFirst (·.gid == x.gid) (fun y => { y with active := true, entered := s.clk + 1, entry := 0, issueAt := s.clk + 4, readyFrom := none }) s.gangs }))

/-- R122–R125, R302: a sleeping word goes on at once where its time has come, and otherwise waits for it, its wake being due; `brk` and `trap #n` take BREAKPOINT and
TRAP_INSTR after the word, n standing in the header; `sleep.r` whose promise has come and whose ticket is not complete takes PROMISE_MISSED. -/
def Obligations.SleepsAndTrapWords : Prop :=
  (∀ w s, mayExit s w.nxt = true → w.pre = none → w.b = 112 → w.d = 0 → 128 ≤ w.a.toNat → w.a.toNat < 192 →
    let x := sGet s.g (w.a.toNat - 128)
    (x.toNat ≤ s.clk → Runs (.sleepUntil w) (aLen w) w.nxt s s) ∧
    (s.clk < x.toNat → Waits (.sleepUntil w) (.sleepUntil x) (aLen w) w.nxt s (due .sleepWake s.g.gid (longLatency s))) ∧
    (promiseCome s x = true → ticketDone (myTeam s) x = true → Runs (.sleepR w) (aLen w) w.nxt s (observe (x.toNat % 65536) s)) ∧
    (promiseCome s x = false → Waits (.sleepR w) (.sleepR x) (aLen w) w.nxt s (due .sleepWake s.g.gid (longLatency s)))) ∧
  (∀ w s, mayTrap s → s.g.cl.x < 16 → bare w → w.nxt = 0 →
    ∃ t, exec (.brk w) s = .next t ∧ entered .breakpoint true (boundary (stepOver (aLen w) s)) (stepOver (aLen w) s) t) ∧
  (∀ w s (n : Nat), mayTrap s → s.g.cl.x < 16 → w.pre = none → w.b = 112 → w.d = 0 → w.nxt = 0 → n < 256 →
    ((w.a.toNat = 192 + n ∧ n < 16) ∨ (w.a = 240 ∧ w.la = some (BitVec.ofNat 32 n))) →
    ∃ t, exec (.trap w) s = .next t ∧ entered .trapInstr true (boundary (stepOver (aLen w) s)) (stepOver (aLen w) s) t ∧
      field t.g.area.dw0.toNat 23 16 = n) ∧
  (∀ w s u, mayExit s w.nxt = true → mayTrap s → s.g.cl.x < 16 → w.pre = none → w.b = 112 → w.d = 0 → 128 ≤ w.a.toNat → w.a.toNat < 192 →
    takeExit w.nxt s = .ok u → promiseCome s (sGet s.g (w.a.toNat - 128)) = true → ticketDone (myTeam s) (sGet s.g (w.a.toNat - 128)) = false →
    ∃ t, exec (.sleepR w) s = .next t ∧ entered .promiseMissed true (boundary (goOn (aLen w) s u)) (goOn (aLen w) s u) t)

namespace Sys2Proof.Claims

open Sys2Proof Machine

/-! ## Memory words -/

/-- Bytes of one lane's access. -/
def size (w : MWord) : Nat := 2 ^ w.w.toNat

/-- The active lanes with the addresses they form. -/
def accesses (w : MWord) (s : State) : List (Nat × DWord) := (lanesOf (active s.g)).map fun l => (l, addrOf w s l)

/-- The state once the pages of those addresses have been looked up (R205, R283). -/
def looked (w : MWord) (s : State) : State := fillPages ((accesses w s).map (·.2)) s

/-- Every active lane passes the checks of R204 for an access that needs n; no refused write-back of the context holds one of its lines (R194), and its
requests are among the core's 1,536 (R205); rs are the lanes' requests. -/
abbrev passes (n : Need) (acc : Nat) (w : MWord) (s : State) (rs : List (LaneReq × LineReq)) : Prop :=
  checkLanes (looked w s) n acc (size w) (accesses w s) = .ok rs ∧ lineWaits (looked w s) (distinctLines rs) = false

/-- Nothing of the gang, of other gangs, of memory, of the system registers and of the teams has changed from s to t. -/
abbrev quiet (s t : State) : Prop :=
  t.g = s.g ∧ t.gangs = s.gangs ∧ t.mem = s.mem ∧ t.sysregs = s.sysregs ∧ t.teams = s.teams ∧ t.tasks = s.tasks

/-- The word has made one operation of a kind in t: of the moving gang, in its window, with a number of its own; every other operation
stays. -/
abbrev made (kind : OpKind) (w : MWord) (s t : State) (o : Op) : Prop :=
  o ∈ t.ops ∧ o.id = s.nextId ∧ s.nextId < t.nextId ∧ o.gang = s.g.gid ∧ o.kind = kind ∧ o.la = w.la.toNat ∧ o.ctx = (myTeam s).ctx ∧
    o.cpc = s.g.cl.addr ∧ ∀ p ∈ s.ops, p.id ≠ s.nextId → p ∈ t.ops

/-- A step of the table is due on objects a and b. -/
abbrev isDue (e : Instr) (a b : Nat) (t : State) : Prop := (e, a, b) ∈ t.agenda

/-- Every line of an operation that has not been granted has its step at its home due; where none is left, its reply is. -/
abbrev linesDue (e reply : Instr) (o : Op) (t : State) : Prop :=
  (∀ r ∈ o.lines, r.granted = false → isDue e o.id r.line t) ∧ ((∀ r ∈ o.lines, r.granted = true) → isDue reply o.id 0 t)

/-- A load of some lanes has been sent: its lanes are those that the form names, and its lines are theirs, each asked for as the block that they touch (R29). -/
abbrev sentLoad (kind : OpKind) (w : MWord) (s s' t : State) (rs : List (LaneReq × LineReq)) : Prop :=
  quiet s' t ∧ ∃ o, made kind w s' t o ∧ o.lines.map (fun r => (r.line, r.lo, r.hi)) = (distinctLines rs).map (fun r => (r.line, r.lo, r.hi)) ∧
    o.lanes.map (fun l => (l.lane, l.va, l.pa, l.size)) = rs.map (fun r => (r.1.lane, r.1.va, r.1.pa, r.1.size)) ∧
    (s.g.gid = s'.g.gid) ∧ linesDue .homeLoad .loadReply o t

/-- The data registers of lane l as stored (R203). -/
def dataOf (w : MWord) (s : State) (r : LaneReq × LineReq) : LaneReq × LineReq :=
  ({ r.1 with bytes := groupBytes s.g w.data.toNat r.1.lane (size w) }, r.2)

/-- Whether a load form is legal (R202, R203, R207, R208). -/
abbrev ldLegal (w : MWord) (s : State) : Prop :=
  loadTyOk w false = true ∧ laneAddrOk w s = true ∧ groupOk s.g.regs w.w.toNat w.data.toNat = true ∧ w.hint.toNat < 3

/-- Scratch lanes in range, aligned, and for writers not locked (R204). -/
abbrev scrPasses (wr : Bool) (w : MWord) (s : State) : Prop := checkScr s wr (size w) (accesses w s) = .ok ()

/-- The atomics: opcode, whether they take a second operand group, and the pairs of width and TYPE they admit (R212, R213, R215). -/
def atomics : List ((MWord → Instr) × Nat × Bool × (Nat → Nat → Bool)) :=
  [(.atomAdd, 0xB6, false, anyW), (.atomMin, 0xB7, false, minmaxW), (.atomMax, 0xB8, false, minmaxW), (.atomAnd, 0xB9, false, anyW),
   (.atomOr, 0xBA, false, anyW), (.atomXor, 0xBB, false, anyW), (.atomXchg, 0xBC, false, anyW), (.atomCas, 0xBD, true, anyW),
   (.atomFadd, 0xBE, false, faddW), (.atomBinc, 0xBF, false, anyW), (.atomBfins, 0xC0, true, anyW),
   (.atomFfcs, 0xC1, false, fun w ty => w == 3 && ty == 0), (.atomPlset, 0xC2, true, anyW)]

/-- The operand G0 of a lane and, where there is one, G1 (R212). -/
def g0Of (w : MWord) (s : State) (l : Nat) : DWord := if w.w = 3 then pairGet s.g w.data.toNat l else (vGet s.g w.data.toNat l).setWidth 64
def g1Of (w : MWord) (s : State) (l : Nat) : DWord :=
  if w.w = 3 then pairGet s.g (w.data.toNat + 2) l else (vGet s.g (w.data.toNat + 1) l).setWidth 64

/-- A block of a line that one access of n bytes touches (R29). -/
def ofBlock (r : LineReq) (pa n : Nat) : LineReq :=
  { r with lo := (blockOf r.cls (pa % 128) (pa % 128 + n)).1, hi := (blockOf r.cls (pa % 128) (pa % 128 + n)).2 }

/-- WRITEBACK_DENIED, precisely, for the refused ones of dirty copies and what the core holds refused already: the others are sent home (R194, R301). -/
def writesDenied (s : State) (held dirty : List Copy) : Out :=
  let ref := dirty.filter (refusedWb s (myTeam s).core)
  let u := ref.foldl (fun s c => setCopy { c with quarantined := true } s) s
  .next (raised { cause := .writebackDenied, lost := (ref.length + held.length) - 32, lanes := 1#32 <<< lowLane (active s.g)
                  recs := (held ++ ref).map fun c => mkRec .writebackDenied c.va.toNat (lowLane (active s.g)) 5 c.cls 0 0 }
    (queueWb (dirty.filter fun c => !refusedWb s (myTeam s).core c) u))

end Sys2Proof.Claims

open Sys2Proof Sys2Proof.Machine Sys2Proof.Claims

/-- R179, R181, R205, R207–R209, R211, R29: `ld`, `ldu` and `pref` are sent: one operation per word, with the lanes' addresses, its lines served from a copy or
due at their homes; no register, no byte of memory and no time changes at issue. With no active lane they do nothing. Where one of their lines waits for a
refused write-back, or the core has no room for their requests, they stay at the word. The model's own choices in it, no rule of the spec: the lane mask
of a cause (log entry 33), the requests that count (log entry 110), a `pref`'s owned line that is left out (log entry 105). -/
def Obligations.LoadsAreSentAtIssue : Prop :=
  (∀ w s rs, mayExit s w.nxt = true → ldLegal w s → active s.g ≠ 0 → passes { r := true } 0 w s rs →
    ∃ t, sentLoad .load w s (looked w s) t rs ∧ Runs (.ld w) (mLen w) w.nxt s t) ∧
  (∀ w s, mayExit s w.nxt = true → ldLegal w s → active s.g = 0 → Runs (.ld w) (mLen w) w.nxt s s) ∧
  (∀ w s rs, mayExit s w.nxt = true → loadTyOk w true = true → uniAddrOk w = true → w.data.getLsbD 6 = false → w.w.toNat < 4 → w.hint = 0 →
    active s.g ≠ 0 →
    let u := fillPages [addrOf w s 0] s
    checkLanes u { r := true } 0 (size w) [(lowest (active s.g), addrOf w s 0)] = .ok rs → lineWaits u (distinctLines rs) false = false →
    ∃ t, sentLoad .load w s u t rs ∧ Runs (.ldu w) (mLen w) w.nxt s t) ∧
  (∀ w s, mayExit s w.nxt = true → modOk {} w.pre = true → laneAddrOk w s = true → w.data = 0 → w.hint.toNat < 2 →
    let good := (accesses w s).filter fun l => (checkLane (looked w s) { r := true } l.2 (size w)).toBool
    ∃ rs, checkLanes (looked w s) { r := true } 0 (size w) good = .ok rs ∧
      let lines := (distinctLines rs).filter fun r => !lineOwned (looked w s) r.line
      (lineWaits (looked w s) lines = false →
        ∃ t, Runs (.pref w) (mLen w) w.nxt s t ∧ quiet (looked w s) t ∧
          ∀ r ∈ rs, lineOwned (looked w s) r.2.line = false → ∃ o, made .pref w (looked w s) t o ∧
            o.lines.map (fun x => (x.line, x.lo, x.hi)) = lines.map (fun x => (x.line, x.lo, x.hi)) ∧
            (isDue .homeLoad o.id r.2.line t ∨ ∃ x ∈ o.lines, x.line = r.2.line ∧ x.granted = true))) ∧
  (∀ w s rs, mayExit s w.nxt = true → ldLegal w s → checkLanes (looked w s) { r := true } 0 (size w) (accesses w s) = .ok rs →
    lineWaits (looked w s) (distinctLines rs) = true → exec (.ld w) s = stall s) ∧
  (∀ (s : State) ls, (lineWaits s ls = true ↔ (∃ r ∈ ls, refusedLine s (myTeam s).ctx r.line = true) ∨ (ls ≠ [] ∧ 1536 < tracked s (myTeam s).core + ls.length)))

/-- R198, R203, R207: scratch loads and stores are performed at issue, in ascending order of lanes; a load's registers hold the bytes found, a store
is a scratch write of each lane's bytes. -/
def Obligations.ScratchWordsAreDoneAtIssue : Prop :=
  (∀ w s, mayExit s w.nxt = true → loadTyOk w false = true → scrAddrOk w s = true → w.w.toNat < 5 →
    groupOk s.g.regs w.w.toNat w.data.toNat = true → w.hint = 0 → scrPasses false w s →
    (∀ l ∈ accesses w s, scrOwned s (myTeam s).uid l.2.toNat (size w) = false) →
    Runs (.lds w) (mLen w) w.nxt s { s with g := (accesses w s).foldl (fun g l =>
      putGroup w.data.toNat l.1 (size w) (typeCode w.pre) (scrRead s (myTeam s).uid l.2.toNat (size w)) g) s.g }) ∧
  (∀ w s, mayExit s w.nxt = true → modOk {} w.pre = true → scrAddrOk w s = true → w.w.toNat < 5 →
    groupOk s.g.regs w.w.toNat w.data.toNat = true → w.hint = 0 → scrPasses true w s →
    Runs (.sts w) (mLen w) w.nxt s ((accesses w s).foldl (fun u l =>
      scrWrite (myTeam u).uid l.2.toNat (groupBytes u.g w.data.toNat l.1 (size w)) u) s)) ∧
  (∀ (s : State) team off (bs : List Byte), (s.teams.any (·.uid == team)) = true → tableWf zeros (teamOf s team).scratch = true →
    scrRead (scrPut team off bs s) team off bs.length = bs ∧
    ∀ a, (a < off ∨ off + bs.length ≤ a) → scrRead (scrPut team off bs s) team a 1 = scrRead s team a 1) ∧
  (∀ (s : State) team off bs, (∀ l ∈ s.laterals, l.pub ≠ team) → scrWrite team off bs s = scrPut team off bs s)

/-- R15, R179, R182–R184, R190, R194: a store whose pages are all ORDERED makes one operation with each lane's address and bytes, each of its lines due at its
home; a store whose pages are all BULK, and that is not written through, writes its bytes into the cluster's copies at issue and makes none. The cluster
cache makes room first for the BULK lines that it does not hold, and the word stays where it cannot. A quarantined line stays that of the gang whose store
was refused. The model's own choices in it, no rule of the spec: when a word may pass (log entry 6). -/
def Obligations.StoresAreSentOrKeptInTheCluster : Prop :=
  (∀ w s rs, mayExit s w.nxt = true → modOk {} w.pre = true → laneAddrOk w s = true → groupOk s.g.regs w.w.toNat w.data.toNat = true →
    w.hint.toNat < 2 → passes { w := true } 1 w s rs →
    let y := looked w s
    let room := storeRoom (clusterOf (myTeam y).core) (myTeam y).ctx (distinctLines (rs.map (dataOf w s))) y
    (w.hint = 0 → room = none → exec (.st w) s = stall s) ∧
    (∀ z, w.hint = 0 → room = some z → Runs (.st w) (mLen w) w.nxt s (sendStore (mkOp w y .store) false (rs.map (dataOf w s)) z)) ∧
    ((w.hint = 1 ∨ room = some y) → rs ≠ [] → (∀ r ∈ rs, r.2.bulk = false) → ∃ t, Runs (.st w) (mLen w) w.nxt s t ∧ quiet (looked w s) t ∧ t.copies = (looked w s).copies ∧
      ∃ o, made .store w (looked w s) t o ∧ o.lanes = (rs.map (dataOf w s)).map (·.1) ∧ o.lines.map (·.line) = (distinctLines rs).map (·.line) ∧
        linesDue .homeStore .storeTimeReturn o t) ∧
    ((∀ r ∈ rs, r.2.bulk = true) → w.hint = 0 → room = some y → ∃ t, Runs (.st w) (mLen w) w.nxt s t ∧
      t = (rs.map (dataOf w s)).foldl (fun u r => storeCopy (clusterOf (gangTeam (looked w s) s.g.gid).core) (myTeam s).ctx s.g.gid r.2 r.1.va
        (r.1.pa % 128) r.1.bytes r.1.mask true u) (looked w s))) ∧
  (∀ (s : State) cl ctx g r va pos (bs : List Byte), pos + bs.length ≤ 128 →
    (∀ c ∈ s.copies, tableWf zeros c.bytes = true ∧ tableWf zeros c.dirty = true) →
    ∃ c, copyOf (storeCopy cl ctx g r va pos bs 0xFF true s) cl ctx r.line = some c ∧ c.bulk = true ∧
      ((∀ k, copyOf s cl ctx r.line = some k → k.quarantined = false) → c.writer = g) ∧
      (∀ k, copyOf s cl ctx r.line = some k → k.bulk = true → k.quarantined = true → c.writer = k.writer ∧ c.quarantined = true) ∧
      copyBytes c pos bs.length = bs ∧ ∀ i < bs.length, get0 c.dirty (pos + i) = 0xFF ∧ c.valid.getLsbD (pos + i) = true) ∧
  (∀ (s : State) cl ctx g r va pos (bs : List Byte) mask,
    quiet s (storeCopy cl ctx g r va pos bs mask true s) ∧ (storeCopy cl ctx g r va pos bs mask true s).ops = s.ops)

/-- R212–R216, R214: every atomic makes one operation with each lane's address and operands, each of its lines due at its home, once its cluster has given up
its copies of BULK lines among them, dirty bytes first; `st.acc` sends each active lane's contribution, one request for every line, each due at its line's
slice. Beyond that memory and registers are as before. -/
def Obligations.AtomicsAndContributionsAreSent : Prop :=
  (∀ p ∈ atomics, ∀ w s rs, mayExit s w.nxt = true → modOk { ty := true } w.pre = true → p.2.2.2 w.w.toNat (typeCode w.pre) = true →
    laneAddrOk w s = true → atomGroupOk w s p.2.2.1 = true → w.hint.toNat < 2 → passes { r := true, w := true } 2 w s rs →
    (active s.g = 0 → Runs (p.1 w) (mLen w) w.nxt s s) ∧
    let y := yieldLines (distinctLines rs) (looked w s)
    (active s.g ≠ 0 → mayYield (looked w s) (distinctLines rs) = true → ∃ t, Runs (p.1 w) (mLen w) w.nxt s t ∧ quiet y t ∧ ∃ o, made .atomic w y t o ∧ o.code = p.2.1 ∧
      o.dst = w.data.toNat ∧ o.wr = (w.hint == 0) ∧ o.ty = typeCode w.pre ∧
      o.lanes.map (fun l => (l.lane, l.va, l.g0)) = (accesses w s).map (fun l => (l.1, l.2, g0Of w s l.1)) ∧
      (p.2.2.1 = true → o.lanes.map (·.g1) = (accesses w s).map (fun l => g1Of w s l.1)) ∧
      o.lines.map (·.line) = (distinctLines rs).map (·.line) ∧ linesDue .atomicAtHome .storeTimeReturn o t)) ∧
  (∀ (s : State) rs, (∀ r ∈ rs, r.bulk = false) → yieldLines rs s = s ∧ mayYield s rs = true) ∧
  (∀ w s rs, mayExit s w.nxt = true → w.pre = none → laneAddrOk w s = true → (w.w = 2 ∨ w.w = 3) → w.hint = 0 → atomGroupOk w s true = true →
    passes { w := true } 6 w s rs →
    (active s.g = 0 → Runs (.stAcc w) (mLen w) w.nxt s s) ∧
    (active s.g ≠ 0 → ∃ t, Runs (.stAcc w) (mLen w) w.nxt s t ∧ quiet (looked w s) t ∧
      (∃ o ∈ t.ops, o.id = (looked w s).nextId ∧ o.gang = s.g.gid ∧ o.kind = .stAcc) ∧
      ∀ r ∈ rs, ∃ q ∈ t.contribs, q.op = (looked w s).nextId ∧ q.mma = false ∧ q.line = r.1.pa / 128 ∧ q.width = size w ∧ q.dom = r.2.dom ∧
        isDue .contributionArrival q.id 0 t ∧ ∃ e ∈ q.elems, e.order = r.1.lane ∧ e.pa = r.1.pa ∧ e.bits = g0Of w s r.1.lane))

/-- R213: what each integer atomic makes of the word m it finds, and what it returns, on 32-bit and 64-bit words. -/
def Obligations.AtomicFunctionsAreThoseOfTheTable : Prop :=
  ∀ n ∈ [32, 64], ∀ (m a b : BitVec n) (ty : Nat),
    let f := fun code => atomFun code ty n m.toNat a.toNat b.toNat
    f 0xB6 = ((m + a).toNat, m.toNat) ∧
    (ty = 0 → f 0xB7 = ((if a.slt m then a else m).toNat, m.toNat) ∧ f 0xB8 = ((if m.slt a then a else m).toNat, m.toNat)) ∧
    (ty = 7 ∨ ty = 8 → f 0xB7 = ((if a.ult m then a else m).toNat, m.toNat) ∧ f 0xB8 = ((if m.ult a then a else m).toNat, m.toNat)) ∧
    f 0xB9 = ((m &&& a).toNat, m.toNat) ∧ f 0xBA = ((m ||| a).toNat, m.toNat) ∧ f 0xBB = ((m ^^^ a).toNat, m.toNat) ∧
    f 0xBC = (a.toNat, m.toNat) ∧ f 0xBD = ((if m = a then b else m).toNat, m.toNat) ∧
    f 0xBF = ((if m.ult a then m + 1 else m).toNat, m.toNat) ∧
    f 0xC0 = (((m &&& ~~~b) ||| (a &&& b)).toNat, m.toNat) ∧
    f 0xC2 = ((if popc (m ||| a) ≤ b.toNat % 128 then m ||| a else m).toNat, m.toNat) ∧
    (n = 64 → let j := lowest (~~~m &&& a)
      f 0xC1 = if j = n then (m.toNat, 64 + popc m * 2 ^ 32) else ((m ||| BitVec.twoPow n j).toNat, j + (popc m + 1) * 2 ^ 32))


/-- R217, R218, R183: a `weir` whose word makes its condition true goes on at once, the gang's time joining the word's write time where the page is ORDERED;
one whose word does not waits for it, holding a monitor at the word's slice where one is free, and polls otherwise: a wait is a long-latency dependence
(R51). It reads after the gang's earlier ORDERED accesses, and overtakes no request of its cluster to the same stop (R25). With no active lane it does nothing. The model's own choices in it, no rule of the spec: no
free monitor (log entry 32). -/
def Obligations.WeirGoesOnOrWaits : Prop :=
  ∀ w s l q leaf, mayExit s w.nxt = true → modOk {} w.pre = true → (isS w.base.toNat = true ∨ w.base = 192) → w.idx = 0xFF → (w.w = 2 ∨ w.w = 3) →
    w.data.getLsbD 6 = false → w.la = 0 → w.sc.toNat < 5 → w.hint.toNat < 2 → (w.hint = 0 ∨ w.sc = 2 ∨ w.sc = 3) →
    (active s.g = 0 → Runs (.weir w) (mLen w) w.nxt s s) ∧
    (active s.g ≠ 0 →
      let a := addrOf w s 0
      let u := fillPages [a] s
      let ctx := (myTeam s).ctx
      let r := ofBlock q l.pa (size w)
      checkLanes u { r := true } 0 (size w) [(lowest (active s.g), a)] = .ok [(l, q)] → allDone u = true → lineOwned u q.line = false →
      refusedLine u ctx q.line = false → readBehind u (myTeam s).core r = false → sliceOf u q.dom q.line = homeOf u q.dom q.line → holds u r = true →
      let v := countAccess r ctx u
      leafOf v (myTeam s).core ctx a.toNat = .ok leaf →
      let cmp := sGet s.g (w.data.toNat % 64)
      let tru := weirTrue w.sc.toNat (w.hint == 1) (8 * size w) (leNat (homeBytes u l.pa (size w))) cmp.toNat
      (tru = true → Runs (.weir w) (mLen w) w.nxt s { v with g := { v.g with gts := max v.g.gts (if q.bulk then 0 else wtsOf v q.dom q.line) } }) ∧
      (tru = false →
        let slice := homeOf v q.dom q.line
        let t := if monitorFree v slice then { v with monitors := v.monitors ++ [⟨s.g.gid, l.pa, size w, slice, q.dom⟩] } else due .weirPoll s.g.gid v
        Waits (.weir w) (.weir l.pa (size w) w.sc.toNat (w.hint == 1) cmp q.bulk (pteExt leaf.1) a) (mLen w) w.nxt s (longLatency t)))

/-- R191, R192, R194, R220–R222: `fence.rel` and `fence.acq` go on at once and are outstanding: the first until the gang's earlier stores are performed and, at
DIE, DEVICE and SYSTEM scope, every line in its cover that is dirty at its issue is at its home; the second until the gang's earlier loads are, when at those
scopes the clean BULK bytes it covers go. What is outstanding holds the gang's words that it orders, and no others. `clean` and `inval` write back the
dirty lines they cover first, the word being tried again; then `clean` has changed nothing more, and `inval` drops every copy it covers;
`clean.discard` drops those and the core's refused entries at once. A refused write-back raises WRITEBACK_DENIED precisely, with a record for each refused
line, after the others have been sent home; the refused lines are quarantined. With no active lane each does nothing. The model's own choices in it, no rule of the
spec: travel times are zero (log entry 5), the clean bytes of dirty lines go too (log entry 102), which opcodes each fence holds (log entry 111), what is checked as a
`fence.rel` issues (log entry 101), refused entries that are not tried again (log entry 127). -/
def Obligations.FencesAndMaintenanceEnd : Prop :=
  (∀ w s, mayExit s w.nxt = true →
    (fenceCheck w s 5 false = .ok none → Runs (.fenceRel w) (mLen w) w.nxt s s ∧ Runs (.fenceAcq w) (mLen w) w.nxt s s) ∧
    (fenceCheck w s 1 false = .ok none → Runs (.clean w) (mLen w) w.nxt s s ∧ Runs (.inval w) (mLen w) w.nxt s s) ∧
    (fenceCheck w s 1 true = .ok none → Runs (.cleanDiscard w) (mLen w) w.nxt s s)) ∧
  (∀ w s c, mayExit s w.nxt = true → fenceCheck w s 5 false = .ok (some c) →
    let dirty := if 2 ≤ w.w.toNat then dirtyIn s c else []
    ((w.w.toNat < 2 ∨ (opsOf s s.g.gid).any (·.kind == .stn) = false) → dirty.filter (refusedWb s (myTeam s).core) = [] → heldEntries s = [] →
      Runs (.fenceRel w) (mLen w) w.nxt s (endFences (queueWb dirty (addOp { fenceOp w s 0xC5 c with lines := dirty.map copyReq } s))) ∧
      (w.nxt = 0 → exec (.fenceRel w) s =
        .next (goOn (mLen w) s (endFences (queueWb dirty (addOp { fenceOp w s 0xC5 c with lines := dirty.map copyReq } s)))))) ∧
    Runs (.fenceAcq w) (mLen w) w.nxt s (endFences (addOp (fenceOp w s 0xC6 c) s)) ∧
    (w.nxt = 0 → exec (.fenceAcq w) s = .next (goOn (mLen w) s (endFences (addOp (fenceOp w s 0xC6 c) s))))) ∧
  (∀ w s c, mayExit s w.nxt = true → fenceCheck w s 5 false = .ok (some c) → (w.w.toNat < 2 ∨ (opsOf s s.g.gid).any (·.kind == .stn) = false) →
    let dirty := if 2 ≤ w.w.toNat then dirtyIn s c else []
    (dirty.any (refusedWb s (myTeam s).core) = true ∨ heldEntries s ≠ []) → exec (.fenceRel w) s = writesDenied s (heldEntries s) dirty) ∧
  (∀ w s c, mayExit s w.nxt = true → fenceCheck w s 1 false = .ok (some c) → storesOut s = false → (dirtyIn s c).any (refusedWb s (myTeam s).core) = true →
    exec (.clean w) s = writesDenied s [] (dirtyIn s c) ∧ exec (.inval w) s = writesDenied s [] (dirtyIn s c)) ∧
  (∀ s : State, (∀ o ∈ s.ops, o.kind = .fence → fenceDone s o = false) → endFences s = s) ∧
  (∀ (s : State) o, (∀ p ∈ s.ops, p.kind ≠ .fence ∧ p.id < s.nextId) → o.kind = .fence → o.id = s.nextId → fenceDone (addOp o s) o = true →
    endFences (addOp o s) = (if o.code = 0xC5 ∨ o.w < 2 then { s with nextId := s.nextId + 1 }
      else o.lanes.foldl (fun s l => dropClean (clusterOf (gangTeam s o.gang).core) o.ctx
        (fun v => l.size == 0 || (decide (l.va.toNat ≤ v) && decide (v < l.pa))) s) { s with nextId := s.nextId + 1 })) ∧
  (∀ (s : State) cl ctx p, let t := dropClean cl ctx p s
    t = { s with copies := t.copies } ∧ (∀ k ∈ s.copies, (k.remote = true ∨ k.bulk = false ∨ k.holder ≠ cl ∨ k.ctx ≠ ctx ∨ p (k.va.toNat / 128) = false) → k ∈ t.copies) ∧
    (∀ k ∈ t.copies, ∃ j ∈ s.copies, k = { j with valid := k.valid }) ∧
    ∀ k ∈ t.copies, k.remote = false → k.bulk = true → k.holder = cl → k.ctx = ctx → p (k.va.toNat / 128) = true →
      k.dirty ≠ [] ∧ ∀ i < 128, k.valid.getLsbD i = true → ∃ e ∈ k.dirty, e.1 = i ∧ e.2 = 0xFF) ∧
  (∀ (s : State) o, o ∈ s.ops → o.gang = s.g.gid → o.kind = .fence → fenceHolds o.code (nextOp s.g) (nextM s.g) = true → mayPass s = false) ∧
  (∀ s : State, (∀ o ∈ s.ops, o.gang = s.g.gid → o.kind = .fence ∧ o.wr = false ∧ fenceHolds o.code (nextOp s.g) (nextM s.g) = false) →
    s.relays = [] → s.mmas = [] → mayPass s = true) ∧
  (∀ w s c, mayExit s w.nxt = true → fenceCheck w s 1 false = .ok (some c) → storesOut s = false →
    ((dirtyIn s c).filter (refusedWb s (myTeam s).core) = [] → dirtyIn s c ≠ [] →
      exec (.clean w) s = stall (queueWb (dirtyIn s c) s) ∧ exec (.inval w) s = stall (queueWb (dirtyIn s c) s)) ∧
    (dirtyIn s c = [] →
      Runs (.clean w) (mLen w) w.nxt s s ∧ (w.nxt = 0 → exec (.clean w) s = .next (goOn (mLen w) s s)) ∧
      ∃ t, Runs (.inval w) (mLen w) w.nxt s t ∧ (w.nxt = 0 → exec (.inval w) s = .next (goOn (mLen w) s t)) ∧
        t = { s with copies := t.copies } ∧ (∀ k ∈ t.copies, k ∈ s.copies) ∧
        ∀ k ∈ t.copies, ¬(k.remote = false ∧ k.holder = clusterOf (myTeam s).core ∧ k.ctx = (myTeam s).ctx ∧ c.has k.va.toNat = true))) ∧
  (∀ w s c, mayExit s w.nxt = true → fenceCheck w s 1 true = .ok (some c) →
    ∃ t, Runs (.cleanDiscard w) (mLen w) w.nxt s t ∧ (w.nxt = 0 → exec (.cleanDiscard w) s = .next (goOn (mLen w) s t)) ∧
      t = { s with copies := t.copies, refused := t.refused } ∧ (∀ k ∈ t.copies, k ∈ s.copies) ∧
      (∀ k ∈ t.copies, ¬(k.remote = false ∧ k.holder = clusterOf (myTeam s).core ∧ k.ctx = (myTeam s).ctx ∧ c.has k.va.toNat = true)) ∧
      ∀ r, r ∈ t.refused ↔ r ∈ s.refused ∧ ¬(r.core = (myTeam s).core ∧ r.copy.ctx = (myTeam s).ctx ∧ c.has r.copy.va.toNat = true))

namespace Sys2Proof.Claims

open Sys2Proof Machine

/-- The elected lane's element of a lane list, and the indices of lane l through a slot (R229). -/
def lanesThrough (w : MWord) (s : State) (x : Slot) : List (Nat × Nat) :=
  (lanesOf (active s.g)).map fun l => (l, indexBits x.dims (laneIndices s.g w.base.toNat x.rank l))

/-- Bytes of an element's data group. -/
def elemSize (x : Slot) : Nat := max 1 (x.eltBits / 8)

/-- The value the element at index bits i of a slot in scratch, or in the gang's registers, has (R152, R153). -/
def scrElem (s : State) (x : Slot) (i : Nat) : Nat :=
  let p := mulVec x.cols i
  if x.eszc = 0 then leNat (scrRead s (myTeam s).uid (x.base.toNat + p / 2) 1) / 16 ^ (p % 2) % 16
  else leNat (scrRead s (myTeam s).uid (x.base.toNat + p * x.eltBits / 8) (x.eltBits / 8))

/-- A nameless store of some bytes into a pool has been sent. -/
abbrev sentName (w : MWord) (s t : State) (n : Nat) (bytes : List Byte) : Prop :=
  quiet s t ∧ ∃ o, made .stn w s t o ∧ o.pool = n ∧ o.dst = w.idx.toNat - 128 ∧ o.code = w.hint.toNat ∧
    o.lanes.flatMap (·.bytes) = bytes ∧ isDue .namelessStoreChoice o.id 0 t

end Sys2Proof.Claims

open Sys2Proof Sys2Proof.Machine Sys2Proof.Claims

/-- R223–R226, R270, R271: `stn`, `stn.blk` and `rlq` are sent: a nameless store carries its bytes, zero for lanes that are not active, and the s register
its name will go to; a relinquishment carries its lanes' chunks. The chooser takes a free chunk of least rank, or names none; the name is written once
every line is performed and every earlier name of the gang is, the lines of a BULK chunk being stored in the cluster once it has room for them; `rlq` frees its chunks, and a chunk found free raises RLQ_FREE. The model's own choices
in it, no rule of the spec: ties of the chooser (log entry 42). -/
def Obligations.PoolsAreStoredIntoAndFreed : Prop :=
  (∀ w s, mayExit s w.nxt = true → stnFields w = true → active s.g = 0 →
    (w.w = 4 → groupOk s.g.regs 4 w.data.toNat = true → Runs (.stn w) (mLen w) w.nxt s s) ∧
    (w.w = 0 → w.data.getLsbD 6 = false → Runs (.stnBlk w) (mLen w) w.nxt s s)) ∧
  (∀ w s n, mayExit s w.nxt = true → stnFields w = true → w.w = 4 → groupOk s.g.regs 4 w.data.toNat = true → active s.g ≠ 0 →
    poolCheck s (sGet s.g (w.base.toNat - 128)) true = .ok n →
    ∃ t, sentName w s t n ((List.range 32).flatMap fun l =>
      if (active s.g).getLsbD l then groupBytes s.g w.data.toNat l 16 else List.replicate 16 0) ∧ Runs (.stn w) (mLen w) w.nxt s t) ∧
  (∀ w s n, mayExit s w.nxt = true → stnFields w = true → w.w = 0 → w.data.getLsbD 6 = false → active s.g ≠ 0 →
    poolCheck s (sGet s.g (w.base.toNat - 128)) false = .ok n →
    let o := (sGet s.g (w.data.toNat % 64)).toNat
    let c := poolChunk s (myTeam s).ctx n
    o % 32 = 0 → o + c ≤ (myTeam s).scr → scrOwned s (myTeam s).uid o c = false →
    ∃ t, sentName w s t n (scrRead s (myTeam s).uid o c) ∧ Runs (.stnBlk w) (mLen w) w.nxt s t) ∧
  (∀ w s (at' : Nat → Nat × Nat), mayExit s w.nxt = true → modOk {} w.pre = true → laneAddrOk w s = true → w.w = 0 → w.data = 0 → w.hint = 0 →
    let ls := (accesses w s).filter (·.2 != 0)
    let u := fillPages (ls.map (·.2)) s
    (∀ l ∈ ls, rlqLane u l.1 l.2 = .ok (at' l.1)) →
    (ls = [] → Runs (.rlq w) (mLen w) w.nxt s u) ∧
    (ls ≠ [] → ∃ t, Runs (.rlq w) (mLen w) w.nxt s t ∧ quiet u t ∧ ∃ o, made .rlq w u t o ∧ isDue .rlqApply o.id 0 t ∧
      o.lanes.map (fun l => (l.lane, l.g0.toNat, l.g1.toNat)) = ls.map fun l => (l.1, (at' l.1).1 % 2 ^ 64, (at' l.1).2 % 2 ^ 64))) ∧
  (∀ (s : State) ctx core n base len size i a, chooseChunk s ctx core n base len size = some (i, a) →
    i < len / size ∧ i ∉ takenOf s ctx n ∧ a = base + size * i ∧ lockedMem s ctx a size = none ∧ ∃ e z, leafOf s core ctx a = .ok (e, z) ∧
      ∀ j < len / size, j ∉ takenOf s ctx n → lockedMem s ctx (base + size * j) size = none →
        ∀ e' z', leafOf s core ctx (base + size * j) = .ok (e', z') →
          chunkRank s (paOf e z a) a ≤ chunkRank s (paOf e' z' (base + size * j)) (base + size * j)) ∧
  (∀ (s : State) o base len, opOf s s.obj.1 = some o → o.kind = .stn → earlierDone s o = true → (∀ l ∈ o.lanes, l.g0 = base ∧ l.g1 = len) → o.lanes ≠ [] →
    (s.ctxs.any (·.id == o.ctx)) = true →
    let core := (gangTeam s o.gang).core
    (chooseChunk s o.ctx core o.pool base.toNat len.toNat (128 * o.lanes.length) = none →
      ∃ t o', exec .namelessStoreChoice s = .next t ∧ isDue .nameReturn o.id 0 t ∧ opOf t o.id = some o' ∧ o'.name = 0 ∧ o'.lanes = [] ∧ t.mem = s.mem ∧ t.copies = s.copies) ∧
    (∀ i a e z, chooseChunk s o.ctx core o.pool base.toNat len.toNat (128 * o.lanes.length) = some (i, a) → leafOf s core o.ctx a = .ok (e, z) →
      (∀ r ∈ s.refused, r.copy.ctx ≠ o.ctx) →
      let rs := o.lanes.mapIdx fun j l => ({ l with va := BitVec.ofNat 64 (a + 128 * j), pa := paOf e z (a + 128 * j) }, reqOf s e (paOf e z (a + 128 * j)) (a + 128 * j))
      let take := setTaken o.ctx o.pool (len.toNat / (128 * o.lanes.length)) (insertNat i (takenOf s o.ctx o.pool))
      let kept := fun (u : State) => setOp (take u) { sentOp s o with name := a, lanes := rs.map (·.1) }
      (pteBulk e = false → ∃ t o', exec .namelessStoreChoice s = .next t ∧ opOf t o.id = some o' ∧ o'.name = a ∧ o'.lanes = rs.map (·.1) ∧
        o'.lines.map (·.line) = (distinctLines rs).map (·.line) ∧ linesDue .homeStore .nameReturn o' t ∧ t.mem = s.mem ∧ t.copies = s.copies ∧ t.g = s.g ∧ t.gangs = s.gangs ∧
        (∀ j, j ∈ takenOf t o.ctx o.pool ↔ j = i ∨ j ∈ takenOf s o.ctx o.pool)) ∧
      (pteBulk e = true → storeRoom (clusterOf core) o.ctx (rs.map (·.2)) s = none → exec .namelessStoreChoice s = later .namelessStoreChoice s) ∧
      (∀ u, pteBulk e = true → storeRoom (clusterOf core) o.ctx (rs.map (·.2)) s = some u → exec .namelessStoreChoice s = .next (due .nameReturn o.id
        (rs.foldl (fun v r => storeCopy (clusterOf core) o.ctx o.gang r.2 r.1.va 0 r.1.bytes 0xFF true v) (kept u)))))) ∧
  (∀ (s : State) o, opOf s s.obj.1 = some o → o.kind = .stn → (∀ r ∈ o.lines, r.granted = true) → o.events = [] → o.lanes = [] → o.code = 1 →
    (∀ p ∈ s.ops, p.gang = o.gang → p.kind = .stn → o.id ≤ p.id) →
    ∀ x, gangOf s o.gang = some x → x.place ≠ .ended → ∃ t y, exec .nameReturn s = .next t ∧ gangOf t o.gang = some y ∧
      sGet y o.dst = BitVec.ofNat 64 o.name ∧ y.pending.map (·.cause) = x.pending.map (·.cause) ++ [.poolEmpty]) ∧
  (∀ (s : State) o, opOf s s.obj.1 = some o → o.kind = .stn → (∀ r ∈ o.lines, r.granted = true) → o.events = [] → (o.lanes ≠ [] ∨ o.code ≠ 1) →
    (∀ p ∈ s.ops, p.gang = o.gang → p.kind = .stn → o.id ≤ p.id) → (gangOf s o.gang).isSome = true →
    ∃ t x y, exec .nameReturn s = .next t ∧ gangOf s o.gang = some x ∧ gangOf t o.gang = some y ∧ sGet y o.dst = BitVec.ofNat 64 o.name ∧
      y = { x with s := y.s, gts := y.gts } ∧ x.gts ≤ y.gts ∧ (∀ r ∈ o.lines, r.time ≤ y.gts) ∧ (∀ p ∈ t.ops, p.id ≠ o.id) ∧ t.mem = s.mem) ∧
  (∀ (s : State) o, opOf s s.obj.1 = some o → o.kind = .rlq → earlierDone s o = true → (s.ctxs.any (·.id == o.ctx)) = true →
    ∃ t, exec .rlqApply s = .next t ∧ t.mem = s.mem ∧ (∀ p ∈ t.ops, p.id ≠ o.id) ∧
      (∀ n, poolOn s o.ctx n = true → n < 16 → takenOf t o.ctx n =
        (takenOf s o.ctx n).filter fun i => !o.lanes.any fun l => l.g0.toNat == n && l.g1.toNat == i) ∧
      ((o.lanes.map fun l => (l.g0, l.g1)).Nodup → (∀ l ∈ o.lanes, l.g1.toNat ∈ takenOf s o.ctx l.g0.toNat) → t.g = s.g ∧ t.gangs = s.gangs) ∧
      (∀ l x, o.lanes = [l] → l.g1.toNat ∉ takenOf s o.ctx l.g0.toNat → gangOf s o.gang = some x → x.place ≠ .ended →
        ∃ y, gangOf t o.gang = some y ∧ y.pending.map (·.cause) = x.pending.map (·.cause) ++ [.rlqFree]))

/-- R229, R230, R161: `ldt` and `stt` go through the slot: to memory as one load or store of the elements' places, to scratch and to registers at once, once
no relay and no operation of the gang has yet to write the registers, or locks those that are stored. -/
def Obligations.ElementWordsGoThroughTheirSlot : Prop :=
  (∀ w s n x ls, mayExit s w.nxt = true → elemSlot w s 0 = .ok (n, x) → elemWaits s (myTeam s).ctx n false = false →
    elemLanes w n x false s = .ok ls →
    ls = lanesThrough w s x ∧
    (x.res = 0 →
      let u := fillPages (ls.map fun l => (elemReq x l.1 l.2).va) s
      lineWaits u (distinctLines (elemReqs u x ls)) = false →
      (elemReqs u x ls = [] → Runs (.ldt w) (mLen w) w.nxt s u) ∧ (elemReqs u x ls ≠ [] → ∃ t, Runs (.ldt w) (mLen w) w.nxt s t ∧ quiet u t ∧ ∃ o, made .load w u t o ∧ o.dst = w.data.toNat ∧ o.wr = true ∧
        o.lanes.map (fun l => (l.lane, l.va, l.pa)) = (elemReqs u x ls).map (fun r => (r.1.lane, r.1.va, r.1.pa)) ∧ linesDue .homeLoad .loadReply o t)) ∧
    (x.res = 1 → (∀ l ∈ ls, scrOwned s (myTeam s).uid (elemReq x l.1 l.2).va.toNat (elemSize x) = false) →
      Runs (.ldt w) (mLen w) w.nxt s { s with g := ls.foldl (fun g l =>
        putGroup w.data.toNat l.1 (elemSize x) 0 (leBytes (elemSize x) (scrElem s x l.2)) g) s.g }) ∧
    (x.res = 2 → (∀ r ∈ elemRegsOf x ls, regOwned s s.g.gid r = false ∧ regAwaited s r = false) →
      Runs (.ldt w) (mLen w) w.nxt s { s with g := ls.foldl (fun g l =>
        putGroup w.data.toNat l.1 (elemSize x) 0 (leBytes (elemSize x) (regElem s.g x x.base.toNat (mulVec x.cols l.2))) g) s.g })) ∧
  (∀ w s n x ls, mayExit s w.nxt = true → elemSlot w s 1 = .ok (n, x) → elemWaits s (myTeam s).ctx n true = false →
    elemLanes w n x true s = .ok ls →
    ls = lanesThrough w s x ∧
    (x.res = 0 →
      let u := fillPages (ls.map fun l => (elemReq x l.1 l.2).va) s
      let rs := elemReqs u x ls
      let stored := rs.map fun r => ({ r.1 with bytes := (elemBytes s.g x w.data.toNat r.1.lane r.1.g0.toNat).1, mask := (elemBytes s.g x w.data.toNat r.1.lane r.1.g0.toNat).2 }, r.2)
      lineWaits u (distinctLines rs) = false →
      (storeRoom (clusterOfGang u) (myTeam u).ctx (distinctLines stored) u = none → exec (.stt w) s = stall s) ∧
      ∀ z, storeRoom (clusterOfGang u) (myTeam u).ctx (distinctLines stored) u = some z →
      Runs (.stt w) (mLen w) w.nxt s (sendStore { mkOp w u .store with ty := 0 } false stored z) ∧
      (z = u → rs ≠ [] → (∀ r ∈ rs, r.2.bulk = false) → ∃ t, Runs (.stt w) (mLen w) w.nxt s t ∧ quiet u t ∧ t.copies = u.copies ∧ ∃ o, made .store w u t o ∧
        o.lanes.map (fun l => (l.lane, l.va, l.pa, l.bytes)) = rs.map (fun r => (r.1.lane, r.1.va, r.1.pa,
          (elemBytes s.g x w.data.toNat r.1.lane r.1.g0.toNat).1)) ∧ linesDue .homeStore .storeTimeReturn o t)) ∧
    (x.res = 1 → x.eszc ≠ 0 → Runs (.stt w) (mLen w) w.nxt s (ls.foldl (fun u l =>
      scrWrite (myTeam s).uid (elemReq x l.1 l.2).va.toNat (groupBytes s.g w.data.toNat l.1 (elemSize x)) u) s)) ∧
    (x.res = 1 → x.eszc = 0 → Runs (.stt w) (mLen w) w.nxt s (ls.foldl (fun u l =>
      let q := elemReq x l.1 l.2
      let nib := BitVec.ofNat 8 ((vGet s.g w.data.toNat l.1).toNat % 16 * 2 ^ q.g0.toNat)
      scrWrite (myTeam s).uid q.va.toNat ((scrRead u (myTeam s).uid q.va.toNat 1).map fun old =>
        mergeByte old nib (BitVec.ofNat 8 (15 * 2 ^ q.g0.toNat))) u) s)) ∧
    (x.res = 2 → (∀ r ∈ elemRegsOf x ls, regLocked s s.g.gid r = false ∧ regAwaited s r = false) →
      Runs (.stt w) (mLen w) w.nxt s { s with g := ls.foldl (fun g l =>
        setRegElem g x x.base.toNat (mulVec x.cols l.2) (groupNat s.g w.data.toNat l.1 (elemSize x))) s.g })) ∧
  (∀ (g : Gang) x b p q v, x.eszc ≤ 4 → tableWf zeros g.v = true → v < 2 ^ x.eltBits →
    regElem (setRegElem g x b p v) x b q = if q = p then v else regElem g x b q)

/-- R146–R155, R171–R174: the layout words act on the slot they name: `lay.set` puts the descriptor read there, `lay.free` empties it, `lay.get`
stores it as a descriptor, `lay.chk` answers with a code, `lay.place` gives each active lane its place word, the bounds of an SCR or REG
footprint being tested again (R154): ILLEGAL_OPERAND for a REG footprint beyond the gang's registers. The model's own choices in it, no rule of the spec:
the cause SCRATCH_RANGE of a failing SCR footprint and the place of that test (log entry 106), and the number by which a descriptor is told from what its
slot held before (log entry 131). No other slot changes. -/
def Obligations.LayoutWordsActOnTheirSlot : Prop :=
  (∀ w s n t bs, mayExit s w.nxt = true → blockFields w = true → w.w = 0 → active s.g ≠ 0 → slotOperand w s = .ok n →
    descAt w s = .ok (some (t, bs)) → writeBusy s (myTeam s).ctx n = false → readBusy s (myTeam s).ctx n = false →
    descOk bs s.g.regs (myTeam s).scr = true → rankOf (descSlot bs).n (descSlot bs).cols = (descSlot bs).n →
    Runs (.laySet w) (mLen w) w.nxt s (setSlot (myTeam s).ctx n (some { descSlot bs with gen := t.nextId }) { t with nextId := t.nextId + 1 })) ∧
  (∀ w s, w.hint = 1 → (addrOf w s 0).toNat % 64 = 0 →
    let a := (addrOf w s 0).toNat
    let head := scrRead s (myTeam s).uid a 64
    a + descLen head ≤ (myTeam s).scr → scrOwned s (myTeam s).uid a 64 = false → scrOwned s (myTeam s).uid a (descLen head) = false →
    descAt w s = .ok (some (s, scrRead s (myTeam s).uid a (descLen head)))) ∧
  (∀ w s n, mayExit s w.nxt = true → modOk {} w.pre = true → w.w = 0 → w.base = 0 → w.idx = 0 → w.sc = 0 → w.ofs = 0 → w.hint = 0 → active s.g ≠ 0 →
    slotOperand w s = .ok n → writeBusy s (myTeam s).ctx n = false → readBusy s (myTeam s).ctx n = false →
    Runs (.layFree w) (mLen w) w.nxt s (setSlot (myTeam s).ctx n none s)) ∧
  (∀ w s n t, mayExit s w.nxt = true → blockFields w = true → w.w = 0 → active s.g ≠ 0 → slotOperand w s = .ok n →
    let ctx := (myTeam s).ctx
    let bs := match slotOf s ctx n with | some x => slotBytes x (writeBusy s ctx n || readBusy s ctx n) | none => List.replicate 64 0
    blockStore w bs s = .ok (some t) → Runs (.layGet w) (mLen w) w.nxt s t) ∧
  (∀ w s (bs : List Byte),
    let a := (addrOf w s 0).toNat
    (w.hint = 1 → a % 64 = 0 → a + bs.length ≤ (myTeam s).scr → lockedScr s (myTeam s).uid a bs.length = none →
      blockStore w bs s = .ok (some (scrWrite (myTeam s).uid a bs s))) ∧
    (∀ t, w.hint = 0 → blockStore w bs s = .ok (some t) → cacheTakes s (clusterOf (myTeam s).core) 0 = true →
      ((∀ p ∈ pieces a bs.length, ∀ q, lineReq s (myTeam s).core (myTeam s).ctx p.1 = some q → q.1.bulk = false) → quiet s t ∧ t.copies = s.copies) ∧ ∀ o ∈ t.ops, o ∈ s.ops ∨ (o.kind = .store ∧ o.gang = s.g.gid ∧ o.id = s.nextId))) ∧
  (∀ w s t bs, mayExit s w.nxt = true → blockFields w = true → w.w = 1 → w.data.getLsbD 6 = false → active s.g ≠ 0 → descAt w s = .ok (some (t, bs)) →
    Runs (.layChk w) (mLen w) w.nxt s { t with g := sSet t.g (w.data.toNat % 64) (BitVec.ofNat 64 (chkCode bs s.g.regs (myTeam s).scr)) }) ∧
  (∀ w s n x, mayExit s w.nxt = true → modOk {} w.pre = true → w.w = 0 → w.sc = 0 → w.hint = 0 → w.base.toNat < 128 →
    vregOk s.g.regs true w.data.toNat = true → slotByIdx w s = .ok n → slotOf s (myTeam s).ctx n = some x →
    w.base.toNat + x.rank ≤ s.g.regs →
    (x.res = 2 → x.regFits s.g.regs = false → exec (.layPlace w) s = .next (raised (plain .illegalOperand) s)) ∧
    ((x.res = 2 → x.regFits s.g.regs = true) →
    (x.res = 1 → x.scrFits (myTeam s).scr = false → active s.g ≠ 0 → (∀ l ∈ lanesOf (active s.g), inside x.ext (laneIndices s.g w.base.toNat x.rank l) = true) →
      ∃ r, r.cause = .scratchRange ∧ exec (.layPlace w) s = .next (raised r s)) ∧
    ((x.res = 1 → x.scrFits (myTeam s).scr = true) →
    let ix := laneIndices s.g w.base.toNat x.rank
    let va := fun l => (x.base + BitVec.ofNat 64 (x.place (ix l) * x.eltBits / 8) : DWord)
    let u := if x.res = 0 then fillPages ((lanesOf (active s.g)).map va) s else s
    (∀ l ∈ lanesOf (active s.g), inside x.ext (ix l) = true ∧ (x.res = 0 → (checkLane u { r := true } (va l) 1).toBool = true)) →
    Runs (.layPlace w) (mLen w) w.nxt s { u with g := writeLanes true w.data.toNat ((lanesOf (active s.g)).map fun l =>
      (l, BitVec.ofNat 64 (placeWord64 u x (x.place (ix l))))) s.g }))) ∧
  (∀ w s, mayExit s w.nxt = true → active s.g = 0 → blockFields w = true →
    (w.w = 0 → Runs (.laySet w) (mLen w) w.nxt s s ∧ Runs (.layGet w) (mLen w) w.nxt s s) ∧
    (w.w = 1 → w.data.getLsbD 6 = false → Runs (.layChk w) (mLen w) w.nxt s s)) ∧
  (∀ (s : State) ctx n x, (s.ctxs.any (·.id == ctx)) = true → slotOf (setSlot ctx n x s) ctx n = x ∧
    ∀ c m, (c ≠ ctx ∨ m ≠ n) → slotOf (setSlot ctx n x s) c m = slotOf s c m)

namespace Sys2Proof.Claims

open Sys2Proof Machine

/-- The moving gang's team is one of the state's teams. -/
abbrev placed (s : State) : Prop := (s.teams.any (·.uid == s.g.team)) = true

/-- Gang g has become y, and no other gang has changed. -/
abbrev oneGang (s t : State) (g : Nat) (x y : Gang) : Prop :=
  gangOf s g = some x ∧ gangOf t g = some y ∧ ∀ h, h ≠ g → gangOf t h = gangOf s h

/-- The two forms that take their block alone, with the number of their form (R239). -/
def mmaForms : List ((MWord → Instr) × Nat) := [(.mma, 0), (.mmaThin, 1)]

/-- A matrix operation has been queued for its core's engine, in its window, its block having been checked; nothing else has changed. It has yet to read
its block and, `mma.q`, its registers (R84, R240). -/
abbrev queued (form sv zv bsel a : Nat) (w : MWord) (s t : State) (bs : List Byte) : Prop :=
  ∃ m, t = { s with mmas := s.mmas ++ [m], nextId := s.nextId + 1, agenda := s.agenda ++ [(.mmaAccept, m.id, 0)] } ∧ m.id = s.nextId ∧
    m.gang = s.g.gid ∧ m.team = (myTeam s).uid ∧ m.core = (myTeam s).core ∧ m.form = form ∧ m.sv = sv ∧ m.zv = zv ∧ m.bsel = bsel ∧
    m.p = paramsOf bs ∧ m.blk = a ∧ m.la = w.la.toNat ∧ m.seq = s.g.issued ∧ m.reads = quantRegs form sv zv bsel (paramsOf bs) ∧ m.t0 = s.g.gts ∧
    m.accepted = false ∧ m.computed = false

/-- The conditions on the state of a matrix form (R239, R240). -/
abbrev mmaReady (form sv zv bsel : Nat) (w : MWord) (s : State) (a : Nat) (bs : List Byte) : Prop :=
  modOk {} w.pre = true ∧ baseOk w = true ∧ w.w = 0 ∧ w.hint = 0 ∧ active s.g ≠ 0 ∧ objectAt w s 64 7 64 = .ok a ∧
    scrOwned s (myTeam s).uid a 64 = false ∧ bs = scrRead s (myTeam s).uid a 64 ∧ (checkMma form a sv zv bsel bs s).toBool = true ∧
    storesOut s = false ∧ (s.mmas.filter (·.core == (myTeam s).core)).length < 8

/-- An element of A or B of an integer tile without scales. -/
def intElem (s : State) (m : MmaOp) (h f row rows k : Nat) : Int :=
  let kt := m.tile.2.2
  let x := raceElem s m.team h 8 ((k / kt * rows + row) * kt + k % kt)
  if f = 1 then (BitVec.ofNat 8 x).toInt else (BitVec.ofNat 8 x).toNat

/-- No gang but those of a list has changed, and no memory, register or team. -/
abbrev still (s t : State) : Prop := t.mem = s.mem ∧ t.sysregs = s.sysregs ∧ t.g = s.g ∧ t.gangs = s.gangs ∧ t.teams = s.teams ∧ t.tasks = s.tasks

/-- What a slice has answered for a line of an entry, where that is a refusal. -/
def refusalOf (m : Merge) (l : LineReq) : Option Cause := (m.replies.find? (·.1 == l.line)).bind (·.2)

end Sys2Proof.Claims

open Sys2Proof Sys2Proof.Machine Sys2Proof.Claims

/-- R232–R234, R17: `hr.bind` binds a headrace of free units: a unit that the context used last holds the bytes last left in it, any other zeros; `hr.free`
releases one that nothing uses, or waits, and HEADRACE_RELEASE then releases it. The units keep its bytes. -/
def Obligations.HeadracesAreBoundAndFreed : Prop :=
  (∀ w s, mayExit s w.nxt = true → raceForm w = true → 1 ≤ w.ofs.toNat → w.ofs.toNat ≤ 224 →
    (active s.g = 0 → Runs (.hrBind w) (mLen w) w.nxt s s) ∧
    (active s.g ≠ 0 → placed s → (∀ r ∈ (myTeam s).races, r.num ≠ w.data.toNat) → w.ofs.toNat ≤ fifoFree s (clusterOf (myTeam s).core) →
      let cl := clusterOf (myTeam s).core
      let us := pickUnits s.fresh w.ofs.toNat (freeUnits s cl)
      ∃ t, Runs (.hrBind w) (mLen w) w.nxt s t ∧ t = { s with teams := t.teams, fresh := t.fresh } ∧
        (teamOf t s.g.team).races = (myTeam s).races ++ [⟨w.data.toNat, w.ofs.toNat, unitBytes s (myTeam s).ctx cl us, us⟩] ∧
        (∀ u, u ≠ s.g.team → teamOf t u = teamOf s u))) ∧
  (∀ key n (l : List Nat), (pickUnits key n l).length = min n l.length ∧ (∀ u ∈ pickUnits key n l, u ∈ l) ∧ (l.Nodup → (pickUnits key n l).Nodup)) ∧
  (∀ (s : State) ctx cl us i u x, tableWf zeros s.fifo = true → us[i]? = some u → x < 4096 → get0 (unitBytes s ctx cl us) (4096 * i + x) =
    if (get0 s.fifoCtx (unitKey cl u)).toNat = ctx + 1 then get0 s.fifo (4096 * unitKey cl u + x) else 0) ∧
  (∀ (s : State) ctx cl (r : Headrace) i u x, tableWf zeros s.fifo = true → tableWf zeros s.fifoCtx = true → tableWf zeros r.bytes = true → r.units.Nodup →
    r.units[i]? = some u → x < 4096 → let t := leaveUnits ctx cl r s
    get0 t.fifo (4096 * unitKey cl u + x) = get0 r.bytes (4096 * i + x) ∧ get0 t.fifoCtx (unitKey cl u) = BitVec.ofNat 64 (ctx + 1) ∧
      t = { s with fifo := t.fifo, fifoCtx := t.fifoCtx }) ∧
  (∀ w s, mayExit s w.nxt = true → raceForm w = true → w.ofs = 0 →
    (active s.g = 0 → Runs (.hrFree w) (mLen w) w.nxt s s) ∧
    (active s.g ≠ 0 → placed s → (∃ r ∈ (myTeam s).races, r.num = w.data.toNat) →
      (raceBusy s s.g.team w.data.toNat = false → ∃ t, Runs (.hrFree w) (mLen w) w.nxt s t ∧ t = { s with teams := t.teams, fifo := t.fifo, fifoCtx := t.fifoCtx } ∧
        (teamOf t s.g.team).races = (myTeam s).races.filter (·.num != w.data.toNat)) ∧
      (raceBusy s s.g.team w.data.toNat = true →
        Waits (.hrFree w) (.hrFree w.data.toNat) (mLen w) w.nxt s (due .headraceRelease s.g.gid s)))) ∧
  (∀ (s : State) x h, gangOf s s.obj.1 = some x → x.wait = .hrFree h →
    (raceBusy s x.team h = true → exec .headraceRelease s = .next (due .headraceRelease s.obj.1 s s.obj.2)) ∧
    (raceBusy s x.team h = false → ∃ t, exec .headraceRelease s = .next t ∧ oneGang s t s.obj.1 x { x with wake := some 0 } ∧
      (teamOf t x.team).races = (teamOf s x.team).races.filter (·.num != h) ∧ t.mem = s.mem))

/-- R84, R113, R235–R245: the matrix forms `mma`, `mma.thin` and `mma.q` queue an operation, which no word of the gang outside its window, or writing a register
it has yet to read, passes; the engine accepts in order, reading the block, and the registers of `mma.q`, then; it computes and sends the tile's
contributions, and completes once all are answered. An integer tile without scales is the exact sum of products modulo 2^32. The model's own choices in
it, no rule of the spec: when an operation reads its headraces (log entry 50), a block changed before its acceptance (log entry 99). -/
def Obligations.MatrixOperationsQueueComputeAndComplete : Prop :=
  (∀ p ∈ mmaForms, ∀ w s, mayExit s w.nxt = true → w.data = 0 → w.idx = 0xFF → w.sc = 0 →
    (modOk {} w.pre = true → baseOk w = true → w.w = 0 → w.hint = 0 → active s.g = 0 → Runs (p.1 w) (mLen w) w.nxt s s) ∧
    (∀ a bs, mmaReady p.2 0 0 0 w s a bs → ∃ t, queued p.2 0 0 0 a w s t bs ∧ mmaBlockOk p.2 bs = true ∧
      Runs (p.1 w) (mLen w) w.nxt s t ∧ (w.nxt = 0 → exec (p.1 w) s = .next (goOn (mLen w) s t)))) ∧
  (∀ w s a bs, mayExit s w.nxt = true → w.data.toNat < s.g.regs → w.idx.toNat < s.g.regs → w.idx.toNat < 128 → w.sc.toNat < 2 →
    (modOk {} w.pre = true → baseOk w = true → w.w = 0 → w.hint = 0 → active s.g = 0 → Runs (.mmaQ w) (mLen w) w.nxt s s) ∧
    (mmaReady 2 w.data.toNat w.idx.toNat w.sc.toNat w s a bs →
    ∃ t, queued 2 w.data.toNat w.idx.toNat w.sc.toNat a w s t bs ∧ mmaBlockOk 2 bs = true ∧
      Runs (.mmaQ w) (mLen w) w.nxt s t ∧ (w.nxt = 0 → exec (.mmaQ w) s = .next (goOn (mLen w) s t)))) ∧
  (∀ (s : State) m, m ∈ s.mmas → m.gang = s.g.gid → m.accepted = false → (m.seq + m.la < s.g.issued ∨ ∃ r ∈ (nextNames s).w, r ∈ m.reads) →
    mayPass s = false) ∧
  (∀ (s : State) m, s.mmas.find? (·.id == s.obj.1) = some m →
    (m.accepted = false → (∀ o ∈ s.mmas, o.core = m.core → o.accepted = false → m.id ≤ o.id) →
      scrOwned s m.team m.blk 64 = false → let bs := scrRead s m.team m.blk 64
      exec .mmaAccept s = .next { s with
        mmas := modFirst (·.id == m.id) (fun x => { x with
          accepted := true, p := if mmaBlockOk m.form bs then paramsOf bs else m.p
          regs := if m.form = 2 then ((gangOf s m.gang).map (·.v)).getD [] else [], reads := [] }) s.mmas
        agenda := s.agenda ++ [(.mmaCompletion, m.id, 0)] }) ∧
    (m.accepted = true → m.computed = false → (∀ o ∈ s.mmas, o.core = m.core → o.computed = false → m.id ≤ o.id) → badScale s m = none →
      ∃ t, exec .mmaCompletion s = .next t ∧ still s t ∧ ∀ i < m.tile.1, ∀ j < m.tile.2.1, ∃ q ∈ t.contribs, q.mma = true ∧ q.op = m.id ∧
        q.t = m.t0 ∧ isDue .contributionArrival q.id 0 t ∧ ∃ e ∈ q.elems, e.order = i * m.tile.2.1 + j ∧
          e.va = BitVec.ofNat 64 (m.p.caddr.toNat + i * m.p.ldc + j * accSize m.p.act) ∧ e.bits = BitVec.ofNat 64 ((rowResult s m i).getD j 0)) ∧
    (m.accepted = true → m.computed = true → (∀ c ∈ s.contribs, c.mma = true → c.op ≠ m.id) → m.refused = [] →
      ∃ t, exec .mmaCompletion s = .next t ∧ t.mmas = s.mmas.filter (·.id != m.id) ∧ t.mem = s.mem ∧
        ∀ x, gangOf s m.gang = some x → oneGang s t m.gang x { x with engTime := max x.engTime m.t0 })) ∧
  (∀ (s : State) (m : MmaOp) i j, m.form = 0 → m.p.act = 2 → (m.p.fa = 1 ∨ m.p.fa = 5) → (m.p.fb = 1 ∨ m.p.fb = 5) → m.p.nch ≠ 0 → i < 64 → j < 64 →
    ((rowResult s m i).getD j 0 : Int) =
      ((List.range (m.p.nch * 64)).map fun k => intElem s m m.p.ha m.p.fa i 64 k * intElem s m m.p.hb m.p.fb j 64 k).sum % 2 ^ 32)

/-- R25, R247, R248, R251, R194, R294: `acc.init` asks the entry's home slices and waits; each slice, once what the cluster sent it before has
arrived, grants its lines or refuses; lines whose home a reshape has
changed are asked for again at the new one; the last reply opens the entry, or the entry goes and the gang raises the cause of the lowest refused line. `acc.drop` gives the lines of an entry
back, slice by slice. -/
def Obligations.MergeEntriesOpenAndAreDropped : Prop :=
  (∀ w s, mayExit s w.nxt = true → active s.g = 0 → w.la = 0 →
    (blockForm w = true → Runs (.accInit w) (mLen w) w.nxt s s) ∧
    (modOk {} w.pre = true → uniAddrOk w = true → w.w = 0 → w.data = 0 → w.sc = 0 → w.hint = 0 → Runs (.accDrop w) (mLen w) w.nxt s s)) ∧
  (∀ w s a, mayExit s w.nxt = true → blockForm w = true → w.la = 0 → active s.g ≠ 0 → objectAt w s 64 7 64 = .ok a → scrOwned s (myTeam s).uid a 64 = false →
    let bs := scrRead s (myTeam s).uid a 64
    let caddr := at8 bs 8
    let donea := at8 bs 0x18
    let vas := entryLines caddr (at4 bs 0x10) (leNat ((bs.drop 0x14).take 2)) (leNat ((bs.drop 0x16).take 2)) (etypeSize (at8 bs 0 % 4))
    let u := fillPages (vas.map fun v => BitVec.ofNat 64 v) s
    mergeBlockOk bs = true → caddr % 128 = 0 → donea % 8 = 0 → checkAccPages s (vas.map (·, 128) ++ if donea = 0 then [] else [(donea, 8)]) = .ok () →
    storesOut u = false → (∀ v ∈ vas, ∀ l, lineReq u (myTeam s).core (myTeam s).ctx v = some l →
      homeMoves u l.1.dom l.1.line = false ∧ refusedLine u (myTeam s).ctx l.1.line = false) →
    ∃ m y, Waits (.accInit w) (.reply m.id) (mLen w) w.nxt s y ∧ y.merges = u.merges ++ [m] ∧ m.id = u.nextId ∧ m.gang = s.g.gid ∧
      m.isOpen = false ∧ m.elems = [] ∧ m.replies = [] ∧ m.caddr = BitVec.ofNat 64 caddr ∧ m.nc = field (at8 bs 0) 31 16 ∧ m.t0 = s.g.gts ∧ y.mem = u.mem ∧
      (∀ l ∈ m.lines, isDue .accInitSlice m.id (m.home l) y ∧ m.home l ∈ m.waiting ∧ ∃ k ∈ m.lines, k.line = l.line ∧ m.home l = homeOf u k.dom k.line)) ∧
  (∀ (s : State) m, mergeOf s s.obj.1 = some m → s.obj.2 ∈ m.waiting →
    let mine := m.lines.filter fun l => m.home l == s.obj.2 && !l.granted
    let moved := mine.filter fun l => homeOf s l.dom l.line != s.obj.2
    let clash := s.merges.any fun o => o.id != m.id && mine.any fun l => o.lines.any fun k => k.line == l.line && k.granted
    let full := decide (2 ^ 20 < (s.merges.map fun o => if o.id = m.id then 0 else bufferAt o s.obj.2).sum + mine.length * (128 / etypeSize m.etype) * elemBuffer m)
    let answered := fun (m' : Merge) c => m'.replies = m.replies ++ mine.map (fun l => (l.line, c)) ∧ m'.waiting = m.waiting.filter (· != s.obj.2)
    (m.behind s s.obj.2 = true → exec .accInitSlice s = later .accInitSlice s) ∧
    (m.behind s s.obj.2 = false → moved ≠ [] →
      exec .accInitSlice s = .next (askAgain (m.reach s.obj.2) s.obj.2 moved (setMerge s (m.reach s.obj.2)))) ∧
    (m.behind s s.obj.2 = false → moved = [] → (clash = true ∨ full = true) → ∃ t m', exec .accInitSlice s = .next t ∧ mergeOf t m.id = some m' ∧ t.mem = s.mem ∧ m'.lines = m.lines ∧
      answered m' (some (if clash then .mergeInvalid else .mergeSpace)) ∧ (m'.waiting = [] → isDue .accInitReply m.id 0 t)) ∧
    (m.behind s s.obj.2 = false → moved = [] → clash = false → full = false →
      (∀ l ∈ mine, storedLine l.line = false ∧ engineOwned s l.line = false ∧ sliceOf s l.dom l.line = homeOf s l.dom l.line ∧ refusedLine s m.ctx l.line = false ∧
        collectable s (clusterOf (gangTeam s m.gang).core) m.ctx l.line = true) →
      ∃ t m', exec .accInitSlice s = .next t ∧ mergeOf t m.id = some m' ∧ answered m' none ∧ (∀ l ∈ mine, { l with granted := true } ∈ m'.lines) ∧
        (m.init = false → m'.elems = m.elems ++ mine.flatMap fun r => (List.range (128 / etypeSize m.etype)).map fun i =>
          newElem m (128 * r.line + etypeSize m.etype * i) 0) ∧
        (m.init = false → m'.times = m.times ++ mine.map fun r => (r.line, m.t0)) ∧ (m'.waiting = [] → isDue .accInitReply m.id 0 t)) ∧
    (m.dropping = true → m.behind s s.obj.2 = true → exec .accDropSlice s = later .accDropSlice s) ∧
    (m.dropping = true → m.behind s s.obj.2 = false → ∃ t m', exec .accDropSlice s = .next t ∧ mergeOf t m.id = some m' ∧ m'.waiting = m.waiting.filter (· != s.obj.2) ∧
      t.mem = s.mem ∧ (∀ l ∈ m'.lines, m.home l = s.obj.2 → l.granted = false) ∧ (m'.waiting = [] → isDue .accDropReply m.id 0 t))) ∧
  (∀ (s : State) (m : Merge) slice moved, mergeOf s m.id = some m → (∀ l ∈ moved, l ∈ m.lines ∧ homeOf s l.dom l.line ≠ slice) →
    let t := askAgain m slice moved s
    ∃ m', mergeOf t m.id = some m' ∧ t = { s with merges := t.merges, agenda := t.agenda } ∧ m' = { m with homes := m'.homes, waiting := m'.waiting } ∧
      ∀ l ∈ moved, homeOf s l.dom l.line ∈ m'.waiting ∧ (homeOf s l.dom l.line ∉ m.waiting → isDue .accInitSlice m.id (homeOf s l.dom l.line) t)) ∧
  (∀ (s : State) m, mergeOf s s.obj.1 = some m → m.waiting = [] →
    (m.isOpen = false → m.events = [] → (∀ r ∈ m.replies, r.2 = none) → ∃ t m', exec .accInitReply s = .next t ∧ mergeOf t m.id = some m' ∧
      m'.isOpen = true ∧ m'.elems = m.elems ∧ t.mem = s.mem ∧
      ∀ x, gangOf s m.gang = some x → x.wait = .reply m.id → ∃ y n, oneGang s t m.gang x y ∧ y = { x with wake := some n } ∧
        (m.init = false → n = 0) ∧ (m.init = true → ∀ p ∈ m.times, p.2 ≤ n)) ∧
    (∀ l c x, m.isOpen = false → m.events = [] → l ∈ m.lines → refusalOf m l = some c → (∀ k ∈ m.lines, refusalOf m k ≠ none → k = l ∨ l.line < k.line) →
      gangOf s m.gang = some x → let lane := lowLane (active x) % 32
      exec .accInitReply s = .next (raised { cause := c, lanes := 1#32 <<< lane, recs := [mkRec c (128 * l.va) lane 7 l.cls 1 0] }
        (switchTo { s with merges := s.merges.filter (·.id != m.id) } m.gang))) ∧
    (m.dropping = true → ∃ t, exec .accDropReply s = .next t ∧ t.merges = s.merges.filter (·.id != m.id) ∧ t.mem = s.mem ∧
      ∀ x ∈ allGangs t, x.wait = .reply m.id → x.wake.isSome = true)) ∧
  (∀ w s m, mayExit s w.nxt = true → modOk {} w.pre = true → uniAddrOk w = true → w.w = 0 → w.data = 0 → w.sc = 0 → w.hint = 0 → w.la = 0 → active s.g ≠ 0 →
    (checkLanes s { w := true } 1 1 [(lowest (active s.g), addrOf w s 0)]).toBool = true →
    let pick := fun (m : Merge) => m.isOpen && !m.dropping && m.ctx == (myTeam s).ctx && m.caddr == addrOf w s 0
    (s.merges.find? pick = none → Runs (.accDrop w) (mLen w) w.nxt s s) ∧
    (s.merges.find? pick = some m → ∃ y m', Waits (.accDrop w) (.reply m.id) (mLen w) w.nxt s y ∧
      (mergeOf s m.id = some m → mergeOf y m.id = some m') ∧ m' = { m with dropping := true, waiting := m'.waiting, sentAt := s.nextId, came := [] } ∧
      (∀ l ∈ m.lines, m.home l ∈ m'.waiting ∧ isDue .accDropSlice m.id (m.home l) y) ∧ y.mem = s.mem))

/-- R25, R114, R216, R249, R250: once what its cluster sent before it to its stop has arrived, a
contribution is refused where no entry holds its line, and otherwise merged once, the elements of an EXACT entry whatever
the order; a line whose elements are all final is written. The last reply performs the `st.acc`, and its refusals raise one cause: that of the lowest
refused lane, with COUNT the number of refused lanes. The model's own choices
in it, no rule of the spec: the order of arrivals (log entry 51). -/
def Obligations.ContributionsAreMergedOnce : Prop :=
  (∀ (s : State) q, s.contribs.find? (·.id == s.obj.1) = some q → s.obj.1 ≠ 0 → q.arrived = false →
    storedLine q.line = false → (q.mma = true ∨ ∀ o, opOf s q.op = some o → earlierDone s o = true) →
    (q.came = true ∨ behindAt s q.cluster (homeOf s q.dom q.line, false) q.sentAt = false) →
    ((∀ m ∈ s.merges, ∀ l ∈ m.lines, l.line = q.line → l.granted = false) → ∃ t q', exec .contributionArrival s = .next t ∧ still s t ∧
      t.contribs.find? (·.id == q.id) = some q' ∧ q'.arrived = true ∧ q'.refused = q.elems.map (fun c => (c.order, c.va, Cause.mergeAbsent)) ∧
      isDue .contributionReply q.id 0 t) ∧
    (∀ m, s.merges.find? (fun m => m.lines.any fun l => l.line == q.line && l.granted) = some m → mergeOf s m.id = some m →
      (m.isOpen = false → exec .contributionArrival s = .next (due .contributionArrival s.obj.1 { s with
        contribs := modFirst (·.id == q.id) (fun _ => { q with came := true, sentAt := if q.sentAt = 0 then s.nextId else q.sentAt }) s.contribs } s.obj.2)) ∧
      (∀ c n e, m.isOpen = true → q.elems = [c] → q.split = [n] → c.pa / 128 = q.line → m.elems.find? (·.pa == c.pa) = some e → refuse m e q n = none →
        e.count + 1 < m.nc → q.line ∉ m.written → ∃ t m' q', exec .contributionArrival s = .next t ∧ still s t ∧ mergeOf t m.id = some m' ∧
          m'.elems = modFirst (·.pa == c.pa) (applyTerm m n c.bits) m.elems ∧ t.contribs.find? (·.id == q.id) = some q' ∧ q'.arrived = true ∧ q'.refused = [] ∧
          isDue .contributionReply q.id 0 t))) ∧
  (∀ (m : Merge) (s : State) line r, m.elems.any (·.pa / 128 == line) = true → line ∉ m.written → (∀ e ∈ m.elems, e.pa / 128 = line → m.nc ≤ e.count) →
    m.lines.find? (·.line == line) = some r → (m.elems.filter (·.pa / 128 == line)).map (·.pa) = (List.range (128 / etypeSize m.etype)).map (fun i =>
      128 * line + etypeSize m.etype * i) → tableWf zeros s.mem = true →
    let p := finishLine m line s
    line ∈ p.2.written ∧ readBytes p.1.mem (128 * line) 128 = (m.elems.filter (·.pa / 128 == line)).flatMap (fun e => leBytes (etypeSize m.etype) (finalValue m e)) ∧
      (∀ a, (a < 128 * line ∨ 128 * line + 128 ≤ a) → get0 p.1.mem a = get0 s.mem a)) ∧
  (∀ (a b : DWord) (e : MergeElem), exactTerm a (exactTerm b e) = exactTerm b (exactTerm a e)) ∧
  (∀ (s : State) q, s.contribs.find? (·.id == s.obj.1) = some q → q.arrived = true →
    let left := s.contribs.filter (·.id != q.id)
    let last := !left.any fun c => c.op == q.op && c.mma == q.mma
    (∀ m, q.mma = true → s.mmas.find? (·.id == q.op) = some m → ∃ t, exec .contributionReply s = .next t ∧ t.contribs = left ∧ t.mem = s.mem ∧
      (last = true → isDue .mmaCompletion q.op 0 t)) ∧
    (∀ o, q.mma = false → opOf s q.op = some o → ∃ t, exec .contributionReply s = .next t ∧ t.contribs = left ∧ t.mem = s.mem ∧
      (last = true → ∀ p ∈ t.ops, p.id ≠ o.id) ∧ (last = true → o.refused = [] → q.refused = [] → t.g = s.g ∧ t.gangs = s.gangs) ∧
      (∀ f x, last = true → f ∈ o.refused ++ q.refused → (∀ r ∈ o.refused ++ q.refused, r = f ∨ f.1 < r.1) → gangOf s o.gang = some x → x.place ≠ .ended → ∃ y r,
        gangOf t o.gang = some y ∧ y.pending = x.pending ++ [r] ∧ r.cause = f.2.2 ∧ r.lanes = maskOf (fun l => (o.refused ++ q.refused).any (·.1 == l)) ∧
        r.recs = [mkRec f.2.2 f.2.1.toNat f.1 6 (clsOf s (gangTeam s o.gang).core o.ctx f.2.1.toNat) (o.refused ++ q.refused).length 0])))

namespace Sys2Proof.Claims

open Sys2Proof Machine

/-- The scratch tables of the teams list no key twice and no zero. -/
abbrev scratchWf (s : State) : Prop := ∀ t ∈ s.teams, tableWf zeros t.scratch = true

/-- The fields of a cistern, and of a barrier object, are in their ranges (R252, R330). -/
abbrev cisRange (c : Cis) : Prop :=
  c.lastn < 2 ^ 40 ∧ c.phase < 2 ^ 16 ∧ c.rsv1 < 2 ^ 5 ∧ c.rsv2 < 2 ^ 24 ∧ -2 ^ 39 ≤ c.count ∧ c.count < 2 ^ 39
abbrev barRange (b : Bar) : Prop :=
  b.exp < 2 ^ 6 ∧ b.rsv1 < 2 ^ 2 ∧ b.ndrop < 2 ^ 6 ∧ b.rsv0 < 2 ^ 23 ∧ b.ccoh < 2 ^ 8 ∧ b.phase < 2 ^ 16 ∧ b.maxt < 2 ^ 64 ∧ b.dw3 < 2 ^ 64

/-- A gang of a team that waits on the cistern, or the barrier object, at an offset for a phase that is past, and is not yet released. -/
def pastCis (t a phase : Nat) (x : Gang) : Bool :=
  x.team == t && x.wake.isNone && match x.wait with | .cistern o p => o == a && p != phase | _ => false
def pastBar (t a phase : Nat) (x : Gang) : Bool :=
  x.team == t && x.wake.isNone && match x.wait with | .barrier o p => o == a && p != phase | _ => false

/-- The three relay forms (R175). -/
def relays : List ((MWord → Instr) × RelayKind) := [(.relayMv, .mv), (.relayCp, .cp), (.relayGx, .gx)]

/-- The moving gang may act on an object of scratch: nothing is to land on it, none of its bytes is locked, and no load or store of the gang is
outstanding (R333). -/
abbrev mayArrive (s : State) (a : Nat) : Prop :=
  scrOwned s s.g.team a 32 = false ∧ lockedScr s s.g.team a 32 = none ∧ ∀ x ∈ opsOf s s.g.gid, x.kind ≠ .load ∧ isStoreKind x.kind = false

/-- The object after an arrival of the moving gang (R332, R337). -/
def arrived (s : State) (o : Bar) (coh : Option Nat) (leave drop : Bool) : Bar :=
  let me : Mask := 1#32 <<< s.g.num
  { o with ckind := coh.isSome, ccoh := coh.getD o.ccoh, arrv := o.arrv ||| me, maxt := max o.maxt s.g.gts, cdrop := o.cdrop || drop,
           drop := if leave then o.drop ||| me else o.drop, ndrop := if leave then o.ndrop + 1 else o.ndrop }

/-- The state in which an arrival is made: the team's open batches are closed (R274), and the phase stands in the register that DATA names. -/
def atArrival (w : MWord) (s : State) (o : Bar) : State :=
  let u := closeTeam s.g.team s
  if w.data.getLsbD 6 then u else { u with g := sSet u.g (w.data.toNat % 64) (BitVec.ofNat 64 o.phase) }

/-- What an arrival writes over a 32-byte entry; one that expects nobody stays (R338). -/
def entryNew (a : CohortArr) (v : Nat) : Nat := if v % 2 ^ 32 = 0 then v else (entryArrive v a.maxt a.drop).1

/-- The moving gang has not arrived at a valid object whose phase is not of another kind (R332, R337). -/
abbrev mayJoin (s : State) (o : Bar) (coh : Option Nat) : Prop :=
  o.invalid = false ∧ o.exp ≠ 0 ∧ (o.drop ||| o.arrv) &&& (1#32 <<< s.g.num) = 0 ∧
    (o.arrv = 0 ∨ (o.ckind = coh.isSome ∧ ∀ c, coh = some c → o.ccoh = c))

end Sys2Proof.Claims

open Sys2Proof Sys2Proof.Machine Sys2Proof.Claims

/-- R252–R255: the cistern words act on 16 bytes of scratch: arming adds to the count, a count that reaches zero completes the phase, and a gang waits
until the phase is past. -/
def Obligations.CisternWordsCountAndWait : Prop :=
  (∀ w s, mayExit s w.nxt = true → cisFields w = true → active s.g = 0 →
    (w.data.getLsbD 6 = false → w.hint.toNat < 2 → (idxNum w s).isSome = true → Runs (.cisArm w) (mLen w) w.nxt s s) ∧
    (w.data.getLsbD 6 = false → w.hint = 0 → w.idx = 0xFF → Runs (.cisRearm w) (mLen w) w.nxt s s ∧ Runs (.cisRd w) (mLen w) w.nxt s s) ∧
    (w.data = 0 → w.hint = 0 → (idxNum w s).isSome = true → Runs (.cisSub w) (mLen w) w.nxt s s) ∧
    (w.data = 0 → w.hint = 0 → isS w.idx.toNat = true → Runs (.cisWait w) (mLen w) w.nxt s s)) ∧
  (∀ w s a, mayExit s w.nxt = true → cisFields w = true → active s.g ≠ 0 → placed s → objectAt w s 16 = .ok a → scrOwned s s.g.team a 16 = false →
    let t := s.g.team
    let c := readCis s t a
    let u := { s with g := sSet s.g (w.data.toNat % 64) (BitVec.ofNat 64 c.phase) }
    (∀ n d, w.data.getLsbD 6 = false → w.hint.toNat < 2 → cisAmount w s = .ok n → c.ovf = false → c.arm n (w.hint == 1) = some d →
      Runs (.cisArm w) (mLen w) w.nxt s (wakeCis t a (putCis t a d u))) ∧
    (w.data.getLsbD 6 = false → w.hint = 0 → w.idx = 0xFF → c.ovf = false →
      (c.armed = true → Runs (.cisRearm w) (mLen w) w.nxt s u) ∧
      (∀ d, c.armed = false → c.arm c.lastn false = some d → Runs (.cisRearm w) (mLen w) w.nxt s (wakeCis t a (putCis t a d u)))) ∧
    (∀ n, w.data = 0 → w.hint = 0 → cisAmount w s = .ok n → Runs (.cisSub w) (mLen w) w.nxt s (wakeCis t a (putCis t a (c.countdown n) s))) ∧
    (w.data.getLsbD 6 = false → w.hint = 0 → w.idx = 0xFF → Runs (.cisRd w) (mLen w) w.nxt s
      { s with g := sSet s.g (w.data.toNat % 64) (BitVec.ofNat 64 (leNat (scrRead s t a 8))) }) ∧
    (w.data = 0 → w.hint = 0 → isS w.idx.toNat = true → c.ovf = false →
      let p := (sGet s.g (w.idx.toNat - 128)).toNat % 2 ^ 16
      (c.phase ≠ p → Runs (.cisWait w) (mLen w) w.nxt s s) ∧
      (c.phase = p → Waits (.cisWait w) (.cistern a p) (mLen w) w.nxt s (longLatency s)))) ∧
  (∀ (c : Cis) (n : Nat) ext,
    let k := c.count + n
    let d := { c with count := k, ext := c.ext || ext, armed := true, lastn := min ((if c.armed then c.lastn else 0) + n) (2 ^ 40 - 1) }
    c.arm n ext = (if k < 0 ∨ 2 ^ 39 ≤ k then none else if k = 0 then some { d with armed := false, phase := (c.phase + 1) % 2 ^ 16 } else some d)) ∧
  (∀ (c : Cis) (v : Nat), c.count - v > -2 ^ 39 → c.ovf = false → c.armed = true → c.countdown v =
    (if c.count = v then { c with count := 0, armed := false, phase := (c.phase + 1) % 2 ^ 16 }
     else if c.count < v then { c with count := c.count - v, ovf := true } else { c with count := c.count - v })) ∧
  (∀ (s : State) t a c, (s.teams.any (·.uid == t)) = true → scratchWf s → cisRange c → readCis (putCis t a c s) t a = c) ∧
  (∀ (s : State) t a, (wakeCis t a s).mem = s.mem ∧ (wakeCis t a s).teams = s.teams ∧ allGangs (wakeCis t a s) = (allGangs s).map fun x =>
    if pastCis t a (readCis s t a).phase x then { x with wake := some 0 } else x)

/-- R84, R156–R160, R166, R175, R176: a relay word whose block passes its checks queues its relay, with the plan of its passes, and its receipt register waits;
one whose registers are not at rest waits, and one with no pass completes here, its receipt written and nothing moved; `relay.wait` observes a complete ticket or waits for it. The model's own
choices in it, no rule of the spec: when a block is read (log entry 49). -/
def Obligations.RelayWordsAreQueued : Prop :=
  (∀ p ∈ relays, ∀ w s, mayExit s w.nxt = true → blockFields w = true → w.w = 0 → w.data.getLsbD 6 = false →
    (active s.g = 0 → Runs (p.1 w) (mLen w) w.nxt s s) ∧
    (∀ h e1 s1 t bs evs r, active s.g ≠ 0 → storesOut s = false → (s.relays.filter (·.team == (myTeam s).uid)).length < 64 →
      blockAt w 64 s = .ok (some (s1, h, e1)) →
      blockAt w (64 + 8 * (if p.2 = .mv then ((slotOf s (myTeam s).ctx (at8 h 0 % 64)).map Slot.n).getD 0 else 0)) s = .ok (some (t, bs, evs)) →
      (if p.2 = .mv then checkMv w bs s else checkCopy (p.2 == .gx) w bs s) = .ok r →
      (relayAwaits s r = true → exec (p.1 w) s = stall s) ∧
      (relayAwaits s r = false → r.passes = [] → evs = [] → Runs (p.1 w) (mLen w) w.nxt s (writeReceipt { r with t0 := t.g.gts, events := [] } (setTeam t
        { myTeam t with times := set0 (myTeam t).times (nextTicket (myTeam t)) (BitVec.ofNat 64 t.g.gts) }))) ∧
      (relayAwaits s r = false → r.passes ≠ [] → ∃ u r', Runs (p.1 w) (mLen w) w.nxt s u ∧ u.relays = t.relays ++ [r'] ∧ r'.kind = p.2 ∧ r'.gang = s.g.gid ∧ r'.ctx = (myTeam s).ctx ∧
        r'.src = r.src ∧ r'.dst = r.dst ∧ r'.passes = r.passes ∧ r'.cis = r.cis ∧ r'.accepted = false ∧ r'.reg = w.data.toNat % 64 ∧
        isDue .relayAccept r'.id 0 u ∧ u.mem = t.mem ∧ u.g.s = s.g.s ∧ ∃ o ∈ u.ops, o.kind = .relay ∧ o.id = r'.op ∧ o.dst = w.data.toNat % 64))) ∧
  (∀ w s n, w.hint = 1 → (addrOf w s 0).toNat % 64 = 0 → (addrOf w s 0).toNat + n ≤ (myTeam s).scr →
    scrOwned s (myTeam s).uid (addrOf w s 0).toNat n = false →
    blockAt w n s = .ok (some (s, scrRead s (myTeam s).uid (addrOf w s 0).toNat n, []))) ∧
  (∀ w bs s r, checkMv w bs s = .ok r → ∃ x, slotOf s (myTeam s).ctx (at8 bs 0 % 64) = some x ∧ r.src = at8 bs 0 % 64 ∧ r.dst = r.src ∧ x.pp = true ∧ x.res ≠ 3 ∧
    writeBusy s (myTeam s).ctx r.src = false ∧ readBusy s (myTeam s).ctx r.src = false ∧
    r.passes = planMove x.n x.w x.cols ((List.range x.n).map fun j => at8 bs (0x40 + 8 * j))) ∧
  (∀ gx w bs s r, checkCopy gx w bs s = .ok r → ∃ x d, slotOf s (myTeam s).ctx r.src = some x ∧ slotOf s (myTeam s).ctx r.dst = some d ∧
    r.src = at8 bs 0 % 64 ∧ r.dst = at8 bs 0 / 256 % 64 ∧ r.src ≠ r.dst ∧ x.rank = d.rank ∧ x.fmt = d.fmt ∧ x.res ≠ 3 ∧ r.passes = [[]] ∧
    writeBusy s (myTeam s).ctx r.src = false ∧ writeBusy s (myTeam s).ctx r.dst = false ∧ readBusy s (myTeam s).ctx r.dst = false) ∧
  (∀ w s, mayExit s w.nxt = true → modOk {} w.pre = true → isS w.base.toNat = true → w.w = 0 → w.data = 0 → w.ofs = 0 → w.hint = 0 → w.sc = 0 → w.idx = 0 →
    let r := sGet s.g (w.base.toNat - 128)
    (active s.g = 0 → Runs (.relayWait w) (mLen w) w.nxt s s) ∧
    (active s.g ≠ 0 → ticketDone (myTeam s) r = true → Runs (.relayWait w) (mLen w) w.nxt s (observe (r.toNat % 65536) s)) ∧
    (active s.g ≠ 0 → ticketDone (myTeam s) r = false →
      Waits (.relayWait w) (.relay (r.toNat % 65536)) (mLen w) w.nxt s s))

/-- R158, R160, R161, R163–R168, R195: an accepted relay has a ticket that no outstanding one has and a receipt of promise and ticket, its cluster having given up
the BULK lines of its destination, dirty bytes first; one with a destination page in storage waits, and wants it in a frame; each sector it lands holds the
source's elements; a pass of a move turns the slot to its other base; at its completion the ticket is complete and its waiters go on. The model's own
choices in it, no rule of the spec: the engine a relay goes to and the arithmetic of its promise (log entry 48). -/
def Obligations.RelaysAcceptLandAndComplete : Prop :=
  (∀ (s : State) r, relayOf s s.obj.1 = some r → r.accepted = false → (s.teams.any (·.uid == r.team)) = true →
    (teamOf s r.team).outst.length < 65536 →
    let cl := clusterOf (teamOf s r.team).core
    let lines := destLines s r
    let u := (lines.filter (·.bulk)).foldl (fun s q => dropCopy cl r.ctx q.line (collect cl r.ctx q.line s)) s
    ((relayClash s r = true ∨ ∃ q ∈ lines, storedLine q.line = true ∨ engineReads s cl r.ctx q = false) → exec .relayAccept s = later .relayAccept (wantLines r.ctx lines s)) ∧
    (relayClash s r = false → (∀ q ∈ lines, storedLine q.line = false ∧ engineReads s cl r.ctx q = true) → ∃ t r', exec .relayAccept s = .next t ∧ relayOf t r.id = some r' ∧
      r'.accepted = true ∧ r'.promise = relayPromise u r ∧ r'.passes = r.passes ∧
      r'.ticket ∉ (teamOf s r.team).outst ∧ r'.ticket < 65536 ∧ (teamOf t r.team).outst = (teamOf s r.team).outst ++ [r'.ticket] ∧ t.mem = u.mem ∧
      isDue .relaySectorLand r.id 0 t ∧
      ∀ x, gangOf u r.gang = some x → tableWf zeros x.s = true → ∃ y, oneGang u t r.gang x y ∧ y = { x with s := y.s } ∧
        sGet y r.reg = BitVec.ofNat 64 (relayPromise u r % 2 ^ 48 * 2 ^ 16 + r'.ticket))) ∧
  (∀ (s : State) r, (s.teams.any (·.uid == r.team)) = true → let t := writeReceipt r s
    (teamOf t r.team).outst = (teamOf s r.team).outst ∧ (teamOf t r.team).ticket = (nextTicket (teamOf s r.team) + 1) % 65536 ∧ t.mem = s.mem ∧ t.relays = s.relays ∧
    ((teamOf s r.team).outst.length < 65536 → nextTicket (teamOf s r.team) ∉ (teamOf s r.team).outst) ∧
    ∀ x, gangOf s r.gang = some x → gangOf t r.gang = some (sSet x r.reg (BitVec.ofNat 64 (relayPromise s r % 2 ^ 48 * 2 ^ 16 + nextTicket (teamOf s r.team))))) ∧
  (∀ (s : State) r p more x d, relayOf s s.obj.1 = some r → r.passes = p :: more → slotOf s r.ctx r.src = some x → slotOf s r.ctx r.dst = some d →
    r.accepted = true → 32 * r.sector < d.foot →
    let inv := if r.kind = .mv then inverse d.n p else inverse d.n d.cols
    let fd := if r.kind = .mv then d.other else d.base
    let qs := sectorPlaces d r.sector
    let tab := tableVas r d inv qs
    let u := (engineTouch r tab s).1
    let ps := qs.map (sourcePlace u r x d inv)
    let sc := if r.scl then ps.filterMap fun q => q.map fun q => r.scla.toNat + q / 32 else []
    let v := (engineTouch r sc u).1
    let ps' := ps.map fun q => q.filter fun q => !zeroBlock v r q
    engineMay s r tab = true → engineMay s r (if d.res = 0 then [fd.toNat + 32 * r.sector] else []) false = true → engineMay s r sc = true →
    engineMay s r (if x.res = 0 then ps'.filterMap fun q => q.map fun q => x.base.toNat + q * x.eltBits / 8 else []) = true →
    ∃ t, exec .relaySectorLand s = .next t ∧
      isDue (if 32 * (r.sector + 1) < d.foot then .relaySectorLand else .relayPassComplete) r.id 0 t ∧
      (d.res = 1 → x.res = 1 → r.scl = false → (r.kind ≠ .gx ∨ r.tscr = true) → r.cis = none → scratchWf s → (s.teams.any (·.uid == r.team)) = true →
        t.mem = s.mem ∧ scrRead t r.team (fd.toNat + 32 * r.sector) 32 = packSector d.eltBits (qs.map fun q =>
          match sourcePlace s r x d inv q with | some q => footElem s r x x.base q | none => 0) ∧
        ∀ a, (a < fd.toNat + 32 * r.sector ∨ fd.toNat + 32 * r.sector + 32 ≤ a) → scrRead t r.team a 1 = scrRead s r.team a 1)) ∧
  (∀ (s : State) r p more d, relayOf s s.obj.1 = some r → r.passes = p :: more → slotOf s r.ctx r.dst = some d → r.accepted = true → d.foot ≤ 32 * r.sector →
    (s.ctxs.any (·.id == r.ctx)) = true → ∃ t r', exec .relayPassComplete s = .next t ∧ relayOf t r.id = some r' ∧ r'.passes = more ∧ r'.sector = 0 ∧ t.mem = s.mem ∧
      slotOf t r.ctx r.dst = (if r.kind = .mv then some { d with cols := matMul p d.cols, phase := !d.phase } else some d) ∧
      isDue (if more.isEmpty then .relayCompletion else .relaySectorLand) r.id 0 t) ∧
  (∀ (s : State) r, relayOf s s.obj.1 = some r → r.accepted = true → r.passes = [] → r.events = [] → (s.teams.any (·.uid == r.team)) = true →
    ∃ t, exec .relayCompletion s = .next t ∧ t.mem = s.mem ∧ t.relays = s.relays.filter (·.id != r.id) ∧
      (teamOf t r.team).outst = (teamOf s r.team).outst.filter (· != r.ticket) ∧
      allGangs t = (allGangs (onGang s r.gang fun g => { g with engTime := max g.engTime r.tmax })).map fun x =>
        if x.team = r.team ∧ x.wait = .relay r.ticket then { x with wake := some r.tmax } else x)

/-- R330–R333: `bar.init` writes an object; an arrival marks the gang's bit and joins its time; the last one completes the phase and releases the waiting
gangs with the largest time; an earlier one waits, or with `bar.ard` goes on with its own time and leaves the object. The model's own choices in it,
no rule of the spec: an arrival waits for earlier loads too (log entry 63). -/
def Obligations.TeamBarriersCountArrivals : Prop :=
  (∀ w s, mayExit s w.nxt = true → active s.g = 0 →
    (cisFields w = true → w.data = 0 → w.hint = 0 → (idxNum w s).isSome = true → Runs (.barInit w) (mLen w) w.nxt s s) ∧
    (barFields w 0 = true → w.hint = 0 → w.idx = 0xFF → Runs (.barArr w) (mLen w) w.nxt s s) ∧
    (barFields w 1 = true → w.hint = 0 → w.idx = 0xFF → Runs (.barArd w) (mLen w) w.nxt s s)) ∧
  (∀ w s a n, mayExit s w.nxt = true → cisFields w = true → w.data = 0 → w.hint = 0 → idxNum w s = some n → active s.g ≠ 0 → placed s →
    objectAt w s 32 = .ok a → 1 ≤ n.toNat → n.toNat ≤ 32 → (∀ x ∈ gangsOf s s.g.team, ∀ p, x.wait = .barrier a p → x.wake ≠ none) →
    scrOwned s s.g.team a 32 = false → lockedScr s s.g.team a 32 = none →
    Runs (.barInit w) (mLen w) w.nxt s (scrWrite s.g.team a (leBytes 32 n.toNat) s)) ∧
  (∀ w s a, mayExit s w.nxt = true → w.hint = 0 → w.idx = 0xFF → active s.g ≠ 0 → placed s → objectAt w s 32 = .ok a → mayArrive s a →
    let o := readBar s s.g.team a
    mayJoin s o none →
    let put := fun (lv : Bool) (u : State) => putBar s.g.team a (arrived s o none lv false) u
    let full := fun (lv : Bool) (u : State) => completeBar s.g.team a (max o.maxt s.g.gts) (put lv { u with g := joinTime (max o.maxt s.g.gts) u.g })
    let last := popc (o.arrv ||| (1#32 <<< s.g.num)) = o.exp
    (barFields w 0 = true →
      (last → ∀ u, flushTeam s.g.team (atArrival w s o) = some u → Runs (.barArr w) (mLen w) w.nxt s (full false u)) ∧
      (¬last → Waits (.barArr w) (.barrier a o.phase) (mLen w) w.nxt s (longLatency (put false (atArrival w s o))))) ∧
    (barFields w 1 = true →
      (last → ∀ u, flushTeam s.g.team (atArrival w s o) = some u → ∃ t, t = { full true u with g := t.g } ∧ t.g = { (full true u).g with gts := s.g.gts } ∧
        Runs (.barArd w) (mLen w) w.nxt s t) ∧
      (¬last → ∃ t, t = { put true (atArrival w s o) with g := t.g } ∧ t.g = { (put true (atArrival w s o)).g with gts := s.g.gts } ∧
        Runs (.barArd w) (mLen w) w.nxt s t))) ∧
  (∀ (s : State) t a b, (s.teams.any (·.uid == t)) = true → scratchWf s → barRange b →
    readBar (putBar t a b s) t a = b ∧ (putBar t a b s).mem = s.mem ∧ (putBar t a b s).g = s.g ∧ (putBar t a b s).gangs = s.gangs) ∧
  (∀ (s : State) t a n, (s.teams.any (·.uid == t)) = true → scratchWf s → (readBar s t a).ndrop ≤ (readBar s t a).exp →
    let o := readBar s t a
    let u := completeBar t a n s
    readBar u t a = { o with phase := (o.phase + 1) % 2 ^ 16, exp := o.exp - o.ndrop, ndrop := 0, arrv := 0, ckind := false, cdrop := false, cpend := false, maxt := 0 } ∧
      allGangs u = (allGangs s).map fun x =>
        if pastBar t a ((o.phase + 1) % 2 ^ 16) x then { x with wake := some n } else x) ∧
  (∀ s : State, (∀ l ∈ s.laterals, l.pub ≠ s.g.team) → closeTeam s.g.team s = s ∧ flushTeam s.g.team s = some s)

/-- R182, R336–R339: `bar.c` arrives at the team's object; the team's last gang sends one arrival to the cohort's entry; the entry counts it, and the arrival
that completes its phase is answered to every team counted, whose object then completes with the entry's largest time. The model's own choices in it,
no rule of the spec: which team an entry counts (log entry 61), an arrival at an entry that expects nobody (log entry 112). -/
def Obligations.CohortBarriersCountTeams : Prop :=
  (∀ w s, mayExit s w.nxt = true → active s.g = 0 → barFields w 0 = true → w.hint.toNat < 2 → (idxNum w s).isSome = true →
    Runs (.barC w) (mLen w) w.nxt s s) ∧
  (∀ w s a c, mayExit s w.nxt = true → barFields w 0 = true → w.hint.toNat < 2 → idxNum w s = some c → active s.g ≠ 0 → placed s →
    objectAt w s 32 = .ok a → mayArrive s a → (c.toNat, false) ∈ (myTeam s).cohorts → (c.toNat, true) ∉ (myTeam s).cohorts →
    (myTask s).cba ≠ 0 → (myTeam s).msgr = false →
    let o := readBar s s.g.team a
    mayJoin s o (some c.toNat) →
    let b := arrived s o (some c.toNat) false (w.hint == 1)
    ∃ y, Waits (.barC w) (.barrier a o.phase) (mLen w) w.nxt s (longLatency y) ∧
      (w.nxt = 0 → exec (.barC w) s = .next (startWait (.barrier a o.phase) (mLen w) 0 (longLatency y))) ∧
      (popc b.arrv ≠ o.exp → y = putBar s.g.team a b (atArrival w s o)) ∧
      (popc b.arrv = o.exp → y.mem = s.mem ∧
        (∃ x ∈ y.cohorts, x.team = s.g.team ∧ x.task = (myTeam s).task ∧ x.coh = c.toNat ∧ x.off = a ∧ x.maxt = b.maxt ∧ x.drop = b.cdrop ∧ x.counted = false) ∧
        isDue .cohortArrival s.g.team a y ∧ (b.cdrop = true → (c.toNat, true) ∈ (teamOf y s.g.team).cohorts))) ∧
  (∀ (v maxt : Nat) (drop : Bool), v < 2 ^ 256 → maxt < 2 ^ 64 →
    let e := entryArrive v maxt drop
    let expt := v % 2 ^ 32
    let arrt := v / 2 ^ 32 % 2 ^ 32
    let nd := (v / 2 ^ 192 % 2 ^ 32 + if drop then 1 else 0) % 2 ^ 32
    let mt := max (v / 2 ^ 128 % 2 ^ 64) maxt
    ((arrt + 1) % 2 ^ 32 ≠ expt → e.2 = none ∧ e.1 % 2 ^ 32 = expt ∧ e.1 / 2 ^ 32 % 2 ^ 32 = (arrt + 1) % 2 ^ 32 ∧
      e.1 / 2 ^ 64 % 2 ^ 16 = v / 2 ^ 64 % 2 ^ 16 ∧ e.1 / 2 ^ 128 % 2 ^ 64 = mt ∧ e.1 / 2 ^ 192 % 2 ^ 32 = nd) ∧
    ((arrt + 1) % 2 ^ 32 = expt → e.2 = some mt ∧ e.1 % 2 ^ 32 = (expt + 2 ^ 32 - nd) % 2 ^ 32 ∧ e.1 / 2 ^ 32 % 2 ^ 32 = 0 ∧
      e.1 / 2 ^ 64 % 2 ^ 16 = (v / 2 ^ 64 % 2 ^ 16 + 1) % 2 ^ 16 ∧ e.1 / 2 ^ 128 % 2 ^ 64 = 0 ∧ e.1 / 2 ^ 192 % 2 ^ 32 = 0)) ∧
  (∀ core ctx va n g (f : Nat → Nat) (s : State) r pa, lineReq s core ctx va = some (r, pa) →
    (lineFree s r = false → sliceAtomic core ctx va n g f s = none) ∧
    (lineFree s r = true → holds s r = true → pa % 128 + n ≤ 128 → tableWf zeros s.mem = true → ∃ t, sliceAtomic core ctx va n g f s = some (t, leNat (homeBytes s pa n)) ∧
      readBytes t.mem pa n = leBytes n (f (leNat (homeBytes s pa n))) ∧ ∀ b, (b < pa ∨ pa + n ≤ b) → get0 t.mem b = get0 s.mem b)) ∧
  (∀ (s : State) a, (s.cohorts.find? fun a => a.team == s.obj.1 && a.off == s.obj.2 && !a.counted) = some a →
    let k := taskOf s a.task
    let same := fun (x : CohortArr) => x.task == a.task && x.coh == a.coh
    let done := (flushTeam a.team s).bind (sliceAtomic (teamOf s a.team).core k.ctx (k.cba.toNat + 32 * a.coh) 32 a.maxt (entryNew a))
    (done = none → exec .cohortArrival s = .next (due .cohortArrival s.obj.1 s s.obj.2)) ∧
    (∀ u v, done = some (u, v) →
      (v % 2 ^ 32 = 0 → exec .cohortArrival s = .next { u with cohorts := u.cohorts.erase a }) ∧
      (v % 2 ^ 32 ≠ 0 → (entryArrive v a.maxt a.drop).2 = none → ∃ t, exec .cohortArrival s = .next t ∧ t.cohorts = u.cohorts.erase a ++ [{ a with counted := true }]) ∧
      (∀ n, v % 2 ^ 32 ≠ 0 → (entryArrive v a.maxt a.drop).2 = some n → ∃ t, exec .cohortArrival s = .next t ∧
        (∀ x ∈ u.cohorts.erase a ++ [{ a with counted := true }], same x = true → x.counted = true → x.complete = none →
          { x with complete := some n } ∈ t.cohorts ∧ isDue .cohortCompletionDelivery x.team x.off t)))) ∧
  (∀ (s : State) a, (s.cohorts.find? fun a => a.team == s.obj.1 && a.off == s.obj.2 && a.complete.isSome) = some a → (s.teams.any (·.uid == a.team)) = true →
    exec .cohortCompletionDelivery s = .next (completeBar a.team a.off (a.complete.getD 0) { s with cohorts := s.cohorts.erase a }))

namespace Sys2Proof.Claims

open Sys2Proof Machine

/-- The message forms: whether they send, and what R343 asks of target, control word and length. -/
abbrev sendOk (s : State) (target ctl : DWord) (n : Nat) : Prop :=
  n ≤ 256 ∧ n % 8 = 0 ∧ target.toNat < 2 ^ 16 ∧ (regGet s 0x017 (myTeam s).ctx).getLsbD 31 = true ∧ clauseAddr ctl = true
abbrev payOk (s : State) (target ctl : DWord) (n : Nat) : Prop :=
  4 ≤ n ∧ n ≤ 256 ∧ n % (if ctl.getLsbD 52 then 32 else 4) = 0 ∧ target.toNat < 2 ^ 36 ∧ ctl.toNat < 2 ^ 53 ∧ (target.getLsbD 35 = true ∨
    (target.toNat % 2 ^ 32 < gridSize (myTask s) ∧ (if ctl.getLsbD 52 then ctl.toNat % 32 = 0 else ctl.toNat % 2 ^ 32 + n ≤ (myTask s).scr) ∧
      (ctl.toNat / 2 ^ 32 % 2 ^ 16 = 0xFFFF ∨ 16 * (ctl.toNat / 2 ^ 32 % 2 ^ 16) + 16 ≤ (myTask s).scr)))

/-- A message of the moving gang waits in its core's unit, with the payload of its registers; one operation of the gang stands for it. -/
abbrev posted (w : MWord) (send : Bool) (s t : State) : Prop :=
  ∃ m o, made .message w s t o ∧ quiet s t ∧ (postOf t (myTeam s).core).unsent = (postOf s (myTeam s).core).unsent ++ [m] ∧ m.op = o.id ∧
    m.send = send ∧ m.core = (myTeam s).core ∧ m.ctx = (myTeam s).ctx ∧ m.target = sGet s.g (w.base.toNat - 128) ∧ m.ctl = sGet s.g (w.idx.toNat - 128) ∧
    m.gts = s.g.gts ∧ m.bytes = (List.range w.ofs.toNat).map (fun i => groupByte s.g w.data.toNat (i / 8) (i % 8)) ∧
    isDue .messageSend (myTeam s).core 0 t

/-- The operation numbered n is complete and stands no longer, nor do the fences that waited for it alone (R191). -/
abbrev opGone (n : Nat) (s t : State) : Prop := t.ops = (dropOp s n).ops ∧ ∀ o ∈ t.ops, o.id ≠ n

/-- One post per core. -/
abbrev postsOk (s : State) : Prop := (s.posts.map (·.core)).Nodup ∧ ∀ p ∈ s.posts, p.unsent ≠ [] ∨ p.sent ≠ [] ∨ p.inbox ≠ []

/-- What canal forms need (R348, R349): their fields, the gang's earlier accesses done, and their canal. -/
abbrev canalMay (w : MWord) (wc : Nat) (s : State) (c : Nat) : Prop :=
  modOk {} w.pre = true ∧ w.w.toNat = wc ∧ w.sc = 0 ∧ w.la = 0 ∧ w.hint = 0 ∧ w.idx = 0xFF ∧ baseOk w = true ∧ w.data.getLsbD 6 = false ∧ active s.g ≠ 0 ∧
    canalOf w s = .ok c ∧ ∀ o ∈ opsOf s s.g.gid, o.kind ≠ .load ∧ isStoreKind o.kind = false

/-- A canal's sizes and pointers are legal (R347), and the tables it stands in list no key twice. -/
abbrev canalLegal (s : State) (c : Nat) : Prop :=
  1 ≤ cnlCount s c ∧ cnlCount s c ≤ 1024 ∧ cnlHead s c < cnlCount s c ∧ cnlTail s c < cnlCount s c ∧ cnlFree s c ≤ cnlCount s c ∧
    tableWf regReset s.sysregs = true ∧ tableWf zeros s.canals = true ∧ tableWf zeros s.commits = true ∧ tableWf zeros s.g.s = true

/-- The time of the moving gang's action on a canal (R182, R347). -/
def canalNow (s : State) (c : Nat) : Nat := max s.g.gts ((get0 s.commits (2048 * c + 1024)).toNat + 1)

/-- Slots of canal c but i keep their states, every other canal keeps all of its own. -/
abbrev otherSlots (s t : State) (c i : Nat) : Prop := ∀ d j, j < 2048 → (d ≠ c ∨ j ≠ i) → slotState t d j = slotState s d j

/-- A canal action has changed the moving gang's s registers and time and the canal, and nothing else. -/
abbrev canalOnly (s t : State) : Prop :=
  t = { s with g := t.g, sysregs := t.sysregs, canals := t.canals, commits := t.commits } ∧ t.g = { s.g with s := t.g.s, gts := t.g.gts }

end Sys2Proof.Claims

open Sys2Proof Sys2Proof.Machine Sys2Proof.Claims

/-- R340–R344, R373: `amsg.send` and `amsg.pay` leave their message in the core's unit; MESSAGE_SEND sends the first whose gang's earlier stores are
performed, with the gang's time; INBOX_ACCEPT, or the peer's port, takes it; a payload goes to its team's core, behind those for its team that wait elsewhere, or to the
headworks, and a peer's message to the context or the task that its port names. The model's own choices in it, no rule of the spec: what a peer gives of a
message (log entry 65), that the headworks hold payloads for teams that are not placed (log entry 85). -/
def Obligations.MessagesAreSentAndAccepted : Prop :=
  (∀ w s, mayExit s w.nxt = true → modOk {} w.pre = true → isS w.base.toNat = true → isS w.idx.toNat = true → w.sc = 0 → w.hint = 0 → w.la = 0 →
    vregOk s.g.regs true w.data.toNat = true →
    (active s.g = 0 → (w.w = 0 → Runs (.amsgSend w) (mLen w) w.nxt s s) ∧ (w.w = 1 → Runs (.amsgPay w) (mLen w) w.nxt s s)) ∧
    (active s.g ≠ 0 → postsOk s → (postOf s (myTeam s).core).unsent.length + (postOf s (myTeam s).core).sent.length < 16 →
      (w.w = 0 → sendOk s (sGet s.g (w.base.toNat - 128)) (sGet s.g (w.idx.toNat - 128)) w.ofs.toNat →
        ∃ t, posted w true s t ∧ Runs (.amsgSend w) (mLen w) w.nxt s t ∧ (w.nxt = 0 → exec (.amsgSend w) s = .next (goOn (mLen w) s t))) ∧
      (w.w = 1 → payOk s (sGet s.g (w.base.toNat - 128)) (sGet s.g (w.idx.toNat - 128)) w.ofs.toNat →
        ∃ t, posted w false s t ∧ Runs (.amsgPay w) (mLen w) w.nxt s t ∧ (w.nxt = 0 → exec (.amsgPay w) s = .next (goOn (mLen w) s t))))) ∧
  (∀ (s : State) m, postsOk s → (postOf s s.obj.1).unsent.find? (mayGo s) = some m → ∃ t m', exec .messageSend s = .next t ∧ still s t ∧
    (postOf t s.obj.1).unsent = (postOf s s.obj.1).unsent.erase m ∧ (postOf t s.obj.1).sent = (postOf s s.obj.1).sent ++ [m'] ∧
    m' = { m with gts := max m.gts (((opOf s m.op).bind fun o => (gangOf s o.gang).map (·.gts)).getD m.gts) } ∧ isDue (if m.far then .peerPortAccept else .inboxAccept) s.obj.1 0 t) ∧
  (∀ (s : State) m, postsOk s → (postOf s s.obj.1).sent.find? Msg.far = some m → ∃ t, exec .peerPortAccept s = .next t ∧ still s t ∧
    (postOf t s.obj.1).sent = (postOf s s.obj.1).sent.erase m ∧ opGone m.op s t) ∧
  (∀ (s : State) m, postsOk s → ((postOf s s.obj.1).sent.filter fun m => !m.far).find? (goalOpen s) = some m →
    ∃ t, exec .inboxAccept s = .next t ∧ still s t ∧
      (m.send = true → let c := m.target.toNat % 4096
        (postOf t c).inbox = (postOf s c).inbox ++ [m] ∧ isDue .handlerSpawn c 0 t ∧ opGone m.op s t) ∧
      (∀ x, m.send = false → payTeam s m = some x →
        let mine := fun (y : Msg) => y.task = m.task ∧ y.index = m.index
        let clear := fun (c : Nat) => ∀ y ∈ (postOf s c).inbox, y.send = true ∨ ¬ mine y
        (∀ c, c ≠ heldPost → ¬ clear c → (∀ d, d ≠ c → d ≠ heldPost → clear d) →
          (postOf t c).inbox = (postOf s c).inbox ++ [m] ∧ isDue .payloadDelivery c 0 t) ∧
        ((∀ c, c ≠ heldPost → clear c) → (∀ y ∈ (postOf s heldPost).inbox, ¬ mine y) → x.bare = false → x.place = .running →
          (postOf t x.core).inbox = (postOf s x.core).inbox ++ [m] ∧ isDue .payloadDelivery x.core 0 t) ∧
        ((∀ c, c ≠ heldPost → clear c) → ((∃ y ∈ (postOf s heldPost).inbox, mine y) ∨ x.bare = true ∨ x.place ≠ .running) →
          (postOf t heldPost).inbox = (postOf s heldPost).inbox ++ [m] ∧ isDue .payloadDelivery heldPost 0 t)) ∧
      (m.send = false → payTeam s m = none → notPlaced s m = true → (postOf t heldPost).inbox = (postOf s heldPost).inbox ++ [m] ∧
        isDue .payloadDelivery heldPost 0 t) ∧
      (m.send = false → payTeam s m = none → notPlaced s m = false → opGone m.op s t ∧ ∀ c, (postOf t c).inbox = (postOf s c).inbox)) ∧
  (∀ (s : State) port send core team target ctl gts bytes,
    let c := regGet s 0x050 port
    let m : Msg := { send := send, core := core % 4096 + port % 8 * 4096 + 32768, team := team, ctx := c.toNat / 2 ^ 57 % 2 ^ 6, task := 0, op := 0,
                     target := target, ctl := ctl, gts := gts.toNat, bytes := bytes }
    (c.getLsbD 63 = false → exec (.peerMessage port send core team target ctl gts bytes) s = .next s) ∧
    (c.getLsbD 63 = true → send = true → postsOk s → (postOf s (target.toNat % 4096)).inbox.length < 64 →
      ∃ t, exec (.peerMessage port send core team target ctl gts bytes) s = .next t ∧ still s t ∧
        (postOf t (target.toNat % 4096)).inbox = (postOf s (target.toNat % 4096)).inbox ++ [m] ∧ isDue .handlerSpawn (target.toNat % 4096) 0 t) ∧
    (∀ k x, c.getLsbD 63 = true → send = false → postsOk s → s.tasks.find? (fun k => k.taskid == regGet s 0x051 port && k.stage == .running) = some k →
      let m' := { m with ctx := k.ctx, task := k.id }
      payTeam s m' = some x → x.place = .running → x.bare = false → (∀ c, ∀ y ∈ (postOf s c).inbox, (y.send = true ∧ c ≠ heldPost) ∨ y.task ≠ k.id ∨ y.index ≠ m'.index) →
      (postOf s x.core).inbox.length < 64 →
      ∃ t, exec (.peerMessage port send core team target ctl gts bytes) s = .next t ∧ still s t ∧
        (postOf t x.core).inbox = (postOf s x.core).inbox ++ [m'] ∧ isDue .payloadDelivery x.core 0 t))

/-- R342, R343, R345: a payload at the head of its inbox is written whole into its team's scratch or headrace and counted by its cistern, or is discarded;
a sent message starts a handler gang with its payload in v0 and v1, its sender in s0 and s2 and its length in s1, at the address it names. The model's
own choices in it, no rule of the spec: payloads of teams that are not placed (log entry 85), the task that a peer's message runs under (log entry 65). -/
def Obligations.MessagesAreDeliveredAndHandled : Prop :=
  (∀ (s : State) m x, postsOk s →
    (if s.obj.1 = heldPost then (postOf s heldPost).inbox.find? (fun m => !notPlaced s m) else (postOf s s.obj.1).inbox.head?) = some m → m.send = false →
    (payTeam s m = none → ∃ t, exec .payloadDelivery s = .next t ∧ still s t ∧ (postOf t s.obj.1).inbox = (postOf s s.obj.1).inbox.erase m ∧ opGone m.op s t) ∧
    (payTeam s m = some x → ∀ u, deliver x m s = some u → ∃ t, exec .payloadDelivery s = .next t ∧ (postOf t s.obj.1).inbox = (postOf s s.obj.1).inbox.erase m ∧
      t.teams = u.teams ∧ t.mem = s.mem ∧ t.g = u.g ∧ t.gangs = u.gangs ∧ opGone m.op u t)) ∧
  (∀ (s : State) (x : Team) (m : Msg),
    let n := m.bytes.length
    let off := m.ctl.toNat % 2 ^ 32
    let cis := m.ctl.toNat / 2 ^ 32 % 2 ^ 16
    (m.ctl.getLsbD 52 = false → (x.scr < off + n ∨ (cis ≠ 0xFFFF ∧ x.scr < 16 * cis + 16)) → deliver x m s = some s) ∧
    (m.ctl.getLsbD 52 = false → off + n ≤ x.scr → (cis = 0xFFFF ∨ 16 * cis + 16 ≤ x.scr) → lockedScr s x.uid off n = none →
      deliver x m s = some (if cis = 0xFFFF then scrWrite x.uid off m.bytes s else countDown x.uid (16 * cis) n (scrWrite x.uid off m.bytes s))) ∧
    (∀ r, m.ctl.getLsbD 52 = true → x.races.find? (·.num == m.ctl.toNat / 2 ^ 48 % 2 ^ 4) = some r → off + n ≤ 4096 * r.cap → off % 32 = 0 → cis = 0xFFFF →
      lockedRace s x.uid r.num off n = false → deliver x m s = some (raceWrite x.uid r.num off m.bytes s))) ∧
  (∀ (s : State) m ms, postsOk s → (postOf s s.obj.1).inbox = m :: ms → m.send = true →
    (m.task = 0 ∨ ((taskOf s m.task).stage ≠ .ended ∧ (taskOf s m.task).stage ≠ .done)) →
    (∃ q < 4, ∀ g ∈ handlers s s.obj.1, g.quarter ≠ q) → runs s s.obj.1 = some m.ctx →
    (mpc s m.ctx).testBit 31 = true → 256 * (mpc s m.ctx % 32) ≤ scrFree s (clusterOf s.obj.1) → (∀ p ∈ s.gangs, p.gid ≠ s.nextId) → s.g.gid ≠ s.nextId →
    (∀ t ∈ s.teams, t.uid ≠ s.nextId) → m.bytes.length ≤ 256 →
    ∃ t x, exec .handlerSpawn s = .next t ∧ (postOf t s.obj.1).inbox = ms ∧ t.mem = s.mem ∧ gangOf t s.nextId = some x ∧ x.place = .running ∧
      x.live = BitVec.allOnes 32 ∧ x.gts = m.gts ∧ x.regs = 16 ∧ (∀ l < 32, get0 x.pc l = m.ctl) ∧
      sGet x 0 = BitVec.ofNat 64 m.core ∧ sGet x 1 = BitVec.ofNat 64 m.bytes.length ∧ sGet x 2 = m.team ∧
      (∀ l < 32, groupBytes x 0 l 8 = ((m.bytes ++ List.replicate 256 0).drop (8 * l)).take 8) ∧
      (teamOf t x.team).msgr = true ∧ (teamOf t x.team).begun = true ∧ (teamOf t x.team).ctx = m.ctx ∧ (teamOf t x.team).task = handlerTask s m ∧ (teamOf t x.team).core = s.obj.1 ∧ (teamOf t x.team).scr = 256 * (mpc s m.ctx % 32))

/-- R346–R350: the canal words move a slot from FREE to RESERVED, COMMITTED, TAKEN and back, each action taking the canal's time; a take of an empty canal
waits, and a commit serves it. -/
def Obligations.CanalWordsMoveTheirSlot : Prop :=
  (∀ w s, mayExit s w.nxt = true → modOk {} w.pre = true → w.sc = 0 → w.la = 0 → w.hint = 0 → w.idx = 0xFF → baseOk w = true → w.data.getLsbD 6 = false →
    active s.g = 0 → (w.w = 0 → Runs (.cnlRes w) (mLen w) w.nxt s s ∧ Runs (.cnlTake w) (mLen w) w.nxt s s) ∧
      (w.w = 1 → Runs (.cnlPub w) (mLen w) w.nxt s s ∧ Runs (.cnlRel w) (mLen w) w.nxt s s)) ∧
  (∀ w s c, mayExit s w.nxt = true → canalMay w 0 s c → canalLegal s c →
    let r := w.data.toNat % 64
    let i := cnlTail s c
    let h := cnlHead s c
    (cnlFree s c = 0 → ∃ t, Runs (.cnlRes w) (mLen w) w.nxt s t ∧ canalOnly s t ∧ t.g.gts = canalNow s c ∧ sGet t.g r = 0 ∧ t.canals = s.canals ∧ t.sysregs = s.sysregs) ∧
    (cnlFree s c ≠ 0 → ∃ t, Runs (.cnlRes w) (mLen w) w.nxt s t ∧ canalOnly s t ∧ t.g.gts = canalNow s c ∧ sGet t.g r = slotAddr s c i ∧
      slotState t c i = 1 ∧ otherSlots s t c i ∧ cnlFree t c = cnlFree s c - 1 ∧ cnlTail t c = (i + 1) % cnlCount s c ∧ cnlHead t c = h) ∧
    (slotState s c h = 2 → (∀ e ∈ s.takers, e.1 = c → e.2 = s.g.gid) → ∃ t, Runs (.cnlTake w) (mLen w) w.nxt s t ∧ canalOnly s t ∧
      t.g.gts = max (canalNow s c) (get0 s.commits (2048 * c + h)).toNat ∧ sGet t.g r = slotAddr s c h ∧ slotState t c h = 3 ∧ otherSlots s t c h ∧
      cnlHead t c = (h + 1) % cnlCount s c ∧ cnlTail t c = i ∧ cnlFree t c = cnlFree s c) ∧
    ((slotState s c h ≠ 2 ∨ ∃ e ∈ s.takers, e.1 = c ∧ e.2 ≠ s.g.gid) →
      Waits (.cnlTake w) (.canal c r) (mLen w) w.nxt s (longLatency { s with takers := s.takers.filter (·.2 != s.g.gid) ++ [(c, s.g.gid)] }))) ∧
  (∀ w s c i, mayExit s w.nxt = true → canalMay w 1 s c → canalLegal s c → slotNamed s c (sGet s.g (w.data.toNat % 64)) = some i →
    (slotState s c i = 1 → (∀ e ∈ s.takers, e.1 ≠ c) → ∃ t, Runs (.cnlPub w) (mLen w) w.nxt s t ∧ canalOnly s t ∧ t.g.gts = canalNow s c ∧ slotState t c i = 2 ∧
      otherSlots s t c i ∧ get0 t.commits (2048 * c + i) = BitVec.ofNat 64 (canalNow s c) ∧ t.sysregs = s.sysregs) ∧
    (∀ x g, slotState s c i = 1 → i = cnlHead s c → s.takers = [(c, g)] → g ≠ s.g.gid → gangOf s g = some x → (∃ d, x.wait = .canal c d) → x.wake = none →
      tableWf zeros x.s = true → canalNow s c + 1 < 2 ^ 64 →
      ∃ t y n, Runs (.cnlPub w) (mLen w) w.nxt s t ∧ slotState t c i = 3 ∧ cnlHead t c = (i + 1) % cnlCount s c ∧ t.takers = [] ∧ oneGang { s with g := t.g } t g x y ∧
        y = { x with s := y.s, wake := some n } ∧ canalNow s c ≤ n ∧ x.gts ≤ n ∧ ∀ d, x.wait = .canal c d → sGet y d = slotAddr s c i) ∧
    (slotState s c i = 3 → ∃ t, Runs (.cnlRel w) (mLen w) w.nxt s t ∧ canalOnly s t ∧ t.g.gts = canalNow s c ∧ slotState t c i = 0 ∧ otherSlots s t c i ∧
      cnlHead t c = cnlHead s c ∧ cnlTail t c = cnlTail s c ∧ cnlFree t c = freeRun t c)) ∧
  (∀ (s : State) c val, tableWf regReset s.sysregs = true → cnlOn s c = false → val.getLsbD 63 = true → val.toNat / 2 ^ 32 % 2 ^ 7 ≠ 0 → 1 ≤ val.toNat % 2 ^ 11 →
    val.toNat % 2 ^ 11 ≤ 1024 → canonical (cnlBase s c) = true → ∃ t, exec (.canalEnable c val) s = .next t ∧ cnlOn t c = true ∧ cnlCount t c = val.toNat % 2 ^ 11 ∧
      cnlFree t c = cnlCount t c ∧ cnlHead t c = 0 ∧ cnlTail t c = 0 ∧ (∀ i < 2048, slotState t c i = 0) ∧ canalOnly s t ∧ t.g = { s.g with gts := canalNow s c }) ∧
  (∀ (s : State) c val, tableWf regReset s.sysregs = true → val.getLsbD 63 = false → ∃ t, exec (.canalDisable c val) s = .next t ∧ cnlOn t c = false ∧ t.mem = s.mem ∧
    (∀ e ∈ t.takers, e.1 ≠ c) ∧ ((∀ e ∈ s.takers, e.1 ≠ c) → t.g = { s.g with gts := canalNow s c } ∧ t.gangs = s.gangs))

/-- R200, R272–R277, R351–R354: `lat.sub` asks the publisher's cluster for an entry and waits for its handle, or takes
LATERAL_FULL where its table is full; a publisher's writes gather in batches that close
after 64 cc and land in the subscriber's scratch; `lat.end` applies what is left and removes the entry. The model's own choices in it, no rule of the
spec: barrier objects are forwarded (log entry 62), handles (log entry 64), the order of all batches of a pair of teams (log entry 100). -/
def Obligations.LateralsForwardScratchWrites : Prop :=
  (∀ w s, mayExit s w.nxt = true → active s.g = 0 → w.data.getLsbD 6 = false → w.hint = 0 → w.idx = 0xFF →
    (cisFields w = true → Runs (.latSub w) (mLen w) w.nxt s s) ∧
    (modOk {} w.pre = true → w.base = 192 → w.ofs = 0 → w.w = 1 → w.sc = 0 → w.la = 0 → Runs (.latEnd w) (mLen w) w.nxt s s)) ∧
  (∀ w s a, mayExit s w.nxt = true → cisFields w = true → w.data.getLsbD 6 = false → w.hint = 0 → w.idx = 0xFF → active s.g ≠ 0 → objectAt w s 32 = .ok a →
    scrOwned s (myTeam s).uid a 32 = false →
    let bs := scrRead s (myTeam s).uid a 32
    subBlockOk s bs = true → ∃ q, Waits (.latSub w) (.reply s.g.gid) (mLen w) w.nxt s
        { s with subReqs := s.subReqs ++ [q], agenda := s.agenda ++ [(.lateralSubReply, s.g.gid, 0)] } ∧ q.gang = s.g.gid ∧ q.pub = at4 bs 0 ∧ q.sub = at4 bs 4 ∧ q.po = at4 bs 8 ∧
      q.so = at4 bs 12 ∧ q.len = at4 bs 16 ∧ q.reg = w.data.toNat % 64 ∧ q.blk = a) ∧
  (∀ (s : State) q p x g, s.subReqs.find? (·.gang == s.obj.1) = some q → teamAt s (gangTeam s q.gang).task q.pub = some p →
    teamAt s (gangTeam s q.gang).task q.sub = some x → gangOf s q.gang = some g → g.wait ≠ .none → tableWf zeros g.s = true →
    (tableLoad s p < 16 → ∃ t l y, exec .lateralSubReply s = .next t ∧ t.laterals = s.laterals ++ [l] ∧ l.pub = p.uid ∧ l.sub = x.uid ∧ l.po = q.po ∧ l.so = q.so ∧
      l.len = q.len ∧ l.batch = none ∧ l.closed = [] ∧ l.ctx = (gangTeam s q.gang).ctx ∧ oneGang s t q.gang g y ∧ y = { g with s := y.s, wake := some 0 } ∧
      sGet y q.reg = BitVec.ofNat 64 (l.handle - l.ctx * 2 ^ 32) ∧ t.mem = s.mem) ∧
    (16 ≤ tableLoad s p → exec .lateralSubReply s = .next (raised { plain .lateralFull with recs := [mkRec .lateralFull q.blk 0 7 0 0 0] }
      (switchTo { s with subReqs := s.subReqs.filter (·.gang != q.gang) } q.gang)))) ∧
  (∀ (s : State) l, s.laterals.find? (·.handle == s.obj.1) = some l →
    (∀ b, l.batch = some b → (b.opened + 64 ≤ s.clk → ∃ t l', exec .lateralBatchTimeout s = .next t ∧ t.laterals.find? (·.handle == l.handle) = some l' ∧
        l' = { l with batch := none, closed := l.closed ++ [{ b with no := s.nextId }] } ∧ s.nextId < t.nextId ∧ isDue .lateralBatchApply l.handle 0 t ∧ t.teams = s.teams) ∧
      (s.clk < b.opened + 64 → exec .lateralBatchTimeout s = .next (due .lateralBatchTimeout s.obj.1 s s.obj.2))) ∧
    (∀ b bs, l.closed = b :: bs →
      let behind := (pairBatches s l).any fun e => decide (e.2.no < b.no)
      (batchLocked s l b = true ∨ behind = true → exec .lateralBatchApply s = .next (due .lateralBatchApply s.obj.1 s s.obj.2)) ∧
      (batchLocked s l b = false → behind = false → scratchWf s → (s.teams.any (·.uid == l.sub)) = true → tableWf zeros b.bytes = true →
        ∃ t l', exec .lateralBatchApply s = .next t ∧ t.laterals.find? (·.handle == l.handle) = some l' ∧ l' = { l with closed := bs } ∧ t.mem = s.mem ∧
          (∀ e ∈ b.bytes, scrRead t l.sub (l.so + 32 * b.sector + e.1) 1 = [e.2.setWidth 8]) ∧
          (∀ a, (∀ e ∈ b.bytes, a ≠ l.so + 32 * b.sector + e.1) → scrRead t l.sub a 1 = scrRead s l.sub a 1)))) ∧
  (∀ (s : State) l team off (b : Byte), s.laterals = [l] → l.pub = team → l.po ≤ off → off < l.po + l.len → l.batch = none →
    ∃ l', (scrWrite team off [b] s).laterals = [l'] ∧ l' = { l with batch := some ⟨(off - l.po) / 32, set0 [] ((off - l.po) % 32) (1#1 ++ b), s.clk, 0⟩ }) ∧
  (∀ w s, mayExit s w.nxt = true → modOk {} w.pre = true → w.base = 192 → w.ofs = 0 → w.idx = 0xFF → w.w = 1 → w.sc = 0 → w.la = 0 → w.hint = 0 →
    w.data.getLsbD 6 = false → active s.g ≠ 0 →
    let h := (myTeam s).ctx * 2 ^ 32 + (sGet s.g (w.data.toNat % 64)).toNat % 2 ^ 32
    (s.laterals.find? (·.handle == h) = none → Runs (.latEnd w) (mLen w) w.nxt s s) ∧
    (∀ l l' u, s.laterals.find? (·.handle == h) = some l → (closeBatch l s).laterals.find? (·.handle == h) = some l' → flushEntry (closeBatch l s) l' = some u →
      Runs (.latEnd w) (mLen w) w.nxt s { u with laterals := u.laterals.filter (·.handle != h) }))

namespace Sys2Proof.Claims

open Sys2Proof Machine

/-- Registers a write of which replaces the bits of a mask, and has no other effect (R6 and the register maps). -/
def maskRegs : List (Nat × DWord) :=
  [(0x010, 0x800FFFFFFFFFF000), (0x013, 0xFFFFFFFF), (0x014, 0xFFFFFFFF), (0x015, 0xFFFFFFFFFFFF0000), (0x016, 0xFFFFFFFF), (0x030, 0xFF),
   (0x050, 0xFE00000000000000), (0x051, BitVec.allOnes 64), (0x083, BitVec.allOnes 64), (0x084, BitVec.allOnes 64)]

/-- Read-only registers, a write of which has no effect (a write of CNS, read-only too, acts at its canal's home: R347). -/
def readOnly : List Nat := [0x000, 0x006, 0x01A, 0x020, 0x022, 0x039, 0x044, 0x05B, 0x081, 0x082]

/-- Registers that a read returns as they stand: the assigned numbers but those of the gang, FCW, whose backlog bit is computed, and TINV. -/
def plainRegs : List Nat :=
  [0x010, 0x011, 0x012, 0x013, 0x014, 0x015, 0x016, 0x017, 0x018, 0x019, 0x01A, 0x020, 0x021, 0x022, 0x024, 0x025, 0x026, 0x031, 0x032, 0x033, 0x034,
   0x035, 0x039, 0x03A, 0x03B, 0x03C, 0x040, 0x041, 0x042, 0x043, 0x044, 0x048, 0x049, 0x050, 0x051, 0x058, 0x059, 0x05A, 0x05B, 0x05C, 0x080, 0x081,
   0x082, 0x083, 0x084]

/-- A task is still running its course. -/
abbrev underWay (s : State) (k : Nat) : Prop := (s.tasks.any (·.id == k)) = true ∧ (taskOf s k).stage ≠ .ended ∧ (taskOf s k).stage ≠ .done

/-- Task k has been stopped with a status and a cause; none of its gangs is left, and its completion is due (R306, R372). -/
abbrev stopped (k status cause : Nat) (hdr : TrapRec) (t : State) : Prop :=
  (taskOf t k).stage = .ended ∧ (taskOf t k).status = status ∧ (taskOf t k).cause = cause ∧ (taskOf t k).hdr = hdr ∧ isDue .taskCompletion k 0 t ∧
    ∀ x ∈ allGangs t, (teamOf t x.team).task = k → x.place = .ended ∧ x.live = 0

/-- Registers, masks, time, modes and thread addresses of a gang are those of another. -/
abbrev sameGang (g h : Gang) : Prop :=
  g.v = h.v ∧ g.s = h.s ∧ g.k = h.k ∧ g.lc = h.lc ∧ g.pc = h.pc ∧ g.meet = h.meet ∧ g.lk = h.lk ∧ g.live = h.live ∧ g.gts = h.gts ∧ g.fmode = h.fmode ∧
    g.fstat = h.fstat ∧ g.marks = h.marks ∧ g.streak = h.streak

/-- The moving gang has returned from its handler (R308): it goes on with the word its area names, in those lanes of its issue set that are still live
and still there, or where its threads' addresses say. -/
abbrev returned (s t : State) : Prop :=
  let swi := s.g.area.dw0.toNat / 2 ^ 24 % 2 ^ 4
  let left : Mask := maskOf fun l => s.g.area.dw3.getLsbD l && s.g.live.getLsbD l && get0 s.g.pc l == s.g.area.dw1
  t.g.prio = false ∧ t.g.inH = false ∧ sameGang t.g s.g ∧ t.mem = s.mem ∧ t.gangs.map placeless = s.gangs.map placeless ∧
    (1 < swi → left ≠ 0 → t.g.cl = { s.g.kept with set := left }) ∧ (swi ≤ 1 ∨ left = 0 → t.g.cl = {}) ∧
    (s.g.pending ≠ [] → isDue .trapEntry s.g.gid 0 t)

end Sys2Proof.Claims

open Sys2Proof Sys2Proof.Machine Sys2Proof.Claims

/-- R311–R314: `sysrd` and `syswr` read and write the register they name where the gang's level admits it; every register is read as it stands but those
that are computed, and a write changes the bits its map lets a write change. The model's own choices in it, no rule of the spec: the order of checks
(log entry 37), instances beyond the count (log entry 38), ignored writes (log entry 39), base registers (log entry 40). -/
def Obligations.SystemRegistersAreReadAndWritten : Prop :=
  (∀ w s, mayExit s w.nxt = true → active s.g = 0 →
    (sysFields w 0 = true → Runs (.sysrd w) (mLen w) w.nxt s s) ∧ (sysFields w 1 = true → Runs (.syswr w) (mLen w) w.nxt s s)) ∧
  (∀ w s, mayExit s w.nxt = true → active s.g ≠ 0 → instanceOk (regNum w) (regInst w s) = true → registerWaits (regNum w) s = false →
    (sysFields w 0 = true → (supervisor s = true ∨ taskReads s (regNum w) (regInst w s) = true) →
      let u := if canalReg (regNum w) then (canalAct (regInst w s) s).1 else s
      Runs (.sysrd w) (mLen w) w.nxt s { u with g := sSet u.g (w.data.toNat % 64) (sysRead u (regNum w) (regInst w s)) }) ∧
    (sysFields w 1 = true → (supervisor s = true ∨ taskWrites s (regNum w) = true) →
      (regNum w = 3 ∨ regNum w = 4 → clauseAddr (sGet s.g (w.data.toNat % 64)) = true) →
      Runs (.syswr w) (mLen w) w.nxt s (sysWrite (regNum w) (regInst w s) (sGet s.g (w.data.toNat % 64)) s))) ∧
  (∀ (s : State) i, sysRead s 0 i = BitVec.ofNat 64 s.clk ∧ sysRead s 1 i = s.g.fmode.setWidth 64 ∧ sysRead s 2 i = s.g.fstat.setWidth 64 ∧
    sysRead s 3 i = get0 s.g.pc i ∧ sysRead s 4 i = get0 s.g.meet i ∧ sysRead s 5 i = get0 s.g.lk i ∧ sysRead s 6 i = s.g.live.setWidth 64 ∧
    sysRead s 0x038 i = 0 ∧ ∀ n ∈ plainRegs, sysRead s n i = regGet s n i) ∧
  (∀ p ∈ maskRegs, ∀ (s : State) i v, tableWf regReset s.sysregs = true → i < 65536 → let t := sysWrite p.1 i v s
    t = { s with sysregs := t.sysregs } ∧ regGet t p.1 i = ((regGet s p.1 i &&& ~~~p.2) ||| (v &&& p.2)) ∧
      ∀ n j, j < 65536 → (n ≠ p.1 ∨ j ≠ i) → regGet t n j = regGet s n j) ∧
  (∀ n ∈ readOnly, ∀ (s : State) i v, sysWrite n i v s = s) ∧
  (∀ (s : State) i v, sysWrite 0x026 i v s = (canalAct i s).1 ∧ canalOnly s (canalAct i s).1 ∧ (canalAct i s).1.g = { s.g with gts := canalNow s i } ∧
    (canalAct i s).1.sysregs = s.sysregs ∧ (canalAct i s).1.canals = s.canals ∧
    (tableWf zeros s.commits = true → canalNow s i < 2 ^ 64 → (get0 (canalAct i s).1.commits (2048 * i + 1024)).toNat = canalNow s i)) ∧
  (∀ (s : State) i v, tableWf regReset s.sysregs = true →
    regGet (sysWrite 0x011 i v s) 0x011 i = (if 1 ≤ v.toNat % 2 ^ 11 ∧ v.toNat % 2 ^ 11 ≤ 1024 then putField (regGet s 0x011 i) 10 0 (v.toNat % 2 ^ 11) else regGet s 0x011 i) ∧
    regGet (sysWrite 0x012 i v s) 0x012 i = (if canonical v then v &&& ~~~3 else regGet s 0x012 i)) ∧
  (∀ (s : State) i v, i < 32 → tableWf zeros s.g.pc = true → tableWf zeros s.g.lk = true → tableWf zeros s.g.meet = true →
    (sysWrite 2 i v s).g.fstat = s.g.fstat &&& ~~~(v.truncate 32 &&& 0x3F) ∧
    (sysWrite 1 i v s).g.fmode.getLsbD 3 = v.getLsbD 3 ∧ (v.toNat % 8 ≠ 0 → v.toNat % 8 ≠ 7 → (sysWrite 1 i v s).g.fmode.toNat % 8 = v.toNat % 8) ∧
    get0 (sysWrite 3 i v s).g.pc i = (if s.g.live.getLsbD i then v else get0 s.g.pc i) ∧
    get0 (sysWrite 4 i v s).g.meet i = (if s.g.live.getLsbD i then v else get0 s.g.meet i) ∧
    get0 (sysWrite 5 i v s).g.lk i = (if s.g.live.getLsbD i then v else get0 s.g.lk i))

/-- R311: at task level a privileged form raises PRIVILEGED, and has no other effect. The model's own choices in it, no rule of the spec: the order of
checks (log entry 37). -/
def Obligations.PrivilegedWordsTrapAtTaskLevel : Prop :=
  ∀ w s, mayExit s w.nxt = true → supervisor s = false → active s.g ≠ 0 →
    let traps := fun (i : Instr) => exec i s = .next (raised (plain .privileged) s)
    (sysFields w 0 = true → instanceOk (regNum w) (regInst w s) = true → taskReads s (regNum w) (regInst w s) = false → traps (.sysrd w)) ∧
    (sysFields w 1 = true → instanceOk (regNum w) (regInst w s) = true → taskWrites s (regNum w) = false → regNum w ≠ 3 → regNum w ≠ 4 → traps (.syswr w)) ∧
    (modOk {} w.pre = true → w.w = 0 → isS w.base.toNat = true → isS w.idx.toNat = true → w.data.getLsbD 6 = false → w.sc = 0 → w.hint = 0 → w.la = 0 →
      traps (.launch w)) ∧
    (statusFields w 0 = true → w.idx = 0xFF → w.ofs = 0 → w.hint = 0 → traps (.ctxSaveInstr w) ∧ traps (.keyNew w)) ∧
    (statusFields w 1 = true → isS w.idx.toNat = true → w.ofs = 0 → w.hint.toNat < 2 → traps (.ctxLoadInstr w)) ∧
    (statusFields w 0 = true → w.idx = 0xFF → w.hint = 0 → w.ofs.toNat = w.ofs.toNat % 32 + 256 * (w.ofs.toNat / 256 % 4) → w.ofs.toNat / 256 % 4 ≠ 3 →
      traps (.bnkMode w)) ∧
    (statusFields w 1 = true → w.idx = 0xFF → w.ofs = 0 → w.hint = 0 → traps (.keyDelDrain w)) ∧
    (statusFields w 2 = true → w.idx = 0xFF → w.ofs = 0 → w.hint = 0 → traps (.keyDelScuttle w)) ∧
    (budgetFields w 0 = true → w.idx ≠ 0xFF → traps (.errbRd w)) ∧ (budgetFields w 1 = true → traps (.errbSet w))

/-- R300–R310: a precise cause is taken at its word: the gang enters its handler with its area written, or where it is at trap priority, or no handler
stands, its task ends; `tret` and the exit TRET return it; `trec` reads the area. The model's own choices in it, no rule of the spec: addresses in
records (log entry 34), late causes of words issued in a handler (log entry 35). -/
def Obligations.TrapsAreTakenAndReturnedFrom : Prop :=
  (∀ (r : Raised) s, mayTrap s → s.g.cl.x < 16 → let t := raised r s
    entered r.cause false (boundary s) { s with clk := s.clk + 1 } t ∧ t.clk = s.clk + 1 ∧ t.g.recs = r.recs.take 32 ∧ t.g.area.dw2 = (boundary s).addr ∧
      t.g.kept = { s.g.cl with addr := (boundary s).addr, x := (boundary s).x, set := (boundary s).set }) ∧
  (∀ (r : Raised) s, s.g.cl.x < 16 → placed s → underWay s (myTeam s).task →
    (s.g.prio = true → ∃ h, stopped (myTeam s).task 9 0x0F h (raised r s)) ∧
    (s.g.prio = false → regGet s 0x012 (myTeam s).ctx = 0 → ∃ h, stopped (myTeam s).task 9 (causeCode r.cause) h (raised r s) ∧
      areaSays h (causeCode r.cause) (taskEnding r.cause) false (boundary s))) ∧
  (∀ w s, mayExit s 0 = true → modOk {} w.pre = true → w.w = 0 → w.base = 192 → w.data = 0 → w.la = 0 → w.nxt = 0 → w.ofs = 0 → w.hint = 0 → w.sc = 0 →
    w.idx = 0xFF →
    (active s.g = 0 → Runs (.tret w) (mLen w) 0 s s) ∧
    (active s.g ≠ 0 → s.g.prio = false → exec (.tret w) s = .next (raised bad s)) ∧
    (active s.g ≠ 0 → s.g.prio = true → s.g.area.dw0.getLsbD 7 = false → ∃ t, exec (.tret w) s = .next t ∧ returned s t ∧ t.clk = s.clk + 1) ∧
    (active s.g ≠ 0 → s.g.prio = true → s.g.area.dw0.getLsbD 7 = true → placed s → underWay s (myTeam s).task →
      ∃ t, exec (.tret w) s = .next t ∧ stopped (myTeam s).task 9 (s.g.area.dw0.toNat % 128) s.g.area t)) ∧
  (∀ (s : State), hdrExk s.g.cl.hdr = 6 → s.g.prio = true → s.g.cl.set ≠ 0 → s.g.area.dw0.getLsbD 7 = false →
    ∃ t, takeExit 1 s = .ok t ∧ returned s t) ∧
  (∀ w s, mayExit s w.nxt = true → modOk {} w.pre = true → w.w = 0 → w.base = 192 → w.data.toNat < 64 → w.data.toNat % 4 = 0 → w.la = 0 → w.hint = 0 → w.sc = 0 →
    (w.idx = 0xFF ∨ isS w.idx.toNat = true) →
    let n := ((if w.idx = 0xFF then 0 else sGet s.g (w.idx.toNat - 128)) + w.ofs.signExtend 64 : DWord).toNat
    let r : TrapRec := if n = 0 then s.g.area else s.g.recs.getD (n - 1) {}
    let d := w.data.toNat
    (active s.g = 0 → Runs (.trec w) (mLen w) w.nxt s s) ∧
    (active s.g ≠ 0 → n ≤ 32 → tableWf zeros s.g.s = true → ∃ t, Runs (.trec w) (mLen w) w.nxt s t ∧ t = { s with g := { s.g with s := t.g.s } } ∧
      sGet t.g d = r.dw0 ∧ sGet t.g (d + 1) = r.dw1 ∧ sGet t.g (d + 2) = r.dw2 ∧ sGet t.g (d + 3) = r.dw3 ∧
      ∀ i, (i < d ∨ d + 3 < i) → sGet t.g i = sGet s.g i))

/-- R263, R322–R325: at supervisor level `bnk.mode`, the key forms and the budget forms act on the cluster or context that they name; a bank that leaves
CACHE and a key deletion hold the gang until they are complete. The model's own choices in it, no rule of the spec: clean lines at a key deletion (log
entry 24), which copies a bank holds (log entry 46), the banks an allocation covers (log entry 47). -/
def Obligations.BankKeyAndBudgetWordsRun : Prop :=
  (∀ w s, mayExit s w.nxt = true → active s.g = 0 →
    (statusFields w 0 = true → w.idx = 0xFF → w.hint = 0 → w.ofs.toNat = w.ofs.toNat % 32 + 256 * (w.ofs.toNat / 256 % 4) → w.ofs.toNat / 256 % 4 ≠ 3 →
      Runs (.bnkMode w) (mLen w) w.nxt s s) ∧
    (statusFields w 0 = true → w.idx = 0xFF → w.ofs = 0 → w.hint = 0 → Runs (.keyNew w) (mLen w) w.nxt s s) ∧
    (statusFields w 1 = true → w.idx = 0xFF → w.ofs = 0 → w.hint = 0 → Runs (.keyDelDrain w) (mLen w) w.nxt s s) ∧
    (statusFields w 2 = true → w.idx = 0xFF → w.ofs = 0 → w.hint = 0 → Runs (.keyDelScuttle w) (mLen w) w.nxt s s) ∧
    (budgetFields w 0 = true → Runs (.errbRd w) (mLen w) w.nxt s s) ∧ (budgetFields w 1 = true → Runs (.errbSet w) (mLen w) w.nxt s s)) ∧
  (∀ w s, mayExit s w.nxt = true → active s.g ≠ 0 → supervisor s = true → storesOut s = false →
    let answer := fun (n : Nat) (u : State) => ({ u with g := sSet u.g (w.data.toNat % 64) (BitVec.ofNat 64 n) } : State)
    let c := (sGet s.g (w.base.toNat - 128)).toNat
    let b := w.ofs.toNat % 32
    let m := w.ofs.toNat / 256 % 4
    (statusFields w 0 = true → w.idx = 0xFF → w.hint = 0 → w.ofs.toNat = b + 256 * m → m ≠ 3 → c < 1024 → (∀ x ∈ s.banks, x.cluster ≠ c ∨ x.bank ≠ b) →
      (bankStatus s c b m ≠ 0 → Runs (.bnkMode w) (mLen w) w.nxt s (answer (bankStatus s c b m) s)) ∧
      (bankStatus s c b m = 0 → (bankMode s c b ≠ 0 ∨ m = 0) → Runs (.bnkMode w) (mLen w) w.nxt s (answer 0 (setBank c b m s))) ∧
      (bankStatus s c b m = 0 → bankMode s c b = 0 → m ≠ 0 → 
        Waits (.bnkMode w) (.reply c) (mLen w) w.nxt s { s with banks := s.banks ++ [⟨c, b, m, s.g.gid, w.data.toNat % 64⟩], agenda := s.agenda ++ [(.bankModeComplete, c, b)] })) ∧
    (statusFields w 0 = true → w.idx = 0xFF → w.ofs = 0 → w.hint = 0 → c < 64 →
      ((∀ x ∈ s.ctxs, x.id ≠ c) → Runs (.keyNew w) (mLen w) w.nxt s (answer 2 s)) ∧
      ((∃ x ∈ s.ctxs, x.id = c) → (ctxOf s c).key = true → Runs (.keyNew w) (mLen w) w.nxt s (answer 1 s)) ∧
      ((∃ x ∈ s.ctxs, x.id = c) → (ctxOf s c).key = false → ∃ t, Runs (.keyNew w) (mLen w) w.nxt s (answer 0 t) ∧
        ctxOf t c = { ctxOf s c with key := true, keyGen := s.nextId } ∧ t = { s with ctxs := t.ctxs, nextId := s.nextId + 1 })) ∧
    (∀ p ∈ ([(.keyDelDrain, 1, true), (.keyDelScuttle, 2, false)] : List ((MWord → Instr) × Nat × Bool)),
      statusFields w p.2.1 = true → w.idx = 0xFF → w.ofs = 0 → w.hint = 0 → c < 64 → (∀ d ∈ s.keyDels, d.ctx ≠ c) →
      ∃ u, Waits (p.1 w) (.reply c) (mLen w) w.nxt s u ∧ u = { s with ctxs := u.ctxs, keyDels := u.keyDels, agenda := u.agenda } ∧
        u.keyDels = s.keyDels ++ [⟨c, p.2.2, some s.g.gid, w.data.toNat % 64⟩] ∧ isDue .keyDelComplete c 0 u ∧ (ctxOf u c).key = false) ∧
    (budgetFields w 1 = true → budgetCtx w s < 64 → Runs (.errbSet w) (mLen w) w.nxt s
      (setCtx s { ctxOf s (budgetCtx w s) with errb := (sGet s.g (w.data.toNat % 64)).truncate 32 }))) ∧
  (∀ w s, mayExit s w.nxt = true → active s.g ≠ 0 → storesOut s = false → budgetFields w 0 = true → (supervisor s = true ∨ w.idx = 0xFF) → budgetCtx w s < 64 →
    Runs (.errbRd w) (mLen w) w.nxt s { s with g := sSet s.g (w.data.toNat % 64) (BitVec.ofNat 64 (ctxOf s (budgetCtx w s)).errb.toNat) })

/-- R316–R321, R355, R365: `launch` appends its record to a queue fed by `launch`, or says why not; `ctx.save` swaps a core's banks and `ctx.load` fills
its shadow bank, or say why not. The model's own choices in it, no rule of the spec: the order of statuses (log entry 70), the order of filling (log
entry 71). -/
def Obligations.LaunchAndContextWordsRun : Prop :=
  (∀ w s, mayExit s w.nxt = true → active s.g = 0 →
    (modOk {} w.pre = true → w.w = 0 → (isS w.base.toNat = true ∨ w.base = 192) → isS w.idx.toNat = true → w.data.getLsbD 6 = false → w.sc = 0 → w.hint = 0 →
      w.la = 0 → Runs (.launch w) (mLen w) w.nxt s s) ∧
    (statusFields w 0 = true → w.idx = 0xFF → w.ofs = 0 → w.hint = 0 → Runs (.ctxSaveInstr w) (mLen w) w.nxt s s) ∧
    (statusFields w 1 = true → isS w.idx.toNat = true → w.ofs = 0 → w.hint.toNat < 2 → Runs (.ctxLoadInstr w) (mLen w) w.nxt s s)) ∧
  (∀ w s u bs evs, mayExit s w.nxt = true → active s.g ≠ 0 → supervisor s = true → modOk {} w.pre = true → w.w = 0 → (isS w.base.toNat = true ∨ w.base = 192) →
    isS w.idx.toNat = true → w.data.getLsbD 6 = false → w.sc = 0 → w.hint = 0 → w.la = 0 →
    let a := ((if w.base = 192 then 0 else sGet s.g (w.base.toNat - 128)) + w.ofs.signExtend 64 : DWord).toNat
    let q := (sGet s.g (w.idx.toNat - 128)).toNat
    a % 64 = 0 → q < 512 → qDev s q = true → qCtx s q = (myTeam s).ctx → checkBlock s { r := true } 0 a 1024 = .ok () → readBlock a 1024 s = some (u, bs, evs) →
    tableWf zeros s.g.s = true → tableWf regReset s.sysregs = true →
    ∃ t n, Runs (.launch w) (mLen w) w.nxt s t ∧ sGet t.g (w.data.toNat % 64) = BitVec.ofNat 64 n ∧ t.g.gts = s.g.gts ∧
      (qOn s q = false → n = 2 ∧ t.recs = s.recs) ∧
      (qOn s q = true → qSlots s q ≤ ahead (qTail s q) (qHead s q) → n = 1 ∧ t.recs = s.recs) ∧
      (qOn s q = true → ahead (qTail s q) (qHead s q) < qSlots s q → n = 0 ∧ isDue .launchRecordStart q 0 t ∧ qTail t q = (qTail s q + 1) % 2 ^ 32 ∧
        qHead t q = qHead s q ∧ ∃ r ∈ t.recs, r.q = q ∧ r.n = qTail s q ∧ r.floor = s.g.gts ∧ r.bytes = writeBytes [] 0 bs ∧ r.started = false)) ∧
  (∀ w s, mayExit s w.nxt = true → active s.g ≠ 0 → supervisor s = true → storesOut s = false →
    let answer := fun (n : Nat) (u : State) => ({ u with g := sSet u.g (w.data.toNat % 64) (BitVec.ofNat 64 n) } : State)
    let core := (sGet s.g (w.base.toNat - 128)).toNat
    core < 4096 →
    (statusFields w 0 = true → w.idx = 0xFF → w.ofs = 0 → w.hint = 0 →
      (saveStatus s core ≠ 0 → Runs (.ctxSaveInstr w) (mLen w) w.nxt s (answer (saveStatus s core) s)) ∧
      (saveStatus s core = 0 → core ≠ (myTeam s).core → Runs (.ctxSaveInstr w) (mLen w) w.nxt s (swap core (answer 0 s))) ∧
      (saveStatus s core = 0 → core = (myTeam s).core → ∀ u, takeExit w.nxt (answer 0 s) = .ok u →
        exec (.ctxSaveInstr w) s = .next (swap core (goOn (mLen w) s u)))) ∧
    (∀ c, statusFields w 1 = true → isS w.idx.toNat = true → w.ofs = 0 → w.hint.toNat < 2 → c = (sGet s.g (w.idx.toNat - 128)).toNat → c < 64 →
      (sbsState s core ≠ 0 → Runs (.ctxLoadInstr w) (mLen w) w.nxt s (answer 1 s)) ∧
      (sbsState s core = 0 → (∀ x ∈ s.ctxs, x.id ≠ c) → Runs (.ctxLoadInstr w) (mLen w) w.nxt s (answer 3 s)) ∧
      (sbsState s core = 0 → (∃ x ∈ s.ctxs, x.id = c) → ∃ t n, Runs (.ctxLoadInstr w) (mLen w) w.nxt s (answer n t) ∧
        (n = 0 → isDue .fillComplete core 0 t) ∧ (n = 0 ∨ n = 2)))) ∧
  (∀ (s : State) core, (∀ g ∈ allGangs s, nextPending g = none ∨ atRest g = false) → let t := swap core s
    isDue .spillComplete core 0 t ∧ t.mem = s.mem ∧
      (∀ x ∈ s.teams, x.core = core → x.place = .running → (∀ y ∈ s.teams, y.uid = x.uid → y = x) → (teamOf t x.uid).place = .shadow) ∧
      (∀ x ∈ s.teams, x.core = core → x.place = .shadow → (∀ y ∈ s.teams, y.uid = x.uid → y = x) → (teamOf t x.uid).place = .running) ∧
      (tableWf regReset s.sysregs = true → sbsState t core = 3 ∧ (regGet t 0x022 core).getLsbD 33 = false ∧
        (regGet t 0x022 core).toNat % 2 ^ 32 = ((regGet s 0x022 core).toNat + 1) % 2 ^ 32))

namespace Sys2Proof.Claims

open Sys2Proof Machine

/-- No two gangs have one number. -/
abbrev gidsOk (s : State) : Prop := ((allGangs s).map (·.gid)).Nodup

/-- Only gangs have changed. -/
abbrev gangsOnly (s t : State) : Prop := t = { s with g := t.g, gangs := t.gangs }

/-- The same gang, in the active set from this cc on, as `how` says; it may issue from the fourth cc (R51). -/
def intoSet (how : Nat) (s : State) (x : Gang) : Gang := { x with active := true, entered := s.clk + 1, entry := how, issueAt := s.clk + 4, readyFrom := none }

/-- The same gang, which a cause has brought into the active set (R52). -/
def trapSet (s : State) (x : Gang) : Gang := { x with active := true, entered := s.clk + 1, entry := 0, readyFrom := none }

/-- Gang y has left the active set for gang x, and nothing else has changed. -/
abbrev changedPlaces (how : Nat) (s t : State) (x y : Gang) : Prop :=
  gangsOnly s t ∧ gangOf t x.gid = some (intoSet how s x) ∧ gangOf t y.gid = some (placeless y) ∧
    ∀ h, h ≠ 0 → h ≠ x.gid → h ≠ y.gid → gangOf t h = gangOf s h

/-- The lanes that R38 lets issue: live, not held at their meeting point, not waiting at `compact`. -/
def candidate (g : Gang) (waiting : Mask) (l : Nat) : Bool := decide (l < 32) && g.live.getLsbD l && !heldLane g l && !waiting.getLsbD l

/-- What the moving gang issues next: in its handler all its live lanes at its handler pc (R303), outside it what R38 and R41 choose. -/
abbrev picks (s : State) (c : Chosen) : Prop :=
  s.g.cl.x = 0 ∧ s.g.live ≠ 0 ∧
    (s.g.inH = true → c = ⟨s.g.hpc, s.g.live, s.g.marks, s.g.streak, s.g.yieldPt, 0⟩) ∧ (s.g.inH = false → choose s.g (arrivedOf s) = some c)

/-- The gang has taken its cause at the start of the clause at a: its handler is entered and the boundary is before the clause's first word (R76). -/
abbrev refusedClause (c : Cause) (a : Chosen) (s u : State) : Prop :=
  mayTrap u → ∃ t, exec .clauseIssue s = .next t ∧ entered c false ⟨a.pc, 1, a.set⟩ u t

/-- The unassigned codes, and those of R76 (R91). -/
abbrev unassigned (op : Nat) : Prop :=
  op = 0 ∨ (0x1D ≤ op ∧ op ≤ 0x1F) ∨ (0x3F ≤ op ∧ op ≤ 0x5F) ∨ (0x73 ≤ op ∧ op ≤ 0x8F) ∨ (0x98 ≤ op ∧ op ≤ 0x9F) ∨ (0xDC ≤ op ∧ op ≤ 0xDF) ∨ op = 0xEF ∨
    (0xF8 ≤ op ∧ op ≤ 0xFD) ∨ op = 0xFF

end Sys2Proof.Claims

open Sys2Proof Sys2Proof.Machine Sys2Proof.Claims

/-- R49–R53: gangs enter and leave the active set of their quarter; nothing else of a state changes by it. A gang at trap priority that waits for a place
enters first; into room, and by waiting, one enters in a cc; into a full set a cause brings its gang at once, and the youngest ordinary gang leaves it. -/
def Obligations.TheActiveSetChanges : Prop :=
  (∀ s, gidsOk s →
    let gs := inQuarter s s.obj.1 s.obj.2
    gs.countP (·.active) < 8 → (∀ y ∈ gs, y.prio = true → y.active = true) →
    (justEntered s gs 1 = true → exec .activeSetFill s = .next s) ∧ (justEntered s gs 1 = false → (∃ y ∈ gs, pendingReady s y = true) →
    ∃ x ∈ gs, pendingReady s x = true ∧ (∀ y ∈ gs, pendingReady s y = true → x.age ≤ y.age) ∧
      ∃ t, exec .activeSetFill s = .next t ∧ gangsOnly s t ∧ oneGang s t x.gid x (intoSet 1 s x))) ∧
  (∀ s, gidsOk s →
    let gs := inQuarter s s.obj.1 s.obj.2
    let waits := fun (y : Gang) => y ∈ gs ∧ y.prio = true ∧ y.active = false
    gs.countP (·.active) < 8 → (∃ y, waits y) →
    ∃ x t, waits x ∧ (∀ y, waits y → x.age ≤ y.age) ∧ exec .activeSetFill s = .next t ∧ gangsOnly s t ∧ oneGang s t x.gid x (trapSet s x)) ∧
  (∀ s x, gidsOk s → gangOf s x.gid = some x → x.active = false →
    let act := fun (y : Gang) => y ∈ besides s x ∧ y.active = true
    let may := fun (y : Gang) => act y ∧ y.prio = false
    let t := pinTrap x.gid s
    ((besides s x).countP (·.active) < 8 → gangsOnly s t ∧ oneGang s t x.gid x (trapSet s x)) ∧
    (8 ≤ (besides s x).countP (·.active) → (∀ y, ¬ may y) → t = s) ∧
    (8 ≤ (besides s x).countP (·.active) → (∃ y, may y) → ∃ y, may y ∧ (∀ z, may z → z.age ≤ y.age) ∧ gangsOnly s t ∧
      gangOf t x.gid = some (trapSet s x) ∧ gangOf t y.gid = some (placeless y) ∧
      ∀ h, h ≠ x.gid → h ≠ y.gid → gangOf t h = gangOf s h)) ∧
  (∀ s g, gidsOk s → gangOf s s.obj.1 = some g → g.active = true → g.prio = false → stalled s g = true → g.waitFrom + 32 ≤ s.clk →
    let mate := fun (y : Gang) => y ∈ besides s g ∧ pendingReady s y = true
    (∃ y, mate y) → ∃ x, mate x ∧ (∀ y, mate y → x.age ≤ y.age) ∧ ∃ t, exec .longLatencyTimeout s = .next t ∧ changedPlaces 0 s t x g) ∧
  (∀ s g, gidsOk s → gangOf s s.obj.1 = some g → g.prio = false → readyGang s g.gid = true → (∃ n, g.readyFrom = some n ∧ n + 16 ≤ s.clk) →
    ∃ t, exec .starvation s = .next t ∧ gangsOnly s t ∧ oneGang s t g.gid g { g with starved := true }) ∧
  (∀ s, gidsOk s →
    let gs := inQuarter s s.obj.1 s.obj.2
    let long := fun (x : Gang) => x ∈ gs ∧ pendingReady s x = true ∧ ∃ n, x.readyFrom = some n ∧ n + 256 ≤ s.clk
    let may := fun (y : Gang) => y ∈ gs ∧ y.active = true ∧ y.prio = false
    (justEntered s gs 2 = true → exec .exchangeByWaiting s = .next s) ∧ (justEntered s gs 2 = false → (∃ x, long x) → (∃ y, may y) → ∃ x y t, long x ∧ (∀ z, long z → x.readyFrom.getD 0 ≤ z.readyFrom.getD 0) ∧ may y ∧ (∀ z, may z → y.entered ≤ z.entered) ∧
      exec .exchangeByWaiting s = .next t ∧ changedPlaces 2 s t x y))

/-- R38, R41, R66, R70, R75, R76, R91: between clauses a gang chooses the lanes that issue, reads the header and the words at their address, refuses a
clause that is not legal, and begins one that is; one whose page lies in storage waits. A word of an unassigned opcode is ILLEGAL_OPCODE in a clause of any class; the check goes on past each legal
word, with its prefix, to the next. The model's own choices
in it, no rule of the spec: fetched sectors (log entry 7), yield state in a handler (log entry 76), the order of the checks and an evaluation that is
discarded (log entry 94), code in storage (log entry 117). -/
def Obligations.ClausesAreChosenReadAndBegun : Prop :=
  (∀ (g : Gang) w c, choose g w = some c →
    c.set ≠ 0 ∧ (∀ l, c.set.getLsbD l = true → candidate g w l = true ∧ get0 g.pc l = c.pc) ∧ (∀ l < 32, c.freed.getLsbD l = releasedLane g l) ∧
    (g.marks = 0 → (∀ l, candidate g w l = true → c.pc.toNat ≤ lanePc g l) ∧ ∀ l, candidate g w l = true → get0 g.pc l = c.pc → c.set.getLsbD l = true)) ∧
  (∀ (g : Gang) w, (∃ l, candidate g w l = true) → ∃ c, choose g w = some c) ∧
  (∀ (s : State) (va : DWord) e z, checkPage s (taskOf s (myTeam s).task) (myTeam s).core { x := true } va = .ok (e, z) → inStorage e = false → paOf e z va.toNat % 4 = 0 →
    (∀ x ∈ s.icache, x.1 ≠ (myTeam s).core) → ∃ u, fetchWords va 1 s = .ok (u, [BitVec.ofNat 32 (leNat (homeBytes u (paOf e z va.toNat) 4))])) ∧
  (∀ s c, picks s c → codeStored s c.pc = true → exec .clauseIssue s = awaitCode c.pc s) ∧
  (∀ s c u h v ws, picks s c → codeStored s c.pc = false → fetchWords c.pc 1 s = .ok (u, [h]) → headerOk h = true →
    codeStored u (c.pc + BitVec.ofNat 64 (4 * hdrN h)) = false → fetchWords (c.pc + 4) (hdrN h) u = .ok (v, ws) →
    checkWords (hdrEng h) (hdrN h + 1) 1 ws = none → (hdrExk h = 5 → vregOk s.g.regs true (h.toNat / 2 ^ 18 % 2 ^ 7) = true) → waitDone v s.g h = true →
    ∃ t n, exec .clauseIssue s = .next t ∧ t = { v with clk := v.clk + 1, g := t.g } ∧
      t.g = { s.g with cl := { addr := c.pc, hdr := h, words := ws, x := 1, set := c.set }, meet := laneSet s.g.meet c.freed 0, marks := c.marks, streak := c.streak,
                       yieldPt := c.yieldPt, gts := n, wait := .none, waitFrom := v.clk } ∧
      n = (if hdrWait h / 4 % 2 = 1 then max s.g.gts s.g.engTime else s.g.gts)) ∧
  (∀ s c va e, picks s c → codeStored s c.pc = false → fetchWords c.pc 1 s = .error (va, e) → refusedClause e c s s) ∧
  (∀ s c u h, picks s c → codeStored s c.pc = false → fetchWords c.pc 1 s = .ok (u, [h]) →
    (headerOk h = false → refusedClause .illegalClause c s u) ∧
    let last := c.pc + BitVec.ofNat 64 (4 * hdrN h)
    (headerOk h = true → codeStored u last = true → exec .clauseIssue s = awaitCode last u) ∧
    (headerOk h = true → codeStored u last = false → ∀ va e, fetchWords (c.pc + 4) (hdrN h) u = .error (va, e) → refusedClause e c s u) ∧
    (headerOk h = true → codeStored u last = false → ∀ v ws, fetchWords (c.pc + 4) (hdrN h) u = .ok (v, ws) →
      (∀ i, checkWords (hdrEng h) (hdrN h + 1) 1 ws = some (.opcode, i) → refusedClause .illegalOpcode c s v) ∧
      (∀ r i, r ≠ .opcode → checkWords (hdrEng h) (hdrN h + 1) 1 ws = some (r, i) → refusedClause .illegalClause c s v) ∧
      (checkWords (hdrEng h) (hdrN h + 1) 1 ws = none → hdrExk h = 5 → vregOk s.g.regs true (h.toNat / 2 ^ 18 % 2 ^ 7) = false →
        refusedClause .illegalOperand c s v))) ∧
  (∀ (x p : Word) ws eng n i, unassigned (x.extractLsb' 2 8).toNat → checkWords eng (n + 1) i (x :: ws) = some (.opcode, i) ∧
    (p.extractLsb' 2 8 = 0xFE → p.extractLsb' 0 2 = 0 → checkWords eng (n + 1) i (p :: x :: ws) = some (.opcode, i + 1))) ∧
  (∀ (x p : Word) ws eng n i c, opcodeOf x ≠ 0xFE → opClass (opcodeOf x) = some c → (c = eng ∨ c = 0) → wordLen x ≤ ws.length + 1 →
    checkWords eng (n + 1) i (x :: ws) = checkWords eng n (i + wordLen x) (ws.drop (wordLen x - 1)) ∧
    (p.extractLsb' 2 8 = 0xFE → p.extractLsb' 0 2 = 0 →
      checkWords eng (n + 1) i (p :: x :: ws) = checkWords eng n (i + 1 + wordLen x) (ws.drop (wordLen x - 1))))

/-- R122, R125, R304, R307, R326–R328: a sleep ends at its time; a late cause is taken at the gang's boundary, or counted in the task of a gang that has
ended; a context whose gangs all wait too long takes WATCHDOG in the oldest gang of each task, an external wait EXT_TIMEOUT. The model's own choices
in it, no rule of the spec: late causes of words issued in a handler (log entry 35). -/
def Obligations.SleepsLateCausesAndWatchdogs : Prop :=
  (∀ s x, gangOf s s.obj.1 = some x →
    (∀ t, x.wait = .sleepUntil t → t.toNat ≤ s.clk → ∃ u, exec .sleepWake s = .next u ∧ gangsOnly s u ∧ oneGang s u s.obj.1 x { x with wake := some 0 }) ∧
    (∀ r, x.wait = .sleepR r → x.place = .running → promiseCome s r = true → ticketDone (teamOf s x.team) r = true → ∃ u, exec .sleepWake s = .next u ∧ gangsOnly s u ∧
      oneGang s u s.obj.1 x { x with wake := some (get0 (teamOf s x.team).times (r.toNat % 65536)).toNat }) ∧
    (∀ r y, x.wait = .sleepR r → x.place = .running → promiseCome s r = true → ticketDone (teamOf s x.team) r = false →
      let u := switchTo s s.obj.1
      let v := finishWait u
      takeExit u.g.waitNxt u = .ok y → u.g.inH = false → u.g.cl.x < 16 → mayTrap v →
      ∃ t, exec .sleepWake s = .next t ∧ entered .promiseMissed true (boundary v) v t)) ∧
  (∀ s x r rest, gangOf s s.obj.1 = some x → x.pending = r :: rest → x.place = .running → atRest x = true →
    let u := switchTo s x.gid
    ((∀ y ∈ x.pending, y.cwi < 16) → mayTrap u → ∃ t, exec .trapEntry s = .next t ∧
      entered r.cause true (boundary u) { u with g := { u.g with pending := rest } } t ∧ t.g.recs = r.recs.take 32) ∧
    (16 ≤ r.cwi → placed u → underWay u (myTeam u).task → ∃ t h, exec .trapEntry s = .next t ∧ stopped (myTeam u).task 9 0x0F h t)) ∧
  (∀ s k r rest, s.tasks.find? (·.id == s.obj.1) = some k → k.orphans = r :: rest →
    ∃ t y, exec .orphanCause s = .next t ∧ t = { s with tasks := t.tasks } ∧ taskOf t k.id = y ∧ (∀ j, j ≠ k.id → taskOf t j = taskOf s j) ∧
      y = { k with orphans := rest, orph := min 255 (k.orph + 1), oCause := y.oCause, oHdr := y.oHdr } ∧
      (k.orph ≠ 0 → y.oCause = k.oCause ∧ y.oHdr = k.oHdr) ∧
      (k.orph = 0 → y.oCause = causeCode r.cause ∧ areaSays y.oHdr (causeCode r.cause) (taskEnding r.cause) true ⟨r.cpc, r.cwi, 0⟩)) ∧
  (∀ s, gidsOk s →
    let ctx := s.obj.1
    let per := 1000 * (regGet s 0x013 ctx).toNat
    let mine := fun (x : Gang) => x ∈ allGangs s ∧ x.gid ≠ 0 ∧ x.place ≠ .ended ∧ (teamOf s x.team).ctx = ctx ∧ x.live ≠ 0
    per ≠ 0 → (∃ x, mine x) → (∀ x, mine x → (waitKind s x).isSome = true ∧ x.waitFrom + per < s.clk ∧ x.prio = false ∧ external s x = false ∧ x.cl.x < 16) →
    (∀ k ∈ s.tasks, k.ctx = ctx → k.stage = .running → gridSize k ≤ k.next) → (∀ t ∈ s.teams, t.ctx = ctx → (t.place = .undispatched ∨ t.place = .moving) → t.begun = true) →
    regGet s 0x012 ctx ≠ 0 →
    ∃ t, exec .watchdog s = .next t ∧ t.mem = s.mem ∧ (∀ x, x ∈ allGangs s → x.gid ≠ 0 → ¬ mine x → ∃ y, gangOf t x.gid = some y ∧ placeless y = placeless x) ∧
      ∀ x, mine x → ∃ o, mine o ∧ (teamOf s o.team).task = (teamOf s x.team).task ∧ o.age ≤ x.age ∧
        ∃ y, gangOf t o.gid = some y ∧ y.prio = true ∧ y.inH = true ∧ y.hpc = regGet s 0x012 ctx ∧ areaSays y.area 0x54 true false (boundary s o)) ∧
  (∀ s x k, gangOf s s.obj.1 = some x → waitKind s x = some k → external s x = true →
    let per := 1000 * (regGet s 0x014 (teamOf s x.team).ctx).toNat
    let u := switchTo s x.gid
    per ≠ 0 → x.waitFrom + per < s.clk → mayTrap u → u.g.cl.x < 16 →
    ∃ t, exec .extTimeout s = .next t ∧ entered .extTimeout false (boundary u) u t)

/-- R37, R54–R56, R306, R307: a gang with no live thread and no register write outstanding ends; a team ends with its gangs; `compact` repacks a team's
threads in ascending order of target, gang and lane. The model's own choices in it, no rule of the spec: the count of gangs (log entry 53), what moves
with a thread (log entry 83), when a faulted task retires (log entry 36). -/
def Obligations.GangsAndTeamsEndAndAreRepacked : Prop :=
  (∀ s x, gangOf s s.obj.1 = some x → x.live = 0 → x.place ≠ .ended → (∀ o ∈ opsOf s x.gid, o.wr = false) →
    let k := taskOf s (teamOf s x.team).task
    (s.tasks.any (·.id == (teamOf s x.team).task)) = true →
    ∃ t y z, exec .gangEnd s = .next t ∧ t = { s with g := t.g, gangs := t.gangs, tasks := t.tasks, agenda := t.agenda } ∧
      oneGang s t x.gid x y ∧ y.place = .ended ∧ y.active = false ∧ y.prio = false ∧ y.pending = [] ∧ y.live = 0 ∧
      taskOf t k.id = z ∧ (∀ j, j ≠ k.id → taskOf t j = taskOf s j) ∧ z.floor = max k.floor x.gts ∧ z.orphans = k.orphans ++ x.pending ∧
      (let te := x.prio && x.area.dw0.getLsbD 7
       (te = true → k.status = 0 → z.status = 9 ∧ z.cause = x.area.dw0.toNat % 128 ∧ z.hdr = x.area) ∧
       (te = false ∨ k.status ≠ 0 → z.status = k.status ∧ z.cause = k.cause ∧ z.hdr = k.hdr)) ∧
      (x.pending ≠ [] → isDue .orphanCause k.id 0 t) ∧ isDue .teamEnd (teamOf s x.team).uid 0 t ∧ isDue .compactRepack (teamOf s x.team).uid 0 t) ∧
  (∀ (s : State) x v, s.teams.find? (·.uid == s.obj.1) = some x → x.place ≠ .ended → (∀ g ∈ allGangs s, g.team = x.uid → g.place = .ended) →
    (∀ m ∈ s.mmas, m.team ≠ x.uid) → (∀ r ∈ s.relays, r.team ≠ x.uid) →
    flushTeam x.uid (closeTeam x.uid { s with laterals := s.laterals.filter (·.sub != x.uid) }) = some v →
    ∃ t y, exec .teamEnd s = .next t ∧ t.mem = v.mem ∧ teamOf t x.uid = y ∧ y.place = .ended ∧ y.scratch = [] ∧ y.scr = 0 ∧ y.units = [] ∧ y.races = [] ∧ y.placed = false ∧ y.reserved = false ∧
      (∀ j, j ≠ x.uid → teamOf t j = teamOf v j) ∧ (∀ l ∈ t.laterals, l.pub ≠ x.uid) ∧ isDue .taskCompletion x.task 0 t) ∧
  (∀ (s : State) x,
    let gs := gangsOf s x.uid
    let thread := fun (a : CompactArr) => (a.tgt.toNat, ((gs.find? (·.gid == a.gang)).map (·.num)).getD 0, a.lane)
    let live := x.arrivals.filter fun a => gs.any fun g => g.gid == a.gang && g.live.getLsbD a.lane
    s.teams.find? (·.uid == s.obj.1) = some x → gidsOk s → (gs.map (·.num)).Nodup → (∀ g ∈ gs, g.num < 32 ∧ g.prio = false ∧ tableWf zeros g.v = true ∧ tableWf zeros g.k = true) →
    (x.arrivals.map fun a => (a.gang, a.lane)).Nodup → x.arrivals ≠ [] → x.place = .running → (∀ g ∈ gs, ∀ o ∈ opsOf s g.gid, o.wr = false) →
    (∀ g ∈ gs, ∀ r ∈ s.relays, r.gang ≠ g.gid) → (∀ a ∈ x.arrivals, a.lane < 32) →
    (∀ g ∈ gs, ∀ l < 32, g.live.getLsbD l = true → ∃ a ∈ x.arrivals, a.gang = g.gid ∧ a.lane = l) →
    ∃ (t : State) (ths : List (Nat × Nat × Nat)), exec .compactRepack s = .next t ∧ t.mem = s.mem ∧ ths.Perm (live.map thread) ∧ ths.Pairwise (fun a b => threadLt a b = true) ∧
      (teamOf t x.uid).arrivals = [] ∧ (teamOf t x.uid).scratch = x.scratch ∧
      ∀ i a, ths[i]? = some a → ∃ y ∈ gangsOf t x.uid, ∃ z ∈ gs, y.num = i / 32 ∧ z.num = a.2.1 ∧ y.live.getLsbD (i % 32) = true ∧
        get0 y.pc (i % 32) = BitVec.ofNat 64 a.1 ∧ get0 y.lk (i % 32) = get0 z.lk a.2.2 ∧ get0 y.meet (i % 32) = 0 ∧
        (∀ r < y.regs, vGet y r (i % 32) = vGet z r a.2.2) ∧ (∀ g ∈ gs, g.live ≠ 0 → g.gts ≤ y.gts) ∧ kGet y 1 = y.live ∧ kGet y 4 = 0)

namespace Sys2Proof.Claims

open Sys2Proof Machine

/-- The event's operation and the line of it that is yet to be performed, whose lanes lie in the block asked for. -/
abbrev arrives (s : State) (o : Op) (r : LineReq) : Prop :=
  opOf s s.obj.1 = some o ∧ o.id = s.obj.1 ∧ o.lines.find? (fun x => x.line == s.obj.2 && !x.granted) = some r ∧ r.line = s.obj.2 ∧ r.hi ≤ 128 ∧
    ∀ l ∈ o.lanes, l.pa / 128 = r.line → r.lo ≤ l.pa % 128 ∧ l.pa % 128 + l.size ≤ r.hi

/-- The request stands at its home: nothing that its cluster sent before it is behind it, or yet to be performed on the same BULK line, and no engine owns
the line (R25, R190, R196). -/
abbrev atHome (s : State) (o : Op) (r : LineReq) : Prop :=
  (r.arrived = true ∨ behind s o r = false) ∧ afterOthers s o r = false ∧ lineOwned s r.line = false

/-- Nothing holds a request back at the home: the line's block is held by its home slice, no relay has read it, and the gang's earlier ORDERED accesses are
done. -/
abbrev performable (s : State) (o : Op) (r : LineReq) : Prop :=
  atHome s o r ∧ relayRead s r.line = false ∧ sliceOf s r.dom r.line = homeOf s r.dom r.line ∧ Machine.holds s r = true ∧ (r.bulk = false → earlierDone s o = true) ∧
    tableWf zeros s.mem = true ∧ tableWf zeros s.wts = true ∧ tableWf zeros s.rts = true ∧ rtsOf s r.dom r.line + o.gts + o.lanes.length + 2048 < 2 ^ 64 ∧
    wtsOf s r.dom r.line + 2048 < 2 ^ 64

/-- The lanes of an operation in a line. -/
def inLine (o : Op) (r : LineReq) : List LaneReq := o.lanes.filter fun l => l.pa / 128 == r.line

/-- Every other operation stays as it was; the operation's other lines do too. -/
abbrev answered (s t : State) (o o' : Op) (r : LineReq) (time : Nat) : Prop :=
  opOf t o.id = some o' ∧ (∀ i, i ≠ o.id → opOf t i = opOf s i) ∧ (∀ x ∈ o'.lines, x.line = r.line → x.granted = true ∧ (r.bulk = false → x.time = time)) ∧
    o'.lines.map (·.line) = o.lines.map (·.line) ∧ ∀ x ∈ o.lines, x.line ≠ r.line → x ∈ o'.lines

/-- Gangs have at most been woken. -/
abbrev onlyWoken (s t : State) : Prop :=
  (∀ h y, gangOf t h = some y → ∃ x, gangOf s h = some x ∧ y = { x with wake := y.wake }) ∧ ∀ h x, gangOf s h = some x → ∃ y, gangOf t h = some y

/-- The step of an operation at a line's home. -/
def homeStep (o : Op) : Instr :=
  match o.kind with
  | .load | .pref => .homeLoad
  | .atomic => .atomicAtHome
  | _ => .homeStore

/-- Stores of lanes in their order, on memory. -/
def storeRun (ls : List LaneReq) (m : Table 8) : Table 8 :=
  ls.foldl (fun m l => writeBytes m l.pa (l.bytes.mapIdx fun i b => mergeByte (get0 m (l.pa + i)) b l.mask)) m

/-- Atomics of lanes in their order, on memory, and what each returns. -/
def atomicRun (o : Op) (ls : List LaneReq) (m : Table 8) : Table 8 × List Nat :=
  ls.foldl (fun a l =>
    let x := atomFun o.code o.ty (8 * l.size) (readLe a.1 l.pa l.size) l.g0.toNat l.g1.toNat
    (writeLe a.1 l.pa l.size x.1, a.2 ++ [x.2])) (m, [])

/-- A copy's line may be written back, into its home slice. -/
abbrev mayGoHome (s : State) (c : Copy) : Prop :=
  (s.copies.filter fun k => !k.remote && k.holder == c.holder && k.ctx == c.ctx && k.line == c.line) = [c] ∧ c.dirty ≠ [] ∧ wbReady s c = true ∧
    Machine.holds s (copyReq c) = true ∧ tableWf zeros s.mem = true ∧ tableWf zeros c.dirty = true

/-- The dirty bits of a copy, and only they, have replaced bits of their line. -/
abbrev broughtHome (s t : State) (c : Copy) : Prop :=
  (∀ e ∈ c.dirty, get0 t.mem (128 * c.line + e.1) = mergeByte (get0 s.mem (128 * c.line + e.1)) (get0 c.bytes e.1) e.2) ∧
    ∀ a, (∀ e ∈ c.dirty, a ≠ 128 * c.line + e.1) → get0 t.mem a = get0 s.mem a

/-- The request of operation o for a line has arrived there. -/
def arrivedOp (o : Op) (line : Nat) : Op := onLine o line fun x => { x with arrived := true }

/-- What a lane of a load finds at the home: the bytes there, under the bits that its cluster held dirty of them when it was sent (R190). -/
def found (s : State) (l : LaneReq) : List Byte :=
  (readBytes s.mem l.pa l.size).mapIdx fun i b => match l.pre[i]? with
    | some p => (b &&& ~~~p.2) ||| (p.1 &&& p.2)
    | none => b

end Sys2Proof.Claims

open Sys2Proof Sys2Proof.Machine Sys2Proof.Claims

/-- R180–R185, R190, R191, R212–R214, R217, R218, R257–R259, R294: at a line's home a load is granted its lease, a store and an atomic take their time and
change the bytes they name, in the order of lanes; a line is fetched, with its code checked, before it is served; replies move the gang's time and
write its registers; a write wakes the monitors that it makes true; write-backs bring dirty bytes home. The model's own choices in it, no rule of the
spec: errors of fetches (log entry 7), the domain of table lines (log entry 30), the initial data of a device-managed page (log entry 107), which line leaves a
full set or cache. -/
def Obligations.RequestsArePerformedAtTheirHomes : Prop :=
  (∀ s o r, arrives s o r → performable s o r → o.kind = .load → cacheTakes s (clusterOf (gangTeam s o.gang).core) 1 = true → ∃ t o' n, exec .homeLoad s = .next t ∧ t.mem = s.mem ∧ t.g = s.g ∧ t.gangs = s.gangs ∧
    answered s t o o' r n ∧
    (r.bulk = false → n = max o.gts (wtsOf s r.dom r.line) ∧ wtsOf t r.dom r.line = wtsOf s r.dom r.line ∧
      rtsOf t r.dom r.line = max (rtsOf s r.dom r.line) (max (wtsOf s r.dom r.line + leaseOf s o.ctx) (o.gts + leaseOf s o.ctx)) ∧
      ∀ x ∈ o'.lines, x.line = r.line → x.lease = rtsOf t r.dom r.line) ∧
    (r.bulk = true → t.wts = s.wts ∧ t.rts = s.rts) ∧ (∀ l ∈ inLine o' r, l.got = found s l) ∧
    ((∀ x ∈ o.lines, x.line ≠ r.line → x.granted = true) → isDue .loadReply o.id 0 t)) ∧
  (∀ s o r, arrives s o r → atHome s o r →
    let u := setOp s (arrivedOp o r.line)
    let again := setOp { s with nextId := s.nextId + 1 } (onLine o r.line fun x => { x with sentAt := if x.sentAt = 0 then 0 else s.nextId, arrived := false })
    (sliceOf s r.dom r.line ≠ homeOf s r.dom r.line → (o.kind = .load ∨ o.kind = .pref) → exec .homeLoad s = .next (due .movedReply o.id u r.line)) ∧
    (sliceOf s r.dom r.line = homeOf s r.dom r.line → exec .movedReply s = .next (due (homeStep o) o.id again r.line) ∧
      (Machine.holds s r = false → r.fetched = false → (o.kind = .load ∨ o.kind = .pref) → exec .homeLoad s = .next (due .lineFetch o.id u r.line)))) ∧
  (∀ s o r, arrives s o r → tableWf zeros s.mem = true → tableWf zeros s.flips = true → (inSc s r.line = false → r.dm = false) → Machine.holds s r = false →
    ∃ t o', exec .lineFetch s = .next t ∧ isDue (homeStep o) o.id r.line t ∧ opOf t o.id = some o' ∧ o'.lanes = o.lanes ∧
    let found := if inSc s r.line then 0 else checkLine s r.cls r.line
    (found = 0 → Machine.holds t r = true ∧ o' = o ∧ ∀ i < 128, homeByte t (128 * r.line + i) = homeByte s (128 * r.line + i)) ∧
    (found = 1 → inSc t r.line = true ∧ t.mem = s.mem ∧ ∃ e, o'.events = o.events ++ [e] ∧ e.line = r.line ∧ e.bad = false) ∧
    (found = 2 → inSc t r.line = false ∧ t.mem = s.mem ∧ (∀ x ∈ o'.lines, x.line = r.line → x.fetched = true) ∧
      ∃ e, o'.events = o.events ++ [e] ∧ e.line = r.line ∧ e.bad = true) ∧
    (2 < found → inSc t r.line = true ∧ ∃ e, o'.events = o.events ++ [e] ∧ e.line = r.line ∧ e.bad = false)) ∧
  (∀ s o x, opOf s s.obj.1 = some o → gangOf s o.gang = some x → o.kind = .load → o.code = 0 → o.split = 0 → (∀ r ∈ o.lines, r.granted = true) → earlierDone s o = true →
    ((∀ r ∈ o.lines, r.bulk = false → x.gts ≤ r.lease) → ∃ t y, exec .loadReply s = .next t ∧ oneGang s t o.gang x y ∧ t.mem = s.mem ∧ opOf t o.id = none ∧
      y.gts = o.lines.foldl (fun m r => if r.bulk then m else max m r.time) x.gts ∧ y.k = x.k ∧ y.pc = x.pc ∧ y.live = x.live ∧
      (o.wr = true → o.uni = false → y.s = x.s ∧ y.v = (o.lanes.foldl (fun g l => putGroup o.dst l.lane l.size o.ty l.got g) x).v) ∧
      (o.wr = true → o.uni = true → y.v = x.v ∧ ∀ l ls, o.lanes = l :: ls → y.s = set0 x.s o.dst (BitVec.ofNat 64 (extended l.size o.ty l.got)))) ∧
    ((∃ r ∈ o.lines, r.bulk = false ∧ r.lease < x.gts) → ∃ t o', exec .loadReply s = .next t ∧ t.g = s.g ∧ t.gangs = s.gangs ∧ t.mem = s.mem ∧
      opOf t s.obj.1 = some o' ∧ o'.gts = x.gts)) ∧
  (∀ s o r, arrives s o r → performable s o r → o.kind = .store → o.sent = true → inLine o r ≠ [] → ∃ t o' n, exec .homeStore s = .next t ∧
    t.mem = storeRun (inLine o r) s.mem ∧ onlyWoken s t ∧ answered s t o o' r n ∧
    (r.bulk = false → n = max o.gts (rtsOf s r.dom r.line + 1) + ((inLine o r).length - 1) ∧ wtsOf t r.dom r.line = n ∧ rtsOf t r.dom r.line = n) ∧
    (r.bulk = true → t.wts = s.wts ∧ t.rts = s.rts) ∧
    ((∀ x ∈ o.lines, x.line ≠ r.line → x.granted = true) → isDue .storeTimeReturn o.id 0 t)) ∧
  (∀ s o r, arrives s o r → performable s o r → o.kind = .atomic → o.sent = true → inLine o r ≠ [] →
    ∃ t o' n, exec .atomicAtHome s = .next t ∧
    t.mem = (atomicRun o (inLine o r) s.mem).1 ∧ onlyWoken s t ∧ answered s t o o' r n ∧
    (inLine o' r).map (·.got) = (atomicRun o (inLine o r) s.mem).2.zipWith (fun x l => leBytes l.size x) (inLine o r) ∧
    (r.bulk = false → n = max o.gts (rtsOf s r.dom r.line + 1) + ((inLine o r).length - 1) ∧ wtsOf t r.dom r.line = n ∧ rtsOf t r.dom r.line = n) ∧
    (r.bulk = true → t.wts = s.wts ∧ t.rts = s.rts) ∧
    ((∀ x ∈ o.lines, x.line ≠ r.line → x.granted = true) → isDue .storeTimeReturn o.id 0 t)) ∧
  (∀ s o x, opOf s s.obj.1 = some o → gangOf s o.gang = some x → (∀ r ∈ o.lines, r.granted = true) → ∃ t y, exec .storeTimeReturn s = .next t ∧
    oneGang s t o.gang x y ∧ t.mem = s.mem ∧ opOf t o.id = none ∧ y.gts = o.lines.foldl (fun m r => if r.bulk then m else max m r.time) x.gts ∧ y.s = x.s ∧
    y.k = x.k ∧ y.pc = x.pc ∧ y.v = (if o.wr then (o.lanes.foldl (fun g l => putGroup o.dst l.lane l.size 0 l.got g) x).v else x.v)) ∧
  (∀ (s : State) pa bs mask n m x cond uns cmp bulk ext va, s.monitors = [m] → m.pa < pa + bs.length → pa < m.pa + m.w → gangOf s m.gang = some x →
    x.wait = .weir m.pa m.w cond uns cmp bulk ext va →
    let t := pokeBytes pa bs mask n s
    let true' := weirTrue cond uns (8 * m.w) (leNat (homeBytes t m.pa m.w)) cmp.toNat
    (true' = true → t.monitors = [] ∧ oneGang s t m.gang x { x with wake := some (if bulk then 0 else n) }) ∧
    (true' = false → t.monitors = [m] ∧ t.g = s.g ∧ t.gangs = s.gangs)) ∧
  (∀ s x p0 z cond uns cmp bulk ext va leaf, gangOf s s.obj.1 = some x → x.wait = .weir p0 z cond uns cmp bulk ext va → x.wake = none →
    (∀ m ∈ s.monitors, m.gang ≠ s.obj.1) → leafOf s (teamOf s x.team).core (teamOf s x.team).ctx va.toNat = .ok leaf →
    let pa := paOf leaf.1 leaf.2 va.toNat
    let r := ofBlock (reqOf s leaf.1 pa va.toNat) pa z
    let y := { x with wait := .weir pa z cond uns cmp bulk (pteExt leaf.1) va }
    lineOwned s r.line = false → readBehind s (teamOf s x.team).core r = false → sliceOf s r.dom r.line = homeOf s r.dom r.line → Machine.holds s r = true →
    let now := weirTrue cond uns (8 * z) (leNat (homeBytes s pa z)) cmp.toNat
    let slice := homeOf s r.dom r.line
    ∃ t, exec .weirPoll s = .next t ∧ t.mem = s.mem ∧
      (now = true → oneGang s t s.obj.1 x { y with wake := some (if bulk then 0 else wtsOf s r.dom r.line) } ∧ t.monitors = s.monitors) ∧
      (now = false → oneGang s t s.obj.1 x y ∧
        (if (s.monitors.filter (·.slice == slice)).length < 256 then t.monitors = s.monitors ++ [⟨s.obj.1, pa, z, slice, r.dom⟩] ∧ t.agenda = s.agenda
         else t.monitors = s.monitors ∧ isDue .weirPoll s.obj.1 0 t))) ∧
  (∀ s c, copyOf s (s.obj.1 / 4096) (s.obj.1 % 4096) s.obj.2 = some c → mayGoHome s c → refusedWb s (c.holder * 4) c = false →
    ∃ t, exec .writebackAtHome s = .next t ∧ broughtHome s t c ∧ onlyWoken s t ∧
      ∀ k, copyOf t c.holder c.ctx c.line = some k → k.dirty = [] ∧ k.bytes = c.bytes) ∧
  (∀ s c, s.obj.1 < 1024 → (s.copies.filter fun x => !x.remote && x.holder == s.obj.1 && x.line == s.obj.2) = [c] → c.quarantined = false →
    (c.dirty = [] → ∃ t, exec .evictionWriteback s = .next t ∧ t = { s with copies := t.copies } ∧ c ∉ t.copies) ∧
    (mayGoHome s c → refusedWb s (c.holder * 4) c = false →
      ∃ t, exec .evictionWriteback s = .next t ∧ broughtHome s t c ∧ onlyWoken s t ∧ copyOf t c.holder c.ctx c.line = none) ∧
    (c.dirty ≠ [] → wbReady s c = true → refusedWb s (c.holder * 4) c = true → ∃ t, exec .evictionWriteback s = .next t ∧ t.mem = s.mem ∧
      ((∃ e ∈ t.refused, e.copy = c) ∨ ∃ k ∈ t.copies, k = { c with quarantined := true }))) ∧
  (∀ (s : State) x, 1024 ≤ s.obj.1 → scOf s s.obj.2 = some x → x.slice = s.obj.1 - 1024 → pinned s x = false → lineOwned s s.obj.2 = false →
    tableWf zeros s.mt = true → tableWf zeros s.lineCode = true → ∃ t, exec .evictionWriteback s = .next t ∧ t.mem = s.mem ∧
      inSc t s.obj.2 = false ∧ (x.bulk = true → t.mt = s.mt) ∧
      (x.bulk = false → get0 t.mt x.slice = BitVec.ofNat 64 (max (get0 s.mt x.slice).toNat (get0 s.rts s.obj.2).toNat)) ∧
      (x.dirty ≠ 0 → get0 t.lineCode s.obj.2 = BitVec.ofNat 8 (if x.cls = 2 then 0 else x.cls + 1) ∧
        ∀ i < 128, x.valid.getLsbD (i / 16) = true → (x.cls ≠ 2 ∨ x.dirty.getLsbD (i / 32) = true) →
          homeByte t (128 * s.obj.2 + i) = homeByte s (128 * s.obj.2 + i)))

namespace Sys2Proof.Claims

open Sys2Proof Machine

/-- The fields of `pin`, and of `unpin` (R228). -/
abbrev pinFields (w : MWord) : Prop :=
  modOk {} w.pre = true ∧ (isS w.base.toNat = true ∨ w.base = 192) ∧ w.data.getLsbD 6 = false ∧ w.sc = 0 ∧ w.hint = 0 ∧ w.la = 0 ∧ w.w = 0
abbrev unpinFields (w : MWord) : Prop :=
  modOk {} w.pre = true ∧ (isS w.base.toNat = true ∨ w.base = 192) ∧ w.data = 0 ∧ w.idx = 0xFF ∧ w.sc = 0 ∧ w.hint = 0 ∧ w.la = 0 ∧ w.w = 1

/-- The address that they form. -/
def pinAddr (w : MWord) (s : State) : Nat := ((if w.base = 192 then 0 else sGet s.g (w.base.toNat - 128)) + w.ofs.signExtend 64 : DWord).toNat

/-- A page under class cls may be moved to a frame: no stored error is about, its lines are its context's and as it last wrote them or as they came, and the
old frame, the new one and the leaf's own bytes lie apart. -/
abbrev mayMove (s : State) (ctx cls : Nat) (x : Nat × Nat × Nat) (pa : Nat) : Prop :=
  let old := pteFrame x.2.1
  let here := fun (l : Nat) => old ≤ 128 * l ∧ 128 * l < old + x.2.2
  tableWf zeros s.mem = true ∧ s.flips = [] ∧ x.2.2 % 65536 = 0 ∧ pa % 65536 = 0 ∧ old % 65536 = 0 ∧ pteTier x.2.1 < 3 ∧
    disjoint old x.2.2 pa x.2.2 = true ∧ disjoint old x.2.2 x.1 8 = true ∧ disjoint pa x.2.2 x.1 8 = true ∧ tableWf zeros s.lineKey = true ∧
    tableWf zeros s.lineCode = true ∧ (∀ l, here l → get0 s.lineKey l = 0 ∨ (get0 s.lineKey l = keyMark s ctx ∧ (get0 s.lineCode l).toNat = codeOf cls)) ∧
    ∀ y ∈ s.sc, here y.line → y.ctx = ctx ∧ y.cls = cls

/-- The page of leaf x has gone to a frame of a tier under a class: its bytes stand there, its leaf and the frame table say so, and no other byte of memory
has changed (R267, R287, R290). The leaf keeps its class where the page moves under the class in force for it. -/
abbrev moved (s t : State) (ctx va : Nat) (x : Nat × Nat × Nat) (tier pa cls : Nat) : Prop :=
  let old := pteFrame x.2.1
  let n := x.2.2
  (∀ i < n, get0 t.mem (pa + i) = get0 s.mem (old + i)) ∧ readLe t.mem x.1 8 = newLeaf x.2.1 tier (pa / 65536) (if cls = frameCls s x.2.1 then pteCls x.2.1 else cls) % 2 ^ 64 ∧
    ⟨ctx, va / n * n, pa, n, cls, tier⟩ ∈ t.frames ∧
    ∀ a, (a < old ∨ old + n ≤ a) → (a < pa ∨ pa + n ≤ a) → (a < x.1 ∨ x.1 + 8 ≤ a) → get0 t.mem a = get0 s.mem a

/-- Lines that no window covers any more are no longer held, and no line of a slice has changed otherwise (R227). -/
abbrev letGo (s t : State) : Prop := t.sc = s.sc.map fun x => if x.held then { x with held := windowHas t x.ctx (x.slice / 64) x.va } else x

/-- The virtual line of an access of the core's teams, on the die that homes it: one in storage has no home. -/
abbrev homedOn (s : State) (core ctx line d : Nat) : Prop := ∃ r, lineReq s core ctx (128 * line) = some r ∧ storedLine r.1.line = false ∧ homeOf s r.1.dom r.1.line / 64 = d

end Sys2Proof.Claims

open Sys2Proof Sys2Proof.Machine Sys2Proof.Claims

/-- R227, R228, R267, R278, R286–R291: `pin` records a window on each die that homes a line of it, `unpin` takes windows away; pages move between tiers
and classes with their bytes, their leaf and their row of the frame table, into frames that are free, those of a FETCH under way not among them; windows fade, and let their lines go. The model's own choices in it, no
rule of the spec: the frame chosen (log entry 26), a page moves in one step (log entry 27), ways of a set (log entry 43), the page demoted (log entry
60), the class of initial data in storage (log entry 107). -/
def Obligations.WindowsAndPagesMoveBetweenTiers : Prop :=
  (∀ w s, mayExit s w.nxt = true → active s.g = 0 → (pinFields w → Runs (.pin w) (mLen w) w.nxt s s) ∧ (unpinFields w → Runs (.unpin w) (mLen w) w.nxt s s)) ∧
  (∀ w s, mayExit s w.nxt = true → active s.g ≠ 0 → pinFields w → reshaping s = false → (s.ctxs.any (·.id == (myTeam s).ctx)) = true →
    let len := (sGet s.g (w.data.toNat % 64)).toNat
    let lo := pinAddr w s / 128
    let hi := (pinAddr w s + len + 127) / 128
    let ctx := (myTeam s).ctx
    1 ≤ len → len ≤ 2 ^ 30 → checkBlock s { r := true } 0 (128 * lo) (128 * (hi - lo)) = .ok () →
    (∀ d, (∃ l, lo ≤ l ∧ l < hi ∧ homedOn s (myTeam s).core ctx l d) → ((ctxOf s ctx).pins.filter (·.die == d)).length < 16) →
    ∃ (t : State) (dies : List Nat), Runs (.pin w) (mLen w) w.nxt s t ∧ t = { s with ctxs := t.ctxs, agenda := s.agenda ++ [(.pinPromotion, ctx, lo)] } ∧
      ctxOf t ctx = { ctxOf s ctx with pins := (ctxOf s ctx).pins ++ dies.map fun d => ⟨d, lo, hi, w.idx.toNat, w.idx.toNat, true⟩ } ∧ dies.Nodup ∧
      ∀ d, d ∈ dies ↔ ∃ l, lo ≤ l ∧ l < hi ∧ homedOn s (myTeam s).core ctx l d) ∧
  (∀ w s, mayExit s w.nxt = true → active s.g ≠ 0 → unpinFields w → (s.ctxs.any (·.id == (myTeam s).ctx)) = true → ∃ t, Runs (.unpin w) (mLen w) w.nxt s t ∧
    t = { s with ctxs := t.ctxs, sc := t.sc } ∧ letGo s t ∧ ctxOf t (myTeam s).ctx = { ctxOf s (myTeam s).ctx with
      pins := (ctxOf s (myTeam s).ctx).pins.filter fun p => decide (pinAddr w s / 128 < p.lo) || decide (p.hi ≤ pinAddr w s / 128) }) ∧
  (∀ (s : State) va size cls tier low pa, size ≠ 0 → allocate s va size cls tier low = some pa →
    (∀ f ∈ s.frames, disjoint f.pa f.size pa size = true) ∧ (tier < 2 → pa % 2 ^ 30 = va % 2 ^ 30 / size * size) ∧
      (tier = 2 → (∀ q ∈ s.storage, q.op = 2 → disjoint (2 ^ 50 + q.host.toNat) (codeSize q.size) pa size = true) ∧
        ∀ q ∈ s.storage, q.op = 2 → ∃ f ∈ framesIn s 2 0, f.pa = 2 ^ 50 + q.host.toNat ∧ f.size = codeSize q.size)) ∧
  (∀ s x pa, leafAt s (s.obj.1 / 4) (65536 * s.obj.2) = some x →
    let ctx := s.obj.1 / 4
    let tier := s.obj.1 % 4
    let base := 65536 * s.obj.2 / x.2.2 * x.2.2
    (mayMove s ctx (frameCls s x.2.1) x pa → pteDm x.2.1 = true → tier < 2 → pteTier x.2.1 ≠ tier → (∀ n, poolTier s ctx base x.2.2 = some n → n = tier) → (tier = 1 → pteTier x.2.1 = 0 → windowed s ctx base x.2.2 = false) →
      allocate s (65536 * s.obj.2) x.2.2 (frameCls s x.2.1) tier .none = some pa →
      ∃ t, exec .pageMove s = .next t ∧ moved s t ctx (65536 * s.obj.2) x tier pa (frameCls s x.2.1)) ∧
    (∀ n, poolTier s ctx base x.2.2 = some n → n ≠ tier → exec .pageMove s = .next s) ∧
    (tier ≠ 3 → pteDm x.2.1 = true → frameCls s x.2.1 ≠ tier → mayMove s ctx (frameCls s x.2.1) x pa →
      pooled s ctx base x.2.2 = false → (∀ k ∈ s.tasks, k.lease = false) → frameCls s x.2.1 < 3 → allocate s (65536 * s.obj.2) x.2.2 tier (pteTier x.2.1) .none = some pa →
      ∃ t, exec .classChangeMigration s = .next t ∧ moved s t ctx (65536 * s.obj.2) x (pteTier x.2.1) pa tier)) ∧
  (∀ s x, leafAt s s.obj.1 s.obj.2 = some x → pteDm x.2.1 = true →
    let base := s.obj.2 / x.2.2 * x.2.2
    (∀ pa, pteTier x.2.1 = 2 → mayMove s s.obj.1 (frameCls s x.2.1) x pa → pooled s s.obj.1 base x.2.2 = false →
      allocate s s.obj.2 x.2.2 (frameCls s x.2.1) 0 .stays = some pa →
      ∃ t, exec .pagePromotion s = .next t ∧ moved s t s.obj.1 s.obj.2 x 0 pa (frameCls s x.2.1)) ∧
    (∀ pa tier, pteTier x.2.1 = 2 → mayMove s s.obj.1 (frameCls s x.2.1) x pa → poolTier s s.obj.1 base x.2.2 = some tier →
      allocate s s.obj.2 x.2.2 (frameCls s x.2.1) tier .none = some pa →
      ∃ t, exec .pagePromotion s = .next t ∧ moved s t s.obj.1 s.obj.2 x tier pa (frameCls s x.2.1)) ∧
    (∀ pa, pteTier x.2.1 = 3 → (∀ q ∈ s.storage, q.op ≠ 2) → allocate s s.obj.2 x.2.2 (storedCls s (x.2.1 / 65536 % 2 ^ 36) x.2.1) 2 .none = some pa →
      ∃ t q, exec .pagePromotion s = .next t ∧ t.storage = s.storage ++ [q] ∧ q.op = 2 ∧ q.ctx = s.obj.1 ∧ q.va = base ∧ q.host = BitVec.ofNat 64 (pa % 2 ^ 49) ∧
        isDue (.storageRequestWrite q.op q.size q.host q.handle) 0 0 t ∧ t.mem = s.mem)) ∧
  (∀ s f x pa, victim s s.obj.2 (s.obj.1 % 8) = some f → leafAt s f.ctx f.va = some x → mayMove s f.ctx (frameCls s x.2.1) x pa →
    let die := s.obj.1 % 8
    let tier := s.obj.2
    let next := if tier = 0 ∧ Config.moduleForm then 1 else 2
    tier < 2 → (regGet s (0x033 + tier) die).getLsbD 31 = true → marksOk s tier die 0 (lowMark s tier die) = false → allocate s f.va f.size f.cls next .now = some pa →
    demotable s f = true ∧ mapped s f = true ∧
      (∀ y ∈ s.frames, y.inTier tier die = true → mapped s y = true → demotable s y = true → Machine.accesses s f ≤ Machine.accesses s y) ∧
      ∃ t, exec .demotion s = .next t ∧ moved s t f.ctx f.va x next pa f.cls) ∧
  (∀ s f x pa, (s.frames.find? fun f => f.ctx == s.obj.1 && f.va == s.obj.2 && f.tier == 1) = some f → 64 < Machine.accesses s f →
    pooled s f.ctx f.va f.size = false → leafAt s f.ctx f.va = some x → allocate s f.va f.size f.cls 0 .now = some pa → mayMove s f.ctx (frameCls s x.2.1) x pa →
    ∃ t, exec .hotPagePromotion s = .next t ∧ moved s t f.ctx f.va x 0 pa f.cls) ∧
  (∀ s, exec .accessCountInterval s = .next { s with counts := [] }) ∧
  (∀ s, ∃ t, exec .windowFade s = .next t ∧ t = { s with ctxs := t.ctxs, sc := t.sc } ∧ letGo s t ∧ ∀ c, (∃ x ∈ s.ctxs, x.id = c) → ∀ d, (ctxOf t c).pins.filter (·.die == d) =
    (if d = s.obj.1 then ((ctxOf s c).pins.filter (·.die == d)).filterMap fun p =>
        if p.hit then some { p with hit := false, fade := p.reload } else if p.reload = 0 then some p else if p.fade ≤ 1 then none else some { p with fade := p.fade - 1 }
     else (ctxOf s c).pins.filter (·.die == d))) ∧
  (∀ (s : State) (p : Pin), p ∈ (ctxOf s s.obj.1).pins → p.lo = s.obj.2 → (∀ q ∈ (ctxOf s s.obj.1).pins, q.lo = s.obj.2 → q.hi = p.hi) →
    ((∀ v x, leafAt s s.obj.1 (65536 * v) = some x → pteTier x.2.1 ≠ 1) → s.flips = [] → s.lineKey = [] → tableWf zeros s.mem = true →
      (∀ h, (s.sc.filter (·.slice == h)).length + (p.hi - p.lo) ≤ localWays s h) →
      (∀ l r, p.lo ≤ l → l < p.hi → lineReq s 4096 s.obj.1 (128 * l) = some r → lineFree s r.1 = true ∧ checkLine s r.1.cls r.1.line r.1.dm = 0) →
      ∃ t, exec .pinPromotion s = .next t ∧ (∀ a, get0 t.mem a = get0 s.mem a) ∧
        ∀ l r, p.lo ≤ l → l < p.hi → lineReq s 4096 s.obj.1 (128 * l) = some r → inSc t r.1.line = true) ∧
    (∀ x pa, p.hi = p.lo + 1 → leafAt s s.obj.1 (65536 * (p.lo / 512)) = some x → pteDm x.2.1 = true → pteTier x.2.1 = 1 →
      pooled s s.obj.1 (65536 * (p.lo / 512) / x.2.2 * x.2.2) x.2.2 = false → allocate s (65536 * (p.lo / 512)) x.2.2 (frameCls s x.2.1) 0 .none = some pa →
      ∃ t, exec .pinPromotion s = .next t ∧ ⟨s.obj.1, 65536 * (p.lo / 512) / x.2.2 * x.2.2, pa, x.2.2, frameCls s x.2.1, 0⟩ ∈ t.frames))

namespace Sys2Proof.Claims

open Sys2Proof Machine

/-- The system registers, and the tables that stand beside them, are canonical. -/
abbrev regsWf (s : State) : Prop := tableWf regReset s.sysregs = true ∧ tableWf (tget regReset s.sysregs) s.staged = true

/-- Only register n of an instance differs. -/
abbrev otherRegs (s t : State) (n i : Nat) : Prop := ∀ m j, j < 65536 → (m ≠ n ∨ j ≠ i) → regGet t m j = regGet s m j

/-- A pool write may enable its pool (R269, R385): t is the state with the register written. -/
abbrev mayEnablePool (s t : State) (inst : Nat) (val : DWord) : Prop :=
  let ctx := inst / 16
  let n := inst % 16
  let cls := val.toNat / 2 ^ 59 % 2 ^ 2
  val.toNat / 2 ^ 61 % 2 ^ 2 ≠ 3 ∧ cls ≠ 3 ∧ poolLen t ctx n ≠ 0 ∧ poolBusy s ctx n = false ∧ (val.getLsbD 58 = true → Config.moduleForm = true) ∧
    (∀ a ∈ poolPages t ctx n, ∃ e z, (walk t ctx a).1 = .ok (e, z) ∧ pteR e = true ∧ pteW e = true ∧ pteCls e = cls) ∧
    ∀ m < 16, m ≠ n → poolOn s ctx m = true → disjoint (poolBase t ctx n) (poolLen t ctx n) (poolBase s ctx m) (poolLen s ctx m) = true

/-- Host addresses of a queue, or of the storage ring, lie apart in space 2 (R362, R374). -/
abbrev apart3 (base len tail head : Nat) : Prop :=
  spaceOf base = 2 ∧ spaceOf tail = 2 ∧ spaceOf head = 2 ∧ tail ≠ head ∧ disjoint base len tail 128 = true ∧ disjoint base len head 128 = true

/-- One storage request has been acknowledged as done with a word dw3, and u is the state with the acknowledgement counted (R374). -/
abbrev acknowledged (s : State) (q : StorageReq) (dw3 : Nat) : Prop :=
  let c := (regGet s 0x059 0).toNat
  let ack := (regGet s 0x05B 0).toNat % 2 ^ 32
  c.testBit 63 = true ∧ regsWf s ∧ leNat (homeBytes s (regGet s 0x05A 0).toNat 8) % 2 ^ 32 = (ack + 1) % 2 ^ 32 ∧
    (regGet s 0x05B 0).toNat / 2 ^ 32 % 2 ^ 32 ≠ ack ∧ s.storage.find? (·.n == some ack) = some q ∧
    dw3 = leNat (homeBytes s ((regGet s 0x058 0).toNat + 64 * (ack % 2 ^ (c / 2 ^ 12 % 2 ^ 4)) + 24) 8)

end Sys2Proof.Claims

open Sys2Proof Sys2Proof.Machine Sys2Proof.Claims

/-- R20, R21, R268–R270, R283, R284, R293, R294, R362, R374: writes of the registers that start work of the device, and that work: remote ways,
translation invalidation, the reshape, queues, pools and the storage ring. The model's own choices in it, no rule of the spec: stored pages (log entry
25), ignored writes (log entry 39), FREE of a disabled pool (log entry 41), memory times at a reshape (log entry 45), ways (log entry 46), enabling a
queue (log entry 58), refused staging (log entry 84), the moment at which an acknowledged page's data pass (log
entry 115). -/
def Obligations.RegistersStartTheirDeviceWork : Prop :=
  (∀ l s, exec (.stackLoadReport l) s = .next { s with reports := l }) ∧
  (∀ slice (val : Word) s, slice < 512 → regsWf s →
    let n := val.toNat % 2 ^ 4
    (((regGet s 0x021 slice).getLsbD 31 = true ∨ 8 < n) → exec (.rwrWrite slice val) s = .next s) ∧
    ((regGet s 0x021 slice).getLsbD 31 = false → n ≤ 8 → ∃ t, exec (.rwrWrite slice val) s = .next t ∧ t.mem = s.mem ∧ otherRegs s t 0x021 slice ∧
      regGet t 0x021 slice = BitVec.ofNat 64 (2 ^ 31 + n) ∧ isDue .rwrChangeComplete slice 0 t ∧
      (∀ c ∈ t.copies, c ∈ s.copies ∧ (c.remote = true → c.holder = slice → 16 - n ≤ c.slot)) ∧
      ((s.sc.map (·.line)).Nodup → ∀ x ∈ t.sc, x.slice = slice → 16 - n ≤ x.way → pinned s x = true ∨ lineOwned s x.line = true))) ∧
  (∀ s, s.obj.1 < 512 → regsWf s → (s.sc.map (·.line)).Nodup →
    let left := fun (x : ScLine) => x ∈ s.sc ∧ x.slice = s.obj.1 ∧ 16 - (regGet s 0x021 s.obj.1).toNat % 2 ^ 4 ≤ x.way
    ((∀ x, left x → pinned s x = false ∧ lineOwned s x.line = false) → ∃ t, exec .rwrChangeComplete s = .next t ∧ t.mem = s.mem ∧ otherRegs s t 0x021 s.obj.1 ∧
      regGet t 0x021 s.obj.1 = regGet s 0x021 s.obj.1 &&& ~~~(0x80000000 : DWord) ∧ ∀ x ∈ t.sc, ¬ left x) ∧
    ((∃ x, left x ∧ pinned s x = false ∧ lineOwned s x.line = true) → ∃ t, exec .rwrChangeComplete s = .next t ∧ isDue .rwrChangeComplete s.obj.1 s.obj.2 t ∧
      regGet t 0x021 s.obj.1 = regGet s 0x021 s.obj.1)) ∧
  (∀ (val : DWord) s, regsWf s → (regGet s 0x039 0).getLsbD 0 = false → ∃ t, exec (.tinvWrite val) s = .next t ∧ t.mem = s.mem ∧ (regGet t 0x039 0).getLsbD 0 = true ∧
    isDue .tinvComplete 0 0 t ∧ ∀ e, e ∈ t.tlb ↔ e ∈ s.tlb ∧ tinvCovers val.toNat e.ctx e.va e.size = false) ∧
  (∀ s, regsWf s → (regGet s 0x039 0).getLsbD 0 = true →
    let v := (regGet s 0x038 0).toNat
    (tinvPending v s = true → exec .tinvComplete s = later .tinvComplete s) ∧ (
    (∀ o ∈ s.ops, (o.kind = .fence → ∀ r ∈ o.lines, r.granted = true ∨ tinvCovers v o.ctx (128 * r.va) 128 = false) ∧
      (o.kind ≠ .fence → ∀ l ∈ o.lanes, tinvCovers v o.ctx l.va.toNat l.size = false)) →
    (∀ q ∈ s.contribs, q.arrived = true ∨ ∀ e ∈ q.elems, tinvCovers v q.ctx e.va.toNat (q.width / 8) = false) →
    (∀ m ∈ s.merges, m.isOpen = true ∨ ∀ r ∈ m.lines, tinvCovers v m.ctx (128 * r.va) 128 = false) →
    (∀ r ∈ s.relays, ∀ p ∈ relayMemory s r, tinvCovers v r.ctx p.1 p.2 = false) →
    (∀ m ∈ s.mmas, m.computed = true ∨ ∀ p ∈ tileMemory m, tinvCovers v (teamOf s m.team).ctx p.1 p.2 = false) →
    ∃ t, exec .tinvComplete s = .next t ∧ t = { s with sysregs := t.sysregs } ∧ regGet t 0x039 0 = 0 ∧ otherRegs s t 0x039 0)) ∧
  (∀ s e z, let core := s.obj.1 / 64
    let ctx := s.obj.1 % 64
    (∀ x ∈ s.tlb, x.core ≠ core) → (walk s ctx s.obj.2).1 = .ok (e, z) →
    ∃ t, exec .tlbWalk s = .next t ∧ tlbOf t core ctx s.obj.2 = some ⟨core, ctx, s.obj.2 / z * z, z, BitVec.ofNat 64 e⟩ ∧ t.g = s.g ∧ t.gangs = s.gangs ∧ t.sysregs = s.sysregs) ∧
  (∀ (val : Word) s, regsWf s → (s.sc.map (·.line)).Nodup →
    (val.getLsbD 31 = false ∨ reshaping s = true → exec (.ircReshape val) s = .next s) ∧
    (val.getLsbD 31 = true → reshaping s = false → stagingOk s = false → exec (.ircReshape val) s = .next (regSet s 0x03A 0 0x10000000)) ∧
    (val.getLsbD 31 = true → reshaping s = false → stagingOk s = true → ∃ t, exec (.ircReshape val) s = .next t ∧ t.mem = s.mem ∧ t.staged = [] ∧
      (∀ n i, (n = 0x03B ∨ n = 0x03C) → i < 65536 → regGet t n i = stagedGet s n i) ∧
      (∀ x ∈ t.sc, x.slice ≠ homeOf t x.dom x.line → x.dirty = 0 ∧ isDue .reshapeHandoff x.line 0 t) ∧
      (∀ m ∈ t.monitors, strayed t m = true → isDue .reshapeHandoff (m.pa / 128) 0 t) ∧
      (reshaping t = true ↔ (∃ x ∈ t.sc, x.slice ≠ homeOf t x.dom x.line) ∨ ∃ m ∈ t.monitors, strayed t m = true))) ∧
  (∀ s x, reshaping s = true → regsWf s → scOf s s.obj.1 = some x →
    let h := homeOf s x.dom s.obj.1
    x.slice ≠ h → lineOwned s s.obj.1 = false → (s.sc.filter (·.slice == h)).length < localWays s h →
    ∃ t y, exec .reshapeHandoff s = .next t ∧ t.mem = s.mem ∧ t.wts = s.wts ∧ t.rts = s.rts ∧
      scOf t s.obj.1 = some y ∧ y = { x with slice := h, dirty := 0, way := y.way, held := y.held }) ∧
  (∀ s, reshaping s = true → (lineOwned s s.obj.1 = true → exec .reshapeHandoff s = later .reshapeHandoff s) ∧
    (lineOwned s s.obj.1 = false → ∃ t, exec .reshapeHandoff s = .next t ∧ t.mem = s.mem ∧ ∀ m ∈ s.monitors, m.pa / 128 = s.obj.1 → strayed s m = true →
      { m with slice := homeOf s m.dom s.obj.1 } ∈ t.monitors ∨ isDue .weirPoll m.gang 0 t)) ∧
  (∀ q (val : DWord) s, q < 512 → regsWf s →
    let base := (regGet s 0x040 q).toNat
    let tail := (regGet s 0x041 q).toNat
    let n := val.toNat % 2 ^ 4
    (qOn s q = true → ∃ t, exec (.queueEnable q val) s = .next t ∧ otherRegs s t 0x043 q ∧
      regGet t 0x043 q = (regGet s 0x043 q &&& ~~~(0x80FF000000000000 : DWord)) ||| (val &&& 0x80FF000000000000)) ∧
    (qOn s q = false → val.getLsbD 63 = true → n ≤ 12 → apart3 base (1024 * 2 ^ n) tail (regGet s 0x042 q).toNat →
      ∃ t, exec (.queueEnable q val) s = .next t ∧ t.mem = s.mem ∧ qOn t q = true ∧ regGet t 0x043 q = val &&& 0xFFFF00000000000F ∧
        qTail t q = leNat (homeBytes s tail 4) % 2 ^ 32 ∧ qHead t q = qTail t q ∧ (val.getLsbD 56 = false → tail / 128 ∈ t.hostLines))) ∧
  (∀ inst (val : DWord) s, inst < 1024 → regsWf s → poolOn s (inst / 16) (inst % 16) = false → val.getLsbD 63 = true → (s.ctxs.any (·.id == inst / 16)) = true →
    let v := val &&& 0xFC000000FFFFFFFF
    let u := regSet s 0x019 inst v
    mayEnablePool s u inst val → ∃ t, exec (.poolEnable inst val) s = .next t ∧ t.mem = s.mem ∧ poolOn t (inst / 16) (inst % 16) = true ∧ regGet t 0x019 inst = v ∧
      takenOf t (inst / 16) (inst % 16) = [] ∧
      regGet t 0x01A inst = BitVec.ofNat 64 (min (poolLen u (inst / 16) (inst % 16) / poolChunk u (inst / 16) (inst % 16)) (2 ^ 32 - 1)) ∧
      ∀ a ∈ poolPages u (inst / 16) (inst % 16), isDue .pageMove (inst / 16 * 4 + (if val.getLsbD 58 then 1 else 0)) (a / 65536) t) ∧
  (∀ inst (val : DWord) s, inst < 1024 → regsWf s → val.getLsbD 63 = false → ∃ t, exec (.poolDisable inst val) s = .next t ∧ t.mem = s.mem ∧
    poolOn t (inst / 16) (inst % 16) = false ∧ regGet t 0x019 inst = val &&& 0x7C000000FFFFFFFF ∧ t.g = s.g ∧ t.gangs = s.gangs) ∧
  (∀ (val : DWord) s, regsWf s →
    let ack := (regGet s 0x05A 0).toNat
    let base := (regGet s 0x058 0).toNat
    ((regGet s 0x059 0).getLsbD 63 = false → val.getLsbD 63 = true → val.toNat / 2 ^ 12 % 2 ^ 4 ≤ 12 → spaceOf base = 2 → spaceOf ack = 2 →
      spaceOf (regGet s 0x05C 0).toNat = 2 → disjoint base (64 * 2 ^ (val.toNat / 2 ^ 12 % 2 ^ 4)) ack 128 = true →
      ∃ t, exec (.storageRingEnable val) s = .next t ∧ t.mem = s.mem ∧ regGet t 0x059 0 = val &&& 0x800000000000FFFF ∧ ack / 128 ∈ t.hostLines ∧ isDue .storageAck 0 0 t ∧ otherRegs s t 0x059 0) ∧
    ((regGet s 0x059 0).getLsbD 63 = true → ∃ t, exec (.storageRingEnable val) s = .next t ∧ otherRegs s t 0x059 0 ∧
      regGet t 0x059 0 = (regGet s 0x059 0 &&& ~~~(0x8000000000000800 : DWord)) ||| (val &&& 0x8000000000000800))) ∧
  (∀ op size (host handle : DWord) q s,
    let c := (regGet s 0x059 0).toNat
    let prod := (regGet s 0x05B 0).toNat / 2 ^ 32 % 2 ^ 32
    let ack := (regGet s 0x05B 0).toNat % 2 ^ 32
    let a := (regGet s 0x058 0).toNat + 64 * (prod % 2 ^ (c / 2 ^ 12 % 2 ^ 4))
    s.storage.find? (fun q => q.n.isNone && q.op == op && q.size == size && q.host == host && q.handle == handle) = some q → op < 256 → size < 256 →
    c.testBit 63 = true → (prod + 2 ^ 32 - ack) % 2 ^ 32 < 2 ^ (c / 2 ^ 12 % 2 ^ 4) → a % 64 = 0 → s.flips = [] → tableWf zeros s.mem = true → regsWf s →
    ∃ t, exec (.storageRequestWrite op size host handle) s = .next t ∧ (regGet t 0x05B 0).toNat / 2 ^ 32 = (prod + 1) % 2 ^ 32 ∧
      (regGet t 0x05B 0).toNat % 2 ^ 32 = ack ∧ homeBytes t a 64 = leBytes 8 (op + 256 * size) ++ leBytes 8 host.toNat ++ leBytes 8 handle.toNat ++ leBytes 8 0 ++
        List.replicate 32 0 ∧ { q with n := some prod } ∈ t.storage ∧ t.msgs = (if c.testBit 11 then s.msgs ++ [c % 2048] else s.msgs)) ∧
  (∀ s q dw3, acknowledged s q dw3 →
    let h := dw3 % 2 ^ 36
    let pa := 2 ^ 50 + q.host.toNat
    let size := if q.size = 0 then 2 ^ 16 else if q.size = 1 then 2 ^ 21 else 2 ^ 30
    (q.op = 3 → ∃ t, exec .storageAck s = .next t ∧ t.mem = s.mem ∧ t.storage = s.storage.erase q ∧ ∀ x ∈ t.stored, x.handle ≠ q.handle.toNat) ∧
    (∀ ea e z, leafAt s q.ctx q.va = some (ea, e, z) → dw3.testBit 63 = false → s.flips = [] → tableWf zeros s.mem = true → disjoint pa size ea 8 = true →
      (q.op = 1 → pteTier e = 2 → pteFrame e = pa → (∀ c ∈ s.copies, pa ≤ 128 * c.line → 128 * c.line < pa + size → c.dirty = []) → ∃ t x, exec .storageAck s = .next t ∧ t.storage = s.storage.erase q ∧
        readLe t.mem ea 8 = newLeaf e 3 h (pteCls e) % 2 ^ 64 ∧ t.stored.find? (·.handle == h) = some x ∧ x.cls = frameCls s e ∧ (∀ i < size, get0 x.bytes i = get0 s.mem (pa + i)) ∧
        (∀ f ∈ t.frames, f.ctx ≠ q.ctx ∨ f.va ≠ q.va) ∧ ∀ f ∈ t.tlb, f.ctx ≠ q.ctx ∨ f.va ≠ q.va) ∧
      (∀ x, q.op = 2 → pteTier e = 3 → s.stored.find? (·.handle == q.handle.toNat) = some x → x.flips = [] → (∀ b ∈ x.bytes, b.1 < size) → tableWf zeros x.bytes = true →
        ∃ t, exec .storageAck s = .next t ∧ (∀ i < size, get0 t.mem (pa + i) = get0 x.bytes i) ∧
          readLe t.mem ea 8 = newLeaf e 2 (pa / 65536) (pteCls e) % 2 ^ 64 ∧ ⟨q.ctx, q.va, pa, z, x.cls, 2⟩ ∈ t.frames ∧ isDue .pagePromotion q.ctx q.va t)))

namespace Sys2Proof.Claims

open Sys2Proof Machine

/-- A record has joined Headgate's log at its place, records of one cc by location, and nothing else has changed; a full log loses its first (R378). -/
abbrev logged (s t : State) (kind loc data : Nat) : Prop :=
  let log := insertLog ⟨s.clk, kind, BitVec.ofNat 64 loc, BitVec.ofNat 64 data⟩ s.hg.log
  t = { s with hg := t.hg } ∧ t.hg = { s.hg with log := t.hg.log, logFirst := t.hg.logFirst, lost := t.hg.lost } ∧
    (s.hg.log.length < 32768 → t.hg.log = log ∧ t.hg.logFirst = s.hg.logFirst ∧ t.hg.lost = s.hg.lost) ∧
    (32768 ≤ s.hg.log.length → t.hg.log = log.drop 1 ∧ t.hg.logFirst = s.hg.logFirst + 1 ∧ t.hg.lost = s.hg.lost + 1)

/-- The given bytes of a line's part over those that stand there. -/
def laid (m : Table 8) (pa : Nat) (bs : List (Option Byte)) : Table 8 := writeBytes m pa (bs.mapIdx fun i b => b.getD (get0 m (pa + i)))

/-- An outside access finds its block in its slice, free to be touched; n bytes at pa lie in the line. -/
abbrev mayTouch (s : State) (ctx : Nat) (r : LineReq) (pa n : Nat) (wr : Bool) : Prop :=
  outsideWaits s ctx r pa n wr = false ∧ Machine.holds s (ofBlock r pa n) = true ∧ r.line = pa / 128 ∧ pa % 128 + n ≤ 128 ∧ tableWf zeros s.mem = true ∧ tableWf zeros s.wts = true ∧
    tableWf zeros s.rts = true ∧ rtsOf s r.dom r.line + 1 < 2 ^ 64

/-- A store from outside has taken the line's next time, and gangs have at most been woken (R188). -/
abbrev storedOutside (s t : State) (r : LineReq) : Prop :=
  wtsOf t r.dom r.line = rtsOf s r.dom r.line + 1 ∧ rtsOf t r.dom r.line = rtsOf s r.dom r.line + 1 ∧ onlyWoken s t

end Sys2Proof.Claims

open Sys2Proof Sys2Proof.Machine Sys2Proof.Claims

/-- R188, R356–R360, R363, R373: a window admits the accesses its registers and the page allow, the rest is refused and logged; the host's and the peers'
reads answer the bytes at the home and take no lease, their stores take the line's next time; snoops take lines of host memory away or answer their
bytes, those of device-managed pages encrypted (R296); a reply's meta-data are zero. The model's own choices in it, no rule of the
spec: host memory (log entry 8), log records (log entry 18), configuration space (log entry 21), handlers of peers (log entry 65), peer windows (log entry 66), charging (log entry 67), copies at host stores (log entry 68), initial data and what others
write of a device-managed page (log entry 107), pages in storage (log entry 108), the answer to an unsupported request (log entry 114). -/
def Obligations.HostAndPeersReachMemory : Prop :=
  (∀ s peer rd wr off ctx r pa, windowAt s peer rd wr off = some (ctx, r, pa) →
    let c := regGet s 0x049 (off / 2 ^ 40)
    let va := regGet s 0x048 (off / 2 ^ 40) + BitVec.ofNat 64 (off % 2 ^ 40)
    off / 2 ^ 40 < 16 ∧ c.getLsbD 63 = true ∧ (if peer then c.getLsbD 55 = true else c.getLsbD 56 = true) ∧ off % 2 ^ 40 < 65536 * (c.toNat % 2 ^ 25) ∧
      ctx = c.toNat / 2 ^ 57 % 2 ^ 6 ∧ canonical va = true ∧ (ctxOf s ctx).key = true ∧ ∃ e z, (walk s ctx va.toNat).1 = .ok (e, z) ∧ pteDm e = true ∧ inStorage e = false ∧
      (rd = true → pteR e = true) ∧ (wr = true → pteW e = true) ∧ pa = pteFrame e + va.toNat % z ∧ r.line = pa / 128 ∧ r.va = va.toNat / 128) ∧
  (∀ s, windowAt s false true false (s.obj.1 / 64 * 64) = none → ∃ u, logged s u 4 (s.obj.1 / 64 * 64) 0 ∧
    exec .memrd s = .next { u with answers := u.answers ++ [⟨none, 0⟩] }) ∧
  (∀ a bs s, windowAt s false false true a = none → ∃ u, logged s u 4 a 0 ∧ exec (.memwr a bs) s = .next u) ∧
  (∀ a bs s, windowAt s false false true a = none → ∃ u, logged s u 4 a 0 ∧ exec (.memwrptl a bs) s = .next u) ∧
  (∀ s ctx r pa, windowAt s false true false (s.obj.1 / 64 * 64) = some (ctx, r, pa) → mayTouch s ctx r pa 64 false →
    ∃ t, exec .memrd s = .next t ∧ t.answers = s.answers ++ [⟨some (readBytes s.mem pa 64), 0⟩] ∧ t.mem = s.mem ∧ t.wts = s.wts ∧ t.rts = s.rts ∧ t.g = s.g ∧ t.gangs = s.gangs) ∧
  (∀ s a bs ctx r pa, windowAt s false false true a = some (ctx, r, pa) → mayTouch s ctx r pa bs.length true → bs ≠ [] →
    ∃ t, exec (.memwr a bs) s = .next t ∧ t.mem = writeBytes s.mem pa bs ∧ storedOutside s t r) ∧
  (∀ s a bs ctx r pa, windowAt s false false true a = some (ctx, r, pa) → mayTouch s ctx r pa bs.length true →
    ∃ t, exec (.memwrptl a bs) s = .next t ∧ t.mem = laid s.mem pa bs ∧ storedOutside s t r) ∧
  (∀ s port a op w ty g0 g1 bs,
    let run := exec (.peerAccess port a op w ty g0 g1 bs) s
    let n := if 0xB6 ≤ op ∧ op ≤ 0xC2 then 2 ^ w else bs.length
    (windowAt s true (op != 1) (op != 0) a = none → ∃ u, logged s u 4 a 0 ∧ run = .next { u with answers := u.answers ++ [⟨none, 0⟩] }) ∧
    (∀ ctx r pa, windowAt s true (op != 1) (op != 0) a = some (ctx, r, pa) → mayTouch s ctx r pa n (op != 0) →
      (op = 0 → ∃ t, run = .next t ∧ t.answers = s.answers ++ [⟨some (readBytes s.mem pa n), 0⟩] ∧ t.mem = s.mem ∧ t.wts = s.wts ∧ t.rts = s.rts) ∧
      (op = 1 → ∃ t, run = .next t ∧ t.mem = laid s.mem pa bs ∧ storedOutside s t r) ∧
      (0xB6 ≤ op → op ≤ 0xC2 → a % n = 0 →
        let x := atomFun op ty (8 * n) (readLe s.mem pa n) g0.toNat g1.toNat
        ∃ t, run = .next t ∧ t.mem = writeLe s.mem pa n x.1 ∧ t.answers = s.answers ++ [⟨some (leBytes n x.2), 0⟩] ∧ storedOutside s t r))) ∧
  (∀ reg s, exec (.configRequest reg none) s = .next { s with answers := s.answers ++ [⟨some (leBytes 4 (Config.configSpace reg).toNat), 0⟩] }) ∧
  (∀ reg v s, exec (.configRequest reg (some v)) s = .next s) ∧
  (∀ off s, exec (.msixTableAccess off none) s = .next { s with answers := s.answers ++ [⟨some (leBytes 4 (get0 s.msix (off / 4)).toNat), 0⟩] }) ∧
  (∀ off (v : Word) s, tableWf zeros s.msix = true → ∃ t, exec (.msixTableAccess off (some v)) s = .next t ∧ t = { s with msix := t.msix } ∧
    get0 t.msix (off / 4) = v ∧ ∀ i, i ≠ off / 4 → get0 t.msix i = get0 s.msix i) ∧
  (∀ s, ∃ u, logged s u 5 s.obj.1 0 ∧ exec .unsupportedRequest s = .next { u with answers := u.answers ++ [⟨some (Config.unsupportedReply s.obj.1), 0⟩] }) ∧
  (∀ s, s.obj.1 / 2 ^ 49 % 2 ^ 3 = 2 →
    let line := s.obj.1 / 128
    let mine := s.hostStores.filter fun e => e.1 / 128 == line
    ((lineOwned s line = true ∨ ∃ e ∈ mine, lockedAt s e.1 e.2.length = true) → exec .snpinv s = .next (due .snpinv s.obj.1 s s.obj.2)) ∧
    (lineOwned s line = false → (∀ e ∈ mine, lockedAt s e.1 e.2.length = false) → ∃ t, exec .snpinv s = .next t ∧ inSc t line = false ∧ line ∉ t.hostLines ∧
      t.hostStores = s.hostStores.filter (fun e => e.1 / 128 != line) ∧ (mine = [] → t.mem = s.mem) ∧
      (∀ e, mine = [e] → e.2 ≠ [] → e.1 % 128 + e.2.length ≤ 128 → get0 s.lineKey line = 0 → inSc s line = false → (∀ m ∈ s.monitors, m.pa / 128 ≠ line) →
        t.mem = writeBytes s.mem e.1 e.2) ∧
      (mine = [] → line ∈ s.hostLines →
        (∀ q < 512, qOn s q = true → qDev s q = false → (regGet s 0x041 q).toNat / 128 = line → isDue .queueTailUpdate q 0 t) ∧
        ((regGet s 0x059 0).getLsbD 63 = true → (regGet s 0x05A 0).toNat / 128 = line → isDue .storageAck 0 0 t)))) ∧
  (∀ s, s.obj.1 / 2 ^ 49 % 2 ^ 3 = 2 → lineOwned s (s.obj.1 / 64 * 64 / 128) = false →
    let pa := s.obj.1 / 64 * 64
    (∃ t, exec .snpdata s = .next t ∧ t.answers = s.answers ++ [⟨some (snooped s pa), 0⟩] ∧ t.mem = s.mem ∧ t.g = s.g ∧ t.gangs = s.gangs ∧
      ∀ x, scOf t (pa / 128) = some x → x.dirty = 0) ∧
    exec .snpcur s = .next { s with answers := s.answers ++ [⟨some (snooped s pa), 0⟩] }) ∧
  (∀ (s : State) pa, pa % 64 = 0 →
    let line := pa / 128
    let all := readBytes s.mem (128 * line) 128
    let part := fun (f : Nat → Byte) => (((List.range 128).map f).drop (pa % 128)).take 64
    ((get0 s.lineKey line = 0 ∨ get0 s.lineKey line = rawMark) → (∀ x, scOf s line = some x → x.dm = false) → snooped s pa = homeBytes s pa 64) ∧
    (∀ x, scOf s line = some x → x.valid = 0xFF → x.dm = true → x.dirty ≠ 0 → keyMark s x.ctx ≠ 0 → keyMark s x.ctx ≠ rawMark →
      snooped s pa = part (Config.cipher (keyMark s x.ctx).toNat line all)) ∧
    (get0 s.lineKey line ≠ 0 → get0 s.lineKey line ≠ rawMark → scOf s line = none →
      snooped s pa = part fun i => Config.cipher (get0 s.lineKey line).toNat line all i ^^^ get0 s.flips (256 * line + i)))

namespace Sys2Proof.Claims

open Sys2Proof Machine

/-- The mailbox has finished a command with a result: READY, not BUSY, and the result (R375); a0 of ARG is a value. -/
abbrev finished (r : Nat) (t : State) : Prop := t.hg.sts = BitVec.ofNat 64 (2 ^ 63 + r)
abbrev a0 (v : Nat) (t : State) : Prop := readLe t.hg.arg 0 8 = v % 2 ^ 64

/-- Only Headgate has changed. -/
abbrev headgateOnly (s t : State) : Prop := t = { s with hg := t.hg }

/-- Headgate's lists name its two banks. -/
abbrev banksOk (h : Headgate) : Prop := h.bank < 2 ∧ h.version.length = 2 ∧ h.valid.length = 2 ∧ h.image.length = 2

/-- Mailbox commands. -/
def mailCommands (c d : Nat) (b : Bool) (bs : List Byte) : List Instr :=
  [.ctxCreate c b, .ctxDestroy, .ctxSave, .ctxLoad c d b, .logRead, .fwStage c d bs, .fwActivate, .attest bs, .mailboxUnknownCommand]

/-- The records of the log with numbers from `first` on, at most `count`. -/
def asked (h : Headgate) (first count : Nat) : List LogRec :=
  (h.log.zipIdx.filter fun r => decide (first ≤ h.logFirst + r.2) && decide (h.logFirst + r.2 < first + count)).map (·.1)

end Sys2Proof.Claims

open Sys2Proof Sys2Proof.Machine Sys2Proof.Claims

/-- R257–R262, R361, R375–R384: the mailbox takes a command when it is ready, and each command leaves its result; contexts are made, their registers at their reset values, and destroyed, cores'
banks saved and loaded, firmware staged and selected, the log read, a report made; power is shared, energy charged, limits logged; soft errors change
stored bytes or charge the gang that reads them; bring-up resets the package, and the loss of power stops it. The model's own choices in it, no rule
of the spec: firmware banks (log entry 10), codes beyond eight bytes (log entry 16), soft errors (log entry 17), log records (log entry 18), power and
energy (log entries 19, 129), images and reports (log entry 20), CTX_DESTROY (log entry 69), what bring-up leaves (log entry 72). -/
def Obligations.HeadgateAndPowerDoTheirCommands : Prop :=
  (∀ c d b bs s, mailReady s = false → ∀ e ∈ mailCommands c d b bs, exec e s = .next s) ∧
  (∀ s, mailReady s = true → (s.obj.1 % 65536 ∈ mailCodes → exec .mailboxUnknownCommand s = .next s) ∧
    (s.obj.1 % 65536 ∉ mailCodes → ∃ t, exec .mailboxUnknownCommand s = .next t ∧ headgateOnly s t ∧ finished 1 t ∧ t.hg.arg = [])) ∧
  (∀ c sup s, mailReady s = true → ∃ t, exec (.ctxCreate c sup) s = .next t ∧ t = { s with hg := t.hg, ctxs := t.ctxs, sysregs := t.sysregs } ∧
    (c < 64 → (∀ x ∈ s.ctxs, x.id ≠ c) → finished 0 t ∧ t.ctxs = s.ctxs ++ [{ id := c, sup := sup }] ∧ ∀ n i, i < 65536 →
      regGet t n i = if ctxReg n i = some c ∨ ((n = 0x083 ∨ n = 0x084) ∧ i = c) then regReset (regKey n i) else regGet s n i) ∧
    ((64 ≤ c ∨ ∃ x ∈ s.ctxs, x.id = c) → finished 2 t ∧ headgateOnly s t)) ∧
  (∀ s, mailReady s = true → ∃ t, exec .ctxDestroy s = .next t ∧ t.mem = s.mem ∧
    ((s.ctxs.any (·.id == s.obj.1)) = true → (∀ d ∈ s.keyDels, d.ctx ≠ s.obj.1) → t.ctxs = s.ctxs ∧ t.keyDels = s.keyDels ++ [⟨s.obj.1, false, none, 0⟩] ∧ isDue .keyDelComplete s.obj.1 0 t ∧
      t.hg.sts.getLsbD 62 = true ∧ ∀ k ∈ s.tasks, k.ctx = s.obj.1 → (taskOf t k.id).stage = .ended ∨ (taskOf t k.id).stage = .done) ∧
    ((s.ctxs.any (·.id == s.obj.1)) = false → finished 2 t ∧ headgateOnly s t)) ∧
  (∀ s, mailReady s = true → ∃ t, exec .ctxSave s = .next t ∧ (4096 ≤ s.obj.1 → finished 2 t ∧ headgateOnly s t) ∧
    (s.obj.1 < 4096 → ∃ u, headgateOnly s u ∧ finished 0 t ∧ a0 (saveStatus u s.obj.1) t ∧
      t = { (if saveStatus u s.obj.1 = 0 then swap s.obj.1 u else u) with hg := t.hg })) ∧
  (∀ core c sw s, mailReady s = true → ∃ t, exec (.ctxLoad core c sw) s = .next t ∧ (4096 ≤ core ∨ 64 ≤ c → finished 2 t ∧ headgateOnly s t) ∧
    (core < 4096 → c < 64 → ∃ u, headgateOnly s u ∧ finished 0 t ∧ a0 (loadCore core c sw u).2 t ∧ t = { (loadCore core c sw u).1 with hg := t.hg })) ∧
  (∀ s, mailReady s = true → tableWf zeros s.hg.buf = true → s.obj.1 < 2 ^ 32 → 0 < s.obj.2 → s.obj.2 ≤ 1919 → ∃ t, exec .logRead s = .next t ∧ headgateOnly s t ∧ finished 0 t ∧
    a0 (asked s.hg s.obj.1 s.obj.2).length t ∧ readBytes t.hg.buf 0 24 = leBytes 8 s.hg.lost ++ leBytes 8 s.hg.logFirst ++ leBytes 8 (s.hg.logFirst + s.hg.log.length) ∧
    ∀ i r, (asked s.hg s.obj.1 s.obj.2)[i]? = some r → readBytes t.hg.buf (32 + 32 * i) 32 = recordBytes r) ∧
  (∀ total off piece s, mailReady s = true → banksOk s.hg → 0 < total → total ≤ 8388608 → piece ≠ [] → piece.length ≤ 61440 →
    let b := 1 - s.hg.bank
    let img := s.hg.staged ++ piece
    let good := Config.imageGood img && decide (s.hg.rollback ≤ Config.imageVersion img)
    ∃ t, exec (.fwStage total off piece) s = .next t ∧ headgateOnly s t ∧ t.hg.bank = s.hg.bank ∧
      (off ≠ s.hg.staged.length ∨ total < off + piece.length → finished 2 t ∧ t.hg.staged = []) ∧
      (off = s.hg.staged.length → off + piece.length < total → finished 0 t ∧ t.hg.staged = img ∧ t.hg.image[b]? = some (some img) ∧ t.hg.valid[b]? = some false) ∧
      (off = s.hg.staged.length → off + piece.length = total → t.hg.staged = [] ∧ t.hg.image[b]? = some (some img) ∧ t.hg.valid[b]? = some good ∧ finished (if good then 0 else 3) t ∧
        (good = true → t.hg.version[b]? = some (Config.imageVersion img)))) ∧
  (∀ s, mailReady s = true → banksOk s.hg → ∃ t, exec .fwActivate s = .next t ∧ headgateOnly s t ∧
    (s.hg.valid[1 - s.hg.bank]? = some true → finished 0 t ∧ t.hg.next = some (1 - s.hg.bank)) ∧
    (s.hg.valid[1 - s.hg.bank]? = some false → finished 2 t ∧ t.hg.next = s.hg.next)) ∧
  (∀ nonce s, mailReady s = true → nonce.length = 48 → tableWf zeros s.hg.buf = true → ∃ t, exec (.attest nonce) s = .next t ∧ t = { s with hg := t.hg, fresh := t.fresh } ∧ finished 0 t ∧ a0 384 t ∧
    readBytes t.hg.buf 0 48 = nonce ∧ readBytes t.hg.buf 0x30 48 = (List.range 48).map Config.romDigest ∧ readBytes t.hg.buf 0xA1 96 = (List.range 96).map Config.publicKey ∧
    readBytes t.hg.buf 0x60 48 = (List.range 48).map (Config.imageDigest (s.hg.image.getD s.hg.bank none)) ∧ readLe t.hg.buf 0x90 8 = s.hg.version.getD s.hg.bank 0 % 2 ^ 64 ∧ readLe t.hg.buf 0x98 8 = s.hg.rollback % 2 ^ 64) ∧
  (∀ loc (data : DWord) s, ∃ t, exec (.thermalLimit loc data) s = .next t ∧ logged s t 7 loc data.toNat) ∧
  (∀ key flip s, tableWf zeros s.flips = true → ∃ t, exec (.softError 0 key flip) s = .next t ∧ t = { s with flips := t.flips } ∧
    get0 t.flips key = get0 s.flips key ^^^ flip ∧ ∀ k, k ≠ key → get0 t.flips k = get0 s.flips k) ∧
  (∀ place key (flip : Byte) s, place ≠ 0 →
    let g := key / 2 ^ 60
    let k := key % 2 ^ 60
    (flip = 0 → exec (.softError place key flip) s = .next s) ∧
    (popc flip = 1 → ∃ t, exec (.softError place key flip) s = .next t ∧ logged s t 1 (softAt s (place % 16) g k) place) ∧
    (1 < popc flip → place = 5 → onlyCopy 5 g k s = false → ∃ u t, logged s u 2 (softAt s 5 g k) 5 ∧ exec (.softError place key flip) s = .next t ∧ t.hg = u.hg ∧
      t.mem = s.mem ∧ inSc t (k / 128) = false ∧ t.g = s.g ∧ t.gangs = s.gangs) ∧
    (∀ x, 1 < popc flip → place = 7 → scOf s (k / 128) = some x → x.dirty ≠ 0 → tableWf zeros s.mem = true → (s.ctxs.any (·.id == x.ctx)) = true →
      ∃ t y, exec (.softError place key flip) s = .next t ∧ get0 t.mem k = get0 s.mem k ^^^ flip ∧ (∀ a, a ≠ k → get0 t.mem a = get0 s.mem a) ∧ t.g = s.g ∧ t.gangs = s.gangs ∧
        scOf t (k / 128) = some y ∧ y.dirty = 0 ∧ (ctxOf t x.ctx).errb = BitVec.ofNat 32 ((ctxOf s x.ctx).errb.toNat - 1)) ∧
    (∀ x, 1 < popc flip → place = 1 → gangOf s g = some x → x.place ≠ .ended → (s.ctxs.any (·.id == (teamOf s x.team).ctx)) = true → tableWf zeros x.v = true →
      ∃ t y r rest, exec (.softError place key flip) s = .next t ∧ t.mem = s.mem ∧ oneGang s t g x y ∧ y.pending = x.pending ++ r :: rest ∧ r.cause = .dataError ∧
        get0 y.v (k / 4) = get0 x.v (k / 4) ^^^ (flip.setWidth 32 <<< (8 * (k % 4))) ∧ (∀ i, i ≠ k / 4 → get0 y.v i = get0 x.v i) ∧
        (ctxOf t (teamOf s x.team).ctx).errb = BitVec.ofNat 32 ((ctxOf s (teamOf s x.team).ctx).errb.toNat - 1))) ∧
  (∀ s, regsWf s → ∃ t, exec .powerArbitration s = .next t ∧ t = { s with fresh := t.fresh, shares := t.shares, sysregs := t.sysregs, hg := t.hg } ∧
    t.shares.length = 8 ∧ t.shares.sum ≤ (regGet s 0x080 0).toNat % 2 ^ 12 ∧ otherRegs s t 0x081 0 ∧
    ∀ d < 8, (regGet t 0x081 0).getLsbD d = decide (t.shares.getD d 0 < Config.diePower (s.fresh + 1) d)) ∧
  (∀ s, s.obj.1 < 8 → regsWf s → ∃ t, exec .energyCharge s = .next t ∧ t = { s with fresh := s.fresh + 1, sysregs := t.sysregs, busy := tfilter (fun k => k / 64 != s.obj.1) s.busy } ∧
    regGet t 0x082 s.obj.1 = regGet s 0x082 s.obj.1 + BitVec.ofNat 64 (Config.dieEnergy s.fresh s.obj.1) ∧
    (∀ c < 65536, c ∉ (dieBusy s s.obj.1).map (·.1) → regGet t 0x083 c = regGet s 0x083 c) ∧
    ∀ c n, dieBusy s s.obj.1 = [(c, n)] → 0 < n → regGet t 0x083 c = regGet s 0x083 c + BitVec.ofNat 64 (Config.dieEnergy s.fresh s.obj.1)) ∧
  (∀ e r (ps : List (Nat × Nat)), r < (ps.map (·.2)).sum →
    let parts := splitEnergy e (ps.map (·.2)).sum r 0 ps
    (parts.map (·.2)).sum = e ∧ parts.map (·.1) = ps.map (·.1) ∧
      ∀ (i : Nat) (p q : Nat × Nat), ps[i]? = some p → parts[i]? = some q → e * p.2 / (ps.map (·.2)).sum ≤ q.2 ∧ q.2 ≤ e * p.2 / (ps.map (·.2)).sum + 1) ∧
  (∀ s core c v, core < 4096 → s.sysregs = [(0x022 * 65536 + core, v)] → runs s core = some c → s.busyTo < s.clk → tableWf zeros s.busy = true →
    countBusy s = { s with busy := (countBusy s).busy, busyTo := s.clk } ∧
      ∀ k, get0 (countBusy s).busy k = get0 s.busy k + if k = 64 * (core / 512) + c then BitVec.ofNat 64 (s.clk - s.busyTo) else 0) ∧
  (∀ s, exec .powerLoss s = .next { s with power := false, hg := { s.hg with staged := [], sts := 0 } }) ∧
  (∀ s, (bootBank s.hg = none → exec .powerOnReset s = .next { s with power := false, hg := { s.hg with sts := 0 } }) ∧
    (∀ b, bootBank s.hg = some b → (s.hg.valid.getD b false = true ∧ s.hg.rollback ≤ s.hg.version.getD b 0) ∧
      (Config.bringUpFails s.fresh = true → ∃ t, exec .powerOnReset s = .next t ∧ t.power = false ∧ t.hg.sts = 0 ∧ t.mem = s.mem) ∧
      (Config.bringUpFails s.fresh = false → ∃ t, exec .powerOnReset s = .next t ∧
        t = { State.reset with mem := t.mem, flips := t.flips, lineCode := t.lineCode, lineKey := t.lineKey, stored := s.stored, msgs := s.msgs, answers := s.answers, fresh := t.fresh, nextId := s.nextId, sched := s.sched, turn := s.turn, hg := t.hg } ∧
        t.hg.sts = 0x8000000000000000 ∧ t.hg.bank = b ∧ t.hg.image = s.hg.image ∧ t.hg.rollback = max s.hg.rollback (s.hg.version.getD b 0) ∧ t.hg.log = [] ∧
        ((∀ e ∈ s.hostStores, ∀ i < e.2.length, 2 ≤ (e.1 + i) / 2 ^ 49 % 2 ^ 3) → ∀ a, a / 2 ^ 49 % 2 ^ 3 < 2 → get0 t.mem a = 0) ∧
        ∀ a, 2 ≤ a / 2 ^ 49 % 2 ^ 3 → (∀ x ∈ s.sc, x.dirty ≠ 0 → x.line ≠ a / 128) → (∀ e ∈ s.hostStores, a < e.1 ∨ e.1 + e.2.length ≤ a) → get0 t.mem a = get0 s.mem a)))

namespace Sys2Proof.Claims

open Sys2Proof Machine

/-- A task takes its values from its launch record (R366). -/
abbrev fromRecord (s : State) (r : Rec) (k : Task) : Prop :=
  let u := readLe r.bytes
  k.q = r.q ∧ k.n = r.n ∧ k.recId = r.id ∧ k.ctx = qCtx s r.q ∧ k.entry.toNat = u 8 8 ∧ (k.tx, k.ty, k.tz) = (u 0x10 2, u 0x12 2, u 0x14 2) ∧ k.regs = u 0x16 1 ∧ k.scr = u 0x18 4 ∧
    (k.gx, k.gy, k.gz) = (u 0x20 4, u 0x24 2, u 0x26 2) ∧ k.gaddr.toNat = u 0x28 8 ∧ k.sent.toNat = u 0x30 4 ∧ k.coha.toNat = u 0x38 8 ∧ k.cba.toNat = u 0x40 8 ∧
    k.cmpa.toNat = u 0x48 8 ∧ k.taskid.toNat = u 0x50 8 ∧ k.msix.toNat = u 0x58 8 ∧ k.gmem = (u 0 8).testBit 23 ∧ k.gsnt = (u 0 8).testBit 24 ∧
    k.strict = (u 0 8).testBit 22 ∧ k.floorC = u 0 8 / 2 ^ 20 % 4 ∧ k.startT = r.floor ∧ k.args.map (·.toNat) = (List.range 16).map (fun i => u (0x80 + 8 * i) 8) ∧
    k.ranges.length = u 0 8 / 2 ^ 8 % 32 ∧ ∀ i x, k.ranges[i]? = some x → x.base = u (0x100 + 16 * i) 8 / 65536 * 65536 ∧ x.len = u (0x108 + 16 * i) 8 ∧
      x.r = (u (0x100 + 16 * i) 8).testBit 0 ∧ x.w = (u (0x100 + 16 * i) 8).testBit 1 ∧ x.x = (u (0x100 + 16 * i) 8).testBit 2

/-- The event's task. -/
abbrev itsTask (s : State) (k : Task) : Prop := s.tasks.find? (·.id == s.obj.1) = some k

/-- Only task k has changed, to z; no memory. -/
abbrev taskNow (s t : State) (k z : Task) : Prop := taskOf t k.id = z ∧ (∀ j, j ≠ k.id → taskOf t j = taskOf s j) ∧ t.mem = s.mem ∧ t.g = s.g ∧ t.gangs = s.gangs

/-- A step of its launch has failed, or its grid is empty: the task completes with a status and runs no team (R367). -/
abbrev launchEnds (e : Instr) (s : State) (k : Task) (status : Nat) : Prop :=
  ∃ t z, exec e s = .next t ∧ taskOf t k.id = z ∧ z.stage = .ended ∧ z.status = status ∧ z.next = k.next ∧ isDue .taskCompletion k.id 0 t ∧ isDue .launchRecordStart k.q 0 t

/-- A line of an access of the headworks is at its home, free to be read. -/
abbrev workLine (s : State) (ctx va : Nat) (r : LineReq) (pa : Nat) : Prop :=
  lineReq s heldPost ctx va = some (r, pa) ∧ lineFree s r = true ∧ Machine.holds s r = true ∧ r.bulk = false ∧
    tableWf zeros s.wts = true ∧ tableWf zeros s.rts = true

end Sys2Proof.Claims

open Sys2Proof Sys2Proof.Machine Sys2Proof.Claims

/-- R193, R285, R286, R307, R362–R372: a queue's tail is read when its line is taken away; records are read in count order and start one at a time; a
launch waits for its edges, its grid word and its residency lease, and fails with the status of the step; a task whose teams have ended leaves its
completion record. The model's own choices in it, no rule of the spec: the context floor (log entry 54), write-backs at an end (log entry 55),
reserved bytes of a record (log entry 56), edges and records that fail (log entry 57), enabling a queue (log entry 58), space for a lease (log entry
59). -/
def Obligations.LaunchesGoThroughTheirSteps : Prop :=
  (∀ s, s.obj.1 < 512 → regsWf s → qOn s s.obj.1 = true → qDev s s.obj.1 = false →
    let q := s.obj.1
    let a := (regGet s 0x041 q).toNat
    let n := leNat (homeBytes s a 4)
    ∃ t, exec .queueTailUpdate s = .next t ∧ t.mem = s.mem ∧ a / 128 ∈ t.hostLines ∧ qTail t q = n % 2 ^ 32 ∧ qHead t q = qHead s q ∧
      (ahead n (qHead s q) ≤ qSlots s q → qOn t q = true ∧ isDue .recordFetch q 0 t) ∧
      (qSlots s q < ahead n (qHead s q) → s.hg.log.length < 32768 → qOn t q = false ∧ ∃ r ∈ t.hg.log, r.kind = 9 ∧ r.loc = BitVec.ofNat 64 q)) ∧
  (∀ s, qOn s s.obj.1 = true → qDev s s.obj.1 = false → tableWf zeros s.qread = true →
    let q := s.obj.1
    let n := (get0 s.qread q).toNat
    let left := ahead (qTail s q) n
    left ≠ 0 → left ≤ qSlots s q → ∃ t r, exec .recordFetch s = .next t ∧ r ∈ t.recs ∧ r.id = s.nextId ∧ r.q = q ∧ r.n = n ∧ readBytes r.bytes 0 1024 = homeBytes s (qSlot s q n) 1024 ∧
      r.started = false ∧ (get0 t.qread q).toNat = (n + 1) % 2 ^ 32 ∧ isDue .launchRecordStart q 0 t ∧ (1 < left → isDue .recordFetch q 0 t) ∧ t.mem = s.mem) ∧
  (∀ s r, s.recs.find? (fun r => r.q == s.obj.1 && !r.started) = some r → (∀ k ∈ s.tasks, k.q = s.obj.1 → starting k = false) → (∀ k ∈ s.tasks, k.id ≠ s.nextId) →
    let cmpa := readLe r.bytes 0x48 8
    (cmpa = 0 ∨ cmpa % 64 ≠ 0 → ∃ t, exec .launchRecordStart s = .next t ∧ t.tasks = s.tasks ∧ isDue .launchRecordStart s.obj.1 0 t) ∧
    (cmpa ≠ 0 → cmpa % 64 = 0 → ∃ t, exec .launchRecordStart s = .next t ∧ fromRecord s r (taskOf t s.nextId) ∧ t.mem = s.mem ∧
      (recordOk r.bytes = true → (taskOf t s.nextId).stage = .edges ∧ isDue .edgeDoneWake s.nextId 0 t) ∧
      (recordOk r.bytes = false → (taskOf t s.nextId).stage = .ended ∧ (taskOf t s.nextId).status = 1 ∧ isDue .taskCompletion s.nextId 0 t))) ∧
  (∀ s k, itsTask s k → k.stage = .edges →
    (k.edges[k.seen]? = none → k.edgeBad = true → launchEnds .edgeDoneWake s k 2) ∧
    (k.edges[k.seen]? = none → k.edgeBad = false → ∃ t, exec .edgeDoneWake s = .next t ∧ taskNow s t k { k with stage := .grid } ∧ isDue .gridWordResolve k.id 0 t) ∧
    (∀ e r pa, k.edges[k.seen]? = some e → workLine s k.ctx e.1.toNat r pa → (homeByte s (pa + 7)).getLsbD 7 = true → ∃ t z, exec .edgeDoneWake s = .next t ∧
      taskNow s t k z ∧ z = { k with seen := k.seen + 1, startT := max k.startT (wtsOf s r.dom r.line), edgeBad := z.edgeBad } ∧
      z.edgeBad = (k.edgeBad || leNat (homeBytes s pa 8) / 2 ^ 32 % 2 ^ 8 != 0) ∧ isDue .edgeDoneWake s.obj.1 s.obj.2 t)) ∧
  (∀ s k, itsTask s k → k.stage = .grid →
    (k.gmem = false → gridSize k = 0 → launchEnds .gridWordResolve s k 0) ∧
    (k.gmem = false → gridSize k ≠ 0 → k.coha = 0 → k.cba = 0 → ∃ t, exec .gridWordResolve s = .next t ∧
      taskNow s t k { k with stage := .lease, cohorts := [] } ∧ isDue .residencyLeaseGrant k.id 0 t) ∧
    (k.gmem = false → gridSize k ≠ 0 → k.coha.toNat % 16 ≠ 0 → launchEnds .gridWordResolve s k 8) ∧
    (∀ c, k.gmem = true → checkPage s k heldPost { r := true } k.gaddr = .error c → launchEnds .gridWordResolve s k 4) ∧
    (∀ e z, k.gmem = true → checkPage s k heldPost { r := true } k.gaddr = .ok (e, z) →
      (pteBulk e = true → launchEnds .gridWordResolve s k 3) ∧
      (∀ r pa, pteBulk e = false → inStorage e = false → workLine s k.ctx k.gaddr.toNat r pa → pa = paOf e z k.gaddr.toNat →
        let x := leNat (homeBytes s pa 4)
        (k.gsnt = true → x = k.sent.toNat → exec .gridWordResolve s = .next { s with agenda := s.agenda ++ [(.gridWordResolve, s.obj.1, s.obj.2)] }) ∧
        (k.gsnt = false ∨ x ≠ k.sent.toNat → (2 ^ 31 - 1 < x ∨ 2 ^ 31 - 1 < x * k.gy * k.gz) → launchEnds .gridWordResolve s k 4) ∧
        (k.gsnt = false ∨ x ≠ k.sent.toNat → x ≤ 2 ^ 31 - 1 → 0 < x * k.gy * k.gz → x * k.gy * k.gz ≤ 2 ^ 31 - 1 → k.coha = 0 → k.cba = 0 →
          ∃ t y, exec .gridWordResolve s = .next t ∧ taskNow s t k y ∧ y = { k with gx := x, gmem := false, startT := max k.startT (wtsOf s r.dom r.line), stage := .lease, cohorts := [] } ∧
            isDue .residencyLeaseGrant k.id 0 t)))) ∧
  (∀ s k, itsTask s k → k.stage = .lease →
    let pages := rangePages s k
    let mapped := ∀ p ∈ rangeLeaves s k, p.2.isSome = true
    let classed := ∀ p ∈ rangeLeaves s k, ∀ e z, p.2 = some (e, z) → pageCls s e ≤ k.floorC
    let room := (pages.map fun p => rawOf p.2.2 (pageCls s p.2.1)).sum + heldRaw s k pages ≤ nearRaw s
    (k.failed = true → launchEnds .residencyLeaseGrant s k 11) ∧
    (k.failed = false → k.lease = false → ¬ mapped → launchEnds .residencyLeaseGrant s k 5) ∧
    (k.failed = false → k.lease = false → mapped → ¬ classed → launchEnds .residencyLeaseGrant s k 7) ∧
    (k.failed = false → k.lease = false → mapped → classed → ¬ room → launchEnds .residencyLeaseGrant s k 6) ∧
    (k.failed = false → k.lease = false → mapped → classed → room → ∃ t, exec .residencyLeaseGrant s = .next t ∧ taskNow s t k { k with lease := true } ∧
      isDue .residencyLeaseGrant s.obj.1 s.obj.2 t ∧ ∀ p ∈ pages, 2 ≤ pteTier p.2.1 → isDue .pagePromotion k.ctx p.1 t) ∧
    (k.failed = false → k.lease = true → (∀ p ∈ pages, pteTier p.2.1 < 2) → ∃ t, exec .residencyLeaseGrant s = .next t ∧
      taskNow s t k { k with stage := .running, since := s.clk } ∧ isDue .teamDispatch (k.q / 64) 0 t ∧ isDue .launchRecordStart k.q 0 t)) ∧
  (∀ s k r pa, itsTask s k → (k.stage = .ended ∨ (k.stage = .running ∧ gridSize k ≤ k.next)) → teamsLeft s k.id = false → workLeft s k = false → dirtyOf s k = [] →
    (∀ x ∈ s.refused, x.copy.ctx ≠ k.ctx) → workLine s k.ctx k.cmpa.toNat r pa → pa % 64 = 0 → k.cmpa.toNat % 64 = 0 → r.line = pa / 128 →
    lineReq s heldPost k.ctx (k.cmpa.toNat + 8) = some (r, pa + 8) → (∀ ea ∈ (walk s k.ctx k.cmpa.toNat).2 ++ (walk s k.ctx (k.cmpa.toNat + 8)).2, ea / 128 ≠ r.line) →
    (∀ x ∈ s.relays, x.ctx ≠ k.ctx) → (s.ctxs.any (·.id == k.ctx)) = true → s.flips = [] → tableWf zeros s.mem = true →
    (∀ i < 8, ((regGet s 0x042 k.q).toNat + i) / 128 ≠ r.line) →
    ∃ t, exec .taskCompletion s = .next t ∧ (∀ x ∈ t.tasks, x.id ≠ k.id) ∧ (∀ x ∈ t.teams, x.task ≠ k.id) ∧
      (let late := k.status = 0 ∧ k.orph ≠ 0
      let status := if late then 9 else k.status
      let cause := if late then k.oCause else k.cause
      let floor := max (ctxOf s k.ctx).floor ((allGangs s).foldl (fun m x => if (teamOf s x.team).task = k.id then max m x.gts else m) k.floor)
      (ctxOf t k.ctx).floor = floor ∧ (k.msix.getLsbD 15 = true → k.msix.toNat % 2048 ∈ t.msgs) ∧
      let h := if late then k.oHdr else if k.status = 9 then k.hdr else {}
      let w := homeBytes t pa 8
      (leNat w).testBit 63 = true ∧ leNat w / 2 ^ 32 % 2 ^ 8 = status % 256 ∧ leNat w / 2 ^ 40 % 2 ^ 8 = (if status = 9 then cause % 256 else 0) ∧
        leNat w / 2 ^ 48 % 2 ^ 8 = k.orph % 256 ∧ leNat w % 2 ^ 32 = 0 ∧
        homeBytes t (pa + 8) 56 = leBytes 8 k.taskid.toNat ++ leBytes 8 floor ++ leBytes 8 k.placedN ++ leBytes 8 h.dw0.toNat ++
          leBytes 8 h.dw1.toNat ++ leBytes 8 h.dw2.toNat ++ leBytes 8 h.dw3.toNat))

namespace Sys2Proof.Claims

open Sys2Proof Machine

/-- Numbers of teams, gangs and tasks that exist are below the next one, and no two teams have one number. -/
abbrev idsOk (s : State) : Prop :=
  (s.teams.map (·.uid)).Nodup ∧ (∀ t ∈ s.teams, t.uid ≠ 0 ∧ t.uid < s.nextId) ∧ (∀ g ∈ allGangs s, g.team < s.nextId ∧ g.gid < s.nextId)

/-- Gang i of a new team (R36, R45, R187). -/
abbrev newcomer (s : State) (k : Task) (uid i : Nat) (g : Gang) : Prop :=
  g.team = uid ∧ g.num = i ∧ g.place = .running ∧ g.regs = k.regs ∧ g.gts = max (ctxOf s k.ctx).floor k.startT ∧ g.v = [] ∧ g.inH = false ∧ g.prio = false ∧
    (∀ l < 32, g.live.getLsbD l = decide (32 * i + l < k.tx * k.ty * k.tz)) ∧ (∀ l < 32, g.live.getLsbD l = true → get0 g.pc l = k.entry) ∧
    (∀ j < k.args.length, sGet g j = k.args.getD j 0) ∧ (∀ j ∈ [1, 2, 3], kGet g j = g.live) ∧ ∀ j ∈ [4, 5, 6, 7], kGet g j = 0

/-- Credit and weight of a class when a visit is chosen (R58). -/
def paid (s : State) (die c : Nat) : Int := credit s die c + weight s die c

/-- The bank change, or the key deletion, has given its gang a value and lets it go on. -/
abbrev released (s t : State) (g reg : Nat) (v : DWord) : Prop :=
  ∀ x, gangOf s g = some x → x.wait ≠ .none → tableWf zeros x.s = true → ∃ y, gangOf t g = some y ∧ y.wake = some 0 ∧ y.wait = x.wait ∧ sGet y reg = v ∧ y.v = x.v ∧ y.gts = x.gts

end Sys2Proof.Claims

open Sys2Proof Sys2Proof.Machine Sys2Proof.Claims

/-- R36, R44, R57–R65, R316–R324, R370, R383: a die dispatches the head team of the class it visits to the core with most room, with its gangs as R36
gives them; migration advertises, offers and delivers teams; shadow banks fill, swap and spill; banks change their mode and keys are deleted. The
model's own choices in it, no rule of the spec: the first quarter (log entry 14), bytes found in an allocation (log entry 15), lines of a deleted key
(log entry 24), classes in force (log entry 128), the team offered (log entry 52), the order of filling (log entry 71). -/
def Obligations.TeamsAreDispatchedMovedAndSaved : Prop :=
  (∀ s die, die < 8 → regsWf s → tableWf zeros s.classIn = true →
    let now := takeClasses die s
    let b := backlogged now die
    let total := ((b.map (weight s die)).sum : Int)
    (∀ q < 512, (get0 now.classIn (512 * die + q)).toNat = qClass s q) ∧ now = { s with classIn := now.classIn } ∧
    ((∀ c ∈ b, -32768 ≤ paid s die c - total ∧ paid s die c ≤ 32767 ∧ -32768 ≤ paid s die c) → (∃ c ∈ b, weight s die c ≠ 0) →
      let t := chooseVisit die s
      t.classIn = now.classIn ∧
      ∃ c ∈ b, weight s die c ≠ 0 ∧ (∀ d ∈ b, weight s die d ≠ 0 → paid s die d ≤ paid s die c ∧ (d < c → paid s die d < paid s die c)) ∧
        credit t die c = paid s die c - total ∧ (∀ d ∈ b, d ≠ c → credit t die d = paid s die d) ∧
        t.visits = ⟨die, c, (regGet s 0x031 die).toNat % 2 ^ 7⟩ :: s.visits.filter (·.die != die))) ∧
  (∀ s v t, s.visits.find? (·.die == s.obj.1) = some v → v.cls < 16 → headTeam s s.obj.1 v.cls = some t → teamGangs s t ≠ [] → batchesBound s t.uid = true →
    ∃ u, exec .teamDispatch s = .next u ∧ v ∈ u.visits ∧ u.tasks = s.tasks ∧ u.teams = s.teams ∧ isDue .teamDispatch s.obj.1 s.obj.2 u) ∧
  (∀ s v t, s.visits.find? (·.die == s.obj.1) = some v → v.cls < 16 → headTeam s s.obj.1 v.cls = some t → (teamGangs s t = [] ∨ batchesBound s t.uid = false) →
    (energyBlocked s t.ctx = true ∨ chooseCore s s.obj.1 t = none) → regsWf s →
    ∃ u, exec .teamDispatch s = .next u ∧ u.visits = s.visits.filter (·.die != s.obj.1) ∧ u.tasks = s.tasks ∧ u.teams = s.teams ∧ isDue .teamDispatch s.obj.1 s.obj.2 u ∧
      ∀ c < 16, headTeam s s.obj.1 c = none → s.obj.1 < 8 → credit u s.obj.1 c = 0) ∧
  (∀ s v t core, s.visits.find? (·.die == s.obj.1) = some v → v.cls < 16 → headTeam s s.obj.1 v.cls = some t → (teamGangs s t = [] ∨ batchesBound s t.uid = false) →
    energyBlocked s t.ctx = false → chooseCore s s.obj.1 t = some core → idsOk s → (s.tasks.any (·.id == t.task)) = true → s.obj.1 < 8 →
    (∀ c, s.obj.1 * 512 ≤ c → c < s.obj.1 * 512 + 512 → coreTakes s c t = true → freeSlots s c .running ≤ freeSlots s core .running) ∧
    ∃ u x, exec .teamDispatch s = .next u ∧ isDue .teamDispatch s.obj.1 s.obj.2 u ∧ x ∈ u.teams ∧ x.task = t.task ∧ x.idx = t.idx ∧ x.core = core ∧ x.place = .running ∧
      x.placed = true ∧ (v.left ≤ 1 ∨ headTeam u s.obj.1 v.cls = none → ∀ y ∈ u.visits, y.die ≠ s.obj.1) ∧
      (t.uid ≠ 0 → x.uid = t.uid) ∧
      (t.uid = 0 → x.uid = s.nextId ∧ (taskOf u t.task).next = (taskOf s t.task).next + 1 ∧ (taskOf u t.task).placedN = (taskOf s t.task).placedN + 1 ∧
        ∀ i < (threadsOf (taskOf s t.task) + 31) / 32, ∃ g ∈ allGangs u, newcomer s (taskOf s t.task) s.nextId i g)) ∧
  (∀ s, regsWf s → tableWf zeros s.adv = true → (s.obj.1 < 8 → ∃ t, exec .migrationAdvertise s = .next t ∧ t = { s with sysregs := t.sysregs, adv := t.adv } ∧
      otherRegs s t 0x032 s.obj.1 ∧ (get0 t.adv s.obj.1).toNat = freeCores s s.obj.1 ∧
      (regGet t 0x032 s.obj.1).toNat / 2 ^ 16 % 2 ^ 8 = min 255 (freeCores s s.obj.1) ∧ (regGet t 0x032 s.obj.1).toNat % 2 ^ 16 = (regGet s 0x032 s.obj.1).toNat % 2 ^ 16) ∧
    (8 ≤ s.obj.1 → exec .migrationAdvertise s = .next s)) ∧
  (∀ s, (regGet s 0x032 s.obj.1).getLsbD 31 = true → offerable s s.obj.1 ≠ [] → (∃ d < 8, d ≠ s.obj.1 ∧ get0 s.adv d ≠ 0) →
    (∀ i, get0 s.offers i = 0) → s.laterals = [] → idsOk s → ∃ t x y d, exec .migrationOffer s = .next t ∧ x ∈ offerable s s.obj.1 ∧
      (∀ z ∈ offerable s s.obj.1, x.since ≤ z.since) ∧ d < 8 ∧ d ≠ s.obj.1 ∧
      (∀ e < 8, e ≠ s.obj.1 → get0 s.adv e ≤ get0 s.adv d) ∧ y ∈ t.teams ∧ y.task = x.task ∧ y.idx = x.idx ∧
      y.place = .moving ∧ y.core = 512 * d ∧ y.placed = false ∧ isDue .migrationArrival y.uid 0 t ∧ t.mem = s.mem ∧ t.g = s.g ∧ t.gangs = s.gangs) ∧
  (∀ s x, s.teams.find? (·.uid == s.obj.1) = some x → x.place = .moving → regsWf s → ∃ t, exec .migrationArrival s = .next t ∧
    t = { s with teams := t.teams, agenda := t.agenda, sysregs := t.sysregs, visits := t.visits } ∧ (∀ n i, n ≠ 0x030 → n < 65536 → regGet t n i = regGet s n i) ∧
    teamOf t x.uid = { x with place := .undispatched, since := s.clk } ∧ (∀ j, j ≠ x.uid → teamOf t j = teamOf s j) ∧ isDue .teamDispatch (dieOf x.core) 0 t) ∧
  (∀ s, regsWf s → s.obj.1 < 4096 → sbsState s s.obj.1 = 3 → idsOk s →
    (∀ g ∈ allGangs s, g.place = .shadow → (∃ x ∈ shadowTeams s s.obj.1, x.uid = g.team) → spillBusy s g = false) → (∀ x ∈ shadowTeams s s.obj.1, partsBusy s x = false) →
    ∃ t, exec .spillComplete s = .next t ∧ t.mem = s.mem ∧ sbsState t s.obj.1 = 0 ∧
      (∀ x ∈ shadowTeams s s.obj.1, teamOf t x.uid = { x with place := .saved, placed := false, units := [], since := s.clk, races := x.races.map fun r => { r with units := [] } }) ∧
      (∀ x ∈ s.teams, x ∉ shadowTeams s s.obj.1 → teamOf t x.uid = x) ∧
      ∀ g ∈ allGangs t, (∃ x ∈ shadowTeams s s.obj.1, x.uid = g.team) → g.place ≠ .shadow) ∧
  (∀ s l x, s.obj.1 < 4096 → sbsState s s.obj.1 = 1 → l ∈ s.laterals → l.closed ≠ [] → x ∈ shadowTeams s s.obj.1 → x.uid = l.sub →
    exec .fillComplete s = .next { s with agenda := s.agenda ++ [(.fillComplete, s.obj.1, s.obj.2)] }) ∧
  (∀ s, regsWf s → s.obj.1 < 4096 → sbsState s s.obj.1 = 1 → idsOk s → (∀ l ∈ s.laterals, ∀ x ∈ shadowTeams s s.obj.1, x.uid = l.sub → l.closed = []) →
    ∃ t v, exec .fillComplete s = .next t ∧ v = { s with teams := v.teams, sysregs := v.sysregs, fresh := v.fresh } ∧
    sbsState v s.obj.1 = 2 ∧ otherRegs s v 0x022 s.obj.1 ∧ runs v s.obj.1 = runs s s.obj.1 ∧
    ((regGet s 0x022 s.obj.1).getLsbD 33 = false → t = v) ∧
    ((regGet s 0x022 s.obj.1).getLsbD 33 = true → (runs s s.obj.1 = none → t = swap s.obj.1 v) ∧
      ∀ c, runs s s.obj.1 = some c → (saveFits v s.obj.1 c = true → t = swap s.obj.1 v) ∧
        (saveFits v s.obj.1 c = false → t = { v with sysregs := t.sysregs } ∧ (regGet t 0x022 s.obj.1).getLsbD 33 = false ∧ sbsState t s.obj.1 = 2))) ∧
  (∀ s x, s.teams.find? (·.uid == s.obj.1) = some x → x.placed = false → x.place = .running →
    (spaceFits s x.core x = true → ∃ t, exec .deferredTeamPlacement s = .next t ∧ t = { s with teams := t.teams, fresh := t.fresh } ∧
      teamOf t x.uid = { x with placed := true, bare := false, units := (teamOf t x.uid).units, scratch := (teamOf t x.uid).scratch, races := (teamOf t x.uid).races } ∧
      (x.bare = false → (teamOf t x.uid).scratch = x.scratch) ∧
      ((teamOf t x.uid).races.map fun r => { r with units := [] }) = (x.races.map fun r => { r with units := [] }) ∧
      ∀ j, j ≠ x.uid → teamOf t j = teamOf s j) ∧
    (spaceFits s x.core x = false → exec .deferredTeamPlacement s = .next { s with agenda := s.agenda ++ [(.deferredTeamPlacement, s.obj.1, s.obj.2)] })) ∧
  (∀ s b, s.banks.find? (fun x => x.cluster == s.obj.1 && x.bank == s.obj.2) = some b → regsWf s → b.cluster < 1024 → b.bank < 32 → b.mode < 3 →
    (∀ c ∈ s.copies, c.remote = false → c.holder = b.cluster → c.slot = b.bank → c.dirty = [] ∧ c.quarantined = false) → ∃ t, exec .bankModeComplete s = .next t ∧
      t.mem = s.mem ∧ bankMode t b.cluster b.bank = b.mode ∧ t.banks = s.banks.erase b ∧ (∀ c ∈ t.copies, c.remote = false → c.holder = b.cluster → c.slot ≠ b.bank) ∧ released s t b.gang b.reg 0) ∧
  (∀ s d, s.keyDels.find? (·.ctx == s.obj.1) = some d → accessesOut s d.ctx = false →
    (∀ c ∈ s.copies, c.ctx = d.ctx → c.dirty = []) → (∀ x ∈ s.sc, x.ctx = d.ctx → lineOwned s x.line = false) → (∀ r ∈ s.refused, r.copy.ctx ≠ d.ctx) →
    (s.sc.map (·.line)).Nodup → (d.gang = none → ∀ k ∈ s.tasks, k.ctx ≠ d.ctx) →
    let lost := s.sc.filter fun x => x.ctx == d.ctx && x.dirty != 0
    let v := if d.drain then lost.length % 2 ^ 32 else lost.length % 2 ^ 32 * 2 ^ 32
    ∃ t, exec .keyDelComplete s = .next t ∧ (∀ c ∈ t.copies, c.ctx ≠ d.ctx) ∧ (∀ x ∈ t.sc, x.ctx ≠ d.ctx) ∧ t.keyDels = s.keyDels.erase d ∧
      (∀ a, (d.drain = true ∨ ∀ x ∈ lost, a / 128 ≠ x.line) → get0 t.mem a = get0 s.mem a) ∧
      (∀ g, d.gang = some g → released s t g d.reg (BitVec.ofNat 64 v)) ∧
      (d.gang = none → finished 0 t ∧ a0 v t ∧ ∀ x ∈ t.ctxs, x.id ≠ d.ctx)) ∧
  (∀ s d, s.keyDels.find? (·.ctx == s.obj.1) = some d → d.gang = none → (∃ k ∈ s.tasks, k.ctx = d.ctx) → ∃ t, exec .keyDelComplete s = .next t ∧ t.keyDels = s.keyDels ∧
    t.ctxs = s.ctxs ∧ t.mem = s.mem ∧ isDue .keyDelComplete s.obj.1 s.obj.2 t ∧ ∀ k ∈ s.tasks, k.ctx = d.ctx → (taskOf t k.id).stage = .ended ∨ (taskOf t k.id).stage = .done)

namespace Sys2Proof.Claims

open Sys2Proof Machine

/-- Words printed in the manual's worked encodings, with the instruction that each prints: its fields by name (chapters 5, 9, 10, 11, 15, 25, 26). -/
def printedWords : List (List Word × Instr) :=
  [ ([0xE20C1881], .add { b := 113, a := 6, d := 6, nxt := 1 }),
    ([0x510102CC, 0x000000FF], .lds { w := 2, base := 136, data := 4, la := 0, nxt := 0, ofs := 0, hint := 0, sc := 0, idx := 0xFF }),
    ([0x00D08BF8, 0x08C2518C], .ffma { b := 4, a := 97, d := 20, nxt := 0, pre := some ⟨0, 0, 13, false, false, false, false, true, false, false, 2⟩ }),
    ([0xE6022A98], .voteCnt { b := 115, a := 1, d := 10, nxt := 0 }),
    ([0xF9101436, 0x00000003], .scmp { b := 124, a := 136, d := 5, nxt := 2, lb := some 3 }),
    ([0x080C86B0], .kxor { b := 4, a := 6, d := 0x21, nxt := 0 }),
    ([0xE180005C], .exit { b := 112, a := 192, d := 0, nxt := 0 }),
    ([0x70C202F4, 0x00000302], .atomCas { w := 3, base := 134, data := 8, la := 0, nxt := 0, ofs := 0, hint := 0, sc := 3, idx := 2 }),
    ([0x10830390, 0x000800FF], .relayMv { w := 0, base := 132, data := 12, la := 0, nxt := 0, ofs := 64, hint := 0, sc := 0, idx := 0xFF }),
    ([0x11000348, 0x000000FF], .mma { w := 0, base := 136, data := 0, la := 0, nxt := 0, ofs := 0, hint := 0, sc := 0, idx := 0xFF }),
    ([0x180003A0, 0x000800C4], .barInit { w := 0, base := 192, data := 0, la := 0, nxt := 0, ofs := 64, hint := 0, sc := 0, idx := 196 }),
    ([0x380503A4, 0x000800FF], .barArd { w := 1, base := 192, data := 20, la := 0, nxt := 0, ofs := 64, hint := 0, sc := 0, idx := 0xFF }),
    ([0x180243C0, 0x000000FF], .sysrd { w := 0, base := 192, data := 9, la := 0, nxt := 0, ofs := 0, hint := 0, sc := 0, idx := 0xFF }) ]

/-- Words of opcodes that the map does not assign, and of selectors that are not listed (R89–R91). -/
def refusedWords : List (List Word × Reject) :=
  [ ([0x00000000], .opcode), ([0x00000078], .opcode), ([0x000003FC], .opcode), 
    ([0x60000384, 0x000000FF], .selector), ([0x0000C2B0], .selector), ([0x000003F9, 0xE20C1881], .form), ([0x510102CC], .form), ([], .form) ]

/-- The state a step starts from, its choice off the schedule: busy cycles are counted, and the two sets of gangs settled, before anything moves. -/
def started (s : State) (rest : List Choice) : State := { settleSets (countBusy s) with sched := rest }

/-- A gang without what says where it stands in its quarter's two sets, and since when (R49–R53). -/
def setless (x : Gang) : Gang := { x with active := false, entered := 0, entry := 0, issueAt := 0, readyFrom := none, starved := false, longLat := false }

/-- The moving gang about to issue, in the state of the step: gang g is the one that moves. -/
def chosen (s : State) (g : Nat) (rest : List Choice) : State := switchTo (started s rest) g

/-- The state in which its word runs: a wait that is over is gone; a word that waits for room tries again as it stands. -/
def atWord (u : State) : State := if u.g.wait == .room then u else { u with g := { u.g with wait := .none } }

/-- The words left of its clause. -/
def wordsLeft (u : State) : List Word := u.g.cl.words.drop (u.g.cl.x - 1)

/-- Every table of the state in canonical form: keys rising, nothing listed that reads as if it were not. The staged interleave copies, whose unlisted
keys read as the active registers, list keys of IDM and HMR alone (R293). -/
abbrev tablesWf (s : State) : Prop :=
  regsWf s ∧ (∀ e ∈ s.staged, e.1 / 65536 = 0x03B ∨ e.1 / 65536 = 0x03C) ∧
  tableWf regReset s.mapBefore = true ∧ (∀ g ∈ allGangs s, tableWf zeros g.v = true ∧ tableWf zeros g.s = true ∧ tableWf zeros g.k = true ∧ tableWf zeros g.pc = true ∧
    tableWf zeros g.meet = true ∧ tableWf zeros g.lk = true) ∧
  (∀ t ∈ s.teams, tableWf zeros t.scratch = true ∧ tableWf zeros t.times = true ∧ ∀ h ∈ t.races, tableWf zeros h.bytes = true) ∧
  (∀ c ∈ s.copies, tableWf zeros c.bytes = true ∧ tableWf zeros c.dirty = true) ∧ (∀ r ∈ s.refused, tableWf zeros r.copy.bytes = true ∧ tableWf zeros r.copy.dirty = true) ∧
  (∀ l ∈ s.laterals, ∀ b ∈ l.batch.toList ++ l.closed, tableWf zeros b.bytes = true) ∧ (∀ m ∈ s.mmas, tableWf zeros m.regs = true) ∧
  (∀ r ∈ s.recs, tableWf zeros r.bytes = true) ∧
  (∀ x ∈ s.stored, tableWf zeros x.bytes = true ∧ tableWf zeros x.flips = true ∧ tableWf zeros x.code = true ∧ tableWf zeros x.key = true ∧ tableWf zeros x.rts = true) ∧
  tableWf zeros s.wts = true ∧ tableWf zeros s.rts = true ∧ tableWf zeros s.mt = true ∧ tableWf zeros s.lineCode = true ∧
  tableWf zeros s.lineKey = true ∧ tableWf zeros s.flips = true ∧ tableWf zeros s.canals = true ∧ tableWf zeros s.commits = true ∧
  tableWf zeros s.qread = true ∧ tableWf zeros s.msix = true ∧ tableWf zeros s.hg.arg = true ∧ tableWf zeros s.hg.buf = true ∧ tableWf zeros s.fifo = true ∧ tableWf zeros s.fifoCtx = true ∧
  tableWf zeros s.scrap = true ∧ tableWf zeros s.scrapCtx = true ∧ tableWf zeros s.adv = true ∧ tableWf zeros s.offers = true ∧ tableWf zeros s.counts = true ∧
  tableWf zeros s.tfree = true ∧ tableWf zeros s.classIn = true ∧ tableWf zeros s.busy = true

/-- Numbers name one thing each: teams and gangs by numbers already given out, no two alike; a line stands in one slice, and a core has one post, which
holds something. -/
abbrev numbersOk (s : State) : Prop :=
  idsOk s ∧ gidsOk s ∧ (∀ g ∈ s.gangs, g.gid ≠ 0) ∧ (s.sc.map (·.line)).Nodup ∧ postsOk s

end Sys2Proof.Claims

open Sys2Proof Sys2Proof.Machine Sys2Proof.Claims

/-- R384: after bring-up CLK starts from 0, every register reads its reset value, every line reads zeros and carries an OPEN code, every array is zero,
READY is set, and nothing runs: no gang, team, task or context exists. What these tables and lists hold is in the form that every step keeps. The
model's own choices in it, no rule of the spec: firmware banks (log entry 10), unlisted bytes of host memory and peer windows (log entry 74),
registers and tables without a reset value (log entry 75). -/
def Obligations.TheStateAfterReset : Prop :=
  let s := State.reset
  s.power = true ∧ s.clk = 0 ∧ (∀ n i, regGet s n i = regReset (regKey n i)) ∧ (∀ a, get0 s.mem a = 0) ∧ (∀ l, get0 s.lineCode l = 0 ∧ get0 s.flips l = 0) ∧
  (∀ l, get0 s.wts l = 0 ∧ get0 s.rts l = 0 ∧ get0 s.mt l = 0) ∧ s.hg.sts = 0x8000000000000000 ∧ s.hg.cmd = 0 ∧ (∀ i, get0 s.hg.arg i = 0 ∧ get0 s.hg.buf i = 0) ∧
  s.sc = [] ∧ s.copies = [] ∧ s.ctxs = [] ∧ s.tasks = [] ∧ s.teams = [] ∧ s.gangs = [] ∧ s.g.place = .ended ∧ s.g.live = 0 ∧ s.ops = [] ∧ s.relays = [] ∧ s.merges = [] ∧
  s.agenda = [] ∧ s.sched = [] ∧ Memory.wf s.mem = true ∧ tablesWf s ∧ numbersOk s

/-- R77–R91: words printed in the manual decode to the instructions they are printed for, byte 0 of each word first (R3); unassigned opcodes, selectors that are not
listed, misplaced prefixes and missing words are refused by name. -/
def Obligations.PrintedWordsDecode : Prop :=
  (∀ p ∈ printedWords, decode (bytesOf p.1) = .ok (p.2, []) ∧ p.2.WellFormed) ∧ ∀ p ∈ refusedWords, decode (bytesOf p.1) = .error p.2

/-- R77–R90: the words of every well-formed instruction, with any words after them, decode to that instruction and leave those words; and words that decode are the
words of the instruction they decode to, which is well-formed. -/
def Obligations.DecodingInvertsEncoding : Prop :=
  (∀ (i : Instr) (rest : List Word), i.WellFormed → isEvent i = false → decode (bytesOf (encode i ++ rest)) = .ok (i, rest)) ∧
  ∀ (ws rest : List Word) (i : Instr), decodeWords ws = .ok (i, rest) → i.WellFormed ∧ isEvent i = false ∧ encode i ++ rest = ws

/-- R50, R51, R53, R75, R76, R377, R384: a step settles which gangs are ready, then lets the gang that the schedule names begin a clause, go on from its wait, or run the word its clause stands at: where the
words decode to i, the step is exec of i in that state; where they do not, the gang has the cause that R76, R90 and R91 name. A due step runs on its
objects and leaves the agenda, and a step of the outside world, the host's accesses to BAR0 among them, on those it is given. Without power only POWER_ON_RESET runs. The model's own choices
in it, no rule of the spec: the schedule (log entry 2), one cc for a word (log entry 5), the issue set in a handler (log entry 76), readiness (log entry 79), the cause of a refused exit with a selector that is not
listed (log entry 93), busy cycles (log entry 129). -/
def Obligations.AStepRunsTheDecodedWord : Prop :=
  (∀ (s : State), settleSets s = { s with g := (settleSets s).g, gangs := (settleSets s).gangs } ∧ setless (settleSets s).g = setless s.g ∧
    (settleSets s).gangs.map setless = s.gangs.map setless) ∧
  (∀ (s : State), s.g.longLat = false → trapsWaiting s = [] → settleSets s = { s with g := markReady s s.g, gangs := s.gangs.map (markReady s) }) ∧
  (∀ (s : State) (x : Gang), { markReady s x with readyFrom := x.readyFrom, starved := x.starved } = x) ∧
  (∀ (s : State) g rest x, s.power = true → s.sched = .issue g :: rest → gangOf (started s rest) g = some x → mayIssue (started s rest) g = true →
    let u := chosen s g rest
    u.g = x ∧ u.mem = s.mem ∧ u.clk = s.clk ∧
    (x.wake.isSome = true ∨ phasePassed u x = true → step s = .next (finishWait u)) ∧
    (x.wake = none → phasePassed u x = false → x.cl.x = 0 → step s = exec .clauseIssue u) ∧
    (x.wake = none → phasePassed u x = false → x.cl.x ≠ 0 →
      (∀ i ws, decode (bytesOf (wordsLeft u)) = .ok (i, ws) → step s = exec i (atWord u)) ∧
      (decode (bytesOf (wordsLeft u)) = .error .opcode → step s = .next (raised (plain .illegalOpcode) (atWord u))) ∧
      (decode (bytesOf (wordsLeft u)) = .error .form → step s = .next (raised (plain .illegalClause) (atWord u))) ∧
      (decode (bytesOf (wordsLeft u)) = .error .selector → step s = .next (raised
        (plain (if exitRefused u.g (((nextWords u.g).headD 0).truncate 2) then .illegalClause else .illegalOperand)) (atWord u))))) ∧
  (∀ (s : State) k rest e a b, s.power = true → s.sched = .due k :: rest → s.agenda[k]? = some (e, a, b) →
    step s = exec e { started s rest with agenda := s.agenda.eraseIdx k, obj := (a, b) }) ∧
  (∀ (s : State) e a b rest, s.power = true → s.sched = .event e a b :: rest → isEvent e = true → step s = exec e { started s rest with obj := (a, b) }) ∧
  (∀ (s : State) off n rest, s.power = true → s.sched = .barRead off n :: rest → step s = .next (barRead off n (started s rest))) ∧
  (∀ (s : State) off bs rest, s.power = true → s.sched = .barWrite off bs :: rest → step s = .next (barWrite off bs (started s rest))) ∧
  (∀ (s : State) a bs rest, s.power = true → s.sched = .host a bs :: rest → step s = .next (hostStore a bs (started s rest))) ∧
  (∀ (s : State) e a b rest, s.power = true → s.sched = [] → s.turn = true → s.agenda = (e, a, b) :: rest →
    step s = exec e { started s [] with turn := false, agenda := rest, obj := (a, b) }) ∧
  (∀ (s : State) n rest, s.power = true → s.sched = .tick n :: rest → step s = .next { started s rest with clk := s.clk + n }) ∧
  (∀ (s : State) rest, s.sched = .event .powerOnReset 0 0 :: rest → step s = exec .powerOnReset { started s rest with obj := (0, 0) }) ∧
  (∀ (s : State), s.power = false → (∀ rest, s.sched ≠ .event .powerOnReset 0 0 :: rest) → step s = .fault .noPower)

/-- Every step of every state keeps memory in its canonical form: addresses rising, no byte listed that reads zero unlisted (R384); so that equal memories are equal data. -/
def Obligations.EveryStepKeepsMemoryCanonical : Prop :=
  ∀ (s t : State), Memory.wf s.mem = true → step s = .next t → Memory.wf t.mem = true

/-- Every step of every state keeps every other table of the state canonical: registers, lane addresses, scratch, headraces and what their units keep, ticket times,
copies with their dirty bits, refused write-backs, open and closed batches, matrix operands, records, stored pages, line times and codes, system registers with their staged
copies and those before a reshape, canals, headworks and power counts, the mailbox. The statements about words and device steps take these forms as premises. -/
def Obligations.EveryStepKeepsItsTablesCanonical : Prop :=
  ∀ (s t : State), tablesWf s → step s = .next t → tablesWf t

/-- Every step of every state keeps its numbers in order (R37, R49, R18): no two teams or gangs have one number, and a new one is given a number that none
has had; a line stands in one slice; a core has one post. The model's own choices in it, no rule of the spec: numbers of objects (log entry 80). -/
def Obligations.EveryStepKeepsNumbersApart : Prop :=
  ∀ (s t : State), numbersOk s → step s = .next t → numbersOk t
end

