-- ==== Sys2Proof/Laws/Encoding.lean ====
section
/-! SUPPORT. The fields of encoded words read back, and words read back from their bytes: the lemmas under decoding and encoding. -/

namespace Sys2Proof

/-! ## Bytes (R3) -/

theorem word_of_bytes (x : Word) : x.extractLsb' 24 8 ++ x.extractLsb' 16 8 ++ x.extractLsb' 8 8 ++ x.extractLsb' 0 8 = x := by
  apply BitVec.eq_of_getLsbD_eq
  intro i hi
  simp only [BitVec.getLsbD_append, BitVec.getLsbD_extractLsb']
  by_cases h1 : i < 8
  · simp [h1]
  · by_cases h2 : i < 16
    · have : i - 8 < 8 := by omega
      simp [h1, this]
      congr 1; omega
    · by_cases h3 : i < 24
      · have a : ¬ i - 8 < 8 := by omega
        have b : i - 8 - 8 < 8 := by omega
        simp [h1, a, b]
        congr 1; omega
      · have a : ¬ i - 8 < 8 := by omega
        have b : ¬ i - 8 - 8 < 8 := by omega
        have c : i - 8 - 8 - 8 < 8 := by omega
        simp [h1, a, b, c]
        congr 1; omega

theorem wordsOf_bytesOf : ∀ ws : List Word, wordsOf (bytesOf ws) = ws
  | [] => rfl
  | x :: ws => by
    have ih := wordsOf_bytesOf ws
    simp only [bytesOf, List.flatMap_cons, List.cons_append, List.nil_append] at ih ⊢
    simp only [wordsOf]
    rw [ih, word_of_bytes]

/-- The decoder on the bytes of words is the decoder on the words. -/
theorem decode_bytesOf (ws : List Word) : decode (bytesOf ws) = decodeWords ws := by rw [decode, wordsOf_bytesOf]

/-! ## Fields -/

/-- A field of a concatenation that lies in its low part. -/
theorem field_low {n m a b : Nat} (x : BitVec n) (y : BitVec m) (h : a + b ≤ m) : (x ++ y).extractLsb' a b = y.extractLsb' a b := by
  apply BitVec.eq_of_getLsbD_eq
  intro i hi
  have : a + i < m := by omega
  simp [BitVec.getLsbD_append, hi, this]

/-- A field of a concatenation that lies in its high part. -/
theorem field_high {n m a b : Nat} (x : BitVec n) (y : BitVec m) (h : m ≤ a) : (x ++ y).extractLsb' a b = x.extractLsb' (a - m) b := by
  apply BitVec.eq_of_getLsbD_eq
  intro i hi
  have h1 : ¬ a + i < m := by omega
  have h2 : a + i - m = a - m + i := by omega
  simp [BitVec.getLsbD_append, hi, h1, h2]

theorem field_all {n : Nat} (x : BitVec n) : x.extractLsb' 0 n = x := by
  apply BitVec.eq_of_getLsbD_eq
  intro i hi
  simp [hi]

@[simp] theorem opcodeOf_encAWord (op : BitVec 8) (w : AWord) : opcodeOf (encAWord op w) = op.toNat := by
  simp only [opcodeOf, encAWord]
  rw [field_high _ _ (by decide), field_low _ _ (by decide), field_all]

@[simp] theorem opcodeOf_encM0 (op : BitVec 8) (w : MWord) : opcodeOf (encM0 op w) = op.toNat := by
  simp only [opcodeOf, encM0]
  rw [field_high _ _ (by decide), field_low _ _ (by decide), field_all]

/-- The fields of a format A or U word read back. -/
theorem aFields_encAWord (op : BitVec 8) (w : AWord) :
    aFields w.pre (encAWord op w) = { b := w.b, a := w.a, d := w.d, nxt := w.nxt, pre := w.pre } := by
  simp only [aFields, nxtOf, encAWord, AWord.mk.injEq]
  refine ⟨?_, ?_, ?_, ?_, trivial, trivial, trivial, trivial⟩
  · rw [field_high _ _ (by decide), field_high _ _ (by decide), field_high _ _ (by decide), field_high _ _ (by decide), field_all]
  · rw [field_high _ _ (by decide), field_high _ _ (by decide), field_high _ _ (by decide), field_low _ _ (by decide), field_all]
  · rw [field_high _ _ (by decide), field_high _ _ (by decide), field_low _ _ (by decide), field_all]
  · rw [field_low _ _ (by decide), field_all]

/-- The fields of a format M pair read back. -/
theorem mFields_encM (op : BitVec 8) (w : MWord) : mFields w.pre (encM0 op w) (encM1 w) = w := by
  obtain ⟨ww, base, data, la, nxt, ofs, hint, sc, idx, pre⟩ := w
  simp only [mFields, nxtOf, encM0, encM1, MWord.mk.injEq]
  refine ⟨?_, ?_, ?_, ?_, ?_, ?_, ?_, ?_, ?_, trivial⟩
  · rw [field_high _ _ (by decide), field_high _ _ (by decide), field_high _ _ (by decide), field_high _ _ (by decide), field_high _ _ (by decide), field_all]
  · rw [field_high _ _ (by decide), field_high _ _ (by decide), field_high _ _ (by decide), field_high _ _ (by decide), field_low _ _ (by decide), field_all]
  · rw [field_high _ _ (by decide), field_high _ _ (by decide), field_high _ _ (by decide), field_low _ _ (by decide), field_all]
  · rw [field_high _ _ (by decide), field_high _ _ (by decide), field_low _ _ (by decide), field_all]
  · rw [field_low _ _ (by decide), field_all]
  · rw [field_high _ _ (by decide), field_high _ _ (by decide), field_high _ _ (by decide), field_all]
  · rw [field_high _ _ (by decide), field_high _ _ (by decide), field_low _ _ (by decide), field_all]
  · rw [field_high _ _ (by decide), field_low _ _ (by decide), field_all]
  · rw [field_low _ _ (by decide), field_all]

theorem bit_low {n m i : Nat} (x : BitVec n) (y : BitVec m) (h : i < m) : (x ++ y).getLsbD i = y.getLsbD i := by simp [BitVec.getLsbD_append, h]

theorem bit_high {n m i : Nat} (x : BitVec n) (y : BitVec m) (h : m ≤ i) : (x ++ y).getLsbD i = x.getLsbD (i - m) := by
  have : ¬ i < m := by omega
  simp [BitVec.getLsbD_append, this]

@[simp] theorem opcodeOf_encMod (m : ModWord) : opcodeOf (encMod m) = 0xFE := by
  simp only [opcodeOf, encMod]
  rw [field_high _ _ (by decide), field_low _ _ (by decide), field_all]
  rfl

@[simp] theorem nxtOf_encMod (m : ModWord) : nxtOf (encMod m) = 0 := by
  simp only [nxtOf, encMod]
  rw [field_low _ _ (by decide), field_all]
  rfl

/-- The fields of a MOD prefix read back. -/
theorem modOf_encMod (m : ModWord) : modOf (encMod m) = m := by
  obtain ⟨rsv, stype, type, negc, absb, negb, absa, nega, ftz, sat, rm⟩ := m
  simp only [modOf, encMod, ModWord.mk.injEq]
  refine ⟨?_, ?_, ?_, ?_, ?_, ?_, ?_, ?_, ?_, ?_, ?_⟩
  · iterate 12 rw [field_high _ _ (by decide)]
    rw [field_all]
  · iterate 11 rw [field_high _ _ (by decide)]
    rw [field_low _ _ (by decide), field_all]
  · iterate 10 rw [field_high _ _ (by decide)]
    rw [field_low _ _ (by decide), field_all]
  · iterate 9 rw [bit_high _ _ (by decide)]
    rw [bit_low _ _ (by decide)]
    simp
  · iterate 8 rw [bit_high _ _ (by decide)]
    rw [bit_low _ _ (by decide)]
    simp
  · iterate 7 rw [bit_high _ _ (by decide)]
    rw [bit_low _ _ (by decide)]
    simp
  · iterate 6 rw [bit_high _ _ (by decide)]
    rw [bit_low _ _ (by decide)]
    simp
  · iterate 5 rw [bit_high _ _ (by decide)]
    rw [bit_low _ _ (by decide)]
    simp
  · iterate 4 rw [bit_high _ _ (by decide)]
    rw [bit_low _ _ (by decide)]
    simp
  · iterate 3 rw [bit_high _ _ (by decide)]
    rw [bit_low _ _ (by decide)]
    simp
  · iterate 2 rw [field_high _ _ (by decide)]
    rw [field_low _ _ (by decide), field_all]

/-! ## Literals (R82) -/

/-- The literal words of a well-formed word are taken off in order: A's, B's, the table. -/
theorem takeLits_encoded {table : Bool} {op : Nat} {w : AWord} (rest : List Word) (hw : wfA table w = true) (ht : (op == 0x3E) = table) :
    takeLits op { b := w.b, a := w.a, d := w.d, nxt := w.nxt, pre := w.pre } (w.la.toList ++ w.lb.toList ++ w.lt.toList ++ rest) = some (w, rest) := by
  obtain ⟨b, a, d, nxt, pre, la, lb, lt⟩ := w
  simp only [wfA, Bool.and_eq_true, beq_iff_eq] at hw
  obtain ⟨⟨ha, hb⟩, hl⟩ := hw
  subst ht
  simp only [takeLits, takeLit, ← ha, ← hb, ← hl]
  cases la <;> cases lb <;> cases lt <;> rfl

/-! ## Whole instructions -/

theorem decodeWords_encA {op : BitVec 8} {w : AWord} {i : Instr} {c : Nat} {table : Bool} (rest : List Word) (hop : op.toNat ≠ 0xFE)
    (hc : opClass op.toNat = some c) (hm : isM op.toNat = false) (hw : wfA table w = true) (ht : (op.toNat == 0x3E) = table)
    (hi : aInstr op.toNat w = some i) : decodeWords (encA op w ++ rest) = .ok (i, rest) := by
  have hl := takeLits_encoded rest hw ht
  have hd : decodeWord w.pre (encAWord op w) (w.la.toList ++ w.lb.toList ++ w.lt.toList ++ rest) = .ok (i, rest) := by
    simp only [decodeWord, opcodeOf_encAWord, hc, hm, aFields_encAWord, hl, hi]
    rfl
  cases hp : w.pre with
  | none =>
    simp only [encA, hp, Option.map_none, Option.toList_none, List.nil_append, List.cons_append, List.append_assoc, decodeWords, opcodeOf_encAWord, if_neg hop]
    simpa [hp] using hd
  | some m =>
    simp only [encA, hp, Option.map_some, Option.toList_some, List.cons_append, List.nil_append, List.append_assoc, decodeWords, opcodeOf_encMod, nxtOf_encMod,
      if_true, modOf_encMod]
    simpa [hp] using hd

theorem decodeWords_encM {op : BitVec 8} {w : MWord} {i : Instr} {c : Nat} (rest : List Word) (hop : op.toNat ≠ 0xFE)
    (hc : opClass op.toNat = some c) (hm : isM op.toNat = true) (hi : mInstr op.toNat w = some i) : decodeWords (encM op w ++ rest) = .ok (i, rest) := by
  have hd : decodeWord w.pre (encM0 op w) (encM1 w :: rest) = .ok (i, rest) := by
    simp only [decodeWord, opcodeOf_encM0, hc, hm, mFields_encM, hi, if_true]
  cases hp : w.pre with
  | none =>
    simp only [encM, hp, Option.map_none, Option.toList_none, List.nil_append, List.cons_append, decodeWords, opcodeOf_encM0, if_neg hop]
    simpa [hp] using hd
  | some m =>
    simp only [encM, hp, Option.map_some, Option.toList_some, List.cons_append, List.nil_append, decodeWords, opcodeOf_encMod, nxtOf_encMod, if_true, modOf_encMod]
    simpa [hp] using hd

end Sys2Proof
end

