-- ==== Sys2Proof/Laws/State.lean ====
section
/-! SUPPORT. What each named update of the state, or of a gang, leaves in every field: one lemma per field and update, so that no proof
unfolds a record update. -/

namespace Sys2Proof.Machine

/-! ## `due` -/

@[simp] theorem due_clk (e : Instr) (a b : Nat) (s : State) : (due e a s b).clk = s.clk := rfl
@[simp] theorem due_power (e : Instr) (a b : Nat) (s : State) : (due e a s b).power = s.power := rfl
@[simp] theorem due_mem (e : Instr) (a b : Nat) (s : State) : (due e a s b).mem = s.mem := rfl
@[simp] theorem due_wts (e : Instr) (a b : Nat) (s : State) : (due e a s b).wts = s.wts := rfl
@[simp] theorem due_rts (e : Instr) (a b : Nat) (s : State) : (due e a s b).rts = s.rts := rfl
@[simp] theorem due_mt (e : Instr) (a b : Nat) (s : State) : (due e a s b).mt = s.mt := rfl
@[simp] theorem due_sc (e : Instr) (a b : Nat) (s : State) : (due e a s b).sc = s.sc := rfl
@[simp] theorem due_lineCode (e : Instr) (a b : Nat) (s : State) : (due e a s b).lineCode = s.lineCode := rfl
@[simp] theorem due_flips (e : Instr) (a b : Nat) (s : State) : (due e a s b).flips = s.flips := rfl
@[simp] theorem due_lineKey (e : Instr) (a b : Nat) (s : State) : (due e a s b).lineKey = s.lineKey := rfl
@[simp] theorem due_copies (e : Instr) (a b : Nat) (s : State) : (due e a s b).copies = s.copies := rfl
@[simp] theorem due_refused (e : Instr) (a b : Nat) (s : State) : (due e a s b).refused = s.refused := rfl
@[simp] theorem due_monitors (e : Instr) (a b : Nat) (s : State) : (due e a s b).monitors = s.monitors := rfl
@[simp] theorem due_tlb (e : Instr) (a b : Nat) (s : State) : (due e a s b).tlb = s.tlb := rfl
@[simp] theorem due_icache (e : Instr) (a b : Nat) (s : State) : (due e a s b).icache = s.icache := rfl
@[simp] theorem due_sysregs (e : Instr) (a b : Nat) (s : State) : (due e a s b).sysregs = s.sysregs := rfl
@[simp] theorem due_staged (e : Instr) (a b : Nat) (s : State) : (due e a s b).staged = s.staged := rfl
@[simp] theorem due_g (e : Instr) (a b : Nat) (s : State) : (due e a s b).g = s.g := rfl
@[simp] theorem due_gangs (e : Instr) (a b : Nat) (s : State) : (due e a s b).gangs = s.gangs := rfl
@[simp] theorem due_ops (e : Instr) (a b : Nat) (s : State) : (due e a s b).ops = s.ops := rfl
@[simp] theorem due_teams (e : Instr) (a b : Nat) (s : State) : (due e a s b).teams = s.teams := rfl
@[simp] theorem due_tasks (e : Instr) (a b : Nat) (s : State) : (due e a s b).tasks = s.tasks := rfl
@[simp] theorem due_ctxs (e : Instr) (a b : Nat) (s : State) : (due e a s b).ctxs = s.ctxs := rfl
@[simp] theorem due_relays (e : Instr) (a b : Nat) (s : State) : (due e a s b).relays = s.relays := rfl
@[simp] theorem due_tfree (e : Instr) (a b : Nat) (s : State) : (due e a s b).tfree = s.tfree := rfl
@[simp] theorem due_mmas (e : Instr) (a b : Nat) (s : State) : (due e a s b).mmas = s.mmas := rfl
@[simp] theorem due_merges (e : Instr) (a b : Nat) (s : State) : (due e a s b).merges = s.merges := rfl
@[simp] theorem due_contribs (e : Instr) (a b : Nat) (s : State) : (due e a s b).contribs = s.contribs := rfl
@[simp] theorem due_posts (e : Instr) (a b : Nat) (s : State) : (due e a s b).posts = s.posts := rfl
@[simp] theorem due_laterals (e : Instr) (a b : Nat) (s : State) : (due e a s b).laterals = s.laterals := rfl
@[simp] theorem due_subReqs (e : Instr) (a b : Nat) (s : State) : (due e a s b).subReqs = s.subReqs := rfl
@[simp] theorem due_cohorts (e : Instr) (a b : Nat) (s : State) : (due e a s b).cohorts = s.cohorts := rfl
@[simp] theorem due_canals (e : Instr) (a b : Nat) (s : State) : (due e a s b).canals = s.canals := rfl
@[simp] theorem due_commits (e : Instr) (a b : Nat) (s : State) : (due e a s b).commits = s.commits := rfl
@[simp] theorem due_takers (e : Instr) (a b : Nat) (s : State) : (due e a s b).takers = s.takers := rfl
@[simp] theorem due_recs (e : Instr) (a b : Nat) (s : State) : (due e a s b).recs = s.recs := rfl
@[simp] theorem due_banks (e : Instr) (a b : Nat) (s : State) : (due e a s b).banks = s.banks := rfl
@[simp] theorem due_visits (e : Instr) (a b : Nat) (s : State) : (due e a s b).visits = s.visits := rfl
@[simp] theorem due_classIn (e : Instr) (a b : Nat) (s : State) : (due e a s b).classIn = s.classIn := rfl
@[simp] theorem due_scrap (e : Instr) (a b : Nat) (s : State) : (due e a s b).scrap = s.scrap := rfl
@[simp] theorem due_scrapCtx (e : Instr) (a b : Nat) (s : State) : (due e a s b).scrapCtx = s.scrapCtx := rfl
@[simp] theorem due_fifo (e : Instr) (a b : Nat) (s : State) : (due e a s b).fifo = s.fifo := rfl
@[simp] theorem due_fifoCtx (e : Instr) (a b : Nat) (s : State) : (due e a s b).fifoCtx = s.fifoCtx := rfl
@[simp] theorem due_adv (e : Instr) (a b : Nat) (s : State) : (due e a s b).adv = s.adv := rfl
@[simp] theorem due_offers (e : Instr) (a b : Nat) (s : State) : (due e a s b).offers = s.offers := rfl
@[simp] theorem due_counts (e : Instr) (a b : Nat) (s : State) : (due e a s b).counts = s.counts := rfl
@[simp] theorem due_frames (e : Instr) (a b : Nat) (s : State) : (due e a s b).frames = s.frames := rfl
@[simp] theorem due_demoting (e : Instr) (a b : Nat) (s : State) : (due e a s b).demoting = s.demoting := rfl
@[simp] theorem due_storage (e : Instr) (a b : Nat) (s : State) : (due e a s b).storage = s.storage := rfl
@[simp] theorem due_stored (e : Instr) (a b : Nat) (s : State) : (due e a s b).stored = s.stored := rfl
@[simp] theorem due_qread (e : Instr) (a b : Nat) (s : State) : (due e a s b).qread = s.qread := rfl
@[simp] theorem due_reports (e : Instr) (a b : Nat) (s : State) : (due e a s b).reports = s.reports := rfl
@[simp] theorem due_shares (e : Instr) (a b : Nat) (s : State) : (due e a s b).shares = s.shares := rfl
@[simp] theorem due_busy (e : Instr) (a b : Nat) (s : State) : (due e a s b).busy = s.busy := rfl
@[simp] theorem due_busyTo (e : Instr) (a b : Nat) (s : State) : (due e a s b).busyTo = s.busyTo := rfl
@[simp] theorem due_keyDels (e : Instr) (a b : Nat) (s : State) : (due e a s b).keyDels = s.keyDels := rfl
@[simp] theorem due_hg (e : Instr) (a b : Nat) (s : State) : (due e a s b).hg = s.hg := rfl
@[simp] theorem due_msix (e : Instr) (a b : Nat) (s : State) : (due e a s b).msix = s.msix := rfl
@[simp] theorem due_msgs (e : Instr) (a b : Nat) (s : State) : (due e a s b).msgs = s.msgs := rfl
@[simp] theorem due_answers (e : Instr) (a b : Nat) (s : State) : (due e a s b).answers = s.answers := rfl
@[simp] theorem due_mapBefore (e : Instr) (a b : Nat) (s : State) : (due e a s b).mapBefore = s.mapBefore := rfl
@[simp] theorem due_hostLines (e : Instr) (a b : Nat) (s : State) : (due e a s b).hostLines = s.hostLines := rfl
@[simp] theorem due_hostStores (e : Instr) (a b : Nat) (s : State) : (due e a s b).hostStores = s.hostStores := rfl
@[simp] theorem due_fresh (e : Instr) (a b : Nat) (s : State) : (due e a s b).fresh = s.fresh := rfl
@[simp] theorem due_nextId (e : Instr) (a b : Nat) (s : State) : (due e a s b).nextId = s.nextId := rfl
@[simp] theorem due_obj (e : Instr) (a b : Nat) (s : State) : (due e a s b).obj = s.obj := rfl
@[simp] theorem due_agenda (e : Instr) (a b : Nat) (s : State) : (due e a s b).agenda = s.agenda ++ [(e, a, b)] := rfl
@[simp] theorem due_sched (e : Instr) (a b : Nat) (s : State) : (due e a s b).sched = s.sched := rfl
@[simp] theorem due_turn (e : Instr) (a b : Nat) (s : State) : (due e a s b).turn = s.turn := rfl

/-! ## `setTeam` -/

@[simp] theorem setTeam_clk (s : State) (t : Team) : (setTeam s t).clk = s.clk := rfl
@[simp] theorem setTeam_power (s : State) (t : Team) : (setTeam s t).power = s.power := rfl
@[simp] theorem setTeam_mem (s : State) (t : Team) : (setTeam s t).mem = s.mem := rfl
@[simp] theorem setTeam_wts (s : State) (t : Team) : (setTeam s t).wts = s.wts := rfl
@[simp] theorem setTeam_rts (s : State) (t : Team) : (setTeam s t).rts = s.rts := rfl
@[simp] theorem setTeam_mt (s : State) (t : Team) : (setTeam s t).mt = s.mt := rfl
@[simp] theorem setTeam_sc (s : State) (t : Team) : (setTeam s t).sc = s.sc := rfl
@[simp] theorem setTeam_lineCode (s : State) (t : Team) : (setTeam s t).lineCode = s.lineCode := rfl
@[simp] theorem setTeam_flips (s : State) (t : Team) : (setTeam s t).flips = s.flips := rfl
@[simp] theorem setTeam_lineKey (s : State) (t : Team) : (setTeam s t).lineKey = s.lineKey := rfl
@[simp] theorem setTeam_copies (s : State) (t : Team) : (setTeam s t).copies = s.copies := rfl
@[simp] theorem setTeam_refused (s : State) (t : Team) : (setTeam s t).refused = s.refused := rfl
@[simp] theorem setTeam_monitors (s : State) (t : Team) : (setTeam s t).monitors = s.monitors := rfl
@[simp] theorem setTeam_tlb (s : State) (t : Team) : (setTeam s t).tlb = s.tlb := rfl
@[simp] theorem setTeam_icache (s : State) (t : Team) : (setTeam s t).icache = s.icache := rfl
@[simp] theorem setTeam_sysregs (s : State) (t : Team) : (setTeam s t).sysregs = s.sysregs := rfl
@[simp] theorem setTeam_staged (s : State) (t : Team) : (setTeam s t).staged = s.staged := rfl
@[simp] theorem setTeam_g (s : State) (t : Team) : (setTeam s t).g = s.g := rfl
@[simp] theorem setTeam_gangs (s : State) (t : Team) : (setTeam s t).gangs = s.gangs := rfl
@[simp] theorem setTeam_ops (s : State) (t : Team) : (setTeam s t).ops = s.ops := rfl
@[simp] theorem setTeam_teams (s : State) (t : Team) : (setTeam s t).teams = modFirst (·.uid == t.uid) (fun _ => t) s.teams := rfl
@[simp] theorem setTeam_tasks (s : State) (t : Team) : (setTeam s t).tasks = s.tasks := rfl
@[simp] theorem setTeam_ctxs (s : State) (t : Team) : (setTeam s t).ctxs = s.ctxs := rfl
@[simp] theorem setTeam_relays (s : State) (t : Team) : (setTeam s t).relays = s.relays := rfl
@[simp] theorem setTeam_tfree (s : State) (t : Team) : (setTeam s t).tfree = s.tfree := rfl
@[simp] theorem setTeam_mmas (s : State) (t : Team) : (setTeam s t).mmas = s.mmas := rfl
@[simp] theorem setTeam_merges (s : State) (t : Team) : (setTeam s t).merges = s.merges := rfl
@[simp] theorem setTeam_contribs (s : State) (t : Team) : (setTeam s t).contribs = s.contribs := rfl
@[simp] theorem setTeam_posts (s : State) (t : Team) : (setTeam s t).posts = s.posts := rfl
@[simp] theorem setTeam_laterals (s : State) (t : Team) : (setTeam s t).laterals = s.laterals := rfl
@[simp] theorem setTeam_subReqs (s : State) (t : Team) : (setTeam s t).subReqs = s.subReqs := rfl
@[simp] theorem setTeam_cohorts (s : State) (t : Team) : (setTeam s t).cohorts = s.cohorts := rfl
@[simp] theorem setTeam_canals (s : State) (t : Team) : (setTeam s t).canals = s.canals := rfl
@[simp] theorem setTeam_commits (s : State) (t : Team) : (setTeam s t).commits = s.commits := rfl
@[simp] theorem setTeam_takers (s : State) (t : Team) : (setTeam s t).takers = s.takers := rfl
@[simp] theorem setTeam_recs (s : State) (t : Team) : (setTeam s t).recs = s.recs := rfl
@[simp] theorem setTeam_banks (s : State) (t : Team) : (setTeam s t).banks = s.banks := rfl
@[simp] theorem setTeam_visits (s : State) (t : Team) : (setTeam s t).visits = s.visits := rfl
@[simp] theorem setTeam_classIn (s : State) (t : Team) : (setTeam s t).classIn = s.classIn := rfl
@[simp] theorem setTeam_scrap (s : State) (t : Team) : (setTeam s t).scrap = s.scrap := rfl
@[simp] theorem setTeam_scrapCtx (s : State) (t : Team) : (setTeam s t).scrapCtx = s.scrapCtx := rfl
@[simp] theorem setTeam_fifo (s : State) (t : Team) : (setTeam s t).fifo = s.fifo := rfl
@[simp] theorem setTeam_fifoCtx (s : State) (t : Team) : (setTeam s t).fifoCtx = s.fifoCtx := rfl
@[simp] theorem setTeam_adv (s : State) (t : Team) : (setTeam s t).adv = s.adv := rfl
@[simp] theorem setTeam_offers (s : State) (t : Team) : (setTeam s t).offers = s.offers := rfl
@[simp] theorem setTeam_counts (s : State) (t : Team) : (setTeam s t).counts = s.counts := rfl
@[simp] theorem setTeam_frames (s : State) (t : Team) : (setTeam s t).frames = s.frames := rfl
@[simp] theorem setTeam_demoting (s : State) (t : Team) : (setTeam s t).demoting = s.demoting := rfl
@[simp] theorem setTeam_storage (s : State) (t : Team) : (setTeam s t).storage = s.storage := rfl
@[simp] theorem setTeam_stored (s : State) (t : Team) : (setTeam s t).stored = s.stored := rfl
@[simp] theorem setTeam_qread (s : State) (t : Team) : (setTeam s t).qread = s.qread := rfl
@[simp] theorem setTeam_reports (s : State) (t : Team) : (setTeam s t).reports = s.reports := rfl
@[simp] theorem setTeam_shares (s : State) (t : Team) : (setTeam s t).shares = s.shares := rfl
@[simp] theorem setTeam_busy (s : State) (t : Team) : (setTeam s t).busy = s.busy := rfl
@[simp] theorem setTeam_busyTo (s : State) (t : Team) : (setTeam s t).busyTo = s.busyTo := rfl
@[simp] theorem setTeam_keyDels (s : State) (t : Team) : (setTeam s t).keyDels = s.keyDels := rfl
@[simp] theorem setTeam_hg (s : State) (t : Team) : (setTeam s t).hg = s.hg := rfl
@[simp] theorem setTeam_msix (s : State) (t : Team) : (setTeam s t).msix = s.msix := rfl
@[simp] theorem setTeam_msgs (s : State) (t : Team) : (setTeam s t).msgs = s.msgs := rfl
@[simp] theorem setTeam_answers (s : State) (t : Team) : (setTeam s t).answers = s.answers := rfl
@[simp] theorem setTeam_mapBefore (s : State) (t : Team) : (setTeam s t).mapBefore = s.mapBefore := rfl
@[simp] theorem setTeam_hostLines (s : State) (t : Team) : (setTeam s t).hostLines = s.hostLines := rfl
@[simp] theorem setTeam_hostStores (s : State) (t : Team) : (setTeam s t).hostStores = s.hostStores := rfl
@[simp] theorem setTeam_fresh (s : State) (t : Team) : (setTeam s t).fresh = s.fresh := rfl
@[simp] theorem setTeam_nextId (s : State) (t : Team) : (setTeam s t).nextId = s.nextId := rfl
@[simp] theorem setTeam_obj (s : State) (t : Team) : (setTeam s t).obj = s.obj := rfl
@[simp] theorem setTeam_agenda (s : State) (t : Team) : (setTeam s t).agenda = s.agenda := rfl
@[simp] theorem setTeam_sched (s : State) (t : Team) : (setTeam s t).sched = s.sched := rfl
@[simp] theorem setTeam_turn (s : State) (t : Team) : (setTeam s t).turn = s.turn := rfl

/-! ## `setTask` -/

@[simp] theorem setTask_clk (s : State) (k : Task) : (setTask s k).clk = s.clk := rfl
@[simp] theorem setTask_power (s : State) (k : Task) : (setTask s k).power = s.power := rfl
@[simp] theorem setTask_mem (s : State) (k : Task) : (setTask s k).mem = s.mem := rfl
@[simp] theorem setTask_wts (s : State) (k : Task) : (setTask s k).wts = s.wts := rfl
@[simp] theorem setTask_rts (s : State) (k : Task) : (setTask s k).rts = s.rts := rfl
@[simp] theorem setTask_mt (s : State) (k : Task) : (setTask s k).mt = s.mt := rfl
@[simp] theorem setTask_sc (s : State) (k : Task) : (setTask s k).sc = s.sc := rfl
@[simp] theorem setTask_lineCode (s : State) (k : Task) : (setTask s k).lineCode = s.lineCode := rfl
@[simp] theorem setTask_flips (s : State) (k : Task) : (setTask s k).flips = s.flips := rfl
@[simp] theorem setTask_lineKey (s : State) (k : Task) : (setTask s k).lineKey = s.lineKey := rfl
@[simp] theorem setTask_copies (s : State) (k : Task) : (setTask s k).copies = s.copies := rfl
@[simp] theorem setTask_refused (s : State) (k : Task) : (setTask s k).refused = s.refused := rfl
@[simp] theorem setTask_monitors (s : State) (k : Task) : (setTask s k).monitors = s.monitors := rfl
@[simp] theorem setTask_tlb (s : State) (k : Task) : (setTask s k).tlb = s.tlb := rfl
@[simp] theorem setTask_icache (s : State) (k : Task) : (setTask s k).icache = s.icache := rfl
@[simp] theorem setTask_sysregs (s : State) (k : Task) : (setTask s k).sysregs = s.sysregs := rfl
@[simp] theorem setTask_staged (s : State) (k : Task) : (setTask s k).staged = s.staged := rfl
@[simp] theorem setTask_g (s : State) (k : Task) : (setTask s k).g = s.g := rfl
@[simp] theorem setTask_gangs (s : State) (k : Task) : (setTask s k).gangs = s.gangs := rfl
@[simp] theorem setTask_ops (s : State) (k : Task) : (setTask s k).ops = s.ops := rfl
@[simp] theorem setTask_teams (s : State) (k : Task) : (setTask s k).teams = s.teams := rfl
@[simp] theorem setTask_tasks (s : State) (k : Task) : (setTask s k).tasks = modFirst (·.id == k.id) (fun _ => k) s.tasks := rfl
@[simp] theorem setTask_ctxs (s : State) (k : Task) : (setTask s k).ctxs = s.ctxs := rfl
@[simp] theorem setTask_relays (s : State) (k : Task) : (setTask s k).relays = s.relays := rfl
@[simp] theorem setTask_tfree (s : State) (k : Task) : (setTask s k).tfree = s.tfree := rfl
@[simp] theorem setTask_mmas (s : State) (k : Task) : (setTask s k).mmas = s.mmas := rfl
@[simp] theorem setTask_merges (s : State) (k : Task) : (setTask s k).merges = s.merges := rfl
@[simp] theorem setTask_contribs (s : State) (k : Task) : (setTask s k).contribs = s.contribs := rfl
@[simp] theorem setTask_posts (s : State) (k : Task) : (setTask s k).posts = s.posts := rfl
@[simp] theorem setTask_laterals (s : State) (k : Task) : (setTask s k).laterals = s.laterals := rfl
@[simp] theorem setTask_subReqs (s : State) (k : Task) : (setTask s k).subReqs = s.subReqs := rfl
@[simp] theorem setTask_cohorts (s : State) (k : Task) : (setTask s k).cohorts = s.cohorts := rfl
@[simp] theorem setTask_canals (s : State) (k : Task) : (setTask s k).canals = s.canals := rfl
@[simp] theorem setTask_commits (s : State) (k : Task) : (setTask s k).commits = s.commits := rfl
@[simp] theorem setTask_takers (s : State) (k : Task) : (setTask s k).takers = s.takers := rfl
@[simp] theorem setTask_recs (s : State) (k : Task) : (setTask s k).recs = s.recs := rfl
@[simp] theorem setTask_banks (s : State) (k : Task) : (setTask s k).banks = s.banks := rfl
@[simp] theorem setTask_visits (s : State) (k : Task) : (setTask s k).visits = s.visits := rfl
@[simp] theorem setTask_classIn (s : State) (k : Task) : (setTask s k).classIn = s.classIn := rfl
@[simp] theorem setTask_scrap (s : State) (k : Task) : (setTask s k).scrap = s.scrap := rfl
@[simp] theorem setTask_scrapCtx (s : State) (k : Task) : (setTask s k).scrapCtx = s.scrapCtx := rfl
@[simp] theorem setTask_fifo (s : State) (k : Task) : (setTask s k).fifo = s.fifo := rfl
@[simp] theorem setTask_fifoCtx (s : State) (k : Task) : (setTask s k).fifoCtx = s.fifoCtx := rfl
@[simp] theorem setTask_adv (s : State) (k : Task) : (setTask s k).adv = s.adv := rfl
@[simp] theorem setTask_offers (s : State) (k : Task) : (setTask s k).offers = s.offers := rfl
@[simp] theorem setTask_counts (s : State) (k : Task) : (setTask s k).counts = s.counts := rfl
@[simp] theorem setTask_frames (s : State) (k : Task) : (setTask s k).frames = s.frames := rfl
@[simp] theorem setTask_demoting (s : State) (k : Task) : (setTask s k).demoting = s.demoting := rfl
@[simp] theorem setTask_storage (s : State) (k : Task) : (setTask s k).storage = s.storage := rfl
@[simp] theorem setTask_stored (s : State) (k : Task) : (setTask s k).stored = s.stored := rfl
@[simp] theorem setTask_qread (s : State) (k : Task) : (setTask s k).qread = s.qread := rfl
@[simp] theorem setTask_reports (s : State) (k : Task) : (setTask s k).reports = s.reports := rfl
@[simp] theorem setTask_shares (s : State) (k : Task) : (setTask s k).shares = s.shares := rfl
@[simp] theorem setTask_busy (s : State) (k : Task) : (setTask s k).busy = s.busy := rfl
@[simp] theorem setTask_busyTo (s : State) (k : Task) : (setTask s k).busyTo = s.busyTo := rfl
@[simp] theorem setTask_keyDels (s : State) (k : Task) : (setTask s k).keyDels = s.keyDels := rfl
@[simp] theorem setTask_hg (s : State) (k : Task) : (setTask s k).hg = s.hg := rfl
@[simp] theorem setTask_msix (s : State) (k : Task) : (setTask s k).msix = s.msix := rfl
@[simp] theorem setTask_msgs (s : State) (k : Task) : (setTask s k).msgs = s.msgs := rfl
@[simp] theorem setTask_answers (s : State) (k : Task) : (setTask s k).answers = s.answers := rfl
@[simp] theorem setTask_mapBefore (s : State) (k : Task) : (setTask s k).mapBefore = s.mapBefore := rfl
@[simp] theorem setTask_hostLines (s : State) (k : Task) : (setTask s k).hostLines = s.hostLines := rfl
@[simp] theorem setTask_hostStores (s : State) (k : Task) : (setTask s k).hostStores = s.hostStores := rfl
@[simp] theorem setTask_fresh (s : State) (k : Task) : (setTask s k).fresh = s.fresh := rfl
@[simp] theorem setTask_nextId (s : State) (k : Task) : (setTask s k).nextId = s.nextId := rfl
@[simp] theorem setTask_obj (s : State) (k : Task) : (setTask s k).obj = s.obj := rfl
@[simp] theorem setTask_agenda (s : State) (k : Task) : (setTask s k).agenda = s.agenda := rfl
@[simp] theorem setTask_sched (s : State) (k : Task) : (setTask s k).sched = s.sched := rfl
@[simp] theorem setTask_turn (s : State) (k : Task) : (setTask s k).turn = s.turn := rfl

/-! ## `setCtx` -/

@[simp] theorem setCtx_clk (s : State) (c : Context) : (setCtx s c).clk = s.clk := rfl
@[simp] theorem setCtx_power (s : State) (c : Context) : (setCtx s c).power = s.power := rfl
@[simp] theorem setCtx_mem (s : State) (c : Context) : (setCtx s c).mem = s.mem := rfl
@[simp] theorem setCtx_wts (s : State) (c : Context) : (setCtx s c).wts = s.wts := rfl
@[simp] theorem setCtx_rts (s : State) (c : Context) : (setCtx s c).rts = s.rts := rfl
@[simp] theorem setCtx_mt (s : State) (c : Context) : (setCtx s c).mt = s.mt := rfl
@[simp] theorem setCtx_sc (s : State) (c : Context) : (setCtx s c).sc = s.sc := rfl
@[simp] theorem setCtx_lineCode (s : State) (c : Context) : (setCtx s c).lineCode = s.lineCode := rfl
@[simp] theorem setCtx_flips (s : State) (c : Context) : (setCtx s c).flips = s.flips := rfl
@[simp] theorem setCtx_lineKey (s : State) (c : Context) : (setCtx s c).lineKey = s.lineKey := rfl
@[simp] theorem setCtx_copies (s : State) (c : Context) : (setCtx s c).copies = s.copies := rfl
@[simp] theorem setCtx_refused (s : State) (c : Context) : (setCtx s c).refused = s.refused := rfl
@[simp] theorem setCtx_monitors (s : State) (c : Context) : (setCtx s c).monitors = s.monitors := rfl
@[simp] theorem setCtx_tlb (s : State) (c : Context) : (setCtx s c).tlb = s.tlb := rfl
@[simp] theorem setCtx_icache (s : State) (c : Context) : (setCtx s c).icache = s.icache := rfl
@[simp] theorem setCtx_sysregs (s : State) (c : Context) : (setCtx s c).sysregs = s.sysregs := rfl
@[simp] theorem setCtx_staged (s : State) (c : Context) : (setCtx s c).staged = s.staged := rfl
@[simp] theorem setCtx_g (s : State) (c : Context) : (setCtx s c).g = s.g := rfl
@[simp] theorem setCtx_gangs (s : State) (c : Context) : (setCtx s c).gangs = s.gangs := rfl
@[simp] theorem setCtx_ops (s : State) (c : Context) : (setCtx s c).ops = s.ops := rfl
@[simp] theorem setCtx_teams (s : State) (c : Context) : (setCtx s c).teams = s.teams := rfl
@[simp] theorem setCtx_tasks (s : State) (c : Context) : (setCtx s c).tasks = s.tasks := rfl
@[simp] theorem setCtx_ctxs (s : State) (c : Context) : (setCtx s c).ctxs = modFirst (·.id == c.id) (fun _ => c) s.ctxs := rfl
@[simp] theorem setCtx_relays (s : State) (c : Context) : (setCtx s c).relays = s.relays := rfl
@[simp] theorem setCtx_tfree (s : State) (c : Context) : (setCtx s c).tfree = s.tfree := rfl
@[simp] theorem setCtx_mmas (s : State) (c : Context) : (setCtx s c).mmas = s.mmas := rfl
@[simp] theorem setCtx_merges (s : State) (c : Context) : (setCtx s c).merges = s.merges := rfl
@[simp] theorem setCtx_contribs (s : State) (c : Context) : (setCtx s c).contribs = s.contribs := rfl
@[simp] theorem setCtx_posts (s : State) (c : Context) : (setCtx s c).posts = s.posts := rfl
@[simp] theorem setCtx_laterals (s : State) (c : Context) : (setCtx s c).laterals = s.laterals := rfl
@[simp] theorem setCtx_subReqs (s : State) (c : Context) : (setCtx s c).subReqs = s.subReqs := rfl
@[simp] theorem setCtx_cohorts (s : State) (c : Context) : (setCtx s c).cohorts = s.cohorts := rfl
@[simp] theorem setCtx_canals (s : State) (c : Context) : (setCtx s c).canals = s.canals := rfl
@[simp] theorem setCtx_commits (s : State) (c : Context) : (setCtx s c).commits = s.commits := rfl
@[simp] theorem setCtx_takers (s : State) (c : Context) : (setCtx s c).takers = s.takers := rfl
@[simp] theorem setCtx_recs (s : State) (c : Context) : (setCtx s c).recs = s.recs := rfl
@[simp] theorem setCtx_banks (s : State) (c : Context) : (setCtx s c).banks = s.banks := rfl
@[simp] theorem setCtx_visits (s : State) (c : Context) : (setCtx s c).visits = s.visits := rfl
@[simp] theorem setCtx_classIn (s : State) (c : Context) : (setCtx s c).classIn = s.classIn := rfl
@[simp] theorem setCtx_scrap (s : State) (c : Context) : (setCtx s c).scrap = s.scrap := rfl
@[simp] theorem setCtx_scrapCtx (s : State) (c : Context) : (setCtx s c).scrapCtx = s.scrapCtx := rfl
@[simp] theorem setCtx_fifo (s : State) (c : Context) : (setCtx s c).fifo = s.fifo := rfl
@[simp] theorem setCtx_fifoCtx (s : State) (c : Context) : (setCtx s c).fifoCtx = s.fifoCtx := rfl
@[simp] theorem setCtx_adv (s : State) (c : Context) : (setCtx s c).adv = s.adv := rfl
@[simp] theorem setCtx_offers (s : State) (c : Context) : (setCtx s c).offers = s.offers := rfl
@[simp] theorem setCtx_counts (s : State) (c : Context) : (setCtx s c).counts = s.counts := rfl
@[simp] theorem setCtx_frames (s : State) (c : Context) : (setCtx s c).frames = s.frames := rfl
@[simp] theorem setCtx_demoting (s : State) (c : Context) : (setCtx s c).demoting = s.demoting := rfl
@[simp] theorem setCtx_storage (s : State) (c : Context) : (setCtx s c).storage = s.storage := rfl
@[simp] theorem setCtx_stored (s : State) (c : Context) : (setCtx s c).stored = s.stored := rfl
@[simp] theorem setCtx_qread (s : State) (c : Context) : (setCtx s c).qread = s.qread := rfl
@[simp] theorem setCtx_reports (s : State) (c : Context) : (setCtx s c).reports = s.reports := rfl
@[simp] theorem setCtx_shares (s : State) (c : Context) : (setCtx s c).shares = s.shares := rfl
@[simp] theorem setCtx_busy (s : State) (c : Context) : (setCtx s c).busy = s.busy := rfl
@[simp] theorem setCtx_busyTo (s : State) (c : Context) : (setCtx s c).busyTo = s.busyTo := rfl
@[simp] theorem setCtx_keyDels (s : State) (c : Context) : (setCtx s c).keyDels = s.keyDels := rfl
@[simp] theorem setCtx_hg (s : State) (c : Context) : (setCtx s c).hg = s.hg := rfl
@[simp] theorem setCtx_msix (s : State) (c : Context) : (setCtx s c).msix = s.msix := rfl
@[simp] theorem setCtx_msgs (s : State) (c : Context) : (setCtx s c).msgs = s.msgs := rfl
@[simp] theorem setCtx_answers (s : State) (c : Context) : (setCtx s c).answers = s.answers := rfl
@[simp] theorem setCtx_mapBefore (s : State) (c : Context) : (setCtx s c).mapBefore = s.mapBefore := rfl
@[simp] theorem setCtx_hostLines (s : State) (c : Context) : (setCtx s c).hostLines = s.hostLines := rfl
@[simp] theorem setCtx_hostStores (s : State) (c : Context) : (setCtx s c).hostStores = s.hostStores := rfl
@[simp] theorem setCtx_fresh (s : State) (c : Context) : (setCtx s c).fresh = s.fresh := rfl
@[simp] theorem setCtx_nextId (s : State) (c : Context) : (setCtx s c).nextId = s.nextId := rfl
@[simp] theorem setCtx_obj (s : State) (c : Context) : (setCtx s c).obj = s.obj := rfl
@[simp] theorem setCtx_agenda (s : State) (c : Context) : (setCtx s c).agenda = s.agenda := rfl
@[simp] theorem setCtx_sched (s : State) (c : Context) : (setCtx s c).sched = s.sched := rfl
@[simp] theorem setCtx_turn (s : State) (c : Context) : (setCtx s c).turn = s.turn := rfl

/-! ## `setOp` -/

@[simp] theorem setOp_clk (s : State) (o : Op) : (setOp s o).clk = s.clk := rfl
@[simp] theorem setOp_power (s : State) (o : Op) : (setOp s o).power = s.power := rfl
@[simp] theorem setOp_mem (s : State) (o : Op) : (setOp s o).mem = s.mem := rfl
@[simp] theorem setOp_wts (s : State) (o : Op) : (setOp s o).wts = s.wts := rfl
@[simp] theorem setOp_rts (s : State) (o : Op) : (setOp s o).rts = s.rts := rfl
@[simp] theorem setOp_mt (s : State) (o : Op) : (setOp s o).mt = s.mt := rfl
@[simp] theorem setOp_sc (s : State) (o : Op) : (setOp s o).sc = s.sc := rfl
@[simp] theorem setOp_lineCode (s : State) (o : Op) : (setOp s o).lineCode = s.lineCode := rfl
@[simp] theorem setOp_flips (s : State) (o : Op) : (setOp s o).flips = s.flips := rfl
@[simp] theorem setOp_lineKey (s : State) (o : Op) : (setOp s o).lineKey = s.lineKey := rfl
@[simp] theorem setOp_copies (s : State) (o : Op) : (setOp s o).copies = s.copies := rfl
@[simp] theorem setOp_refused (s : State) (o : Op) : (setOp s o).refused = s.refused := rfl
@[simp] theorem setOp_monitors (s : State) (o : Op) : (setOp s o).monitors = s.monitors := rfl
@[simp] theorem setOp_tlb (s : State) (o : Op) : (setOp s o).tlb = s.tlb := rfl
@[simp] theorem setOp_icache (s : State) (o : Op) : (setOp s o).icache = s.icache := rfl
@[simp] theorem setOp_sysregs (s : State) (o : Op) : (setOp s o).sysregs = s.sysregs := rfl
@[simp] theorem setOp_staged (s : State) (o : Op) : (setOp s o).staged = s.staged := rfl
@[simp] theorem setOp_g (s : State) (o : Op) : (setOp s o).g = s.g := rfl
@[simp] theorem setOp_gangs (s : State) (o : Op) : (setOp s o).gangs = s.gangs := rfl
@[simp] theorem setOp_ops (s : State) (o : Op) : (setOp s o).ops = modFirst (·.id == o.id) (fun _ => o) s.ops := rfl
@[simp] theorem setOp_teams (s : State) (o : Op) : (setOp s o).teams = s.teams := rfl
@[simp] theorem setOp_tasks (s : State) (o : Op) : (setOp s o).tasks = s.tasks := rfl
@[simp] theorem setOp_ctxs (s : State) (o : Op) : (setOp s o).ctxs = s.ctxs := rfl
@[simp] theorem setOp_relays (s : State) (o : Op) : (setOp s o).relays = s.relays := rfl
@[simp] theorem setOp_tfree (s : State) (o : Op) : (setOp s o).tfree = s.tfree := rfl
@[simp] theorem setOp_mmas (s : State) (o : Op) : (setOp s o).mmas = s.mmas := rfl
@[simp] theorem setOp_merges (s : State) (o : Op) : (setOp s o).merges = s.merges := rfl
@[simp] theorem setOp_contribs (s : State) (o : Op) : (setOp s o).contribs = s.contribs := rfl
@[simp] theorem setOp_posts (s : State) (o : Op) : (setOp s o).posts = s.posts := rfl
@[simp] theorem setOp_laterals (s : State) (o : Op) : (setOp s o).laterals = s.laterals := rfl
@[simp] theorem setOp_subReqs (s : State) (o : Op) : (setOp s o).subReqs = s.subReqs := rfl
@[simp] theorem setOp_cohorts (s : State) (o : Op) : (setOp s o).cohorts = s.cohorts := rfl
@[simp] theorem setOp_canals (s : State) (o : Op) : (setOp s o).canals = s.canals := rfl
@[simp] theorem setOp_commits (s : State) (o : Op) : (setOp s o).commits = s.commits := rfl
@[simp] theorem setOp_takers (s : State) (o : Op) : (setOp s o).takers = s.takers := rfl
@[simp] theorem setOp_recs (s : State) (o : Op) : (setOp s o).recs = s.recs := rfl
@[simp] theorem setOp_banks (s : State) (o : Op) : (setOp s o).banks = s.banks := rfl
@[simp] theorem setOp_visits (s : State) (o : Op) : (setOp s o).visits = s.visits := rfl
@[simp] theorem setOp_classIn (s : State) (o : Op) : (setOp s o).classIn = s.classIn := rfl
@[simp] theorem setOp_scrap (s : State) (o : Op) : (setOp s o).scrap = s.scrap := rfl
@[simp] theorem setOp_scrapCtx (s : State) (o : Op) : (setOp s o).scrapCtx = s.scrapCtx := rfl
@[simp] theorem setOp_fifo (s : State) (o : Op) : (setOp s o).fifo = s.fifo := rfl
@[simp] theorem setOp_fifoCtx (s : State) (o : Op) : (setOp s o).fifoCtx = s.fifoCtx := rfl
@[simp] theorem setOp_adv (s : State) (o : Op) : (setOp s o).adv = s.adv := rfl
@[simp] theorem setOp_offers (s : State) (o : Op) : (setOp s o).offers = s.offers := rfl
@[simp] theorem setOp_counts (s : State) (o : Op) : (setOp s o).counts = s.counts := rfl
@[simp] theorem setOp_frames (s : State) (o : Op) : (setOp s o).frames = s.frames := rfl
@[simp] theorem setOp_demoting (s : State) (o : Op) : (setOp s o).demoting = s.demoting := rfl
@[simp] theorem setOp_storage (s : State) (o : Op) : (setOp s o).storage = s.storage := rfl
@[simp] theorem setOp_stored (s : State) (o : Op) : (setOp s o).stored = s.stored := rfl
@[simp] theorem setOp_qread (s : State) (o : Op) : (setOp s o).qread = s.qread := rfl
@[simp] theorem setOp_reports (s : State) (o : Op) : (setOp s o).reports = s.reports := rfl
@[simp] theorem setOp_shares (s : State) (o : Op) : (setOp s o).shares = s.shares := rfl
@[simp] theorem setOp_busy (s : State) (o : Op) : (setOp s o).busy = s.busy := rfl
@[simp] theorem setOp_busyTo (s : State) (o : Op) : (setOp s o).busyTo = s.busyTo := rfl
@[simp] theorem setOp_keyDels (s : State) (o : Op) : (setOp s o).keyDels = s.keyDels := rfl
@[simp] theorem setOp_hg (s : State) (o : Op) : (setOp s o).hg = s.hg := rfl
@[simp] theorem setOp_msix (s : State) (o : Op) : (setOp s o).msix = s.msix := rfl
@[simp] theorem setOp_msgs (s : State) (o : Op) : (setOp s o).msgs = s.msgs := rfl
@[simp] theorem setOp_answers (s : State) (o : Op) : (setOp s o).answers = s.answers := rfl
@[simp] theorem setOp_mapBefore (s : State) (o : Op) : (setOp s o).mapBefore = s.mapBefore := rfl
@[simp] theorem setOp_hostLines (s : State) (o : Op) : (setOp s o).hostLines = s.hostLines := rfl
@[simp] theorem setOp_hostStores (s : State) (o : Op) : (setOp s o).hostStores = s.hostStores := rfl
@[simp] theorem setOp_fresh (s : State) (o : Op) : (setOp s o).fresh = s.fresh := rfl
@[simp] theorem setOp_nextId (s : State) (o : Op) : (setOp s o).nextId = s.nextId := rfl
@[simp] theorem setOp_obj (s : State) (o : Op) : (setOp s o).obj = s.obj := rfl
@[simp] theorem setOp_agenda (s : State) (o : Op) : (setOp s o).agenda = s.agenda := rfl
@[simp] theorem setOp_sched (s : State) (o : Op) : (setOp s o).sched = s.sched := rfl
@[simp] theorem setOp_turn (s : State) (o : Op) : (setOp s o).turn = s.turn := rfl

/-! ## `setRelay` -/

@[simp] theorem setRelay_clk (s : State) (r : Relay) : (setRelay s r).clk = s.clk := rfl
@[simp] theorem setRelay_power (s : State) (r : Relay) : (setRelay s r).power = s.power := rfl
@[simp] theorem setRelay_mem (s : State) (r : Relay) : (setRelay s r).mem = s.mem := rfl
@[simp] theorem setRelay_wts (s : State) (r : Relay) : (setRelay s r).wts = s.wts := rfl
@[simp] theorem setRelay_rts (s : State) (r : Relay) : (setRelay s r).rts = s.rts := rfl
@[simp] theorem setRelay_mt (s : State) (r : Relay) : (setRelay s r).mt = s.mt := rfl
@[simp] theorem setRelay_sc (s : State) (r : Relay) : (setRelay s r).sc = s.sc := rfl
@[simp] theorem setRelay_lineCode (s : State) (r : Relay) : (setRelay s r).lineCode = s.lineCode := rfl
@[simp] theorem setRelay_flips (s : State) (r : Relay) : (setRelay s r).flips = s.flips := rfl
@[simp] theorem setRelay_lineKey (s : State) (r : Relay) : (setRelay s r).lineKey = s.lineKey := rfl
@[simp] theorem setRelay_copies (s : State) (r : Relay) : (setRelay s r).copies = s.copies := rfl
@[simp] theorem setRelay_refused (s : State) (r : Relay) : (setRelay s r).refused = s.refused := rfl
@[simp] theorem setRelay_monitors (s : State) (r : Relay) : (setRelay s r).monitors = s.monitors := rfl
@[simp] theorem setRelay_tlb (s : State) (r : Relay) : (setRelay s r).tlb = s.tlb := rfl
@[simp] theorem setRelay_icache (s : State) (r : Relay) : (setRelay s r).icache = s.icache := rfl
@[simp] theorem setRelay_sysregs (s : State) (r : Relay) : (setRelay s r).sysregs = s.sysregs := rfl
@[simp] theorem setRelay_staged (s : State) (r : Relay) : (setRelay s r).staged = s.staged := rfl
@[simp] theorem setRelay_g (s : State) (r : Relay) : (setRelay s r).g = s.g := rfl
@[simp] theorem setRelay_gangs (s : State) (r : Relay) : (setRelay s r).gangs = s.gangs := rfl
@[simp] theorem setRelay_ops (s : State) (r : Relay) : (setRelay s r).ops = s.ops := rfl
@[simp] theorem setRelay_teams (s : State) (r : Relay) : (setRelay s r).teams = s.teams := rfl
@[simp] theorem setRelay_tasks (s : State) (r : Relay) : (setRelay s r).tasks = s.tasks := rfl
@[simp] theorem setRelay_ctxs (s : State) (r : Relay) : (setRelay s r).ctxs = s.ctxs := rfl
@[simp] theorem setRelay_relays (s : State) (r : Relay) : (setRelay s r).relays = modFirst (·.id == r.id) (fun _ => r) s.relays := rfl
@[simp] theorem setRelay_tfree (s : State) (r : Relay) : (setRelay s r).tfree = s.tfree := rfl
@[simp] theorem setRelay_mmas (s : State) (r : Relay) : (setRelay s r).mmas = s.mmas := rfl
@[simp] theorem setRelay_merges (s : State) (r : Relay) : (setRelay s r).merges = s.merges := rfl
@[simp] theorem setRelay_contribs (s : State) (r : Relay) : (setRelay s r).contribs = s.contribs := rfl
@[simp] theorem setRelay_posts (s : State) (r : Relay) : (setRelay s r).posts = s.posts := rfl
@[simp] theorem setRelay_laterals (s : State) (r : Relay) : (setRelay s r).laterals = s.laterals := rfl
@[simp] theorem setRelay_subReqs (s : State) (r : Relay) : (setRelay s r).subReqs = s.subReqs := rfl
@[simp] theorem setRelay_cohorts (s : State) (r : Relay) : (setRelay s r).cohorts = s.cohorts := rfl
@[simp] theorem setRelay_canals (s : State) (r : Relay) : (setRelay s r).canals = s.canals := rfl
@[simp] theorem setRelay_commits (s : State) (r : Relay) : (setRelay s r).commits = s.commits := rfl
@[simp] theorem setRelay_takers (s : State) (r : Relay) : (setRelay s r).takers = s.takers := rfl
@[simp] theorem setRelay_recs (s : State) (r : Relay) : (setRelay s r).recs = s.recs := rfl
@[simp] theorem setRelay_banks (s : State) (r : Relay) : (setRelay s r).banks = s.banks := rfl
@[simp] theorem setRelay_visits (s : State) (r : Relay) : (setRelay s r).visits = s.visits := rfl
@[simp] theorem setRelay_classIn (s : State) (r : Relay) : (setRelay s r).classIn = s.classIn := rfl
@[simp] theorem setRelay_scrap (s : State) (r : Relay) : (setRelay s r).scrap = s.scrap := rfl
@[simp] theorem setRelay_scrapCtx (s : State) (r : Relay) : (setRelay s r).scrapCtx = s.scrapCtx := rfl
@[simp] theorem setRelay_fifo (s : State) (r : Relay) : (setRelay s r).fifo = s.fifo := rfl
@[simp] theorem setRelay_fifoCtx (s : State) (r : Relay) : (setRelay s r).fifoCtx = s.fifoCtx := rfl
@[simp] theorem setRelay_adv (s : State) (r : Relay) : (setRelay s r).adv = s.adv := rfl
@[simp] theorem setRelay_offers (s : State) (r : Relay) : (setRelay s r).offers = s.offers := rfl
@[simp] theorem setRelay_counts (s : State) (r : Relay) : (setRelay s r).counts = s.counts := rfl
@[simp] theorem setRelay_frames (s : State) (r : Relay) : (setRelay s r).frames = s.frames := rfl
@[simp] theorem setRelay_demoting (s : State) (r : Relay) : (setRelay s r).demoting = s.demoting := rfl
@[simp] theorem setRelay_storage (s : State) (r : Relay) : (setRelay s r).storage = s.storage := rfl
@[simp] theorem setRelay_stored (s : State) (r : Relay) : (setRelay s r).stored = s.stored := rfl
@[simp] theorem setRelay_qread (s : State) (r : Relay) : (setRelay s r).qread = s.qread := rfl
@[simp] theorem setRelay_reports (s : State) (r : Relay) : (setRelay s r).reports = s.reports := rfl
@[simp] theorem setRelay_shares (s : State) (r : Relay) : (setRelay s r).shares = s.shares := rfl
@[simp] theorem setRelay_busy (s : State) (r : Relay) : (setRelay s r).busy = s.busy := rfl
@[simp] theorem setRelay_busyTo (s : State) (r : Relay) : (setRelay s r).busyTo = s.busyTo := rfl
@[simp] theorem setRelay_keyDels (s : State) (r : Relay) : (setRelay s r).keyDels = s.keyDels := rfl
@[simp] theorem setRelay_hg (s : State) (r : Relay) : (setRelay s r).hg = s.hg := rfl
@[simp] theorem setRelay_msix (s : State) (r : Relay) : (setRelay s r).msix = s.msix := rfl
@[simp] theorem setRelay_msgs (s : State) (r : Relay) : (setRelay s r).msgs = s.msgs := rfl
@[simp] theorem setRelay_answers (s : State) (r : Relay) : (setRelay s r).answers = s.answers := rfl
@[simp] theorem setRelay_mapBefore (s : State) (r : Relay) : (setRelay s r).mapBefore = s.mapBefore := rfl
@[simp] theorem setRelay_hostLines (s : State) (r : Relay) : (setRelay s r).hostLines = s.hostLines := rfl
@[simp] theorem setRelay_hostStores (s : State) (r : Relay) : (setRelay s r).hostStores = s.hostStores := rfl
@[simp] theorem setRelay_fresh (s : State) (r : Relay) : (setRelay s r).fresh = s.fresh := rfl
@[simp] theorem setRelay_nextId (s : State) (r : Relay) : (setRelay s r).nextId = s.nextId := rfl
@[simp] theorem setRelay_obj (s : State) (r : Relay) : (setRelay s r).obj = s.obj := rfl
@[simp] theorem setRelay_agenda (s : State) (r : Relay) : (setRelay s r).agenda = s.agenda := rfl
@[simp] theorem setRelay_sched (s : State) (r : Relay) : (setRelay s r).sched = s.sched := rfl
@[simp] theorem setRelay_turn (s : State) (r : Relay) : (setRelay s r).turn = s.turn := rfl

/-! ## `regSet` -/

@[simp] theorem regSet_clk (s : State) (n i : Nat) (v : DWord) : (regSet s n i v).clk = s.clk := rfl
@[simp] theorem regSet_power (s : State) (n i : Nat) (v : DWord) : (regSet s n i v).power = s.power := rfl
@[simp] theorem regSet_mem (s : State) (n i : Nat) (v : DWord) : (regSet s n i v).mem = s.mem := rfl
@[simp] theorem regSet_wts (s : State) (n i : Nat) (v : DWord) : (regSet s n i v).wts = s.wts := rfl
@[simp] theorem regSet_rts (s : State) (n i : Nat) (v : DWord) : (regSet s n i v).rts = s.rts := rfl
@[simp] theorem regSet_mt (s : State) (n i : Nat) (v : DWord) : (regSet s n i v).mt = s.mt := rfl
@[simp] theorem regSet_sc (s : State) (n i : Nat) (v : DWord) : (regSet s n i v).sc = s.sc := rfl
@[simp] theorem regSet_lineCode (s : State) (n i : Nat) (v : DWord) : (regSet s n i v).lineCode = s.lineCode := rfl
@[simp] theorem regSet_flips (s : State) (n i : Nat) (v : DWord) : (regSet s n i v).flips = s.flips := rfl
@[simp] theorem regSet_lineKey (s : State) (n i : Nat) (v : DWord) : (regSet s n i v).lineKey = s.lineKey := rfl
@[simp] theorem regSet_copies (s : State) (n i : Nat) (v : DWord) : (regSet s n i v).copies = s.copies := rfl
@[simp] theorem regSet_refused (s : State) (n i : Nat) (v : DWord) : (regSet s n i v).refused = s.refused := rfl
@[simp] theorem regSet_monitors (s : State) (n i : Nat) (v : DWord) : (regSet s n i v).monitors = s.monitors := rfl
@[simp] theorem regSet_tlb (s : State) (n i : Nat) (v : DWord) : (regSet s n i v).tlb = s.tlb := rfl
@[simp] theorem regSet_icache (s : State) (n i : Nat) (v : DWord) : (regSet s n i v).icache = s.icache := rfl
@[simp] theorem regSet_sysregs (s : State) (n i : Nat) (v : DWord) : (regSet s n i v).sysregs = tset regReset s.sysregs (regKey n i) v := rfl
@[simp] theorem regSet_staged (s : State) (n i : Nat) (v : DWord) : (regSet s n i v).staged = s.staged := rfl
@[simp] theorem regSet_g (s : State) (n i : Nat) (v : DWord) : (regSet s n i v).g = s.g := rfl
@[simp] theorem regSet_gangs (s : State) (n i : Nat) (v : DWord) : (regSet s n i v).gangs = s.gangs := rfl
@[simp] theorem regSet_ops (s : State) (n i : Nat) (v : DWord) : (regSet s n i v).ops = s.ops := rfl
@[simp] theorem regSet_teams (s : State) (n i : Nat) (v : DWord) : (regSet s n i v).teams = s.teams := rfl
@[simp] theorem regSet_tasks (s : State) (n i : Nat) (v : DWord) : (regSet s n i v).tasks = s.tasks := rfl
@[simp] theorem regSet_ctxs (s : State) (n i : Nat) (v : DWord) : (regSet s n i v).ctxs = s.ctxs := rfl
@[simp] theorem regSet_relays (s : State) (n i : Nat) (v : DWord) : (regSet s n i v).relays = s.relays := rfl
@[simp] theorem regSet_tfree (s : State) (n i : Nat) (v : DWord) : (regSet s n i v).tfree = s.tfree := rfl
@[simp] theorem regSet_mmas (s : State) (n i : Nat) (v : DWord) : (regSet s n i v).mmas = s.mmas := rfl
@[simp] theorem regSet_merges (s : State) (n i : Nat) (v : DWord) : (regSet s n i v).merges = s.merges := rfl
@[simp] theorem regSet_contribs (s : State) (n i : Nat) (v : DWord) : (regSet s n i v).contribs = s.contribs := rfl
@[simp] theorem regSet_posts (s : State) (n i : Nat) (v : DWord) : (regSet s n i v).posts = s.posts := rfl
@[simp] theorem regSet_laterals (s : State) (n i : Nat) (v : DWord) : (regSet s n i v).laterals = s.laterals := rfl
@[simp] theorem regSet_subReqs (s : State) (n i : Nat) (v : DWord) : (regSet s n i v).subReqs = s.subReqs := rfl
@[simp] theorem regSet_cohorts (s : State) (n i : Nat) (v : DWord) : (regSet s n i v).cohorts = s.cohorts := rfl
@[simp] theorem regSet_canals (s : State) (n i : Nat) (v : DWord) : (regSet s n i v).canals = s.canals := rfl
@[simp] theorem regSet_commits (s : State) (n i : Nat) (v : DWord) : (regSet s n i v).commits = s.commits := rfl
@[simp] theorem regSet_takers (s : State) (n i : Nat) (v : DWord) : (regSet s n i v).takers = s.takers := rfl
@[simp] theorem regSet_recs (s : State) (n i : Nat) (v : DWord) : (regSet s n i v).recs = s.recs := rfl
@[simp] theorem regSet_banks (s : State) (n i : Nat) (v : DWord) : (regSet s n i v).banks = s.banks := rfl
@[simp] theorem regSet_visits (s : State) (n i : Nat) (v : DWord) : (regSet s n i v).visits = s.visits := rfl
@[simp] theorem regSet_classIn (s : State) (n i : Nat) (v : DWord) : (regSet s n i v).classIn = s.classIn := rfl
@[simp] theorem regSet_scrap (s : State) (n i : Nat) (v : DWord) : (regSet s n i v).scrap = s.scrap := rfl
@[simp] theorem regSet_scrapCtx (s : State) (n i : Nat) (v : DWord) : (regSet s n i v).scrapCtx = s.scrapCtx := rfl
@[simp] theorem regSet_fifo (s : State) (n i : Nat) (v : DWord) : (regSet s n i v).fifo = s.fifo := rfl
@[simp] theorem regSet_fifoCtx (s : State) (n i : Nat) (v : DWord) : (regSet s n i v).fifoCtx = s.fifoCtx := rfl
@[simp] theorem regSet_adv (s : State) (n i : Nat) (v : DWord) : (regSet s n i v).adv = s.adv := rfl
@[simp] theorem regSet_offers (s : State) (n i : Nat) (v : DWord) : (regSet s n i v).offers = s.offers := rfl
@[simp] theorem regSet_counts (s : State) (n i : Nat) (v : DWord) : (regSet s n i v).counts = s.counts := rfl
@[simp] theorem regSet_frames (s : State) (n i : Nat) (v : DWord) : (regSet s n i v).frames = s.frames := rfl
@[simp] theorem regSet_demoting (s : State) (n i : Nat) (v : DWord) : (regSet s n i v).demoting = s.demoting := rfl
@[simp] theorem regSet_storage (s : State) (n i : Nat) (v : DWord) : (regSet s n i v).storage = s.storage := rfl
@[simp] theorem regSet_stored (s : State) (n i : Nat) (v : DWord) : (regSet s n i v).stored = s.stored := rfl
@[simp] theorem regSet_qread (s : State) (n i : Nat) (v : DWord) : (regSet s n i v).qread = s.qread := rfl
@[simp] theorem regSet_reports (s : State) (n i : Nat) (v : DWord) : (regSet s n i v).reports = s.reports := rfl
@[simp] theorem regSet_shares (s : State) (n i : Nat) (v : DWord) : (regSet s n i v).shares = s.shares := rfl
@[simp] theorem regSet_busy (s : State) (n i : Nat) (v : DWord) : (regSet s n i v).busy = s.busy := rfl
@[simp] theorem regSet_busyTo (s : State) (n i : Nat) (v : DWord) : (regSet s n i v).busyTo = s.busyTo := rfl
@[simp] theorem regSet_keyDels (s : State) (n i : Nat) (v : DWord) : (regSet s n i v).keyDels = s.keyDels := rfl
@[simp] theorem regSet_hg (s : State) (n i : Nat) (v : DWord) : (regSet s n i v).hg = s.hg := rfl
@[simp] theorem regSet_msix (s : State) (n i : Nat) (v : DWord) : (regSet s n i v).msix = s.msix := rfl
@[simp] theorem regSet_msgs (s : State) (n i : Nat) (v : DWord) : (regSet s n i v).msgs = s.msgs := rfl
@[simp] theorem regSet_answers (s : State) (n i : Nat) (v : DWord) : (regSet s n i v).answers = s.answers := rfl
@[simp] theorem regSet_mapBefore (s : State) (n i : Nat) (v : DWord) : (regSet s n i v).mapBefore = s.mapBefore := rfl
@[simp] theorem regSet_hostLines (s : State) (n i : Nat) (v : DWord) : (regSet s n i v).hostLines = s.hostLines := rfl
@[simp] theorem regSet_hostStores (s : State) (n i : Nat) (v : DWord) : (regSet s n i v).hostStores = s.hostStores := rfl
@[simp] theorem regSet_fresh (s : State) (n i : Nat) (v : DWord) : (regSet s n i v).fresh = s.fresh := rfl
@[simp] theorem regSet_nextId (s : State) (n i : Nat) (v : DWord) : (regSet s n i v).nextId = s.nextId := rfl
@[simp] theorem regSet_obj (s : State) (n i : Nat) (v : DWord) : (regSet s n i v).obj = s.obj := rfl
@[simp] theorem regSet_agenda (s : State) (n i : Nat) (v : DWord) : (regSet s n i v).agenda = s.agenda := rfl
@[simp] theorem regSet_sched (s : State) (n i : Nat) (v : DWord) : (regSet s n i v).sched = s.sched := rfl
@[simp] theorem regSet_turn (s : State) (n i : Nat) (v : DWord) : (regSet s n i v).turn = s.turn := rfl

/-! ## `onGangs` -/

@[simp] theorem onGangs_clk (s : State) (p : Gang → Bool) (f : Gang → Gang) : (onGangs s p f).clk = s.clk := rfl
@[simp] theorem onGangs_power (s : State) (p : Gang → Bool) (f : Gang → Gang) : (onGangs s p f).power = s.power := rfl
@[simp] theorem onGangs_mem (s : State) (p : Gang → Bool) (f : Gang → Gang) : (onGangs s p f).mem = s.mem := rfl
@[simp] theorem onGangs_wts (s : State) (p : Gang → Bool) (f : Gang → Gang) : (onGangs s p f).wts = s.wts := rfl
@[simp] theorem onGangs_rts (s : State) (p : Gang → Bool) (f : Gang → Gang) : (onGangs s p f).rts = s.rts := rfl
@[simp] theorem onGangs_mt (s : State) (p : Gang → Bool) (f : Gang → Gang) : (onGangs s p f).mt = s.mt := rfl
@[simp] theorem onGangs_sc (s : State) (p : Gang → Bool) (f : Gang → Gang) : (onGangs s p f).sc = s.sc := rfl
@[simp] theorem onGangs_lineCode (s : State) (p : Gang → Bool) (f : Gang → Gang) : (onGangs s p f).lineCode = s.lineCode := rfl
@[simp] theorem onGangs_flips (s : State) (p : Gang → Bool) (f : Gang → Gang) : (onGangs s p f).flips = s.flips := rfl
@[simp] theorem onGangs_lineKey (s : State) (p : Gang → Bool) (f : Gang → Gang) : (onGangs s p f).lineKey = s.lineKey := rfl
@[simp] theorem onGangs_copies (s : State) (p : Gang → Bool) (f : Gang → Gang) : (onGangs s p f).copies = s.copies := rfl
@[simp] theorem onGangs_refused (s : State) (p : Gang → Bool) (f : Gang → Gang) : (onGangs s p f).refused = s.refused := rfl
@[simp] theorem onGangs_monitors (s : State) (p : Gang → Bool) (f : Gang → Gang) : (onGangs s p f).monitors = s.monitors := rfl
@[simp] theorem onGangs_tlb (s : State) (p : Gang → Bool) (f : Gang → Gang) : (onGangs s p f).tlb = s.tlb := rfl
@[simp] theorem onGangs_icache (s : State) (p : Gang → Bool) (f : Gang → Gang) : (onGangs s p f).icache = s.icache := rfl
@[simp] theorem onGangs_sysregs (s : State) (p : Gang → Bool) (f : Gang → Gang) : (onGangs s p f).sysregs = s.sysregs := rfl
@[simp] theorem onGangs_staged (s : State) (p : Gang → Bool) (f : Gang → Gang) : (onGangs s p f).staged = s.staged := rfl
@[simp] theorem onGangs_g (s : State) (p : Gang → Bool) (f : Gang → Gang) : (onGangs s p f).g = if p s.g then f s.g else s.g := rfl
@[simp] theorem onGangs_gangs (s : State) (p : Gang → Bool) (f : Gang → Gang) : (onGangs s p f).gangs = s.gangs.map fun x => if p x then f x else x := rfl
@[simp] theorem onGangs_ops (s : State) (p : Gang → Bool) (f : Gang → Gang) : (onGangs s p f).ops = s.ops := rfl
@[simp] theorem onGangs_teams (s : State) (p : Gang → Bool) (f : Gang → Gang) : (onGangs s p f).teams = s.teams := rfl
@[simp] theorem onGangs_tasks (s : State) (p : Gang → Bool) (f : Gang → Gang) : (onGangs s p f).tasks = s.tasks := rfl
@[simp] theorem onGangs_ctxs (s : State) (p : Gang → Bool) (f : Gang → Gang) : (onGangs s p f).ctxs = s.ctxs := rfl
@[simp] theorem onGangs_relays (s : State) (p : Gang → Bool) (f : Gang → Gang) : (onGangs s p f).relays = s.relays := rfl
@[simp] theorem onGangs_tfree (s : State) (p : Gang → Bool) (f : Gang → Gang) : (onGangs s p f).tfree = s.tfree := rfl
@[simp] theorem onGangs_mmas (s : State) (p : Gang → Bool) (f : Gang → Gang) : (onGangs s p f).mmas = s.mmas := rfl
@[simp] theorem onGangs_merges (s : State) (p : Gang → Bool) (f : Gang → Gang) : (onGangs s p f).merges = s.merges := rfl
@[simp] theorem onGangs_contribs (s : State) (p : Gang → Bool) (f : Gang → Gang) : (onGangs s p f).contribs = s.contribs := rfl
@[simp] theorem onGangs_posts (s : State) (p : Gang → Bool) (f : Gang → Gang) : (onGangs s p f).posts = s.posts := rfl
@[simp] theorem onGangs_laterals (s : State) (p : Gang → Bool) (f : Gang → Gang) : (onGangs s p f).laterals = s.laterals := rfl
@[simp] theorem onGangs_subReqs (s : State) (p : Gang → Bool) (f : Gang → Gang) : (onGangs s p f).subReqs = s.subReqs := rfl
@[simp] theorem onGangs_cohorts (s : State) (p : Gang → Bool) (f : Gang → Gang) : (onGangs s p f).cohorts = s.cohorts := rfl
@[simp] theorem onGangs_canals (s : State) (p : Gang → Bool) (f : Gang → Gang) : (onGangs s p f).canals = s.canals := rfl
@[simp] theorem onGangs_commits (s : State) (p : Gang → Bool) (f : Gang → Gang) : (onGangs s p f).commits = s.commits := rfl
@[simp] theorem onGangs_takers (s : State) (p : Gang → Bool) (f : Gang → Gang) : (onGangs s p f).takers = s.takers := rfl
@[simp] theorem onGangs_recs (s : State) (p : Gang → Bool) (f : Gang → Gang) : (onGangs s p f).recs = s.recs := rfl
@[simp] theorem onGangs_banks (s : State) (p : Gang → Bool) (f : Gang → Gang) : (onGangs s p f).banks = s.banks := rfl
@[simp] theorem onGangs_visits (s : State) (p : Gang → Bool) (f : Gang → Gang) : (onGangs s p f).visits = s.visits := rfl
@[simp] theorem onGangs_classIn (s : State) (p : Gang → Bool) (f : Gang → Gang) : (onGangs s p f).classIn = s.classIn := rfl
@[simp] theorem onGangs_scrap (s : State) (p : Gang → Bool) (f : Gang → Gang) : (onGangs s p f).scrap = s.scrap := rfl
@[simp] theorem onGangs_scrapCtx (s : State) (p : Gang → Bool) (f : Gang → Gang) : (onGangs s p f).scrapCtx = s.scrapCtx := rfl
@[simp] theorem onGangs_fifo (s : State) (p : Gang → Bool) (f : Gang → Gang) : (onGangs s p f).fifo = s.fifo := rfl
@[simp] theorem onGangs_fifoCtx (s : State) (p : Gang → Bool) (f : Gang → Gang) : (onGangs s p f).fifoCtx = s.fifoCtx := rfl
@[simp] theorem onGangs_adv (s : State) (p : Gang → Bool) (f : Gang → Gang) : (onGangs s p f).adv = s.adv := rfl
@[simp] theorem onGangs_offers (s : State) (p : Gang → Bool) (f : Gang → Gang) : (onGangs s p f).offers = s.offers := rfl
@[simp] theorem onGangs_counts (s : State) (p : Gang → Bool) (f : Gang → Gang) : (onGangs s p f).counts = s.counts := rfl
@[simp] theorem onGangs_frames (s : State) (p : Gang → Bool) (f : Gang → Gang) : (onGangs s p f).frames = s.frames := rfl
@[simp] theorem onGangs_demoting (s : State) (p : Gang → Bool) (f : Gang → Gang) : (onGangs s p f).demoting = s.demoting := rfl
@[simp] theorem onGangs_storage (s : State) (p : Gang → Bool) (f : Gang → Gang) : (onGangs s p f).storage = s.storage := rfl
@[simp] theorem onGangs_stored (s : State) (p : Gang → Bool) (f : Gang → Gang) : (onGangs s p f).stored = s.stored := rfl
@[simp] theorem onGangs_qread (s : State) (p : Gang → Bool) (f : Gang → Gang) : (onGangs s p f).qread = s.qread := rfl
@[simp] theorem onGangs_reports (s : State) (p : Gang → Bool) (f : Gang → Gang) : (onGangs s p f).reports = s.reports := rfl
@[simp] theorem onGangs_shares (s : State) (p : Gang → Bool) (f : Gang → Gang) : (onGangs s p f).shares = s.shares := rfl
@[simp] theorem onGangs_busy (s : State) (p : Gang → Bool) (f : Gang → Gang) : (onGangs s p f).busy = s.busy := rfl
@[simp] theorem onGangs_busyTo (s : State) (p : Gang → Bool) (f : Gang → Gang) : (onGangs s p f).busyTo = s.busyTo := rfl
@[simp] theorem onGangs_keyDels (s : State) (p : Gang → Bool) (f : Gang → Gang) : (onGangs s p f).keyDels = s.keyDels := rfl
@[simp] theorem onGangs_hg (s : State) (p : Gang → Bool) (f : Gang → Gang) : (onGangs s p f).hg = s.hg := rfl
@[simp] theorem onGangs_msix (s : State) (p : Gang → Bool) (f : Gang → Gang) : (onGangs s p f).msix = s.msix := rfl
@[simp] theorem onGangs_msgs (s : State) (p : Gang → Bool) (f : Gang → Gang) : (onGangs s p f).msgs = s.msgs := rfl
@[simp] theorem onGangs_answers (s : State) (p : Gang → Bool) (f : Gang → Gang) : (onGangs s p f).answers = s.answers := rfl
@[simp] theorem onGangs_mapBefore (s : State) (p : Gang → Bool) (f : Gang → Gang) : (onGangs s p f).mapBefore = s.mapBefore := rfl
@[simp] theorem onGangs_hostLines (s : State) (p : Gang → Bool) (f : Gang → Gang) : (onGangs s p f).hostLines = s.hostLines := rfl
@[simp] theorem onGangs_hostStores (s : State) (p : Gang → Bool) (f : Gang → Gang) : (onGangs s p f).hostStores = s.hostStores := rfl
@[simp] theorem onGangs_fresh (s : State) (p : Gang → Bool) (f : Gang → Gang) : (onGangs s p f).fresh = s.fresh := rfl
@[simp] theorem onGangs_nextId (s : State) (p : Gang → Bool) (f : Gang → Gang) : (onGangs s p f).nextId = s.nextId := rfl
@[simp] theorem onGangs_obj (s : State) (p : Gang → Bool) (f : Gang → Gang) : (onGangs s p f).obj = s.obj := rfl
@[simp] theorem onGangs_agenda (s : State) (p : Gang → Bool) (f : Gang → Gang) : (onGangs s p f).agenda = s.agenda := rfl
@[simp] theorem onGangs_sched (s : State) (p : Gang → Bool) (f : Gang → Gang) : (onGangs s p f).sched = s.sched := rfl
@[simp] theorem onGangs_turn (s : State) (p : Gang → Bool) (f : Gang → Gang) : (onGangs s p f).turn = s.turn := rfl

/-! ## `onGang` -/

@[simp] theorem onGang_clk (s : State) (n : Nat) (f : Gang → Gang) : (onGang s n f).clk = s.clk := by unfold onGang; split <;> rfl
@[simp] theorem onGang_power (s : State) (n : Nat) (f : Gang → Gang) : (onGang s n f).power = s.power := by unfold onGang; split <;> rfl
@[simp] theorem onGang_mem (s : State) (n : Nat) (f : Gang → Gang) : (onGang s n f).mem = s.mem := by unfold onGang; split <;> rfl
@[simp] theorem onGang_wts (s : State) (n : Nat) (f : Gang → Gang) : (onGang s n f).wts = s.wts := by unfold onGang; split <;> rfl
@[simp] theorem onGang_rts (s : State) (n : Nat) (f : Gang → Gang) : (onGang s n f).rts = s.rts := by unfold onGang; split <;> rfl
@[simp] theorem onGang_mt (s : State) (n : Nat) (f : Gang → Gang) : (onGang s n f).mt = s.mt := by unfold onGang; split <;> rfl
@[simp] theorem onGang_sc (s : State) (n : Nat) (f : Gang → Gang) : (onGang s n f).sc = s.sc := by unfold onGang; split <;> rfl
@[simp] theorem onGang_lineCode (s : State) (n : Nat) (f : Gang → Gang) : (onGang s n f).lineCode = s.lineCode := by unfold onGang; split <;> rfl
@[simp] theorem onGang_flips (s : State) (n : Nat) (f : Gang → Gang) : (onGang s n f).flips = s.flips := by unfold onGang; split <;> rfl
@[simp] theorem onGang_lineKey (s : State) (n : Nat) (f : Gang → Gang) : (onGang s n f).lineKey = s.lineKey := by unfold onGang; split <;> rfl
@[simp] theorem onGang_copies (s : State) (n : Nat) (f : Gang → Gang) : (onGang s n f).copies = s.copies := by unfold onGang; split <;> rfl
@[simp] theorem onGang_refused (s : State) (n : Nat) (f : Gang → Gang) : (onGang s n f).refused = s.refused := by unfold onGang; split <;> rfl
@[simp] theorem onGang_monitors (s : State) (n : Nat) (f : Gang → Gang) : (onGang s n f).monitors = s.monitors := by unfold onGang; split <;> rfl
@[simp] theorem onGang_tlb (s : State) (n : Nat) (f : Gang → Gang) : (onGang s n f).tlb = s.tlb := by unfold onGang; split <;> rfl
@[simp] theorem onGang_icache (s : State) (n : Nat) (f : Gang → Gang) : (onGang s n f).icache = s.icache := by unfold onGang; split <;> rfl
@[simp] theorem onGang_sysregs (s : State) (n : Nat) (f : Gang → Gang) : (onGang s n f).sysregs = s.sysregs := by unfold onGang; split <;> rfl
@[simp] theorem onGang_staged (s : State) (n : Nat) (f : Gang → Gang) : (onGang s n f).staged = s.staged := by unfold onGang; split <;> rfl
@[simp] theorem onGang_g (s : State) (n : Nat) (f : Gang → Gang) : (onGang s n f).g = if s.g.gid == n then f s.g else s.g := by unfold onGang; split <;> rfl
@[simp] theorem onGang_gangs (s : State) (n : Nat) (f : Gang → Gang) : (onGang s n f).gangs = if s.g.gid == n then s.gangs else modFirst (·.gid == n) f s.gangs := by unfold onGang; split <;> rfl
@[simp] theorem onGang_ops (s : State) (n : Nat) (f : Gang → Gang) : (onGang s n f).ops = s.ops := by unfold onGang; split <;> rfl
@[simp] theorem onGang_teams (s : State) (n : Nat) (f : Gang → Gang) : (onGang s n f).teams = s.teams := by unfold onGang; split <;> rfl
@[simp] theorem onGang_tasks (s : State) (n : Nat) (f : Gang → Gang) : (onGang s n f).tasks = s.tasks := by unfold onGang; split <;> rfl
@[simp] theorem onGang_ctxs (s : State) (n : Nat) (f : Gang → Gang) : (onGang s n f).ctxs = s.ctxs := by unfold onGang; split <;> rfl
@[simp] theorem onGang_relays (s : State) (n : Nat) (f : Gang → Gang) : (onGang s n f).relays = s.relays := by unfold onGang; split <;> rfl
@[simp] theorem onGang_tfree (s : State) (n : Nat) (f : Gang → Gang) : (onGang s n f).tfree = s.tfree := by unfold onGang; split <;> rfl
@[simp] theorem onGang_mmas (s : State) (n : Nat) (f : Gang → Gang) : (onGang s n f).mmas = s.mmas := by unfold onGang; split <;> rfl
@[simp] theorem onGang_merges (s : State) (n : Nat) (f : Gang → Gang) : (onGang s n f).merges = s.merges := by unfold onGang; split <;> rfl
@[simp] theorem onGang_contribs (s : State) (n : Nat) (f : Gang → Gang) : (onGang s n f).contribs = s.contribs := by unfold onGang; split <;> rfl
@[simp] theorem onGang_posts (s : State) (n : Nat) (f : Gang → Gang) : (onGang s n f).posts = s.posts := by unfold onGang; split <;> rfl
@[simp] theorem onGang_laterals (s : State) (n : Nat) (f : Gang → Gang) : (onGang s n f).laterals = s.laterals := by unfold onGang; split <;> rfl
@[simp] theorem onGang_subReqs (s : State) (n : Nat) (f : Gang → Gang) : (onGang s n f).subReqs = s.subReqs := by unfold onGang; split <;> rfl
@[simp] theorem onGang_cohorts (s : State) (n : Nat) (f : Gang → Gang) : (onGang s n f).cohorts = s.cohorts := by unfold onGang; split <;> rfl
@[simp] theorem onGang_canals (s : State) (n : Nat) (f : Gang → Gang) : (onGang s n f).canals = s.canals := by unfold onGang; split <;> rfl
@[simp] theorem onGang_commits (s : State) (n : Nat) (f : Gang → Gang) : (onGang s n f).commits = s.commits := by unfold onGang; split <;> rfl
@[simp] theorem onGang_takers (s : State) (n : Nat) (f : Gang → Gang) : (onGang s n f).takers = s.takers := by unfold onGang; split <;> rfl
@[simp] theorem onGang_recs (s : State) (n : Nat) (f : Gang → Gang) : (onGang s n f).recs = s.recs := by unfold onGang; split <;> rfl
@[simp] theorem onGang_banks (s : State) (n : Nat) (f : Gang → Gang) : (onGang s n f).banks = s.banks := by unfold onGang; split <;> rfl
@[simp] theorem onGang_visits (s : State) (n : Nat) (f : Gang → Gang) : (onGang s n f).visits = s.visits := by unfold onGang; split <;> rfl
@[simp] theorem onGang_classIn (s : State) (n : Nat) (f : Gang → Gang) : (onGang s n f).classIn = s.classIn := by unfold onGang; split <;> rfl
@[simp] theorem onGang_scrap (s : State) (n : Nat) (f : Gang → Gang) : (onGang s n f).scrap = s.scrap := by unfold onGang; split <;> rfl
@[simp] theorem onGang_scrapCtx (s : State) (n : Nat) (f : Gang → Gang) : (onGang s n f).scrapCtx = s.scrapCtx := by unfold onGang; split <;> rfl
@[simp] theorem onGang_fifo (s : State) (n : Nat) (f : Gang → Gang) : (onGang s n f).fifo = s.fifo := by unfold onGang; split <;> rfl
@[simp] theorem onGang_fifoCtx (s : State) (n : Nat) (f : Gang → Gang) : (onGang s n f).fifoCtx = s.fifoCtx := by unfold onGang; split <;> rfl
@[simp] theorem onGang_adv (s : State) (n : Nat) (f : Gang → Gang) : (onGang s n f).adv = s.adv := by unfold onGang; split <;> rfl
@[simp] theorem onGang_offers (s : State) (n : Nat) (f : Gang → Gang) : (onGang s n f).offers = s.offers := by unfold onGang; split <;> rfl
@[simp] theorem onGang_counts (s : State) (n : Nat) (f : Gang → Gang) : (onGang s n f).counts = s.counts := by unfold onGang; split <;> rfl
@[simp] theorem onGang_frames (s : State) (n : Nat) (f : Gang → Gang) : (onGang s n f).frames = s.frames := by unfold onGang; split <;> rfl
@[simp] theorem onGang_demoting (s : State) (n : Nat) (f : Gang → Gang) : (onGang s n f).demoting = s.demoting := by unfold onGang; split <;> rfl
@[simp] theorem onGang_storage (s : State) (n : Nat) (f : Gang → Gang) : (onGang s n f).storage = s.storage := by unfold onGang; split <;> rfl
@[simp] theorem onGang_stored (s : State) (n : Nat) (f : Gang → Gang) : (onGang s n f).stored = s.stored := by unfold onGang; split <;> rfl
@[simp] theorem onGang_qread (s : State) (n : Nat) (f : Gang → Gang) : (onGang s n f).qread = s.qread := by unfold onGang; split <;> rfl
@[simp] theorem onGang_reports (s : State) (n : Nat) (f : Gang → Gang) : (onGang s n f).reports = s.reports := by unfold onGang; split <;> rfl
@[simp] theorem onGang_shares (s : State) (n : Nat) (f : Gang → Gang) : (onGang s n f).shares = s.shares := by unfold onGang; split <;> rfl
@[simp] theorem onGang_busy (s : State) (n : Nat) (f : Gang → Gang) : (onGang s n f).busy = s.busy := by unfold onGang; split <;> rfl
@[simp] theorem onGang_busyTo (s : State) (n : Nat) (f : Gang → Gang) : (onGang s n f).busyTo = s.busyTo := by unfold onGang; split <;> rfl
@[simp] theorem onGang_keyDels (s : State) (n : Nat) (f : Gang → Gang) : (onGang s n f).keyDels = s.keyDels := by unfold onGang; split <;> rfl
@[simp] theorem onGang_hg (s : State) (n : Nat) (f : Gang → Gang) : (onGang s n f).hg = s.hg := by unfold onGang; split <;> rfl
@[simp] theorem onGang_msix (s : State) (n : Nat) (f : Gang → Gang) : (onGang s n f).msix = s.msix := by unfold onGang; split <;> rfl
@[simp] theorem onGang_msgs (s : State) (n : Nat) (f : Gang → Gang) : (onGang s n f).msgs = s.msgs := by unfold onGang; split <;> rfl
@[simp] theorem onGang_answers (s : State) (n : Nat) (f : Gang → Gang) : (onGang s n f).answers = s.answers := by unfold onGang; split <;> rfl
@[simp] theorem onGang_mapBefore (s : State) (n : Nat) (f : Gang → Gang) : (onGang s n f).mapBefore = s.mapBefore := by unfold onGang; split <;> rfl
@[simp] theorem onGang_hostLines (s : State) (n : Nat) (f : Gang → Gang) : (onGang s n f).hostLines = s.hostLines := by unfold onGang; split <;> rfl
@[simp] theorem onGang_hostStores (s : State) (n : Nat) (f : Gang → Gang) : (onGang s n f).hostStores = s.hostStores := by unfold onGang; split <;> rfl
@[simp] theorem onGang_fresh (s : State) (n : Nat) (f : Gang → Gang) : (onGang s n f).fresh = s.fresh := by unfold onGang; split <;> rfl
@[simp] theorem onGang_nextId (s : State) (n : Nat) (f : Gang → Gang) : (onGang s n f).nextId = s.nextId := by unfold onGang; split <;> rfl
@[simp] theorem onGang_obj (s : State) (n : Nat) (f : Gang → Gang) : (onGang s n f).obj = s.obj := by unfold onGang; split <;> rfl
@[simp] theorem onGang_agenda (s : State) (n : Nat) (f : Gang → Gang) : (onGang s n f).agenda = s.agenda := by unfold onGang; split <;> rfl
@[simp] theorem onGang_sched (s : State) (n : Nat) (f : Gang → Gang) : (onGang s n f).sched = s.sched := by unfold onGang; split <;> rfl
@[simp] theorem onGang_turn (s : State) (n : Nat) (f : Gang → Gang) : (onGang s n f).turn = s.turn := by unfold onGang; split <;> rfl

/-! ## `longLatency` -/

@[simp] theorem longLatency_clk (s : State) : (longLatency s).clk = s.clk := rfl
@[simp] theorem longLatency_power (s : State) : (longLatency s).power = s.power := rfl
@[simp] theorem longLatency_mem (s : State) : (longLatency s).mem = s.mem := rfl
@[simp] theorem longLatency_wts (s : State) : (longLatency s).wts = s.wts := rfl
@[simp] theorem longLatency_rts (s : State) : (longLatency s).rts = s.rts := rfl
@[simp] theorem longLatency_mt (s : State) : (longLatency s).mt = s.mt := rfl
@[simp] theorem longLatency_sc (s : State) : (longLatency s).sc = s.sc := rfl
@[simp] theorem longLatency_lineCode (s : State) : (longLatency s).lineCode = s.lineCode := rfl
@[simp] theorem longLatency_flips (s : State) : (longLatency s).flips = s.flips := rfl
@[simp] theorem longLatency_lineKey (s : State) : (longLatency s).lineKey = s.lineKey := rfl
@[simp] theorem longLatency_copies (s : State) : (longLatency s).copies = s.copies := rfl
@[simp] theorem longLatency_refused (s : State) : (longLatency s).refused = s.refused := rfl
@[simp] theorem longLatency_monitors (s : State) : (longLatency s).monitors = s.monitors := rfl
@[simp] theorem longLatency_tlb (s : State) : (longLatency s).tlb = s.tlb := rfl
@[simp] theorem longLatency_icache (s : State) : (longLatency s).icache = s.icache := rfl
@[simp] theorem longLatency_sysregs (s : State) : (longLatency s).sysregs = s.sysregs := rfl
@[simp] theorem longLatency_staged (s : State) : (longLatency s).staged = s.staged := rfl
@[simp] theorem longLatency_g (s : State) : (longLatency s).g = { s.g with longLat := true } := rfl
@[simp] theorem longLatency_gangs (s : State) : (longLatency s).gangs = s.gangs := rfl
@[simp] theorem longLatency_ops (s : State) : (longLatency s).ops = s.ops := rfl
@[simp] theorem longLatency_teams (s : State) : (longLatency s).teams = s.teams := rfl
@[simp] theorem longLatency_tasks (s : State) : (longLatency s).tasks = s.tasks := rfl
@[simp] theorem longLatency_ctxs (s : State) : (longLatency s).ctxs = s.ctxs := rfl
@[simp] theorem longLatency_relays (s : State) : (longLatency s).relays = s.relays := rfl
@[simp] theorem longLatency_tfree (s : State) : (longLatency s).tfree = s.tfree := rfl
@[simp] theorem longLatency_mmas (s : State) : (longLatency s).mmas = s.mmas := rfl
@[simp] theorem longLatency_merges (s : State) : (longLatency s).merges = s.merges := rfl
@[simp] theorem longLatency_contribs (s : State) : (longLatency s).contribs = s.contribs := rfl
@[simp] theorem longLatency_posts (s : State) : (longLatency s).posts = s.posts := rfl
@[simp] theorem longLatency_laterals (s : State) : (longLatency s).laterals = s.laterals := rfl
@[simp] theorem longLatency_subReqs (s : State) : (longLatency s).subReqs = s.subReqs := rfl
@[simp] theorem longLatency_cohorts (s : State) : (longLatency s).cohorts = s.cohorts := rfl
@[simp] theorem longLatency_canals (s : State) : (longLatency s).canals = s.canals := rfl
@[simp] theorem longLatency_commits (s : State) : (longLatency s).commits = s.commits := rfl
@[simp] theorem longLatency_takers (s : State) : (longLatency s).takers = s.takers := rfl
@[simp] theorem longLatency_recs (s : State) : (longLatency s).recs = s.recs := rfl
@[simp] theorem longLatency_banks (s : State) : (longLatency s).banks = s.banks := rfl
@[simp] theorem longLatency_visits (s : State) : (longLatency s).visits = s.visits := rfl
@[simp] theorem longLatency_classIn (s : State) : (longLatency s).classIn = s.classIn := rfl
@[simp] theorem longLatency_scrap (s : State) : (longLatency s).scrap = s.scrap := rfl
@[simp] theorem longLatency_scrapCtx (s : State) : (longLatency s).scrapCtx = s.scrapCtx := rfl
@[simp] theorem longLatency_fifo (s : State) : (longLatency s).fifo = s.fifo := rfl
@[simp] theorem longLatency_fifoCtx (s : State) : (longLatency s).fifoCtx = s.fifoCtx := rfl
@[simp] theorem longLatency_adv (s : State) : (longLatency s).adv = s.adv := rfl
@[simp] theorem longLatency_offers (s : State) : (longLatency s).offers = s.offers := rfl
@[simp] theorem longLatency_counts (s : State) : (longLatency s).counts = s.counts := rfl
@[simp] theorem longLatency_frames (s : State) : (longLatency s).frames = s.frames := rfl
@[simp] theorem longLatency_demoting (s : State) : (longLatency s).demoting = s.demoting := rfl
@[simp] theorem longLatency_storage (s : State) : (longLatency s).storage = s.storage := rfl
@[simp] theorem longLatency_stored (s : State) : (longLatency s).stored = s.stored := rfl
@[simp] theorem longLatency_qread (s : State) : (longLatency s).qread = s.qread := rfl
@[simp] theorem longLatency_reports (s : State) : (longLatency s).reports = s.reports := rfl
@[simp] theorem longLatency_shares (s : State) : (longLatency s).shares = s.shares := rfl
@[simp] theorem longLatency_busy (s : State) : (longLatency s).busy = s.busy := rfl
@[simp] theorem longLatency_busyTo (s : State) : (longLatency s).busyTo = s.busyTo := rfl
@[simp] theorem longLatency_keyDels (s : State) : (longLatency s).keyDels = s.keyDels := rfl
@[simp] theorem longLatency_hg (s : State) : (longLatency s).hg = s.hg := rfl
@[simp] theorem longLatency_msix (s : State) : (longLatency s).msix = s.msix := rfl
@[simp] theorem longLatency_msgs (s : State) : (longLatency s).msgs = s.msgs := rfl
@[simp] theorem longLatency_answers (s : State) : (longLatency s).answers = s.answers := rfl
@[simp] theorem longLatency_mapBefore (s : State) : (longLatency s).mapBefore = s.mapBefore := rfl
@[simp] theorem longLatency_hostLines (s : State) : (longLatency s).hostLines = s.hostLines := rfl
@[simp] theorem longLatency_hostStores (s : State) : (longLatency s).hostStores = s.hostStores := rfl
@[simp] theorem longLatency_fresh (s : State) : (longLatency s).fresh = s.fresh := rfl
@[simp] theorem longLatency_nextId (s : State) : (longLatency s).nextId = s.nextId := rfl
@[simp] theorem longLatency_obj (s : State) : (longLatency s).obj = s.obj := rfl
@[simp] theorem longLatency_agenda (s : State) : (longLatency s).agenda = s.agenda := rfl
@[simp] theorem longLatency_sched (s : State) : (longLatency s).sched = s.sched := rfl
@[simp] theorem longLatency_turn (s : State) : (longLatency s).turn = s.turn := rfl

/-! ## `startWait` -/

@[simp] theorem startWait_clk (w : Wait) (len : Nat) (nxt : BitVec 2) (s : State) : (startWait w len nxt s).clk = s.clk + 1 := rfl
@[simp] theorem startWait_power (w : Wait) (len : Nat) (nxt : BitVec 2) (s : State) : (startWait w len nxt s).power = s.power := rfl
@[simp] theorem startWait_mem (w : Wait) (len : Nat) (nxt : BitVec 2) (s : State) : (startWait w len nxt s).mem = s.mem := rfl
@[simp] theorem startWait_wts (w : Wait) (len : Nat) (nxt : BitVec 2) (s : State) : (startWait w len nxt s).wts = s.wts := rfl
@[simp] theorem startWait_rts (w : Wait) (len : Nat) (nxt : BitVec 2) (s : State) : (startWait w len nxt s).rts = s.rts := rfl
@[simp] theorem startWait_mt (w : Wait) (len : Nat) (nxt : BitVec 2) (s : State) : (startWait w len nxt s).mt = s.mt := rfl
@[simp] theorem startWait_sc (w : Wait) (len : Nat) (nxt : BitVec 2) (s : State) : (startWait w len nxt s).sc = s.sc := rfl
@[simp] theorem startWait_lineCode (w : Wait) (len : Nat) (nxt : BitVec 2) (s : State) : (startWait w len nxt s).lineCode = s.lineCode := rfl
@[simp] theorem startWait_flips (w : Wait) (len : Nat) (nxt : BitVec 2) (s : State) : (startWait w len nxt s).flips = s.flips := rfl
@[simp] theorem startWait_lineKey (w : Wait) (len : Nat) (nxt : BitVec 2) (s : State) : (startWait w len nxt s).lineKey = s.lineKey := rfl
@[simp] theorem startWait_copies (w : Wait) (len : Nat) (nxt : BitVec 2) (s : State) : (startWait w len nxt s).copies = s.copies := rfl
@[simp] theorem startWait_refused (w : Wait) (len : Nat) (nxt : BitVec 2) (s : State) : (startWait w len nxt s).refused = s.refused := rfl
@[simp] theorem startWait_monitors (w : Wait) (len : Nat) (nxt : BitVec 2) (s : State) : (startWait w len nxt s).monitors = s.monitors := rfl
@[simp] theorem startWait_tlb (w : Wait) (len : Nat) (nxt : BitVec 2) (s : State) : (startWait w len nxt s).tlb = s.tlb := rfl
@[simp] theorem startWait_icache (w : Wait) (len : Nat) (nxt : BitVec 2) (s : State) : (startWait w len nxt s).icache = s.icache := rfl
@[simp] theorem startWait_sysregs (w : Wait) (len : Nat) (nxt : BitVec 2) (s : State) : (startWait w len nxt s).sysregs = s.sysregs := rfl
@[simp] theorem startWait_staged (w : Wait) (len : Nat) (nxt : BitVec 2) (s : State) : (startWait w len nxt s).staged = s.staged := rfl
@[simp] theorem startWait_gangs (w : Wait) (len : Nat) (nxt : BitVec 2) (s : State) : (startWait w len nxt s).gangs = s.gangs := rfl
@[simp] theorem startWait_ops (w : Wait) (len : Nat) (nxt : BitVec 2) (s : State) : (startWait w len nxt s).ops = s.ops := rfl
@[simp] theorem startWait_teams (w : Wait) (len : Nat) (nxt : BitVec 2) (s : State) : (startWait w len nxt s).teams = s.teams := rfl
@[simp] theorem startWait_tasks (w : Wait) (len : Nat) (nxt : BitVec 2) (s : State) : (startWait w len nxt s).tasks = s.tasks := rfl
@[simp] theorem startWait_ctxs (w : Wait) (len : Nat) (nxt : BitVec 2) (s : State) : (startWait w len nxt s).ctxs = s.ctxs := rfl
@[simp] theorem startWait_relays (w : Wait) (len : Nat) (nxt : BitVec 2) (s : State) : (startWait w len nxt s).relays = s.relays := rfl
@[simp] theorem startWait_tfree (w : Wait) (len : Nat) (nxt : BitVec 2) (s : State) : (startWait w len nxt s).tfree = s.tfree := rfl
@[simp] theorem startWait_mmas (w : Wait) (len : Nat) (nxt : BitVec 2) (s : State) : (startWait w len nxt s).mmas = s.mmas := rfl
@[simp] theorem startWait_merges (w : Wait) (len : Nat) (nxt : BitVec 2) (s : State) : (startWait w len nxt s).merges = s.merges := rfl
@[simp] theorem startWait_contribs (w : Wait) (len : Nat) (nxt : BitVec 2) (s : State) : (startWait w len nxt s).contribs = s.contribs := rfl
@[simp] theorem startWait_posts (w : Wait) (len : Nat) (nxt : BitVec 2) (s : State) : (startWait w len nxt s).posts = s.posts := rfl
@[simp] theorem startWait_laterals (w : Wait) (len : Nat) (nxt : BitVec 2) (s : State) : (startWait w len nxt s).laterals = s.laterals := rfl
@[simp] theorem startWait_subReqs (w : Wait) (len : Nat) (nxt : BitVec 2) (s : State) : (startWait w len nxt s).subReqs = s.subReqs := rfl
@[simp] theorem startWait_cohorts (w : Wait) (len : Nat) (nxt : BitVec 2) (s : State) : (startWait w len nxt s).cohorts = s.cohorts := rfl
@[simp] theorem startWait_canals (w : Wait) (len : Nat) (nxt : BitVec 2) (s : State) : (startWait w len nxt s).canals = s.canals := rfl
@[simp] theorem startWait_commits (w : Wait) (len : Nat) (nxt : BitVec 2) (s : State) : (startWait w len nxt s).commits = s.commits := rfl
@[simp] theorem startWait_takers (w : Wait) (len : Nat) (nxt : BitVec 2) (s : State) : (startWait w len nxt s).takers = s.takers := rfl
@[simp] theorem startWait_recs (w : Wait) (len : Nat) (nxt : BitVec 2) (s : State) : (startWait w len nxt s).recs = s.recs := rfl
@[simp] theorem startWait_banks (w : Wait) (len : Nat) (nxt : BitVec 2) (s : State) : (startWait w len nxt s).banks = s.banks := rfl
@[simp] theorem startWait_visits (w : Wait) (len : Nat) (nxt : BitVec 2) (s : State) : (startWait w len nxt s).visits = s.visits := rfl
@[simp] theorem startWait_classIn (w : Wait) (len : Nat) (nxt : BitVec 2) (s : State) : (startWait w len nxt s).classIn = s.classIn := rfl
@[simp] theorem startWait_scrap (w : Wait) (len : Nat) (nxt : BitVec 2) (s : State) : (startWait w len nxt s).scrap = s.scrap := rfl
@[simp] theorem startWait_scrapCtx (w : Wait) (len : Nat) (nxt : BitVec 2) (s : State) : (startWait w len nxt s).scrapCtx = s.scrapCtx := rfl
@[simp] theorem startWait_fifo (w : Wait) (len : Nat) (nxt : BitVec 2) (s : State) : (startWait w len nxt s).fifo = s.fifo := rfl
@[simp] theorem startWait_fifoCtx (w : Wait) (len : Nat) (nxt : BitVec 2) (s : State) : (startWait w len nxt s).fifoCtx = s.fifoCtx := rfl
@[simp] theorem startWait_adv (w : Wait) (len : Nat) (nxt : BitVec 2) (s : State) : (startWait w len nxt s).adv = s.adv := rfl
@[simp] theorem startWait_offers (w : Wait) (len : Nat) (nxt : BitVec 2) (s : State) : (startWait w len nxt s).offers = s.offers := rfl
@[simp] theorem startWait_counts (w : Wait) (len : Nat) (nxt : BitVec 2) (s : State) : (startWait w len nxt s).counts = s.counts := rfl
@[simp] theorem startWait_frames (w : Wait) (len : Nat) (nxt : BitVec 2) (s : State) : (startWait w len nxt s).frames = s.frames := rfl
@[simp] theorem startWait_demoting (w : Wait) (len : Nat) (nxt : BitVec 2) (s : State) : (startWait w len nxt s).demoting = s.demoting := rfl
@[simp] theorem startWait_storage (w : Wait) (len : Nat) (nxt : BitVec 2) (s : State) : (startWait w len nxt s).storage = s.storage := rfl
@[simp] theorem startWait_stored (w : Wait) (len : Nat) (nxt : BitVec 2) (s : State) : (startWait w len nxt s).stored = s.stored := rfl
@[simp] theorem startWait_qread (w : Wait) (len : Nat) (nxt : BitVec 2) (s : State) : (startWait w len nxt s).qread = s.qread := rfl
@[simp] theorem startWait_reports (w : Wait) (len : Nat) (nxt : BitVec 2) (s : State) : (startWait w len nxt s).reports = s.reports := rfl
@[simp] theorem startWait_shares (w : Wait) (len : Nat) (nxt : BitVec 2) (s : State) : (startWait w len nxt s).shares = s.shares := rfl
@[simp] theorem startWait_busy (w : Wait) (len : Nat) (nxt : BitVec 2) (s : State) : (startWait w len nxt s).busy = s.busy := rfl
@[simp] theorem startWait_busyTo (w : Wait) (len : Nat) (nxt : BitVec 2) (s : State) : (startWait w len nxt s).busyTo = s.busyTo := rfl
@[simp] theorem startWait_keyDels (w : Wait) (len : Nat) (nxt : BitVec 2) (s : State) : (startWait w len nxt s).keyDels = s.keyDels := rfl
@[simp] theorem startWait_hg (w : Wait) (len : Nat) (nxt : BitVec 2) (s : State) : (startWait w len nxt s).hg = s.hg := rfl
@[simp] theorem startWait_msix (w : Wait) (len : Nat) (nxt : BitVec 2) (s : State) : (startWait w len nxt s).msix = s.msix := rfl
@[simp] theorem startWait_msgs (w : Wait) (len : Nat) (nxt : BitVec 2) (s : State) : (startWait w len nxt s).msgs = s.msgs := rfl
@[simp] theorem startWait_answers (w : Wait) (len : Nat) (nxt : BitVec 2) (s : State) : (startWait w len nxt s).answers = s.answers := rfl
@[simp] theorem startWait_mapBefore (w : Wait) (len : Nat) (nxt : BitVec 2) (s : State) : (startWait w len nxt s).mapBefore = s.mapBefore := rfl
@[simp] theorem startWait_hostLines (w : Wait) (len : Nat) (nxt : BitVec 2) (s : State) : (startWait w len nxt s).hostLines = s.hostLines := rfl
@[simp] theorem startWait_hostStores (w : Wait) (len : Nat) (nxt : BitVec 2) (s : State) : (startWait w len nxt s).hostStores = s.hostStores := rfl
@[simp] theorem startWait_fresh (w : Wait) (len : Nat) (nxt : BitVec 2) (s : State) : (startWait w len nxt s).fresh = s.fresh := rfl
@[simp] theorem startWait_nextId (w : Wait) (len : Nat) (nxt : BitVec 2) (s : State) : (startWait w len nxt s).nextId = s.nextId := rfl
@[simp] theorem startWait_obj (w : Wait) (len : Nat) (nxt : BitVec 2) (s : State) : (startWait w len nxt s).obj = s.obj := rfl
@[simp] theorem startWait_agenda (w : Wait) (len : Nat) (nxt : BitVec 2) (s : State) : (startWait w len nxt s).agenda = s.agenda := rfl
@[simp] theorem startWait_sched (w : Wait) (len : Nat) (nxt : BitVec 2) (s : State) : (startWait w len nxt s).sched = s.sched := rfl
@[simp] theorem startWait_turn (w : Wait) (len : Nat) (nxt : BitVec 2) (s : State) : (startWait w len nxt s).turn = s.turn := rfl

/-! ## `wakeGang`: gangs alone change -/

@[simp] theorem wakeGang_clk (n t : Nat) (s : State) : (wakeGang n t s).clk = s.clk := onGang_clk ..
@[simp] theorem wakeGang_power (n t : Nat) (s : State) : (wakeGang n t s).power = s.power := onGang_power ..
@[simp] theorem wakeGang_mem (n t : Nat) (s : State) : (wakeGang n t s).mem = s.mem := onGang_mem ..
@[simp] theorem wakeGang_wts (n t : Nat) (s : State) : (wakeGang n t s).wts = s.wts := onGang_wts ..
@[simp] theorem wakeGang_rts (n t : Nat) (s : State) : (wakeGang n t s).rts = s.rts := onGang_rts ..
@[simp] theorem wakeGang_mt (n t : Nat) (s : State) : (wakeGang n t s).mt = s.mt := onGang_mt ..
@[simp] theorem wakeGang_sc (n t : Nat) (s : State) : (wakeGang n t s).sc = s.sc := onGang_sc ..
@[simp] theorem wakeGang_lineCode (n t : Nat) (s : State) : (wakeGang n t s).lineCode = s.lineCode := onGang_lineCode ..
@[simp] theorem wakeGang_flips (n t : Nat) (s : State) : (wakeGang n t s).flips = s.flips := onGang_flips ..
@[simp] theorem wakeGang_lineKey (n t : Nat) (s : State) : (wakeGang n t s).lineKey = s.lineKey := onGang_lineKey ..
@[simp] theorem wakeGang_copies (n t : Nat) (s : State) : (wakeGang n t s).copies = s.copies := onGang_copies ..
@[simp] theorem wakeGang_refused (n t : Nat) (s : State) : (wakeGang n t s).refused = s.refused := onGang_refused ..
@[simp] theorem wakeGang_monitors (n t : Nat) (s : State) : (wakeGang n t s).monitors = s.monitors := onGang_monitors ..
@[simp] theorem wakeGang_tlb (n t : Nat) (s : State) : (wakeGang n t s).tlb = s.tlb := onGang_tlb ..
@[simp] theorem wakeGang_icache (n t : Nat) (s : State) : (wakeGang n t s).icache = s.icache := onGang_icache ..
@[simp] theorem wakeGang_sysregs (n t : Nat) (s : State) : (wakeGang n t s).sysregs = s.sysregs := onGang_sysregs ..
@[simp] theorem wakeGang_staged (n t : Nat) (s : State) : (wakeGang n t s).staged = s.staged := onGang_staged ..
@[simp] theorem wakeGang_ops (n t : Nat) (s : State) : (wakeGang n t s).ops = s.ops := onGang_ops ..
@[simp] theorem wakeGang_teams (n t : Nat) (s : State) : (wakeGang n t s).teams = s.teams := onGang_teams ..
@[simp] theorem wakeGang_tasks (n t : Nat) (s : State) : (wakeGang n t s).tasks = s.tasks := onGang_tasks ..
@[simp] theorem wakeGang_ctxs (n t : Nat) (s : State) : (wakeGang n t s).ctxs = s.ctxs := onGang_ctxs ..
@[simp] theorem wakeGang_relays (n t : Nat) (s : State) : (wakeGang n t s).relays = s.relays := onGang_relays ..
@[simp] theorem wakeGang_tfree (n t : Nat) (s : State) : (wakeGang n t s).tfree = s.tfree := onGang_tfree ..
@[simp] theorem wakeGang_mmas (n t : Nat) (s : State) : (wakeGang n t s).mmas = s.mmas := onGang_mmas ..
@[simp] theorem wakeGang_merges (n t : Nat) (s : State) : (wakeGang n t s).merges = s.merges := onGang_merges ..
@[simp] theorem wakeGang_contribs (n t : Nat) (s : State) : (wakeGang n t s).contribs = s.contribs := onGang_contribs ..
@[simp] theorem wakeGang_posts (n t : Nat) (s : State) : (wakeGang n t s).posts = s.posts := onGang_posts ..
@[simp] theorem wakeGang_laterals (n t : Nat) (s : State) : (wakeGang n t s).laterals = s.laterals := onGang_laterals ..
@[simp] theorem wakeGang_subReqs (n t : Nat) (s : State) : (wakeGang n t s).subReqs = s.subReqs := onGang_subReqs ..
@[simp] theorem wakeGang_cohorts (n t : Nat) (s : State) : (wakeGang n t s).cohorts = s.cohorts := onGang_cohorts ..
@[simp] theorem wakeGang_canals (n t : Nat) (s : State) : (wakeGang n t s).canals = s.canals := onGang_canals ..
@[simp] theorem wakeGang_commits (n t : Nat) (s : State) : (wakeGang n t s).commits = s.commits := onGang_commits ..
@[simp] theorem wakeGang_takers (n t : Nat) (s : State) : (wakeGang n t s).takers = s.takers := onGang_takers ..
@[simp] theorem wakeGang_recs (n t : Nat) (s : State) : (wakeGang n t s).recs = s.recs := onGang_recs ..
@[simp] theorem wakeGang_banks (n t : Nat) (s : State) : (wakeGang n t s).banks = s.banks := onGang_banks ..
@[simp] theorem wakeGang_visits (n t : Nat) (s : State) : (wakeGang n t s).visits = s.visits := onGang_visits ..
@[simp] theorem wakeGang_classIn (n t : Nat) (s : State) : (wakeGang n t s).classIn = s.classIn := onGang_classIn ..
@[simp] theorem wakeGang_scrap (n t : Nat) (s : State) : (wakeGang n t s).scrap = s.scrap := onGang_scrap ..
@[simp] theorem wakeGang_scrapCtx (n t : Nat) (s : State) : (wakeGang n t s).scrapCtx = s.scrapCtx := onGang_scrapCtx ..
@[simp] theorem wakeGang_fifo (n t : Nat) (s : State) : (wakeGang n t s).fifo = s.fifo := onGang_fifo ..
@[simp] theorem wakeGang_fifoCtx (n t : Nat) (s : State) : (wakeGang n t s).fifoCtx = s.fifoCtx := onGang_fifoCtx ..
@[simp] theorem wakeGang_adv (n t : Nat) (s : State) : (wakeGang n t s).adv = s.adv := onGang_adv ..
@[simp] theorem wakeGang_offers (n t : Nat) (s : State) : (wakeGang n t s).offers = s.offers := onGang_offers ..
@[simp] theorem wakeGang_counts (n t : Nat) (s : State) : (wakeGang n t s).counts = s.counts := onGang_counts ..
@[simp] theorem wakeGang_frames (n t : Nat) (s : State) : (wakeGang n t s).frames = s.frames := onGang_frames ..
@[simp] theorem wakeGang_demoting (n t : Nat) (s : State) : (wakeGang n t s).demoting = s.demoting := onGang_demoting ..
@[simp] theorem wakeGang_storage (n t : Nat) (s : State) : (wakeGang n t s).storage = s.storage := onGang_storage ..
@[simp] theorem wakeGang_stored (n t : Nat) (s : State) : (wakeGang n t s).stored = s.stored := onGang_stored ..
@[simp] theorem wakeGang_qread (n t : Nat) (s : State) : (wakeGang n t s).qread = s.qread := onGang_qread ..
@[simp] theorem wakeGang_reports (n t : Nat) (s : State) : (wakeGang n t s).reports = s.reports := onGang_reports ..
@[simp] theorem wakeGang_shares (n t : Nat) (s : State) : (wakeGang n t s).shares = s.shares := onGang_shares ..
@[simp] theorem wakeGang_busy (n t : Nat) (s : State) : (wakeGang n t s).busy = s.busy := onGang_busy ..
@[simp] theorem wakeGang_busyTo (n t : Nat) (s : State) : (wakeGang n t s).busyTo = s.busyTo := onGang_busyTo ..
@[simp] theorem wakeGang_keyDels (n t : Nat) (s : State) : (wakeGang n t s).keyDels = s.keyDels := onGang_keyDels ..
@[simp] theorem wakeGang_hg (n t : Nat) (s : State) : (wakeGang n t s).hg = s.hg := onGang_hg ..
@[simp] theorem wakeGang_msix (n t : Nat) (s : State) : (wakeGang n t s).msix = s.msix := onGang_msix ..
@[simp] theorem wakeGang_msgs (n t : Nat) (s : State) : (wakeGang n t s).msgs = s.msgs := onGang_msgs ..
@[simp] theorem wakeGang_answers (n t : Nat) (s : State) : (wakeGang n t s).answers = s.answers := onGang_answers ..
@[simp] theorem wakeGang_mapBefore (n t : Nat) (s : State) : (wakeGang n t s).mapBefore = s.mapBefore := onGang_mapBefore ..
@[simp] theorem wakeGang_hostLines (n t : Nat) (s : State) : (wakeGang n t s).hostLines = s.hostLines := onGang_hostLines ..
@[simp] theorem wakeGang_hostStores (n t : Nat) (s : State) : (wakeGang n t s).hostStores = s.hostStores := onGang_hostStores ..
@[simp] theorem wakeGang_fresh (n t : Nat) (s : State) : (wakeGang n t s).fresh = s.fresh := onGang_fresh ..
@[simp] theorem wakeGang_nextId (n t : Nat) (s : State) : (wakeGang n t s).nextId = s.nextId := onGang_nextId ..
@[simp] theorem wakeGang_obj (n t : Nat) (s : State) : (wakeGang n t s).obj = s.obj := onGang_obj ..
@[simp] theorem wakeGang_agenda (n t : Nat) (s : State) : (wakeGang n t s).agenda = s.agenda := onGang_agenda ..
@[simp] theorem wakeGang_sched (n t : Nat) (s : State) : (wakeGang n t s).sched = s.sched := onGang_sched ..
@[simp] theorem wakeGang_turn (n t : Nat) (s : State) : (wakeGang n t s).turn = s.turn := onGang_turn ..

/-! ## `dropOp`: operations and copies alone change -/

/-- A fold of steps that change operations and copies alone changes them alone. -/
theorem foldl_opsCopies {α : Type} (f : State → α → State) (hf : ∀ s x, f s x = { s with ops := (f s x).ops, copies := (f s x).copies }) :
    ∀ (l : List α) (s : State), l.foldl f s = { s with ops := (l.foldl f s).ops, copies := (l.foldl f s).copies }
  | [], _ => rfl
  | x :: l, s => by
    have ih := foldl_opsCopies f hf l (f s x)
    have h := hf s x
    rw [List.foldl_cons]
    generalize l.foldl f (f s x) = t at ih ⊢
    generalize f s x = u at ih h
    rw [ih, h]

theorem endFence_eq (o : Op) (s : State) : endFence o s = { s with ops := (endFence o s).ops, copies := (endFence o s).copies } := by
  unfold endFence
  dsimp only
  split
  · rfl
  · rw [foldl_opsCopies]
    intro s x
    rfl

theorem dropOp_eq (s : State) (o : Nat) : dropOp s o = { s with ops := (dropOp s o).ops, copies := (dropOp s o).copies } := by
  unfold dropOp endFences
  rw [foldl_opsCopies _ fun s x => endFence_eq x s]

@[simp] theorem dropOp_clk (s : State) (o : Nat) : (dropOp s o).clk = s.clk := by rw [dropOp_eq]
@[simp] theorem dropOp_power (s : State) (o : Nat) : (dropOp s o).power = s.power := by rw [dropOp_eq]
@[simp] theorem dropOp_mem (s : State) (o : Nat) : (dropOp s o).mem = s.mem := by rw [dropOp_eq]
@[simp] theorem dropOp_wts (s : State) (o : Nat) : (dropOp s o).wts = s.wts := by rw [dropOp_eq]
@[simp] theorem dropOp_rts (s : State) (o : Nat) : (dropOp s o).rts = s.rts := by rw [dropOp_eq]
@[simp] theorem dropOp_mt (s : State) (o : Nat) : (dropOp s o).mt = s.mt := by rw [dropOp_eq]
@[simp] theorem dropOp_sc (s : State) (o : Nat) : (dropOp s o).sc = s.sc := by rw [dropOp_eq]
@[simp] theorem dropOp_lineCode (s : State) (o : Nat) : (dropOp s o).lineCode = s.lineCode := by rw [dropOp_eq]
@[simp] theorem dropOp_flips (s : State) (o : Nat) : (dropOp s o).flips = s.flips := by rw [dropOp_eq]
@[simp] theorem dropOp_lineKey (s : State) (o : Nat) : (dropOp s o).lineKey = s.lineKey := by rw [dropOp_eq]
@[simp] theorem dropOp_refused (s : State) (o : Nat) : (dropOp s o).refused = s.refused := by rw [dropOp_eq]
@[simp] theorem dropOp_monitors (s : State) (o : Nat) : (dropOp s o).monitors = s.monitors := by rw [dropOp_eq]
@[simp] theorem dropOp_tlb (s : State) (o : Nat) : (dropOp s o).tlb = s.tlb := by rw [dropOp_eq]
@[simp] theorem dropOp_icache (s : State) (o : Nat) : (dropOp s o).icache = s.icache := by rw [dropOp_eq]
@[simp] theorem dropOp_sysregs (s : State) (o : Nat) : (dropOp s o).sysregs = s.sysregs := by rw [dropOp_eq]
@[simp] theorem dropOp_staged (s : State) (o : Nat) : (dropOp s o).staged = s.staged := by rw [dropOp_eq]
@[simp] theorem dropOp_g (s : State) (o : Nat) : (dropOp s o).g = s.g := by rw [dropOp_eq]
@[simp] theorem dropOp_gangs (s : State) (o : Nat) : (dropOp s o).gangs = s.gangs := by rw [dropOp_eq]
@[simp] theorem dropOp_teams (s : State) (o : Nat) : (dropOp s o).teams = s.teams := by rw [dropOp_eq]
@[simp] theorem dropOp_tasks (s : State) (o : Nat) : (dropOp s o).tasks = s.tasks := by rw [dropOp_eq]
@[simp] theorem dropOp_ctxs (s : State) (o : Nat) : (dropOp s o).ctxs = s.ctxs := by rw [dropOp_eq]
@[simp] theorem dropOp_relays (s : State) (o : Nat) : (dropOp s o).relays = s.relays := by rw [dropOp_eq]
@[simp] theorem dropOp_tfree (s : State) (o : Nat) : (dropOp s o).tfree = s.tfree := by rw [dropOp_eq]
@[simp] theorem dropOp_mmas (s : State) (o : Nat) : (dropOp s o).mmas = s.mmas := by rw [dropOp_eq]
@[simp] theorem dropOp_merges (s : State) (o : Nat) : (dropOp s o).merges = s.merges := by rw [dropOp_eq]
@[simp] theorem dropOp_contribs (s : State) (o : Nat) : (dropOp s o).contribs = s.contribs := by rw [dropOp_eq]
@[simp] theorem dropOp_posts (s : State) (o : Nat) : (dropOp s o).posts = s.posts := by rw [dropOp_eq]
@[simp] theorem dropOp_laterals (s : State) (o : Nat) : (dropOp s o).laterals = s.laterals := by rw [dropOp_eq]
@[simp] theorem dropOp_subReqs (s : State) (o : Nat) : (dropOp s o).subReqs = s.subReqs := by rw [dropOp_eq]
@[simp] theorem dropOp_cohorts (s : State) (o : Nat) : (dropOp s o).cohorts = s.cohorts := by rw [dropOp_eq]
@[simp] theorem dropOp_canals (s : State) (o : Nat) : (dropOp s o).canals = s.canals := by rw [dropOp_eq]
@[simp] theorem dropOp_commits (s : State) (o : Nat) : (dropOp s o).commits = s.commits := by rw [dropOp_eq]
@[simp] theorem dropOp_takers (s : State) (o : Nat) : (dropOp s o).takers = s.takers := by rw [dropOp_eq]
@[simp] theorem dropOp_recs (s : State) (o : Nat) : (dropOp s o).recs = s.recs := by rw [dropOp_eq]
@[simp] theorem dropOp_banks (s : State) (o : Nat) : (dropOp s o).banks = s.banks := by rw [dropOp_eq]
@[simp] theorem dropOp_visits (s : State) (o : Nat) : (dropOp s o).visits = s.visits := by rw [dropOp_eq]
@[simp] theorem dropOp_classIn (s : State) (o : Nat) : (dropOp s o).classIn = s.classIn := by rw [dropOp_eq]
@[simp] theorem dropOp_scrap (s : State) (o : Nat) : (dropOp s o).scrap = s.scrap := by rw [dropOp_eq]
@[simp] theorem dropOp_scrapCtx (s : State) (o : Nat) : (dropOp s o).scrapCtx = s.scrapCtx := by rw [dropOp_eq]
@[simp] theorem dropOp_fifo (s : State) (o : Nat) : (dropOp s o).fifo = s.fifo := by rw [dropOp_eq]
@[simp] theorem dropOp_fifoCtx (s : State) (o : Nat) : (dropOp s o).fifoCtx = s.fifoCtx := by rw [dropOp_eq]
@[simp] theorem dropOp_adv (s : State) (o : Nat) : (dropOp s o).adv = s.adv := by rw [dropOp_eq]
@[simp] theorem dropOp_offers (s : State) (o : Nat) : (dropOp s o).offers = s.offers := by rw [dropOp_eq]
@[simp] theorem dropOp_counts (s : State) (o : Nat) : (dropOp s o).counts = s.counts := by rw [dropOp_eq]
@[simp] theorem dropOp_frames (s : State) (o : Nat) : (dropOp s o).frames = s.frames := by rw [dropOp_eq]
@[simp] theorem dropOp_demoting (s : State) (o : Nat) : (dropOp s o).demoting = s.demoting := by rw [dropOp_eq]
@[simp] theorem dropOp_storage (s : State) (o : Nat) : (dropOp s o).storage = s.storage := by rw [dropOp_eq]
@[simp] theorem dropOp_stored (s : State) (o : Nat) : (dropOp s o).stored = s.stored := by rw [dropOp_eq]
@[simp] theorem dropOp_qread (s : State) (o : Nat) : (dropOp s o).qread = s.qread := by rw [dropOp_eq]
@[simp] theorem dropOp_reports (s : State) (o : Nat) : (dropOp s o).reports = s.reports := by rw [dropOp_eq]
@[simp] theorem dropOp_shares (s : State) (o : Nat) : (dropOp s o).shares = s.shares := by rw [dropOp_eq]
@[simp] theorem dropOp_busy (s : State) (o : Nat) : (dropOp s o).busy = s.busy := by rw [dropOp_eq]
@[simp] theorem dropOp_busyTo (s : State) (o : Nat) : (dropOp s o).busyTo = s.busyTo := by rw [dropOp_eq]
@[simp] theorem dropOp_keyDels (s : State) (o : Nat) : (dropOp s o).keyDels = s.keyDels := by rw [dropOp_eq]
@[simp] theorem dropOp_hg (s : State) (o : Nat) : (dropOp s o).hg = s.hg := by rw [dropOp_eq]
@[simp] theorem dropOp_msix (s : State) (o : Nat) : (dropOp s o).msix = s.msix := by rw [dropOp_eq]
@[simp] theorem dropOp_msgs (s : State) (o : Nat) : (dropOp s o).msgs = s.msgs := by rw [dropOp_eq]
@[simp] theorem dropOp_answers (s : State) (o : Nat) : (dropOp s o).answers = s.answers := by rw [dropOp_eq]
@[simp] theorem dropOp_mapBefore (s : State) (o : Nat) : (dropOp s o).mapBefore = s.mapBefore := by rw [dropOp_eq]
@[simp] theorem dropOp_hostLines (s : State) (o : Nat) : (dropOp s o).hostLines = s.hostLines := by rw [dropOp_eq]
@[simp] theorem dropOp_hostStores (s : State) (o : Nat) : (dropOp s o).hostStores = s.hostStores := by rw [dropOp_eq]
@[simp] theorem dropOp_fresh (s : State) (o : Nat) : (dropOp s o).fresh = s.fresh := by rw [dropOp_eq]
@[simp] theorem dropOp_nextId (s : State) (o : Nat) : (dropOp s o).nextId = s.nextId := by rw [dropOp_eq]
@[simp] theorem dropOp_obj (s : State) (o : Nat) : (dropOp s o).obj = s.obj := by rw [dropOp_eq]
@[simp] theorem dropOp_agenda (s : State) (o : Nat) : (dropOp s o).agenda = s.agenda := by rw [dropOp_eq]
@[simp] theorem dropOp_sched (s : State) (o : Nat) : (dropOp s o).sched = s.sched := by rw [dropOp_eq]
@[simp] theorem dropOp_turn (s : State) (o : Nat) : (dropOp s o).turn = s.turn := by rw [dropOp_eq]

/-! ## `sSet` -/

@[simp] theorem sSet_gid (g : Gang) (r : Nat) (x : DWord) : (sSet g r x).gid = g.gid := rfl
@[simp] theorem sSet_team (g : Gang) (r : Nat) (x : DWord) : (sSet g r x).team = g.team := rfl
@[simp] theorem sSet_num (g : Gang) (r : Nat) (x : DWord) : (sSet g r x).num = g.num := rfl
@[simp] theorem sSet_regs (g : Gang) (r : Nat) (x : DWord) : (sSet g r x).regs = g.regs := rfl
@[simp] theorem sSet_quarter (g : Gang) (r : Nat) (x : DWord) : (sSet g r x).quarter = g.quarter := rfl
@[simp] theorem sSet_place (g : Gang) (r : Nat) (x : DWord) : (sSet g r x).place = g.place := rfl
@[simp] theorem sSet_v (g : Gang) (r : Nat) (x : DWord) : (sSet g r x).v = g.v := rfl
@[simp] theorem sSet_s (g : Gang) (r : Nat) (x : DWord) : (sSet g r x).s = set0 g.s r x := rfl
@[simp] theorem sSet_k (g : Gang) (r : Nat) (x : DWord) : (sSet g r x).k = g.k := rfl
@[simp] theorem sSet_lc (g : Gang) (r : Nat) (x : DWord) : (sSet g r x).lc = g.lc := rfl
@[simp] theorem sSet_pc (g : Gang) (r : Nat) (x : DWord) : (sSet g r x).pc = g.pc := rfl
@[simp] theorem sSet_meet (g : Gang) (r : Nat) (x : DWord) : (sSet g r x).meet = g.meet := rfl
@[simp] theorem sSet_lk (g : Gang) (r : Nat) (x : DWord) : (sSet g r x).lk = g.lk := rfl
@[simp] theorem sSet_live (g : Gang) (r : Nat) (x : DWord) : (sSet g r x).live = g.live := rfl
@[simp] theorem sSet_marks (g : Gang) (r : Nat) (x : DWord) : (sSet g r x).marks = g.marks := rfl
@[simp] theorem sSet_streak (g : Gang) (r : Nat) (x : DWord) : (sSet g r x).streak = g.streak := rfl
@[simp] theorem sSet_yieldPt (g : Gang) (r : Nat) (x : DWord) : (sSet g r x).yieldPt = g.yieldPt := rfl
@[simp] theorem sSet_gts (g : Gang) (r : Nat) (x : DWord) : (sSet g r x).gts = g.gts := rfl
@[simp] theorem sSet_fmode (g : Gang) (r : Nat) (x : DWord) : (sSet g r x).fmode = g.fmode := rfl
@[simp] theorem sSet_fstat (g : Gang) (r : Nat) (x : DWord) : (sSet g r x).fstat = g.fstat := rfl
@[simp] theorem sSet_cl (g : Gang) (r : Nat) (x : DWord) : (sSet g r x).cl = g.cl := rfl
@[simp] theorem sSet_prio (g : Gang) (r : Nat) (x : DWord) : (sSet g r x).prio = g.prio := rfl
@[simp] theorem sSet_inH (g : Gang) (r : Nat) (x : DWord) : (sSet g r x).inH = g.inH := rfl
@[simp] theorem sSet_hpc (g : Gang) (r : Nat) (x : DWord) : (sSet g r x).hpc = g.hpc := rfl
@[simp] theorem sSet_kept (g : Gang) (r : Nat) (x : DWord) : (sSet g r x).kept = g.kept := rfl
@[simp] theorem sSet_area (g : Gang) (r : Nat) (x : DWord) : (sSet g r x).area = g.area := rfl
@[simp] theorem sSet_recs (g : Gang) (r : Nat) (x : DWord) : (sSet g r x).recs = g.recs := rfl
@[simp] theorem sSet_pending (g : Gang) (r : Nat) (x : DWord) : (sSet g r x).pending = g.pending := rfl
@[simp] theorem sSet_wait (g : Gang) (r : Nat) (x : DWord) : (sSet g r x).wait = g.wait := rfl
@[simp] theorem sSet_waitNxt (g : Gang) (r : Nat) (x : DWord) : (sSet g r x).waitNxt = g.waitNxt := rfl
@[simp] theorem sSet_waitLen (g : Gang) (r : Nat) (x : DWord) : (sSet g r x).waitLen = g.waitLen := rfl
@[simp] theorem sSet_waitFrom (g : Gang) (r : Nat) (x : DWord) : (sSet g r x).waitFrom = g.waitFrom := rfl
@[simp] theorem sSet_wake (g : Gang) (r : Nat) (x : DWord) : (sSet g r x).wake = g.wake := rfl
@[simp] theorem sSet_issued (g : Gang) (r : Nat) (x : DWord) : (sSet g r x).issued = g.issued := rfl
@[simp] theorem sSet_engTime (g : Gang) (r : Nat) (x : DWord) : (sSet g r x).engTime = g.engTime := rfl
@[simp] theorem sSet_active (g : Gang) (r : Nat) (x : DWord) : (sSet g r x).active = g.active := rfl
@[simp] theorem sSet_age (g : Gang) (r : Nat) (x : DWord) : (sSet g r x).age = g.age := rfl
@[simp] theorem sSet_entered (g : Gang) (r : Nat) (x : DWord) : (sSet g r x).entered = g.entered := rfl
@[simp] theorem sSet_entry (g : Gang) (r : Nat) (x : DWord) : (sSet g r x).entry = g.entry := rfl
@[simp] theorem sSet_readyFrom (g : Gang) (r : Nat) (x : DWord) : (sSet g r x).readyFrom = g.readyFrom := rfl
@[simp] theorem sSet_starved (g : Gang) (r : Nat) (x : DWord) : (sSet g r x).starved = g.starved := rfl
@[simp] theorem sSet_issueAt (g : Gang) (r : Nat) (x : DWord) : (sSet g r x).issueAt = g.issueAt := rfl
@[simp] theorem sSet_lastIssue (g : Gang) (r : Nat) (x : DWord) : (sSet g r x).lastIssue = g.lastIssue := rfl
@[simp] theorem sSet_longLat (g : Gang) (r : Nat) (x : DWord) : (sSet g r x).longLat = g.longLat := rfl

/-! ## `vSet` -/

@[simp] theorem vSet_gid (g : Gang) (r l : Nat) (x : Word) : (vSet g r l x).gid = g.gid := rfl
@[simp] theorem vSet_team (g : Gang) (r l : Nat) (x : Word) : (vSet g r l x).team = g.team := rfl
@[simp] theorem vSet_num (g : Gang) (r l : Nat) (x : Word) : (vSet g r l x).num = g.num := rfl
@[simp] theorem vSet_regs (g : Gang) (r l : Nat) (x : Word) : (vSet g r l x).regs = g.regs := rfl
@[simp] theorem vSet_quarter (g : Gang) (r l : Nat) (x : Word) : (vSet g r l x).quarter = g.quarter := rfl
@[simp] theorem vSet_place (g : Gang) (r l : Nat) (x : Word) : (vSet g r l x).place = g.place := rfl
@[simp] theorem vSet_v (g : Gang) (r l : Nat) (x : Word) : (vSet g r l x).v = set0 g.v (vKey r l) x := rfl
@[simp] theorem vSet_s (g : Gang) (r l : Nat) (x : Word) : (vSet g r l x).s = g.s := rfl
@[simp] theorem vSet_k (g : Gang) (r l : Nat) (x : Word) : (vSet g r l x).k = g.k := rfl
@[simp] theorem vSet_lc (g : Gang) (r l : Nat) (x : Word) : (vSet g r l x).lc = g.lc := rfl
@[simp] theorem vSet_pc (g : Gang) (r l : Nat) (x : Word) : (vSet g r l x).pc = g.pc := rfl
@[simp] theorem vSet_meet (g : Gang) (r l : Nat) (x : Word) : (vSet g r l x).meet = g.meet := rfl
@[simp] theorem vSet_lk (g : Gang) (r l : Nat) (x : Word) : (vSet g r l x).lk = g.lk := rfl
@[simp] theorem vSet_live (g : Gang) (r l : Nat) (x : Word) : (vSet g r l x).live = g.live := rfl
@[simp] theorem vSet_marks (g : Gang) (r l : Nat) (x : Word) : (vSet g r l x).marks = g.marks := rfl
@[simp] theorem vSet_streak (g : Gang) (r l : Nat) (x : Word) : (vSet g r l x).streak = g.streak := rfl
@[simp] theorem vSet_yieldPt (g : Gang) (r l : Nat) (x : Word) : (vSet g r l x).yieldPt = g.yieldPt := rfl
@[simp] theorem vSet_gts (g : Gang) (r l : Nat) (x : Word) : (vSet g r l x).gts = g.gts := rfl
@[simp] theorem vSet_fmode (g : Gang) (r l : Nat) (x : Word) : (vSet g r l x).fmode = g.fmode := rfl
@[simp] theorem vSet_fstat (g : Gang) (r l : Nat) (x : Word) : (vSet g r l x).fstat = g.fstat := rfl
@[simp] theorem vSet_cl (g : Gang) (r l : Nat) (x : Word) : (vSet g r l x).cl = g.cl := rfl
@[simp] theorem vSet_prio (g : Gang) (r l : Nat) (x : Word) : (vSet g r l x).prio = g.prio := rfl
@[simp] theorem vSet_inH (g : Gang) (r l : Nat) (x : Word) : (vSet g r l x).inH = g.inH := rfl
@[simp] theorem vSet_hpc (g : Gang) (r l : Nat) (x : Word) : (vSet g r l x).hpc = g.hpc := rfl
@[simp] theorem vSet_kept (g : Gang) (r l : Nat) (x : Word) : (vSet g r l x).kept = g.kept := rfl
@[simp] theorem vSet_area (g : Gang) (r l : Nat) (x : Word) : (vSet g r l x).area = g.area := rfl
@[simp] theorem vSet_recs (g : Gang) (r l : Nat) (x : Word) : (vSet g r l x).recs = g.recs := rfl
@[simp] theorem vSet_pending (g : Gang) (r l : Nat) (x : Word) : (vSet g r l x).pending = g.pending := rfl
@[simp] theorem vSet_wait (g : Gang) (r l : Nat) (x : Word) : (vSet g r l x).wait = g.wait := rfl
@[simp] theorem vSet_waitNxt (g : Gang) (r l : Nat) (x : Word) : (vSet g r l x).waitNxt = g.waitNxt := rfl
@[simp] theorem vSet_waitLen (g : Gang) (r l : Nat) (x : Word) : (vSet g r l x).waitLen = g.waitLen := rfl
@[simp] theorem vSet_waitFrom (g : Gang) (r l : Nat) (x : Word) : (vSet g r l x).waitFrom = g.waitFrom := rfl
@[simp] theorem vSet_wake (g : Gang) (r l : Nat) (x : Word) : (vSet g r l x).wake = g.wake := rfl
@[simp] theorem vSet_issued (g : Gang) (r l : Nat) (x : Word) : (vSet g r l x).issued = g.issued := rfl
@[simp] theorem vSet_engTime (g : Gang) (r l : Nat) (x : Word) : (vSet g r l x).engTime = g.engTime := rfl
@[simp] theorem vSet_active (g : Gang) (r l : Nat) (x : Word) : (vSet g r l x).active = g.active := rfl
@[simp] theorem vSet_age (g : Gang) (r l : Nat) (x : Word) : (vSet g r l x).age = g.age := rfl
@[simp] theorem vSet_entered (g : Gang) (r l : Nat) (x : Word) : (vSet g r l x).entered = g.entered := rfl
@[simp] theorem vSet_entry (g : Gang) (r l : Nat) (x : Word) : (vSet g r l x).entry = g.entry := rfl
@[simp] theorem vSet_readyFrom (g : Gang) (r l : Nat) (x : Word) : (vSet g r l x).readyFrom = g.readyFrom := rfl
@[simp] theorem vSet_starved (g : Gang) (r l : Nat) (x : Word) : (vSet g r l x).starved = g.starved := rfl
@[simp] theorem vSet_issueAt (g : Gang) (r l : Nat) (x : Word) : (vSet g r l x).issueAt = g.issueAt := rfl
@[simp] theorem vSet_lastIssue (g : Gang) (r l : Nat) (x : Word) : (vSet g r l x).lastIssue = g.lastIssue := rfl
@[simp] theorem vSet_longLat (g : Gang) (r l : Nat) (x : Word) : (vSet g r l x).longLat = g.longLat := rfl

/-! ## `kSet` -/

@[simp] theorem kSet_gid (g : Gang) (r : Nat) (x : Mask) : (kSet g r x).gid = g.gid := by unfold kSet; split <;> rfl
@[simp] theorem kSet_team (g : Gang) (r : Nat) (x : Mask) : (kSet g r x).team = g.team := by unfold kSet; split <;> rfl
@[simp] theorem kSet_num (g : Gang) (r : Nat) (x : Mask) : (kSet g r x).num = g.num := by unfold kSet; split <;> rfl
@[simp] theorem kSet_regs (g : Gang) (r : Nat) (x : Mask) : (kSet g r x).regs = g.regs := by unfold kSet; split <;> rfl
@[simp] theorem kSet_quarter (g : Gang) (r : Nat) (x : Mask) : (kSet g r x).quarter = g.quarter := by unfold kSet; split <;> rfl
@[simp] theorem kSet_place (g : Gang) (r : Nat) (x : Mask) : (kSet g r x).place = g.place := by unfold kSet; split <;> rfl
@[simp] theorem kSet_v (g : Gang) (r : Nat) (x : Mask) : (kSet g r x).v = g.v := by unfold kSet; split <;> rfl
@[simp] theorem kSet_s (g : Gang) (r : Nat) (x : Mask) : (kSet g r x).s = g.s := by unfold kSet; split <;> rfl
@[simp] theorem kSet_k (g : Gang) (r : Nat) (x : Mask) : (kSet g r x).k = if r = 0 then g.k else set0 g.k r x := by unfold kSet; split <;> rfl
@[simp] theorem kSet_lc (g : Gang) (r : Nat) (x : Mask) : (kSet g r x).lc = g.lc := by unfold kSet; split <;> rfl
@[simp] theorem kSet_pc (g : Gang) (r : Nat) (x : Mask) : (kSet g r x).pc = g.pc := by unfold kSet; split <;> rfl
@[simp] theorem kSet_meet (g : Gang) (r : Nat) (x : Mask) : (kSet g r x).meet = g.meet := by unfold kSet; split <;> rfl
@[simp] theorem kSet_lk (g : Gang) (r : Nat) (x : Mask) : (kSet g r x).lk = g.lk := by unfold kSet; split <;> rfl
@[simp] theorem kSet_live (g : Gang) (r : Nat) (x : Mask) : (kSet g r x).live = g.live := by unfold kSet; split <;> rfl
@[simp] theorem kSet_marks (g : Gang) (r : Nat) (x : Mask) : (kSet g r x).marks = g.marks := by unfold kSet; split <;> rfl
@[simp] theorem kSet_streak (g : Gang) (r : Nat) (x : Mask) : (kSet g r x).streak = g.streak := by unfold kSet; split <;> rfl
@[simp] theorem kSet_yieldPt (g : Gang) (r : Nat) (x : Mask) : (kSet g r x).yieldPt = g.yieldPt := by unfold kSet; split <;> rfl
@[simp] theorem kSet_gts (g : Gang) (r : Nat) (x : Mask) : (kSet g r x).gts = g.gts := by unfold kSet; split <;> rfl
@[simp] theorem kSet_fmode (g : Gang) (r : Nat) (x : Mask) : (kSet g r x).fmode = g.fmode := by unfold kSet; split <;> rfl
@[simp] theorem kSet_fstat (g : Gang) (r : Nat) (x : Mask) : (kSet g r x).fstat = g.fstat := by unfold kSet; split <;> rfl
@[simp] theorem kSet_cl (g : Gang) (r : Nat) (x : Mask) : (kSet g r x).cl = g.cl := by unfold kSet; split <;> rfl
@[simp] theorem kSet_prio (g : Gang) (r : Nat) (x : Mask) : (kSet g r x).prio = g.prio := by unfold kSet; split <;> rfl
@[simp] theorem kSet_inH (g : Gang) (r : Nat) (x : Mask) : (kSet g r x).inH = g.inH := by unfold kSet; split <;> rfl
@[simp] theorem kSet_hpc (g : Gang) (r : Nat) (x : Mask) : (kSet g r x).hpc = g.hpc := by unfold kSet; split <;> rfl
@[simp] theorem kSet_kept (g : Gang) (r : Nat) (x : Mask) : (kSet g r x).kept = g.kept := by unfold kSet; split <;> rfl
@[simp] theorem kSet_area (g : Gang) (r : Nat) (x : Mask) : (kSet g r x).area = g.area := by unfold kSet; split <;> rfl
@[simp] theorem kSet_recs (g : Gang) (r : Nat) (x : Mask) : (kSet g r x).recs = g.recs := by unfold kSet; split <;> rfl
@[simp] theorem kSet_pending (g : Gang) (r : Nat) (x : Mask) : (kSet g r x).pending = g.pending := by unfold kSet; split <;> rfl
@[simp] theorem kSet_wait (g : Gang) (r : Nat) (x : Mask) : (kSet g r x).wait = g.wait := by unfold kSet; split <;> rfl
@[simp] theorem kSet_waitNxt (g : Gang) (r : Nat) (x : Mask) : (kSet g r x).waitNxt = g.waitNxt := by unfold kSet; split <;> rfl
@[simp] theorem kSet_waitLen (g : Gang) (r : Nat) (x : Mask) : (kSet g r x).waitLen = g.waitLen := by unfold kSet; split <;> rfl
@[simp] theorem kSet_waitFrom (g : Gang) (r : Nat) (x : Mask) : (kSet g r x).waitFrom = g.waitFrom := by unfold kSet; split <;> rfl
@[simp] theorem kSet_wake (g : Gang) (r : Nat) (x : Mask) : (kSet g r x).wake = g.wake := by unfold kSet; split <;> rfl
@[simp] theorem kSet_issued (g : Gang) (r : Nat) (x : Mask) : (kSet g r x).issued = g.issued := by unfold kSet; split <;> rfl
@[simp] theorem kSet_engTime (g : Gang) (r : Nat) (x : Mask) : (kSet g r x).engTime = g.engTime := by unfold kSet; split <;> rfl
@[simp] theorem kSet_active (g : Gang) (r : Nat) (x : Mask) : (kSet g r x).active = g.active := by unfold kSet; split <;> rfl
@[simp] theorem kSet_age (g : Gang) (r : Nat) (x : Mask) : (kSet g r x).age = g.age := by unfold kSet; split <;> rfl
@[simp] theorem kSet_entered (g : Gang) (r : Nat) (x : Mask) : (kSet g r x).entered = g.entered := by unfold kSet; split <;> rfl
@[simp] theorem kSet_entry (g : Gang) (r : Nat) (x : Mask) : (kSet g r x).entry = g.entry := by unfold kSet; split <;> rfl
@[simp] theorem kSet_readyFrom (g : Gang) (r : Nat) (x : Mask) : (kSet g r x).readyFrom = g.readyFrom := by unfold kSet; split <;> rfl
@[simp] theorem kSet_starved (g : Gang) (r : Nat) (x : Mask) : (kSet g r x).starved = g.starved := by unfold kSet; split <;> rfl
@[simp] theorem kSet_issueAt (g : Gang) (r : Nat) (x : Mask) : (kSet g r x).issueAt = g.issueAt := by unfold kSet; split <;> rfl
@[simp] theorem kSet_lastIssue (g : Gang) (r : Nat) (x : Mask) : (kSet g r x).lastIssue = g.lastIssue := by unfold kSet; split <;> rfl
@[simp] theorem kSet_longLat (g : Gang) (r : Nat) (x : Mask) : (kSet g r x).longLat = g.longLat := by unfold kSet; split <;> rfl

/-! ## `joinTime` -/

@[simp] theorem joinTime_gid (t : Nat) (g : Gang) : (joinTime t g).gid = g.gid := rfl
@[simp] theorem joinTime_team (t : Nat) (g : Gang) : (joinTime t g).team = g.team := rfl
@[simp] theorem joinTime_num (t : Nat) (g : Gang) : (joinTime t g).num = g.num := rfl
@[simp] theorem joinTime_regs (t : Nat) (g : Gang) : (joinTime t g).regs = g.regs := rfl
@[simp] theorem joinTime_quarter (t : Nat) (g : Gang) : (joinTime t g).quarter = g.quarter := rfl
@[simp] theorem joinTime_place (t : Nat) (g : Gang) : (joinTime t g).place = g.place := rfl
@[simp] theorem joinTime_v (t : Nat) (g : Gang) : (joinTime t g).v = g.v := rfl
@[simp] theorem joinTime_s (t : Nat) (g : Gang) : (joinTime t g).s = g.s := rfl
@[simp] theorem joinTime_k (t : Nat) (g : Gang) : (joinTime t g).k = g.k := rfl
@[simp] theorem joinTime_lc (t : Nat) (g : Gang) : (joinTime t g).lc = g.lc := rfl
@[simp] theorem joinTime_pc (t : Nat) (g : Gang) : (joinTime t g).pc = g.pc := rfl
@[simp] theorem joinTime_meet (t : Nat) (g : Gang) : (joinTime t g).meet = g.meet := rfl
@[simp] theorem joinTime_lk (t : Nat) (g : Gang) : (joinTime t g).lk = g.lk := rfl
@[simp] theorem joinTime_live (t : Nat) (g : Gang) : (joinTime t g).live = g.live := rfl
@[simp] theorem joinTime_marks (t : Nat) (g : Gang) : (joinTime t g).marks = g.marks := rfl
@[simp] theorem joinTime_streak (t : Nat) (g : Gang) : (joinTime t g).streak = g.streak := rfl
@[simp] theorem joinTime_yieldPt (t : Nat) (g : Gang) : (joinTime t g).yieldPt = g.yieldPt := rfl
@[simp] theorem joinTime_gts (t : Nat) (g : Gang) : (joinTime t g).gts = max g.gts t := rfl
@[simp] theorem joinTime_fmode (t : Nat) (g : Gang) : (joinTime t g).fmode = g.fmode := rfl
@[simp] theorem joinTime_fstat (t : Nat) (g : Gang) : (joinTime t g).fstat = g.fstat := rfl
@[simp] theorem joinTime_cl (t : Nat) (g : Gang) : (joinTime t g).cl = g.cl := rfl
@[simp] theorem joinTime_prio (t : Nat) (g : Gang) : (joinTime t g).prio = g.prio := rfl
@[simp] theorem joinTime_inH (t : Nat) (g : Gang) : (joinTime t g).inH = g.inH := rfl
@[simp] theorem joinTime_hpc (t : Nat) (g : Gang) : (joinTime t g).hpc = g.hpc := rfl
@[simp] theorem joinTime_kept (t : Nat) (g : Gang) : (joinTime t g).kept = g.kept := rfl
@[simp] theorem joinTime_area (t : Nat) (g : Gang) : (joinTime t g).area = g.area := rfl
@[simp] theorem joinTime_recs (t : Nat) (g : Gang) : (joinTime t g).recs = g.recs := rfl
@[simp] theorem joinTime_pending (t : Nat) (g : Gang) : (joinTime t g).pending = g.pending := rfl
@[simp] theorem joinTime_wait (t : Nat) (g : Gang) : (joinTime t g).wait = g.wait := rfl
@[simp] theorem joinTime_waitNxt (t : Nat) (g : Gang) : (joinTime t g).waitNxt = g.waitNxt := rfl
@[simp] theorem joinTime_waitLen (t : Nat) (g : Gang) : (joinTime t g).waitLen = g.waitLen := rfl
@[simp] theorem joinTime_waitFrom (t : Nat) (g : Gang) : (joinTime t g).waitFrom = g.waitFrom := rfl
@[simp] theorem joinTime_wake (t : Nat) (g : Gang) : (joinTime t g).wake = g.wake := rfl
@[simp] theorem joinTime_issued (t : Nat) (g : Gang) : (joinTime t g).issued = g.issued := rfl
@[simp] theorem joinTime_engTime (t : Nat) (g : Gang) : (joinTime t g).engTime = g.engTime := rfl
@[simp] theorem joinTime_active (t : Nat) (g : Gang) : (joinTime t g).active = g.active := rfl
@[simp] theorem joinTime_age (t : Nat) (g : Gang) : (joinTime t g).age = g.age := rfl
@[simp] theorem joinTime_entered (t : Nat) (g : Gang) : (joinTime t g).entered = g.entered := rfl
@[simp] theorem joinTime_entry (t : Nat) (g : Gang) : (joinTime t g).entry = g.entry := rfl
@[simp] theorem joinTime_readyFrom (t : Nat) (g : Gang) : (joinTime t g).readyFrom = g.readyFrom := rfl
@[simp] theorem joinTime_starved (t : Nat) (g : Gang) : (joinTime t g).starved = g.starved := rfl
@[simp] theorem joinTime_issueAt (t : Nat) (g : Gang) : (joinTime t g).issueAt = g.issueAt := rfl
@[simp] theorem joinTime_lastIssue (t : Nat) (g : Gang) : (joinTime t g).lastIssue = g.lastIssue := rfl
@[simp] theorem joinTime_longLat (t : Nat) (g : Gang) : (joinTime t g).longLat = g.longLat := rfl

/-! ## `issuedNow` -/

@[simp] theorem issuedNow_gid (clk : Nat) (g : Gang) : (issuedNow clk g).gid = g.gid := rfl
@[simp] theorem issuedNow_team (clk : Nat) (g : Gang) : (issuedNow clk g).team = g.team := rfl
@[simp] theorem issuedNow_num (clk : Nat) (g : Gang) : (issuedNow clk g).num = g.num := rfl
@[simp] theorem issuedNow_regs (clk : Nat) (g : Gang) : (issuedNow clk g).regs = g.regs := rfl
@[simp] theorem issuedNow_quarter (clk : Nat) (g : Gang) : (issuedNow clk g).quarter = g.quarter := rfl
@[simp] theorem issuedNow_place (clk : Nat) (g : Gang) : (issuedNow clk g).place = g.place := rfl
@[simp] theorem issuedNow_v (clk : Nat) (g : Gang) : (issuedNow clk g).v = g.v := rfl
@[simp] theorem issuedNow_s (clk : Nat) (g : Gang) : (issuedNow clk g).s = g.s := rfl
@[simp] theorem issuedNow_k (clk : Nat) (g : Gang) : (issuedNow clk g).k = g.k := rfl
@[simp] theorem issuedNow_lc (clk : Nat) (g : Gang) : (issuedNow clk g).lc = g.lc := rfl
@[simp] theorem issuedNow_pc (clk : Nat) (g : Gang) : (issuedNow clk g).pc = g.pc := rfl
@[simp] theorem issuedNow_meet (clk : Nat) (g : Gang) : (issuedNow clk g).meet = g.meet := rfl
@[simp] theorem issuedNow_lk (clk : Nat) (g : Gang) : (issuedNow clk g).lk = g.lk := rfl
@[simp] theorem issuedNow_live (clk : Nat) (g : Gang) : (issuedNow clk g).live = g.live := rfl
@[simp] theorem issuedNow_marks (clk : Nat) (g : Gang) : (issuedNow clk g).marks = g.marks := rfl
@[simp] theorem issuedNow_streak (clk : Nat) (g : Gang) : (issuedNow clk g).streak = g.streak := rfl
@[simp] theorem issuedNow_yieldPt (clk : Nat) (g : Gang) : (issuedNow clk g).yieldPt = g.yieldPt := rfl
@[simp] theorem issuedNow_gts (clk : Nat) (g : Gang) : (issuedNow clk g).gts = g.gts := rfl
@[simp] theorem issuedNow_fmode (clk : Nat) (g : Gang) : (issuedNow clk g).fmode = g.fmode := rfl
@[simp] theorem issuedNow_fstat (clk : Nat) (g : Gang) : (issuedNow clk g).fstat = g.fstat := rfl
@[simp] theorem issuedNow_cl (clk : Nat) (g : Gang) : (issuedNow clk g).cl = g.cl := rfl
@[simp] theorem issuedNow_prio (clk : Nat) (g : Gang) : (issuedNow clk g).prio = g.prio := rfl
@[simp] theorem issuedNow_inH (clk : Nat) (g : Gang) : (issuedNow clk g).inH = g.inH := rfl
@[simp] theorem issuedNow_hpc (clk : Nat) (g : Gang) : (issuedNow clk g).hpc = g.hpc := rfl
@[simp] theorem issuedNow_kept (clk : Nat) (g : Gang) : (issuedNow clk g).kept = g.kept := rfl
@[simp] theorem issuedNow_area (clk : Nat) (g : Gang) : (issuedNow clk g).area = g.area := rfl
@[simp] theorem issuedNow_recs (clk : Nat) (g : Gang) : (issuedNow clk g).recs = g.recs := rfl
@[simp] theorem issuedNow_pending (clk : Nat) (g : Gang) : (issuedNow clk g).pending = g.pending := rfl
@[simp] theorem issuedNow_wait (clk : Nat) (g : Gang) : (issuedNow clk g).wait = .none := rfl
@[simp] theorem issuedNow_waitNxt (clk : Nat) (g : Gang) : (issuedNow clk g).waitNxt = g.waitNxt := rfl
@[simp] theorem issuedNow_waitLen (clk : Nat) (g : Gang) : (issuedNow clk g).waitLen = g.waitLen := rfl
@[simp] theorem issuedNow_waitFrom (clk : Nat) (g : Gang) : (issuedNow clk g).waitFrom = clk := rfl
@[simp] theorem issuedNow_wake (clk : Nat) (g : Gang) : (issuedNow clk g).wake = g.wake := rfl
@[simp] theorem issuedNow_issued (clk : Nat) (g : Gang) : (issuedNow clk g).issued = g.issued + 1 := rfl
@[simp] theorem issuedNow_engTime (clk : Nat) (g : Gang) : (issuedNow clk g).engTime = g.engTime := rfl
@[simp] theorem issuedNow_active (clk : Nat) (g : Gang) : (issuedNow clk g).active = g.active := rfl
@[simp] theorem issuedNow_age (clk : Nat) (g : Gang) : (issuedNow clk g).age = g.age := rfl
@[simp] theorem issuedNow_entered (clk : Nat) (g : Gang) : (issuedNow clk g).entered = g.entered := rfl
@[simp] theorem issuedNow_entry (clk : Nat) (g : Gang) : (issuedNow clk g).entry = g.entry := rfl
@[simp] theorem issuedNow_readyFrom (clk : Nat) (g : Gang) : (issuedNow clk g).readyFrom = none := rfl
@[simp] theorem issuedNow_starved (clk : Nat) (g : Gang) : (issuedNow clk g).starved = false := rfl
@[simp] theorem issuedNow_issueAt (clk : Nat) (g : Gang) : (issuedNow clk g).issueAt = g.issueAt := rfl
@[simp] theorem issuedNow_lastIssue (clk : Nat) (g : Gang) : (issuedNow clk g).lastIssue = clk + 1 := rfl
@[simp] theorem issuedNow_longLat (clk : Nat) (g : Gang) : (issuedNow clk g).longLat = g.longLat := rfl

/-! ## `putPcs` -/

@[simp] theorem putPcs_gid (m : Mask) (f : Nat → DWord) (g : Gang) : (putPcs m f g).gid = g.gid := rfl
@[simp] theorem putPcs_team (m : Mask) (f : Nat → DWord) (g : Gang) : (putPcs m f g).team = g.team := rfl
@[simp] theorem putPcs_num (m : Mask) (f : Nat → DWord) (g : Gang) : (putPcs m f g).num = g.num := rfl
@[simp] theorem putPcs_regs (m : Mask) (f : Nat → DWord) (g : Gang) : (putPcs m f g).regs = g.regs := rfl
@[simp] theorem putPcs_quarter (m : Mask) (f : Nat → DWord) (g : Gang) : (putPcs m f g).quarter = g.quarter := rfl
@[simp] theorem putPcs_place (m : Mask) (f : Nat → DWord) (g : Gang) : (putPcs m f g).place = g.place := rfl
@[simp] theorem putPcs_v (m : Mask) (f : Nat → DWord) (g : Gang) : (putPcs m f g).v = g.v := rfl
@[simp] theorem putPcs_s (m : Mask) (f : Nat → DWord) (g : Gang) : (putPcs m f g).s = g.s := rfl
@[simp] theorem putPcs_k (m : Mask) (f : Nat → DWord) (g : Gang) : (putPcs m f g).k = g.k := rfl
@[simp] theorem putPcs_lc (m : Mask) (f : Nat → DWord) (g : Gang) : (putPcs m f g).lc = g.lc := rfl
@[simp] theorem putPcs_pc (m : Mask) (f : Nat → DWord) (g : Gang) : (putPcs m f g).pc = (lanesOf m).foldl (fun t l => set0 t l (f l)) g.pc := rfl
@[simp] theorem putPcs_meet (m : Mask) (f : Nat → DWord) (g : Gang) : (putPcs m f g).meet = g.meet := rfl
@[simp] theorem putPcs_lk (m : Mask) (f : Nat → DWord) (g : Gang) : (putPcs m f g).lk = g.lk := rfl
@[simp] theorem putPcs_live (m : Mask) (f : Nat → DWord) (g : Gang) : (putPcs m f g).live = g.live := rfl
@[simp] theorem putPcs_marks (m : Mask) (f : Nat → DWord) (g : Gang) : (putPcs m f g).marks = g.marks := rfl
@[simp] theorem putPcs_streak (m : Mask) (f : Nat → DWord) (g : Gang) : (putPcs m f g).streak = g.streak := rfl
@[simp] theorem putPcs_yieldPt (m : Mask) (f : Nat → DWord) (g : Gang) : (putPcs m f g).yieldPt = g.yieldPt := rfl
@[simp] theorem putPcs_gts (m : Mask) (f : Nat → DWord) (g : Gang) : (putPcs m f g).gts = g.gts := rfl
@[simp] theorem putPcs_fmode (m : Mask) (f : Nat → DWord) (g : Gang) : (putPcs m f g).fmode = g.fmode := rfl
@[simp] theorem putPcs_fstat (m : Mask) (f : Nat → DWord) (g : Gang) : (putPcs m f g).fstat = g.fstat := rfl
@[simp] theorem putPcs_cl (m : Mask) (f : Nat → DWord) (g : Gang) : (putPcs m f g).cl = g.cl := rfl
@[simp] theorem putPcs_prio (m : Mask) (f : Nat → DWord) (g : Gang) : (putPcs m f g).prio = g.prio := rfl
@[simp] theorem putPcs_inH (m : Mask) (f : Nat → DWord) (g : Gang) : (putPcs m f g).inH = g.inH := rfl
@[simp] theorem putPcs_hpc (m : Mask) (f : Nat → DWord) (g : Gang) : (putPcs m f g).hpc = g.hpc := rfl
@[simp] theorem putPcs_kept (m : Mask) (f : Nat → DWord) (g : Gang) : (putPcs m f g).kept = g.kept := rfl
@[simp] theorem putPcs_area (m : Mask) (f : Nat → DWord) (g : Gang) : (putPcs m f g).area = g.area := rfl
@[simp] theorem putPcs_recs (m : Mask) (f : Nat → DWord) (g : Gang) : (putPcs m f g).recs = g.recs := rfl
@[simp] theorem putPcs_pending (m : Mask) (f : Nat → DWord) (g : Gang) : (putPcs m f g).pending = g.pending := rfl
@[simp] theorem putPcs_wait (m : Mask) (f : Nat → DWord) (g : Gang) : (putPcs m f g).wait = g.wait := rfl
@[simp] theorem putPcs_waitNxt (m : Mask) (f : Nat → DWord) (g : Gang) : (putPcs m f g).waitNxt = g.waitNxt := rfl
@[simp] theorem putPcs_waitLen (m : Mask) (f : Nat → DWord) (g : Gang) : (putPcs m f g).waitLen = g.waitLen := rfl
@[simp] theorem putPcs_waitFrom (m : Mask) (f : Nat → DWord) (g : Gang) : (putPcs m f g).waitFrom = g.waitFrom := rfl
@[simp] theorem putPcs_wake (m : Mask) (f : Nat → DWord) (g : Gang) : (putPcs m f g).wake = g.wake := rfl
@[simp] theorem putPcs_issued (m : Mask) (f : Nat → DWord) (g : Gang) : (putPcs m f g).issued = g.issued := rfl
@[simp] theorem putPcs_engTime (m : Mask) (f : Nat → DWord) (g : Gang) : (putPcs m f g).engTime = g.engTime := rfl
@[simp] theorem putPcs_active (m : Mask) (f : Nat → DWord) (g : Gang) : (putPcs m f g).active = g.active := rfl
@[simp] theorem putPcs_age (m : Mask) (f : Nat → DWord) (g : Gang) : (putPcs m f g).age = g.age := rfl
@[simp] theorem putPcs_entered (m : Mask) (f : Nat → DWord) (g : Gang) : (putPcs m f g).entered = g.entered := rfl
@[simp] theorem putPcs_entry (m : Mask) (f : Nat → DWord) (g : Gang) : (putPcs m f g).entry = g.entry := rfl
@[simp] theorem putPcs_readyFrom (m : Mask) (f : Nat → DWord) (g : Gang) : (putPcs m f g).readyFrom = g.readyFrom := rfl
@[simp] theorem putPcs_starved (m : Mask) (f : Nat → DWord) (g : Gang) : (putPcs m f g).starved = g.starved := rfl
@[simp] theorem putPcs_issueAt (m : Mask) (f : Nat → DWord) (g : Gang) : (putPcs m f g).issueAt = g.issueAt := rfl
@[simp] theorem putPcs_lastIssue (m : Mask) (f : Nat → DWord) (g : Gang) : (putPcs m f g).lastIssue = g.lastIssue := rfl
@[simp] theorem putPcs_longLat (m : Mask) (f : Nat → DWord) (g : Gang) : (putPcs m f g).longLat = g.longLat := rfl

end Sys2Proof.Machine
end

