-- ==== Sys2Proof/Laws/Table.lean ====
section
/-! SUPPORT. Sparse tables: what a read after a write gives, that writes keep the canonical form, and that canonical tables with
equal reads are equal. Memory, scratch and every register file are such tables. -/

namespace Sys2Proof.Machine

variable {n : Nat} {d : Nat → BitVec n}

/-! ## The canonical form -/

theorem wfFrom_mono {t : Table n} : ∀ {m m' : Nat}, m ≤ m' → wfFrom d m' t = true → wfFrom d m t = true := by
  cases t with
  | nil => intros; rfl
  | cons e t =>
    intro m m' hm h
    simp only [wfFrom, Bool.and_eq_true, decide_eq_true_eq] at h ⊢
    exact ⟨⟨by omega, h.1.2⟩, h.2⟩

theorem tget_below {t : Table n} : ∀ {m k : Nat}, wfFrom d m t = true → k < m → tget d t k = d k := by
  induction t with
  | nil => intros; rfl
  | cons e t ih =>
    intro m k h hk
    simp only [wfFrom, Bool.and_eq_true, decide_eq_true_eq] at h
    have hne : k ≠ e.1 := by omega
    simp only [tget, if_neg hne]
    exact ih h.2 (by omega)

theorem wfFrom_tset {k : Nat} {v : BitVec n} {t : Table n} :
    ∀ {m : Nat}, wfFrom d m t = true → m ≤ k → wfFrom d m (tset d t k v) = true := by
  induction t with
  | nil =>
    intro m _ hk
    simp only [tset]
    split
    · rfl
    · simp [wfFrom, *]
  | cons e t ih =>
    intro m h hk
    have hall := h
    simp only [wfFrom, Bool.and_eq_true, decide_eq_true_eq] at h
    simp only [tset]
    split
    · split
      · exact hall
      · simp only [wfFrom, Bool.and_eq_true, decide_eq_true_eq]
        exact ⟨⟨hk, ‹_›⟩, ⟨by omega, h.1.2⟩, h.2⟩
    · split
      · split
        · exact wfFrom_mono (by omega) h.2
        · subst k
          simp only [wfFrom, Bool.and_eq_true, decide_eq_true_eq]
          exact ⟨⟨hk, ‹_›⟩, h.2⟩
      · simp only [wfFrom, Bool.and_eq_true, decide_eq_true_eq]
        exact ⟨h.1, ih h.2 (by omega)⟩

/-- A write keeps the canonical form. -/
theorem tableWf_tset {t : Table n} {k : Nat} {v : BitVec n} (h : tableWf d t = true) : tableWf d (tset d t k v) = true :=
  wfFrom_tset h (Nat.zero_le k)

@[simp] theorem tableWf_nil : tableWf d [] = true := rfl

theorem wfFrom_filter {p : Nat × BitVec n → Bool} {t : Table n} : ∀ {m : Nat}, wfFrom d m t = true → wfFrom d m (t.filter p) = true := by
  induction t with
  | nil => intros; rfl
  | cons e t ih =>
    intro m h
    simp only [wfFrom, Bool.and_eq_true, decide_eq_true_eq] at h
    simp only [List.filter_cons]
    split
    · simp only [wfFrom, Bool.and_eq_true, decide_eq_true_eq]
      exact ⟨h.1, ih h.2⟩
    · exact wfFrom_mono (by omega) (ih h.2)

theorem tableWf_tfilter {p : Nat → Bool} {t : Table n} (h : tableWf d t = true) : tableWf d (tfilter p t) = true := wfFrom_filter h

/-- Any run of writes keeps the canonical form. -/
theorem tableWf_foldl {α : Type} {f : Table n → α → Table n} (hf : ∀ t x, tableWf d t = true → tableWf d (f t x) = true) (l : List α) :
    ∀ {t : Table n}, tableWf d t = true → tableWf d (l.foldl f t) = true := by
  induction l with
  | nil => exact fun h => h
  | cons x l ih => exact fun h => ih (hf _ x h)

/-! ## Reads after writes -/

theorem tget_tset_ne {t : Table n} {k j : Nat} {v : BitVec n} (hj : j ≠ k) : tget d (tset d t k v) j = tget d t j := by
  induction t with
  | nil => simp only [tset]; split <;> simp [tget, hj]
  | cons e t ih =>
    simp only [tset]
    split
    · split
      · rfl
      · simp [tget, hj]
    · split
      · split
        · subst k; simp [tget, hj]
        · subst k; simp [tget, hj]
      · simp [tget, ih]

theorem tget_tset_self {k : Nat} {v : BitVec n} {t : Table n} : ∀ {m : Nat}, wfFrom d m t = true → tget d (tset d t k v) k = v := by
  induction t with
  | nil => intro m _; simp only [tset]; split <;> simp [tget, *]
  | cons e t ih =>
    intro m h
    simp only [wfFrom, Bool.and_eq_true, decide_eq_true_eq] at h
    simp only [tset]
    split
    · split
      · rename_i hk hv
        have hne : k ≠ e.1 := by omega
        simp only [tget, if_neg hne, hv]
        exact tget_below h.2 (by omega)
      · simp [tget]
    · split
      · split
        · rename_i hk hv
          rw [hv]
          exact tget_below h.2 (by omega)
        · simp [tget]
      · rename_i hk
        simp only [tget, if_neg hk]
        exact ih h.2

/-- What any key reads as after a write. -/
theorem tget_tset {t : Table n} {k j : Nat} {v : BitVec n} (h : tableWf d t = true) :
    tget d (tset d t k v) j = if j = k then v else tget d t j := by
  split
  · subst j; exact tget_tset_self h
  · exact tget_tset_ne ‹_›

theorem get0_set0 {t : Table n} {k j : Nat} {v : BitVec n} (h : tableWf zeros t = true) :
    get0 (set0 t k v) j = if j = k then v else get0 t j := tget_tset h

@[simp] theorem get0_nil (k : Nat) : get0 ([] : Table n) k = 0#n := rfl

theorem tget_filter {p : Nat → Bool} {t : Table n} {k : Nat} : ∀ {m : Nat}, wfFrom d m t = true →
    tget d (tfilter p t) k = if p k then tget d t k else d k := by
  induction t with
  | nil => intro m _; simp [tfilter, tget]
  | cons e t ih =>
    intro m h
    simp only [wfFrom, Bool.and_eq_true, decide_eq_true_eq] at h
    have ih' := ih h.2
    simp only [tfilter, List.filter_cons] at ih' ⊢
    by_cases hk : k = e.1
    · subst k
      have hb : tget d t e.1 = d e.1 := tget_below h.2 (by omega)
      split
      · simp [tget]
      · rename_i hp; rw [ih', hb]; simp [hp]
    · split
      · simp only [tget, if_neg hk]; exact ih'
      · simp only [tget, if_neg hk]; exact ih'

/-- Two canonical tables that read alike are one table. -/
theorem table_ext : ∀ {t u : Table n} {m m' : Nat}, wfFrom d m t = true → wfFrom d m' u = true → (∀ k, tget d t k = tget d u k) → t = u
  | [], [], _, _, _, _, _ => rfl
  | [], e :: u, m, m', _, hu, h => by
    simp only [wfFrom, Bool.and_eq_true, decide_eq_true_eq] at hu
    have := h e.1
    simp only [tget, if_true] at this
    exact absurd this.symm hu.1.2
  | e :: t, [], m, m', ht, _, h => by
    simp only [wfFrom, Bool.and_eq_true, decide_eq_true_eq] at ht
    have := h e.1
    simp only [tget, if_true] at this
    exact absurd this ht.1.2
  | e :: t, f :: u, m, m', ht, hu, h => by
    simp only [wfFrom, Bool.and_eq_true, decide_eq_true_eq] at ht hu
    have he : e.1 = f.1 := by
      rcases Nat.lt_trichotomy e.1 f.1 with hl | he | hl
      · have := h e.1
        simp only [tget, if_true, if_neg (Nat.ne_of_lt hl)] at this
        rw [tget_below hu.2 (by omega)] at this
        exact absurd this ht.1.2
      · exact he
      · have := h f.1
        simp only [tget, if_true, if_neg (Nat.ne_of_lt hl)] at this
        rw [tget_below ht.2 (by omega)] at this
        exact absurd this.symm hu.1.2
    have hv : e.2 = f.2 := by
      have := h e.1
      simpa [tget, he] using this
    have htu : t = u := table_ext ht.2 hu.2 fun k => by
      by_cases hk : k = e.1
      · subst k
        rw [tget_below ht.2 (by omega), tget_below hu.2 (by omega)]
      · have := h k
        simpa only [tget, if_neg hk, if_neg (he ▸ hk)] using this
    rw [htu, Prod.ext he hv]

/-! ## Byte strings -/

theorem tableWf_writeBytes {bs : List Byte} : ∀ {t : Table 8} {a : Nat}, tableWf zeros t = true → tableWf zeros (writeBytes t a bs) = true := by
  induction bs with
  | nil => exact fun h => h
  | cons b bs ih => exact fun h => ih (tableWf_tset h)

theorem tableWf_writeLe {t : Table 8} {a z v : Nat} (h : tableWf zeros t = true) : tableWf zeros (writeLe t a z v) = true :=
  tableWf_writeBytes h

/-- Bytes written at a read back there, and every other byte is as before. -/
theorem get0_writeBytes {bs : List Byte} : ∀ {t : Table 8} {a k : Nat}, tableWf zeros t = true →
    get0 (writeBytes t a bs) k = if a ≤ k ∧ k < a + bs.length then bs.getD (k - a) 0 else get0 t k := by
  induction bs with
  | nil => intro t a k _; simp only [writeBytes, List.length_nil]; split <;> [omega; rfl]
  | cons b bs ih =>
    intro t a k h
    rw [writeBytes, ih (tableWf_tset h), get0_set0 h]
    simp only [List.length_cons]
    by_cases hk : k = a
    · subst k
      have h1 : ¬ (a + 1 ≤ a ∧ a < a + 1 + bs.length) := by omega
      have h2 : a ≤ a ∧ a < a + (bs.length + 1) := by omega
      simp only [if_neg h1, if_pos h2, if_true, Nat.sub_self, List.getD_cons_zero]
    · by_cases hr : a + 1 ≤ k ∧ k < a + 1 + bs.length
      · have h2 : a ≤ k ∧ k < a + (bs.length + 1) := by omega
        have h3 : k - a = (k - (a + 1)) + 1 := by omega
        simp only [if_pos hr, if_pos h2, h3, List.getD_cons_succ]
      · have h2 : ¬ (a ≤ k ∧ k < a + (bs.length + 1)) := by omega
        simp only [if_neg hr, if_neg h2, if_neg hk]

theorem get0_writeBytes_outside {bs : List Byte} {t : Table 8} {a k : Nat} (h : tableWf zeros t = true) (hk : k < a ∨ a + bs.length ≤ k) :
    get0 (writeBytes t a bs) k = get0 t k := by
  rw [get0_writeBytes h, if_neg (by omega)]

@[simp] theorem length_readBytes (t : Table 8) (a z : Nat) : (readBytes t a z).length = z := by simp [readBytes]

@[simp] theorem length_leBytes : ∀ (z v : Nat), (leBytes z v).length = z
  | 0, _ => rfl
  | z + 1, v => by simp [leBytes, length_leBytes z]

/-- Reading what was just written there. -/
theorem readBytes_writeBytes {bs : List Byte} {t : Table 8} {a : Nat} (h : tableWf zeros t = true) :
    readBytes (writeBytes t a bs) a bs.length = bs := by
  apply List.ext_getElem (by simp)
  intro i h1 h2
  simp only [readBytes, List.getElem_map, List.getElem_range]
  rw [get0_writeBytes h, if_pos (by omega)]
  simp [h2]

/-- A read apart from the written bytes. -/
theorem readBytes_writeBytes_outside {bs : List Byte} {t : Table 8} {a b z : Nat} (h : tableWf zeros t = true)
    (hd : b + z ≤ a ∨ a + bs.length ≤ b) : readBytes (writeBytes t a bs) b z = readBytes t b z := by
  simp only [readBytes]
  apply List.map_congr_left
  intro i hi
  simp only [List.mem_range] at hi
  exact get0_writeBytes_outside h (by omega)

theorem leNat_leBytes : ∀ (z v : Nat), leNat (leBytes z v) = v % 2 ^ (8 * z)
  | 0, v => by simp [leNat, leBytes, Nat.mod_one]
  | z + 1, v => by
    have ih := leNat_leBytes z (v / 256)
    have hp : 2 ^ (8 * (z + 1)) = 256 * 2 ^ (8 * z) := by rw [Nat.mul_add, Nat.pow_add]; omega
    simp only [leNat, leBytes, ih, BitVec.toNat_ofNat, hp]
    rw [Nat.mod_mul]

theorem readLe_writeLe {t : Table 8} {a z v : Nat} (h : tableWf zeros t = true) : readLe (writeLe t a z v) a z = v % 2 ^ (8 * z) := by
  have := readBytes_writeBytes (bs := leBytes z v) (a := a) h
  rw [length_leBytes] at this
  rw [readLe, writeLe, this, leNat_leBytes]

/-! ## Lists of records -/

theorem modFirst_map {α β : Type} {p : α → Bool} {f : α → α} {key : α → β} (hk : ∀ x, key (f x) = key x) :
    ∀ l : List α, (modFirst p f l).map key = l.map key
  | [] => rfl
  | x :: l => by
    simp only [modFirst]
    split
    · simp [hk]
    · simp [modFirst_map hk l]

/-- An element after a change is one that stood there, or the changed form of one that the test picks. -/
theorem mem_modFirst {α : Type} {p : α → Bool} {f : α → α} {y : α} :
    ∀ {l : List α}, y ∈ modFirst p f l → y ∈ l ∨ ∃ x ∈ l, p x = true ∧ y = f x
  | [], h => .inl h
  | x :: l, h => by
    simp only [modFirst] at h
    split at h
    · rcases List.mem_cons.mp h with rfl | h
      · exact .inr ⟨x, by simp, ‹_›, rfl⟩
      · exact .inl (by simp [h])
    · rcases List.mem_cons.mp h with rfl | h
      · exact .inl (by simp)
      · rcases mem_modFirst h with h | ⟨z, hz, hp, rfl⟩
        · exact .inl (by simp [h])
        · exact .inr ⟨z, by simp [hz], hp, rfl⟩

end Sys2Proof.Machine
end

