-- ==== Sys2Proof/Laws/Lanes.lean ====
section
/-! SUPPORT. Lanes and masks, and the registers of a gang: what each read gives after each write. -/

namespace Sys2Proof.Machine

/-! ## Lanes of a mask (R8) -/

@[simp] theorem mem_lanesOf {m : Mask} {l : Nat} : l ∈ lanesOf m ↔ l < 32 ∧ m.getLsbD l = true := by simp [lanesOf]

theorem nodup_lanesOf (m : Mask) : (lanesOf m).Nodup := List.Nodup.filter _ List.nodup_range

theorem bit_one_shift {l j : Nat} (hj : j < 32) : (1#32 <<< j).getLsbD l = decide (l = j) := by
  by_cases hl : l < 32
  · by_cases h : l = j
    · subst l; simp [hj]
    · by_cases h2 : l < j
      · simp [BitVec.getLsbD_shiftLeft, h2, h]
      · have : l - j ≠ 0 := by omega
        simp [BitVec.getLsbD_shiftLeft, h, BitVec.getLsbD_one, this]
  · have : l ≠ j := by omega
    simp [hl, this]

theorem bit_foldl_mask (p : Nat → Bool) (l : Nat) : ∀ (ls : List Nat) (m : Mask), (∀ j ∈ ls, j < 32) →
    (ls.foldl (fun m j => if p j then m ||| (1#32 <<< j) else m) m).getLsbD l = (m.getLsbD l || (decide (l ∈ ls) && p l))
  | [], m, _ => by simp
  | j :: ls, m, h => by
    rw [List.foldl_cons, bit_foldl_mask p l ls _ fun k hk => h k (by simp [hk])]
    have hj : j < 32 := h j (by simp)
    by_cases hl : l = j
    · subst l
      cases hp : p j <;> simp [bit_one_shift hj]
    · cases hp : p j <;> simp [bit_one_shift hj, hl]

/-- A bit of a mask made of a predicate. -/
theorem bit_maskOf (p : Nat → Bool) (l : Nat) : (maskOf p).getLsbD l = (decide (l < 32) && p l) := by
  rw [maskOf, bit_foldl_mask p l _ _ (by simp)]
  simp

theorem maskOf_lanes (m : Mask) : maskOf m.getLsbD = m := by
  apply BitVec.eq_of_getLsbD_eq
  intro i hi
  rw [bit_maskOf, decide_eq_true hi, Bool.true_and]

/-! ## One value, or one each, into the lanes of a mask -/

theorem get0_foldl_lanes {n : Nat} (f : Nat → BitVec n) (j : Nat) : ∀ (ls : List Nat) (t : Table n), tableWf zeros t = true →
    get0 (ls.foldl (fun t l => set0 t l (f l)) t) j = if j ∈ ls then f j else get0 t j
  | [], t, _ => by simp
  | l :: ls, t, h => by
    rw [List.foldl_cons, get0_foldl_lanes f j ls _ (tableWf_tset h), get0_set0 h]
    by_cases h1 : j ∈ ls
    · simp [h1]
    · by_cases h2 : j = l
      · subst l; simp [h1]
      · simp [h1, h2]

theorem tableWf_foldl_lanes {n : Nat} (f : Nat → BitVec n) (ls : List Nat) {t : Table n} (h : tableWf zeros t = true) :
    tableWf zeros (ls.foldl (fun t l => set0 t l (f l)) t) = true := tableWf_foldl (fun _ _ hu => tableWf_tset hu) ls h

theorem get0_laneSet {t : Table 64} {m : Mask} {x : DWord} {l : Nat} (h : tableWf zeros t = true) :
    get0 (laneSet t m x) l = if l < 32 ∧ m.getLsbD l = true then x else get0 t l := by
  rw [laneSet, get0_foldl_lanes (fun _ => x) l _ _ h]
  simp

theorem get0_putPcs {m : Mask} {f : Nat → DWord} {g : Gang} {l : Nat} (h : tableWf zeros g.pc = true) :
    get0 (putPcs m f g).pc l = if l < 32 ∧ m.getLsbD l = true then f l else get0 g.pc l := by
  rw [putPcs_pc, get0_foldl_lanes f l _ _ h]
  simp

/-! ## s registers -/

theorem sGet_sSet {g : Gang} {r q : Nat} {x : DWord} (h : tableWf zeros g.s = true) : sGet (sSet g r x) q = if q = r then x else sGet g q := get0_set0 h

@[simp] theorem vGet_sSet (g : Gang) (r q l : Nat) (x : DWord) : vGet (sSet g r x) q l = vGet g q l := rfl
@[simp] theorem kGet_sSet (g : Gang) (r q : Nat) (x : DWord) : kGet (sSet g r x) q = kGet g q := rfl

/-! ## v registers -/

theorem vGet_vSet {g : Gang} {r l q j : Nat} {x : Word} (h : tableWf zeros g.v = true) (hl : l < 32) (hj : j < 32) :
    vGet (vSet g r l x) q j = if q = r ∧ j = l then x else vGet g q j := by
  rw [vGet, vSet_v, get0_set0 h]
  have : vKey q j = vKey r l ↔ q = r ∧ j = l := by unfold vKey; omega
  simp [this, vGet]

@[simp] theorem sGet_vSet (g : Gang) (r l q : Nat) (x : Word) : sGet (vSet g r l x) q = sGet g q := rfl
@[simp] theorem kGet_vSet (g : Gang) (r l q : Nat) (x : Word) : kGet (vSet g r l x) q = kGet g q := rfl

theorem tableWf_vSet {g : Gang} {r l : Nat} {x : Word} (h : tableWf zeros g.v = true) : tableWf zeros (vSet g r l x).v = true := tableWf_tset h

theorem vGet_pairSet {g : Gang} {r l q j : Nat} {x : DWord} (h : tableWf zeros g.v = true) (hl : l < 32) (hj : j < 32) :
    vGet (pairSet g r l x) q j = if q = r + 1 ∧ j = l then (x >>> 32).truncate 32 else if q = r ∧ j = l then x.truncate 32 else vGet g q j := by
  rw [pairSet, vGet_vSet (tableWf_vSet h) hl hj, vGet_vSet h hl hj]

theorem halves (x : DWord) : ((x >>> 32).truncate 32 : Word) ++ (x.truncate 32 : Word) = x := by
  apply BitVec.eq_of_getLsbD_eq
  intro i hi
  rw [BitVec.getLsbD_append]
  by_cases h : i < 32
  · rw [if_pos h, BitVec.getLsbD_setWidth, decide_eq_true h, Bool.true_and]
  · have h2 : i - 32 < 32 := by omega
    have h3 : 32 + (i - 32) = i := by omega
    rw [if_neg h, BitVec.getLsbD_setWidth, decide_eq_true h2, Bool.true_and, BitVec.getLsbD_ushiftRight, h3]

theorem pairGet_pairSet {g : Gang} {r l : Nat} {x : DWord} (h : tableWf zeros g.v = true) (hl : l < 32) : pairGet (pairSet g r l x) r l = x := by
  have h1 : ¬ (r = r + 1 ∧ l = l) := by omega
  rw [pairGet, vGet_pairSet h hl hl, vGet_pairSet h hl hl, if_pos ⟨rfl, rfl⟩, if_neg h1, if_pos ⟨rfl, rfl⟩, halves]

/-- A vector result changes v registers and nothing else of the gang. -/
theorem writeLanes_same (wide : Bool) (d : Nat) : ∀ (rs : List (Nat × DWord)) (g : Gang), writeLanes wide d rs g = { g with v := (writeLanes wide d rs g).v }
  | [], g => rfl
  | r :: rs, g => by
    have ih := writeLanes_same wide d rs (if wide then pairSet g d r.1 r.2 else vSet g d r.1 (r.2.truncate 32))
    have hs : (if wide then pairSet g d r.1 r.2 else vSet g d r.1 (r.2.truncate 32))
        = { g with v := (if wide then pairSet g d r.1 r.2 else vSet g d r.1 (r.2.truncate 32)).v } := by cases wide <;> rfl
    simp only [writeLanes, List.foldl_cons] at ih ⊢
    rw [ih, hs]

theorem tableWf_writeLanes (wide : Bool) (d : Nat) : ∀ (rs : List (Nat × DWord)) {g : Gang}, tableWf zeros g.v = true → tableWf zeros (writeLanes wide d rs g).v = true
  | [], _, h => h
  | r :: rs, g, h => by
    simp only [writeLanes, List.foldl_cons]
    exact tableWf_writeLanes wide d rs (by cases wide <;> [exact tableWf_tset h; exact tableWf_tset (tableWf_tset h)])

/-- A register that a vector result does not name keeps its value. -/
theorem vGet_writeLanes_other {wide : Bool} {d q j : Nat} (hq : q ≠ d) (hw : wide = true → q ≠ d + 1) (hj : j < 32) :
    ∀ (rs : List (Nat × DWord)) {g : Gang}, tableWf zeros g.v = true → (∀ r ∈ rs, r.1 < 32) → vGet (writeLanes wide d rs g) q j = vGet g q j
  | [], _, _, _ => rfl
  | r :: rs, g, h, hr => by
    have hl := hr r (by simp)
    have hrs : ∀ r ∈ rs, r.1 < 32 := fun x hx => hr x (by simp [hx])
    simp only [writeLanes, List.foldl_cons]
    cases wide with
    | false =>
      have ih := vGet_writeLanes_other (wide := false) (d := d) hq (by simp) hj rs (tableWf_vSet (r := d) (l := r.1) (x := r.2.truncate 32) h) hrs
      simp only [writeLanes] at ih
      simp only [Bool.false_eq_true, if_false] at ih ⊢
      rw [ih, vGet_vSet h hl hj]
      simp [hq]
    | true =>
      have ih := vGet_writeLanes_other (wide := true) (d := d) hq hw hj rs (g := pairSet g d r.1 r.2) (tableWf_tset (tableWf_tset h)) hrs
      simp only [writeLanes] at ih
      simp only [if_true] at ih ⊢
      rw [ih, vGet_pairSet h hl hj]
      simp [hq, hw rfl]

/-! ## k registers (R35) -/

theorem kGet_kSet {g : Gang} {r q : Nat} {x : Mask} (h : tableWf zeros g.k = true) (hr : r ≠ 0) : kGet (kSet g r x) q = if q = r then x else kGet g q := by
  by_cases hq : q = 0
  · subst q
    have : ¬ (0 = r) := fun e => hr e.symm
    simp [kGet, this]
  · simp only [kGet, if_neg hq, kSet_k, if_neg hr]
    exact get0_set0 h

@[simp] theorem kSet_zero (g : Gang) (x : Mask) : kSet g 0 x = g := by simp [kSet]

/-! ## Flags (R108) -/

@[simp] theorem setFlags_none (g : Gang) : setFlags {} g = g := by simp [setFlags, flagBits]

theorem setFlags_same (f : FFlags) (g : Gang) : setFlags f g = { g with fstat := g.fstat ||| flagBits f } := rfl

end Sys2Proof.Machine
end

