-- ==== Sys2Proof/Laws/Words.lean ====
section
/-! SUPPORT. The shared operations of every instruction word, each said once: what a word, a waiting word, an exit, a trap, a return and the end of a
task can do. A proof about an instruction cites these and does not unfold them. -/

namespace Sys2Proof.Machine

/-! ## Checks -/

@[simp] theorem need_true (r : Raised) : need r true = .ok () := rfl
@[simp] theorem need_false (r : Raised) : need r false = .error r := rfl

theorem need_ok {r : Raised} {c : Bool} {u : Unit} : need r c = .ok u ↔ c = true := by cases c <;> simp

/-! ## One word: its four ways to end -/

theorem word_eq {len : Nat} {nxt : BitVec 2} {s t u : State} {eff : Except Raised State} (hx : exitRefused s.g nxt = false)
    (he : eff = .ok t) (ht : takeExit nxt t = .ok u) : word len nxt s eff = .next (goOn len s u) := by simp [word, hx, he, ht]

theorem word_raises {len : Nat} {nxt : BitVec 2} {s : State} {eff : Except Raised State} {r : Raised} (hx : exitRefused s.g nxt = false)
    (he : eff = .error r) : word len nxt s eff = .next (raised r s) := by simp [word, hx, he, raise]

theorem word_cases {len : Nat} {nxt : BitVec 2} {s t : State} {eff : Except Raised State} (h : word len nxt s eff = .next t) :
    (exitRefused s.g nxt = true ∧ t = raised (plain .illegalClause) s) ∨
    (exitRefused s.g nxt = false ∧ ∃ r, eff = .error r ∧ t = raised r s) ∨
    (exitRefused s.g nxt = false ∧ ∃ u r, eff = .ok u ∧ takeExit nxt u = .error r ∧ t = raised r s) ∨
    (exitRefused s.g nxt = false ∧ ∃ u v, eff = .ok u ∧ takeExit nxt u = .ok v ∧ t = goOn len s v) := by
  unfold word raise at h
  split at h
  · exact .inl ⟨‹_›, by cases h; rfl⟩
  · have hx : exitRefused s.g nxt = false := eq_false_of_ne_true (by assumption)
    split at h
    · exact .inr (.inl ⟨hx, _, rfl, by cases h; rfl⟩)
    · split at h
      · exact .inr (.inr (.inl ⟨hx, _, _, rfl, ‹_›, by cases h; rfl⟩))
      · exact .inr (.inr (.inr ⟨hx, _, _, rfl, ‹_›, by cases h; rfl⟩))

/-- A word always answers a next state. -/
theorem word_next (len : Nat) (nxt : BitVec 2) (s : State) (eff : Except Raised State) : ∃ t, word len nxt s eff = .next t := by
  unfold word raise
  split
  · exact ⟨_, rfl⟩
  · split
    · exact ⟨_, rfl⟩
    · split <;> exact ⟨_, rfl⟩

theorem wordOr_eq {len : Nat} {nxt : BitVec 2} {s t u : State} {eff : Except Raised (Option State)} (hx : exitRefused s.g nxt = false)
    (he : eff = .ok (some t)) (ht : takeExit nxt t = .ok u) : wordOr len nxt s eff = .next (goOn len s u) := by simp [wordOr, hx, he, ht]

theorem wordOr_raises {len : Nat} {nxt : BitVec 2} {s : State} {eff : Except Raised (Option State)} {r : Raised} (hx : exitRefused s.g nxt = false)
    (he : eff = .error r) : wordOr len nxt s eff = .next (raised r s) := by simp [wordOr, hx, he, raise]

theorem wordOr_cases {len : Nat} {nxt : BitVec 2} {s t : State} {eff : Except Raised (Option State)} (h : wordOr len nxt s eff = .next t) :
    (exitRefused s.g nxt = true ∧ t = raised (plain .illegalClause) s) ∨
    (exitRefused s.g nxt = false ∧ ∃ r, eff = .error r ∧ t = raised r s) ∨
    (exitRefused s.g nxt = false ∧ eff = .ok none ∧ stall s = .next t) ∨
    (exitRefused s.g nxt = false ∧ ∃ u r, eff = .ok (some u) ∧ takeExit nxt u = .error r ∧ t = raised r s) ∨
    (exitRefused s.g nxt = false ∧ ∃ u v, eff = .ok (some u) ∧ takeExit nxt u = .ok v ∧ t = goOn len s v) := by
  unfold wordOr raise at h
  split at h
  · exact .inl ⟨‹_›, by cases h; rfl⟩
  · have hx : exitRefused s.g nxt = false := eq_false_of_ne_true (by assumption)
    split at h
    · exact .inr (.inl ⟨hx, _, rfl, by cases h; rfl⟩)
    · exact .inr (.inr (.inl ⟨hx, rfl, h⟩))
    · split at h
      · exact .inr (.inr (.inr (.inl ⟨hx, _, _, rfl, ‹_›, by cases h; rfl⟩)))
      · exact .inr (.inr (.inr (.inr ⟨hx, _, _, rfl, ‹_›, by cases h; rfl⟩)))

theorem wordOr_next (len : Nat) (nxt : BitVec 2) (s : State) (eff : Except Raised (Option State)) : ∃ t, wordOr len nxt s eff = .next t := by
  unfold wordOr raise stall hold
  split
  · exact ⟨_, rfl⟩
  · split
    · exact ⟨_, rfl⟩
    · exact ⟨_, rfl⟩
    · split <;> exact ⟨_, rfl⟩

theorem waitWord_cases {len : Nat} {nxt : BitVec 2} {s t : State} {eff : Except Raised (State × Wait)} (h : waitWord len nxt s eff = .next t) :
    (exitRefused s.g nxt = true ∧ t = raised (plain .illegalClause) s) ∨
    (exitRefused s.g nxt = false ∧ ∃ r, eff = .error r ∧ t = raised r s) ∨
    (exitRefused s.g nxt = false ∧ ∃ u w r, eff = .ok (u, w) ∧ takeExit nxt u = .error r ∧ t = raised r s) ∨
    (exitRefused s.g nxt = false ∧ ∃ u v, eff = .ok (u, .none) ∧ takeExit nxt u = .ok v ∧ t = goOn len s v) ∨
    (exitRefused s.g nxt = false ∧ ∃ u w v, eff = .ok (u, w) ∧ w ≠ .none ∧ takeExit nxt u = .ok v ∧ t = startWait w len nxt u) := by
  unfold waitWord raise at h
  split at h
  · exact .inl ⟨‹_›, by cases h; rfl⟩
  · have hx : exitRefused s.g nxt = false := eq_false_of_ne_true (by assumption)
    split at h
    · exact .inr (.inl ⟨hx, _, rfl, by cases h; rfl⟩)
    · split at h
      · exact .inr (.inr (.inl ⟨hx, _, _, _, rfl, ‹_›, by cases h; rfl⟩))
      · exact .inr (.inr (.inr (.inl ⟨hx, _, _, rfl, ‹_›, by cases h; rfl⟩)))
    · rename_i hw
      split at h
      · exact .inr (.inr (.inl ⟨hx, _, _, _, rfl, ‹_›, by cases h; rfl⟩))
      · exact .inr (.inr (.inr (.inr ⟨hx, _, _, _, rfl, hw, ‹_›, by cases h; rfl⟩)))

theorem waitWord_next (len : Nat) (nxt : BitVec 2) (s : State) (eff : Except Raised (State × Wait)) : ∃ t, waitWord len nxt s eff = .next t := by
  unfold waitWord raise
  split
  · exact ⟨_, rfl⟩
  · split
    · exact ⟨_, rfl⟩
    all_goals split <;> exact ⟨_, rfl⟩

theorem waitOr_cases {len : Nat} {nxt : BitVec 2} {s t : State} {eff : Except Raised (Option (State × Wait))} (h : waitOr len nxt s eff = .next t) :
    (exitRefused s.g nxt = true ∧ t = raised (plain .illegalClause) s) ∨
    (exitRefused s.g nxt = false ∧ ∃ r, eff = .error r ∧ t = raised r s) ∨
    (exitRefused s.g nxt = false ∧ eff = .ok none ∧ stall s = .next t) ∨
    (exitRefused s.g nxt = false ∧ ∃ u w r, eff = .ok (some (u, w)) ∧ takeExit nxt u = .error r ∧ t = raised r s) ∨
    (exitRefused s.g nxt = false ∧ ∃ u v, eff = .ok (some (u, .none)) ∧ takeExit nxt u = .ok v ∧ t = goOn len s v) ∨
    (exitRefused s.g nxt = false ∧ ∃ u w v, eff = .ok (some (u, w)) ∧ w ≠ .none ∧ takeExit nxt u = .ok v ∧ t = startWait w len nxt u) := by
  unfold waitOr raise at h
  split at h
  · exact .inl ⟨‹_›, by cases h; rfl⟩
  · have hx : exitRefused s.g nxt = false := eq_false_of_ne_true (by assumption)
    split at h
    · exact .inr (.inl ⟨hx, _, rfl, by cases h; rfl⟩)
    · exact .inr (.inr (.inl ⟨hx, rfl, h⟩))
    · split at h
      · exact .inr (.inr (.inr (.inl ⟨hx, _, _, _, rfl, ‹_›, by cases h; rfl⟩)))
      · exact .inr (.inr (.inr (.inr (.inl ⟨hx, _, _, rfl, ‹_›, by cases h; rfl⟩))))
    · rename_i hw
      split at h
      · exact .inr (.inr (.inr (.inl ⟨hx, _, _, _, rfl, ‹_›, by cases h; rfl⟩)))
      · exact .inr (.inr (.inr (.inr (.inr ⟨hx, _, _, _, rfl, hw, ‹_›, by cases h; rfl⟩))))

theorem waitOr_next (len : Nat) (nxt : BitVec 2) (s : State) (eff : Except Raised (Option (State × Wait))) : ∃ t, waitOr len nxt s eff = .next t := by
  unfold waitOr raise stall hold
  split
  · exact ⟨_, rfl⟩
  · split
    · exact ⟨_, rfl⟩
    · exact ⟨_, rfl⟩
    all_goals split <;> exact ⟨_, rfl⟩

theorem wordThen_cases {len : Nat} {nxt : BitVec 2} {r : Raised} {s t : State} (h : wordThen len nxt r s = .next t) :
    (exitRefused s.g nxt = true ∧ t = raised (plain .illegalClause) s) ∨
    (exitRefused s.g nxt = false ∧ ∃ e, takeExit nxt s = .error e ∧ t = raised e s) ∨
    (exitRefused s.g nxt = false ∧ ∃ u, takeExit nxt s = .ok u ∧
      t = takeTrap { r with cpc := s.g.cl.addr, cwi := wordIx s.g } true (boundary (goOn len s u)) (goOn len s u)) := by
  unfold wordThen raise at h
  split at h
  · exact .inl ⟨‹_›, by cases h; rfl⟩
  · have hx : exitRefused s.g nxt = false := eq_false_of_ne_true (by assumption)
    split at h
    · exact .inr (.inl ⟨hx, _, ‹_›, by cases h; rfl⟩)
    · exact .inr (.inr ⟨hx, _, ‹_›, by cases h; rfl⟩)

/-! ## Exits (R72–R74) -/

@[simp] theorem takeExit_stay (s : State) : takeExit 0 s = .ok s := by simp [takeExit, exitLanes]

@[simp] theorem exitRefused_stay (g : Gang) : exitRefused g 0 = false := by simp [exitRefused]

theorem takeExit_none {nxt : BitVec 2} {s : State} (h : exitLanes s.g nxt = 0) : takeExit nxt s = .ok s := by simp [takeExit, h]

/-! ## Past a word (R75) -/

theorem goOn_eq {len : Nat} {s u : State} (h : u.g.prio = s.g.prio) : goOn len s u = stepOver len u := by
  unfold goOn
  rw [h]
  cases s.g.prio <;> simp

theorem stepOver_same (len : Nat) (s : State) :
    let t := stepOver len s
    t = { s with clk := s.clk + 1, g := t.g } ∧ t.g.v = s.g.v ∧ t.g.s = s.g.s ∧ t.g.k = s.g.k ∧ t.g.lc = s.g.lc ∧ t.g.lk = s.g.lk ∧
      t.g.meet = s.g.meet ∧ t.g.live = s.g.live ∧ t.g.gts = s.g.gts ∧ t.g.fmode = s.g.fmode ∧ t.g.fstat = s.g.fstat ∧
      t.g.gid = s.g.gid ∧ t.g.team = s.g.team ∧ t.g.prio = s.g.prio ∧ t.g.inH = s.g.inH ∧ t.g.area = s.g.area ∧ t.g.recs = s.g.recs ∧
      t.g.pending = s.g.pending ∧ t.g.wait = .none ∧ t.g.issued = s.g.issued + 1 := by
  unfold stepOver
  by_cases h1 : s.g.cl.x = 0
  · simp [h1]
  · by_cases h2 : s.g.cl.set = 0#32
    · simp [h1, h2]
    · by_cases h3 : hdrN s.g.cl.hdr < s.g.cl.x + len
      · cases h4 : s.g.inH <;> simp [h1, h2, h3, h4]
      · simp [h1, h2, h3]

/-! ## Ending threads and tasks (R37, R306) -/

/-- What a word's end, a trap, a return or the end of a task can change: the clock, the gangs, what they watch and take, their tasks, and what is
due. Memory, registers of the system, operations, teams and every table of the device stay. -/
def GangWork (s t : State) : Prop :=
  t = { s with clk := t.clk, g := t.g, gangs := t.gangs, monitors := t.monitors, takers := t.takers, tasks := t.tasks, agenda := t.agenda }

theorem GangWork.refl (s : State) : GangWork s s := rfl

theorem GangWork.trans {s t u : State} (h : GangWork s t) (k : GangWork t u) : GangWork s u := Eq.trans k (by rw [h])

theorem GangWork.mem {s t : State} (h : GangWork s t) : t.mem = s.mem := by rw [h]
theorem GangWork.teams {s t : State} (h : GangWork s t) : t.teams = s.teams := by rw [h]
theorem GangWork.ops {s t : State} (h : GangWork s t) : t.ops = s.ops := by rw [h]
theorem GangWork.sysregs {s t : State} (h : GangWork s t) : t.sysregs = s.sysregs := by rw [h]
theorem GangWork.ctxs {s t : State} (h : GangWork s t) : t.ctxs = s.ctxs := by rw [h]

theorem gangWork_due (e : Instr) (a b : Nat) (s : State) : GangWork s (due e a s b) := rfl
theorem gangWork_setTask (s : State) (k : Task) : GangWork s (setTask s k) := rfl
theorem gangWork_onGangs (s : State) (p : Gang → Bool) (f : Gang → Gang) : GangWork s (onGangs s p f) := rfl
theorem gangWork_onGang (s : State) (n : Nat) (f : Gang → Gang) : GangWork s (onGang s n f) := by
  unfold onGang; split <;> rfl

theorem gangWork_foldl {α : Type} {f : State → α → State} (hf : ∀ s x, GangWork s (f s x)) : ∀ (l : List α) (s : State), GangWork s (l.foldl f s)
  | [], s => .refl s
  | x :: l, s => (hf s x).trans (gangWork_foldl hf l _)

theorem gangWork_stopTask (k status cause : Nat) (hdr : TrapRec) (s : State) : GangWork s (stopTask k status cause hdr s) := by
  unfold stopTask
  dsimp only
  split
  · exact .refl s
  · refine GangWork.trans ?_ ((gangWork_setTask _ _).trans (gangWork_due _ _ _ _))
    refine GangWork.trans ?_ (gangWork_foldl (fun s u => gangWork_due .teamEnd u 0 s) _ _)
    rfl

theorem gangWork_endThreads (m : Mask) (s : State) : GangWork s (endThreads m s) := by
  have h : GangWork s { s with g := { s.g with live := s.g.live &&& ~~~m, marks := s.g.marks &&& ~~~m } } := rfl
  unfold endThreads
  dsimp only
  split
  · split
    · exact h.trans (gangWork_due _ _ _ _)
    · exact h.trans ((gangWork_due _ _ _ _).trans (gangWork_due _ _ _ _))
  · split
    · exact h
    · exact h.trans (gangWork_due _ _ _ _)

theorem gangWork_pinTrap (n : Nat) (s : State) : GangWork s (pinTrap n s) := by
  unfold pinTrap
  dsimp only
  split
  · exact .refl s
  · split
    · exact .refl s
    · split
      · exact gangWork_onGang _ _ _
      · split
        · exact .refl s
        · exact (gangWork_onGang _ _ _).trans (gangWork_onGang _ _ _)

theorem gangWork_admitTrap (s : State) : GangWork s (admitTrap s) := by
  unfold admitTrap
  split
  · exact .refl s
  · exact gangWork_pinTrap _ _

theorem gangWork_takeTrap (r : Raised) (late : Bool) (b : Boundary) (s : State) : GangWork s (takeTrap r late b s) := by
  unfold takeTrap
  dsimp only
  split
  · refine GangWork.trans ?_ (gangWork_stopTask _ _ _ _ _)
    rfl
  · split
    · refine GangWork.trans ?_ (gangWork_stopTask _ _ _ _ _)
      rfl
    · refine GangWork.trans ?_ (gangWork_pinTrap _ _)
      rfl

theorem gangWork_raised (r : Raised) (s : State) : GangWork s (raised r s) := by
  refine GangWork.trans ?_ (gangWork_takeTrap _ _ _ _)
  rfl

theorem gangWork_doTret (s : State) : GangWork s (doTret s) := by
  unfold doTret
  dsimp only
  split
  · exact gangWork_stopTask _ _ _ _ _
  · have h : ∀ g : Gang, GangWork s (admitTrap { s with g := g }) := fun g => GangWork.trans (t := { s with g := g }) rfl (gangWork_admitTrap _)
    split
    · exact h _
    · exact (h _).trans (gangWork_due _ _ _ _)

theorem gangWork_takeExit {nxt : BitVec 2} {s t : State} (h : takeExit nxt s = .ok t) : GangWork s t := by
  unfold takeExit at h
  dsimp only at h
  split at h
  · cases h; exact .refl s
  · split at h
    · cases h; rfl
    · cases h; rfl
    · cases h; rfl
    · cases h; rfl
    · generalize hw : maskOf _ = m at h
      by_cases hm : m = 0
      · simp only [hm, ne_eq, not_true_eq_false, if_false, Except.ok.injEq] at h
        rw [← h]; rfl
      · simp only [ne_eq, hm, not_false_eq_true, if_true, reduceCtorEq] at h
    · cases h; exact gangWork_doTret s
    · split at h <;> (cases h; refine GangWork.trans ?_ (gangWork_endThreads _ _); rfl)
    · cases h; exact .refl s

theorem gangWork_stepOver (len : Nat) (s : State) : GangWork s (stepOver len s) := by rw [(stepOver_same len s).1]; rfl

theorem gangWork_goOn (len : Nat) (s u : State) : GangWork u (goOn len s u) := by
  unfold goOn
  split
  · rfl
  · exact gangWork_stepOver len u

theorem gangWork_stall {s t : State} (h : stall s = .next t) : GangWork s t := by unfold stall at h; cases h; rfl

theorem gangWork_startWait (w : Wait) (len : Nat) (nxt : BitVec 2) (s : State) : GangWork s (startWait w len nxt s) := rfl

theorem gangWork_finishWait (s : State) : GangWork s (finishWait s) := by
  unfold finishWait
  dsimp only
  split
  · refine GangWork.trans ?_ (gangWork_takeTrap _ _ _ _)
    rfl
  · refine GangWork.trans (GangWork.trans ?_ (gangWork_takeExit ‹_›)) (gangWork_goOn _ _ _)
    rfl

theorem gangWork_switchTo (s : State) (n : Nat) : GangWork s (switchTo s n) := by
  unfold switchTo
  split
  · exact .refl s
  · split
    · exact .refl s
    · rfl

theorem gangWork_pendCause (n : Nat) (r : Raised) (s : State) : GangWork s (pendCause n r s) := by
  unfold pendCause
  dsimp only
  split
  · split
    · exact (gangWork_setTask _ _).trans (gangWork_due _ _ _ _)
    · exact (gangWork_onGang _ _ _).trans (gangWork_due _ _ _ _)
  · exact .refl s

theorem gangWork_wakeGang (n t : Nat) (s : State) : GangWork s (wakeGang n t s) := gangWork_onGang _ _ _

/-! ## A word from the outside -/

/-- A word either changes nothing but gang work, or does its own effect first. -/
theorem word_work {len : Nat} {nxt : BitVec 2} {s t : State} {eff : Except Raised State} (h : word len nxt s eff = .next t) :
    GangWork s t ∨ ∃ u, eff = .ok u ∧ GangWork u t := by
  rcases word_cases h with ⟨_, rfl⟩ | ⟨_, r, _, rfl⟩ | ⟨_, u, r, _, _, rfl⟩ | ⟨_, u, v, hu, hv, rfl⟩
  · exact .inl (gangWork_raised _ _)
  · exact .inl (gangWork_raised _ _)
  · exact .inl (gangWork_raised _ _)
  · exact .inr ⟨u, hu, (gangWork_takeExit hv).trans (gangWork_goOn _ _ _)⟩

theorem wordOr_work {len : Nat} {nxt : BitVec 2} {s t : State} {eff : Except Raised (Option State)} (h : wordOr len nxt s eff = .next t) :
    GangWork s t ∨ ∃ u, eff = .ok (some u) ∧ GangWork u t := by
  rcases wordOr_cases h with ⟨_, rfl⟩ | ⟨_, r, _, rfl⟩ | ⟨_, _, hst⟩ | ⟨_, u, r, _, _, rfl⟩ | ⟨_, u, v, hu, hv, rfl⟩
  · exact .inl (gangWork_raised _ _)
  · exact .inl (gangWork_raised _ _)
  · exact .inl (gangWork_stall hst)
  · exact .inl (gangWork_raised _ _)
  · exact .inr ⟨u, hu, (gangWork_takeExit hv).trans (gangWork_goOn _ _ _)⟩

theorem waitWord_work {len : Nat} {nxt : BitVec 2} {s t : State} {eff : Except Raised (State × Wait)} (h : waitWord len nxt s eff = .next t) :
    GangWork s t ∨ ∃ u w, eff = .ok (u, w) ∧ GangWork u t := by
  rcases waitWord_cases h with ⟨_, rfl⟩ | ⟨_, r, _, rfl⟩ | ⟨_, u, w, r, _, _, rfl⟩ | ⟨_, u, v, hu, hv, rfl⟩ | ⟨_, u, w, v, hu, _, _, rfl⟩
  · exact .inl (gangWork_raised _ _)
  · exact .inl (gangWork_raised _ _)
  · exact .inl (gangWork_raised _ _)
  · exact .inr ⟨u, _, hu, (gangWork_takeExit hv).trans (gangWork_goOn _ _ _)⟩
  · exact .inr ⟨u, w, hu, gangWork_startWait _ _ _ _⟩

theorem waitOr_work {len : Nat} {nxt : BitVec 2} {s t : State} {eff : Except Raised (Option (State × Wait))} (h : waitOr len nxt s eff = .next t) :
    GangWork s t ∨ ∃ u w, eff = .ok (some (u, w)) ∧ GangWork u t := by
  rcases waitOr_cases h with ⟨_, rfl⟩ | ⟨_, r, _, rfl⟩ | ⟨_, _, hst⟩ | ⟨_, u, w, r, _, _, rfl⟩ | ⟨_, u, v, hu, hv, rfl⟩ | ⟨_, u, w, v, hu, _, _, rfl⟩
  · exact .inl (gangWork_raised _ _)
  · exact .inl (gangWork_raised _ _)
  · exact .inl (gangWork_stall hst)
  · exact .inl (gangWork_raised _ _)
  · exact .inr ⟨u, _, hu, (gangWork_takeExit hv).trans (gangWork_goOn _ _ _)⟩
  · exact .inr ⟨u, w, hu, gangWork_startWait _ _ _ _⟩

theorem wordThen_work {len : Nat} {nxt : BitVec 2} {r : Raised} {s t : State} (h : wordThen len nxt r s = .next t) : GangWork s t := by
  rcases wordThen_cases h with ⟨_, rfl⟩ | ⟨_, e, _, rfl⟩ | ⟨_, u, hu, rfl⟩
  · exact gangWork_raised _ _
  · exact gangWork_raised _ _
  · exact ((gangWork_takeExit hu).trans (gangWork_goOn _ _ _)).trans (gangWork_takeTrap _ _ _ _)

/-- A property of memory that a word's own effect keeps, the word keeps. -/
theorem word_mem {P : Table 8 → Prop} {len : Nat} {nxt : BitVec 2} {s t : State} {eff : Except Raised State} (h : word len nxt s eff = .next t)
    (hs : P s.mem) (he : ∀ u, eff = .ok u → P u.mem) : P t.mem := by
  rcases word_work h with k | ⟨u, hu, k⟩
  · rw [k.mem]; exact hs
  · rw [k.mem]; exact he u hu

theorem wordOr_mem {P : Table 8 → Prop} {len : Nat} {nxt : BitVec 2} {s t : State} {eff : Except Raised (Option State)} (h : wordOr len nxt s eff = .next t)
    (hs : P s.mem) (he : ∀ u, eff = .ok (some u) → P u.mem) : P t.mem := by
  rcases wordOr_work h with k | ⟨u, hu, k⟩
  · rw [k.mem]; exact hs
  · rw [k.mem]; exact he u hu

theorem waitWord_mem {P : Table 8 → Prop} {len : Nat} {nxt : BitVec 2} {s t : State} {eff : Except Raised (State × Wait)} (h : waitWord len nxt s eff = .next t)
    (hs : P s.mem) (he : ∀ u w, eff = .ok (u, w) → P u.mem) : P t.mem := by
  rcases waitWord_work h with k | ⟨u, w, hu, k⟩
  · rw [k.mem]; exact hs
  · rw [k.mem]; exact he u w hu

theorem waitOr_mem {P : Table 8 → Prop} {len : Nat} {nxt : BitVec 2} {s t : State} {eff : Except Raised (Option (State × Wait))} (h : waitOr len nxt s eff = .next t)
    (hs : P s.mem) (he : ∀ u w, eff = .ok (some (u, w)) → P u.mem) : P t.mem := by
  rcases waitOr_work h with k | ⟨u, w, hu, k⟩
  · rw [k.mem]; exact hs
  · rw [k.mem]; exact he u w hu

end Sys2Proof.Machine
end

