-- ==== Sys2Proof/Laws/Memory.lean ====
section
/-! SUPPORT. Memory: every operation that writes it keeps its canonical form, and where a line is homed a write changes the bytes it names and no
other. Operations of the home that write no byte say so. -/

namespace Sys2Proof.Machine

/-! ## The canonical form -/

theorem reset_memory_wf : Memory.wf State.reset.mem = true := rfl

theorem memory_wf_set {m : Table 8} {a : Nat} {v : Byte} (h : Memory.wf m = true) : Memory.wf (set0 m a v) = true := tableWf_tset h
theorem memory_wf_write {m : Table 8} {a : Nat} {bs : List Byte} (h : Memory.wf m = true) : Memory.wf (writeBytes m a bs) = true := tableWf_writeBytes h
theorem memory_wf_filter {m : Table 8} {p : Nat → Bool} (h : Memory.wf m = true) : Memory.wf (tfilter p m) = true := tableWf_tfilter h

theorem tableWf_rekey {n : Nat} {t : Table n} (old new size : Nat) (h : tableWf zeros t = true) : tableWf zeros (rekeyTable old new size t) = true :=
  tableWf_foldl (fun _ _ hu => tableWf_tset hu) _ (tableWf_tfilter h)

/-- Two memories in canonical form that read alike are one. -/
theorem memory_ext {m m' : Table 8} (h : Memory.wf m = true) (h' : Memory.wf m' = true) (heq : ∀ a, get0 m a = get0 m' a) : m = m' := table_ext h h' heq

/-! ## Reading at the home -/

/-- A stored copy without errors reads as it is, encrypted or not. -/
theorem storedByte_clean {s : State} (h : s.flips = []) (line i : Nat) : storedByte s line (flipsOf s line) i = get0 s.mem (128 * line + i) := by
  have hz : ∀ j, flipsOf s line j = 0 := fun j => by simp [flipsOf, h, get0]
  simp [storedByte, hz]

theorem homeByte_clean {s : State} (h : s.flips = []) (pa : Nat) : homeByte s pa = get0 s.mem pa := by
  rw [homeByte, storedByte_clean h, show 128 * (pa / 128) + pa % 128 = pa by omega]
  split <;> rfl

/-! ## Operations of the home -/

@[simp] theorem putTimes_mem (l w r : Nat) (s : State) : (putTimes l w r s).mem = s.mem := rfl
@[simp] theorem clearFlips_mem (l : Nat) (s : State) : (clearFlips l s).mem = s.mem := rfl
@[simp] theorem countAccess_mem (r : LineReq) (c : Nat) (s : State) : (countAccess r c s).mem = s.mem := rfl
@[simp] theorem putLine_mem (l : Nat) (bs : List Byte) (s : State) : (putLine l bs s).mem = writeBytes s.mem (128 * l) bs := rfl
@[simp] theorem dropCopy_mem (a b c : Nat) (s : State) : (dropCopy a b c s).mem = s.mem := rfl
@[simp] theorem setCopy_mem (c : Copy) (s : State) : (setCopy c s).mem = s.mem := rfl
@[simp] theorem markDirty_mem (l lo hi : Nat) (s : State) : (markDirty l lo hi s).mem = s.mem := rfl

@[simp] theorem grantLoad_mem (r : LineReq) (g l : Nat) (s : State) : (grantLoad r g l s).1.mem = s.mem := by
  unfold grantLoad; dsimp only; split <;> rfl

@[simp] theorem leaveSlice_mem (l : Nat) (s : State) : (leaveSlice l s).mem = s.mem := by
  unfold leaveSlice
  split
  · rfl
  · dsimp only; split <;> rfl

@[simp] theorem makeRoom_mem (h l : Nat) (s : State) : (makeRoom h l s).mem = s.mem := by
  unfold makeRoom
  dsimp only
  split
  · rfl
  · split
    · rfl
    · split
      · exact leaveSlice_mem _ _
      · rfl

@[simp] theorem holdLine_mem (r : LineReq) (c : Nat) (m : BitVec 8) (d : BitVec 4) (s : State) : (holdLine r c m d s).mem = s.mem := makeRoom_mem _ _ _

@[simp] theorem logEvent_mem (k l d : Nat) (s : State) : (logEvent k l d s).mem = s.mem := rfl

@[simp] theorem chargeCtx_mem (c : Nat) (e : Option Event) (s : State) : (chargeCtx c e s).mem = s.mem := by
  unfold chargeCtx
  split
  · rfl
  · dsimp only; split <;> rfl

/-- What a write tells the monitors: gangs are woken, nothing else. -/
theorem gangWork_notify (pa n t : Nat) (s : State) : GangWork s (notify pa n t s) := by
  unfold notify
  refine gangWork_foldl (fun s m => ?_) _ _
  split
  · split
    · exact GangWork.trans (t := { s with monitors := s.monitors.filter (· != m) }) rfl (gangWork_wakeGang _ _ _)
    · exact .refl s
  · exact .refl s

theorem pokeBytes_mem (pa : Nat) (bs : List Byte) (mask : Byte) (t : Nat) (s : State) :
    (pokeBytes pa bs mask t s).mem = writeBytes s.mem pa (bs.mapIdx fun i b => mergeByte (get0 s.mem (pa + i)) b mask) := by
  unfold pokeBytes
  exact (gangWork_notify _ _ _ _).mem

theorem mergeByte_all (x y : Byte) : mergeByte x y 0xFF = y := by
  unfold mergeByte
  rw [show (0xFF : Byte) = BitVec.allOnes 8 from rfl, BitVec.and_allOnes, BitVec.not_allOnes, BitVec.and_zero, BitVec.zero_or]

/-- A write with every bit replaced leaves the bytes given. -/
theorem pokeBytes_read {pa : Nat} {bs : List Byte} {t : Nat} {s : State} (h : Memory.wf s.mem = true) :
    readBytes (pokeBytes pa bs 0xFF t s).mem pa bs.length = bs := by
  have hm : (bs.mapIdx fun i b => mergeByte (get0 s.mem (pa + i)) b 0xFF) = bs := by
    apply List.ext_getElem (by simp)
    intro i h1 h2
    simp only [List.getElem_mapIdx]
    exact mergeByte_all _ _
  rw [pokeBytes_mem, hm]
  exact readBytes_writeBytes h

theorem pokeBytes_outside {pa : Nat} {bs : List Byte} {mask : Byte} {t a : Nat} {s : State} (h : Memory.wf s.mem = true)
    (ha : a < pa ∨ pa + bs.length ≤ a) : get0 (pokeBytes pa bs mask t s).mem a = get0 s.mem a := by
  rw [pokeBytes_mem]
  exact get0_writeBytes_outside h (by simpa using ha)

theorem memory_wf_putLine {l : Nat} {bs : List Byte} {s : State} (h : Memory.wf s.mem = true) : Memory.wf (putLine l bs s).mem = true := memory_wf_write h

theorem memory_wf_pokeBytes {pa : Nat} {bs : List Byte} {mask : Byte} {t : Nat} {s : State} (h : Memory.wf s.mem = true) :
    Memory.wf (pokeBytes pa bs mask t s).mem = true := by
  rw [pokeBytes_mem]; exact memory_wf_write h

theorem memory_wf_rekey {c l : Nat} {s : State} (h : Memory.wf s.mem = true) : Memory.wf (rekey c l s).mem = true := by
  unfold rekey
  dsimp only
  split
  · exact h
  · exact memory_wf_putLine h

theorem memory_wf_foldl {α : Type} {f : Table 8 → α → Table 8} (hf : ∀ m x, Memory.wf m = true → Memory.wf (f m x) = true) (l : List α) {m : Table 8}
    (h : Memory.wf m = true) : Memory.wf (l.foldl f m) = true := tableWf_foldl (fun _ x hm => hf _ x hm) l h

theorem memory_wf_takeHalves {l : Nat} {m : BitVec 8} {s : State} (h : Memory.wf s.mem = true) : Memory.wf (takeHalves l m s).mem = true :=
  memory_wf_foldl (fun _ _ hm => memory_wf_write hm) _ h

theorem memory_wf_enterLine {r : LineReq} {c : Nat} {s : State} (h : Memory.wf s.mem = true) : Memory.wf (enterLine r c s).1.mem = true := by
  have hk : Memory.wf (if r.dm then rekey c r.line s else s).mem = true := by split <;> [exact memory_wf_rekey h; exact h]
  unfold enterLine
  split
  · exact h
  · split
    · rename_i x _
      have ht := memory_wf_takeHalves (l := r.line) (m := halvesOf r.lo r.hi &&& ~~~x.valid) h
      dsimp only
      generalize takeHalves r.line (halvesOf r.lo r.hi &&& ~~~x.valid) s = u at ht ⊢
      exact ht
    · dsimp only
      generalize (if r.dm then rekey c r.line s else s) = u at hk ⊢
      split
      · rw [holdLine_mem]
        split
        · exact memory_wf_takeHalves hk
        · exact memory_wf_takeHalves (s := { u with flips := _ }) hk
      · rw [holdLine_mem, clearFlips_mem]; exact hk
      · exact hk
      · rw [holdLine_mem, clearFlips_mem]; exact memory_wf_putLine hk

theorem memory_wf_dirtyLine {r : LineReq} {c : Nat} {m : BitVec 8} {s : State} (h : Memory.wf s.mem = true) : Memory.wf (dirtyLine r c m s).mem = true := by
  have hk : Memory.wf (if r.dm then rekey c r.line s else s).mem = true := by split <;> [exact memory_wf_rekey h; exact h]
  unfold dirtyLine
  split
  · rename_i x _
    have ht := memory_wf_takeHalves (l := r.line) (m := m &&& ~~~x.valid) h
    generalize takeHalves r.line (m &&& ~~~x.valid) s = u at ht ⊢
    exact ht
  · dsimp only
    generalize (if r.dm then rekey c r.line s else s) = u at hk ⊢
    split
    · rw [holdLine_mem]; exact memory_wf_takeHalves hk
    · rw [holdLine_mem, clearFlips_mem]; exact memory_wf_takeHalves hk

theorem memory_wf_takeTime {r : LineReq} {c g : Nat} {s : State} (h : Memory.wf s.mem = true) : Memory.wf (takeTime r c g s).1.mem = true :=
  memory_wf_dirtyLine h

theorem memory_wf_writeHome {r : LineReq} {c g pa : Nat} {bs : List Byte} {mask : Byte} {s : State} (h : Memory.wf s.mem = true) :
    Memory.wf (writeHome r c g pa bs mask s).1.mem = true := memory_wf_pokeBytes (memory_wf_takeTime h)

theorem memory_wf_writeBulk {r : LineReq} {c pa : Nat} {bs : List Byte} {mask : Byte} {s : State} (h : Memory.wf s.mem = true) :
    Memory.wf (writeBulk r c pa bs mask s).mem = true := memory_wf_pokeBytes (memory_wf_dirtyLine h)

/-- A property of states that every step of a fold keeps. -/
theorem foldl_keeps {α σ : Type} {P : σ → Prop} {f : σ → α → σ} (hf : ∀ s x, P s → P (f s x)) : ∀ (l : List α) {s : σ}, P s → P (l.foldl f s)
  | [], _, h => h
  | x :: l, _, h => foldl_keeps hf l (hf _ x h)

theorem foldl_markDirty_mem (line : Nat) : ∀ (l : Table 8) (s : State), (l.foldl (fun s e => markDirty line e.1 (e.1 + 1) s) s).mem = s.mem
  | [], _ => rfl
  | e :: l, s => by rw [List.foldl_cons, foldl_markDirty_mem line l]; rfl

theorem memory_wf_writeDirty {r : LineReq} {c : Nat} {bytes dirty : Table 8} {s : State} (h : Memory.wf s.mem = true) :
    Memory.wf (writeDirty r c bytes dirty s).mem = true := by
  unfold writeDirty
  rw [(gangWork_notify _ _ _ _).mem]
  have hm : Memory.wf (dirty.foldl (fun m e => set0 m (128 * r.line + e.1) (mergeByte (get0 m (128 * r.line + e.1)) (get0 bytes e.1) e.2))
      (dirtyLine r c (dirty.foldl (fun m e => m ||| halvesOf e.1 (e.1 + 1)) 0) s).mem) = true :=
    memory_wf_foldl (fun _ _ hm => memory_wf_set hm) _ (memory_wf_dirtyLine h)
  rw [foldl_markDirty_mem]
  exact hm

theorem memory_wf_writeBackCopy {c : Copy} {s : State} (h : Memory.wf s.mem = true) : Memory.wf (writeBackCopy c s).mem = true := by
  unfold writeBackCopy
  dsimp only
  have he : Memory.wf (if c.allDirty then (s, (none : Option Event)) else enterLine (copyReq c) c.ctx s).1.mem = true := by
    split <;> [exact h; exact memory_wf_enterLine h]
  have hw := memory_wf_writeDirty (r := copyReq c) (c := c.ctx) (bytes := c.bytes) (dirty := c.dirty) ((chargeCtx_mem c.ctx (if c.allDirty then (s, (none : Option Event)) else enterLine (copyReq c) c.ctx s).2 _).symm ▸ he)
  split <;> exact hw

/-- What a copy's making or loss leaves of memory: it keeps its form. -/
theorem memory_wf_evictCopy {c : Copy} {s : State} (h : Memory.wf s.mem = true) : Memory.wf (evictCopy c s).mem = true := by
  unfold evictCopy
  split
  · exact h
  · split
    · exact h
    · split
      · exact h
      · split
        · split <;> exact h
        · exact memory_wf_writeBackCopy h

theorem memory_wf_cacheRoom {k n : Nat} {p : Nat → Bool} {s : State} (h : Memory.wf s.mem = true) : Memory.wf (cacheRoom k n p s).mem = true := by
  unfold cacheRoom
  split
  · exact h
  · exact foldl_keeps (P := fun u : State => Memory.wf u.mem = true) (fun u c hu => by split <;> [exact hu; exact memory_wf_evictCopy hu]) _ h

theorem memory_wf_putCopy {c : Copy} {s : State} {must : Bool} (h : Memory.wf s.mem = true) : Memory.wf (putCopy c s must).mem = true := by
  unfold putCopy
  split
  · exact h
  · dsimp only
    have hr : Memory.wf (if must then s else cacheRoom c.holder 1 (fun _ => false) s).mem = true := by split <;> [exact h; exact memory_wf_cacheRoom h]
    generalize (if must then s else cacheRoom c.holder 1 (fun _ => false) s) = u at hr ⊢
    split <;> exact hr

end Sys2Proof.Machine
end

