-- ==== Sys2Proof/Safety.lean ====
section
/-! DEFINITION. What counts as a safe run: no step is refused, and a fault only says that the package has no power. -/

namespace Sys2Proof.Machine

/-- A state whose next step goes on. -/
def Safe (s : State) : Prop := ∃ t, step s = .next t

/-- k steps that all go on. -/
def SafeRun : Nat → State → Prop
  | 0, _ => True
  | k + 1, s => ∃ t, step s = .next t ∧ SafeRun k t

end Sys2Proof.Machine
end

