-- ==== Sys2Proof/Tests/Slice0.lean ====
section
/-! SUPPORT. Tests on fixed values, each a small theorem: ill-formed terms that the check refuses, words of the manual decoded, one step per
instruction with a result the manual gives or that is worked out by hand from it, and for every statement in Obligations.lean states
and operands that meet its hypotheses together (`witness_…`, one for each clause). -/

namespace Sys2Proof.Tests

set_option Elab.async false

open Sys2Proof Sys2Proof.Machine Sys2Proof.Claims

/-! ## A small machine -/

/-- A format A or U word: A code, B code, D code. -/
def aw (a b d : Nat) (nxt : Nat := 0) (pre : Option ModWord := none) : AWord := { b := .ofNat 7 b, a := .ofNat 8 a, d := .ofNat 7 d, nxt := .ofNat 2 nxt, pre := pre }

/-- A format M word. -/
def mw (w base data ofs : Nat) (idx : Nat := 0xFF) (hint : Nat := 0) (sc : Nat := 0) (pre : Option ModWord := none) : MWord :=
  { w := .ofNat 3 w, base := .ofNat 8 base, data := .ofNat 7 data, la := 0, nxt := 0, ofs := .ofNat 19 ofs, hint := .ofNat 2 hint, sc := .ofNat 3 sc
    idx := .ofNat 8 idx, pre := pre }

/-- A MOD prefix: TYPE, STYPE, RM. -/
def mod (ty : Nat) (sty : Nat := 0) (rm : Nat := 0) : ModWord := ⟨0, .ofNat 5 sty, .ofNat 5 ty, false, false, false, false, false, false, false, .ofNat 3 rm⟩

def all : Mask := 0xFFFFFFFF

/-- A gang in the middle of a clause of 15 words at 0x1000 that may jump: every lane live and in the set; lane 0 of v1 holds 5, of v2 holds 7;
s1 holds 9. -/
def gang : Gang :=
  { gid := 1, team := 1, regs := 16, place := .running, live := all, active := true, k := [(1, all)], v := [(32, 5), (64, 7)], s := [(1, 9)]
    cl := { addr := 0x1000, hdr := 0x0010800F, words := [], x := 1, set := all } }

/-- One core, one context, one task, one team, one gang. -/
def m : State :=
  { State.reset with g := gang, teams := [{ uid := 1, task := 1, ctx := 1, place := .running, begun := true, scr := 4096 }]
                     tasks := [{ id := 1, ctx := 1, stage := .running, tx := 32, regs := 16, scr := 4096, gx := 1, gy := 1, gz := 1 }]
                     ctxs := [{ id := 1 }], nextId := 10 }

/-- The same with another clause header, issue set, or handler state. -/
def withHdr (h : Word) : State := { m with g := { gang with cl := { gang.cl with hdr := h } } }

/-! ## Witnesses: arithmetic words -/

theorem witness_uniform_ops : mayExit m (aw 129 113 5 1).nxt = true ∧ uniLegal (aw 129 113 5 1) m .i64 := by decide
theorem witness_uniform_shifts : mayExit m (aw 129 118 63).nxt = true ∧ uniLegal (aw 129 118 63 0 (some (mod 8))) m .n64 := by decide
theorem witness_uniform_unary : mayExit m (aw 192 112 0).nxt = true ∧ uniLegal (aw 192 112 0 0 (some (mod 3))) m .i32 ∧ (aw 192 112 0).b = 112 := by decide
theorem witness_uniform_compare : mayExit m (aw 129 112 47).nxt = true ∧ uniCheck (aw 129 112 47) m = .ok .i64 ∧ (aw 129 112 47).d.toNat % 8 ≠ 0 ∧
    (aw 129 112 47).d.toNat / 8 < 6 := by decide
theorem witness_uniform_sld : mayExit m (aw 129 97 63).nxt = true ∧ modOk {} (aw 129 97 63).pre = true ∧ okA m.g.regs false false 129 = true ∧
    okB m.g.regs false false 97 = true ∧ (aw 129 97 63).d.getLsbD 6 = false := by decide

theorem witness_integer_ops : mayExit m (aw 1 2 15).nxt = true ∧ vecLegal .i32 intTypes false (aw 1 2 15) m .i32 := by decide
theorem witness_integer_pairs : vecLegal .i32 intTypes false (aw 14 2 12 0 (some (mod 8))) m .n64 := by decide
theorem witness_bit_ops : mayExit m (aw 14 2 12).nxt = true ∧ vecLegal .b32 bitTypes false (aw 14 2 12 0 (some (mod 10))) m .b64 := by decide
theorem witness_bit_unary : vecLegal .b32 bitTypes false (aw 1 112 3) m .b32 ∧ (aw 1 112 3).b = 112 := by decide
theorem witness_shifts : vecLegal .b32 bitTypes false (aw 14 2 12 0 (some (mod 10))) m .b64 := by decide
theorem witness_shifts_odd : tyCheck { ty := true } .b32 bitTypes (aw 14 1 12 0 (some (mod 10))) = .ok .b64 ∧ abd (aw 14 1 12) m true true = false := by decide
theorem witness_fields : vecLegal .n32 intTypes false (aw 14 2 12 0 (some (mod 4))) m .i64 := by decide

theorem witness_compare : tyCheck { ty := true } .i32 intTypes (aw 1 2 47 0 (some (mod 7))) = .ok .n32 ∧ okA 16 true false 1 = true ∧ okB 16 true false 2 = true ∧
    (aw 1 2 47).d.toNat % 8 ≠ 0 ∧ (aw 1 2 47).d.toNat / 8 < 6 := by decide
theorem witness_abs : tyCheck { ty := true, sat := true } .i32 [.i32, .i64] (aw 1 112 3) = .ok .i32 ∧ abd (aw 1 112 3) m false false = true := by decide
theorem witness_carry : vecLegal .n32 intTypes false (aw 1 2 3) m .n32 := by decide
theorem witness_lut3 : vecLegal .b32 bitTypes false { aw 1 2 3 with lt := some 255 } m .b32 ∧ (255 : Word).toNat < 256 := by decide
theorem witness_hmix : modOk {} (aw 1 2 3).pre = true ∧ abd (aw 1 2 3) m false false = true := by decide
theorem witness_dot : tyCheck { ty := true, sat := true } .i8 [.i8, .n8] (aw 1 2 3) = .ok .i8 ∧
    tyCheck { ty := true, sat := true } .i16 [.i16, .n16] (aw 1 2 3 0 (some (mod 6))) = .ok .n16 := by decide

theorem witness_float_ops : ∀ p ∈ fpOps, tyCheck p.takes .f32 p.tys (aw 1 112 3) = .ok .f32 ∧ abd (aw 1 112 3) m false false = true ∧ (aw 1 112 3).b = 112 := by decide
theorem witness_float_pairs : tyCheck fpTakes .f32 fpTypes (aw 2 4 14 0 (some (mod 11))) = .ok .f64 ∧ abd (aw 2 4 14) m true true = true := by decide
theorem witness_float_fixed : tyCheck fpTakes1 .f32 fpNarrow (aw 1 112 3 0 (some (mod 13 0 1))) = .ok .f16 ∧ (mod 13 0 1).rm.toNat ≤ 1 := by decide
theorem witness_exact : isRat (.fin true 3 4) = true ∧ isRat (.fin false 1 2) = true ∧ (ratOf (.fin true 3 4)).isSome = true ∧ (ratOf (.fin false 1 2)).isSome = true := by decide
theorem witness_own_rounding : Machine.e2m1 ∈ formats ∧ 15 < 2 ^ Machine.e2m1.bits ∧ isRat (decodeF Machine.e2m1 15) = true := by decide
theorem witness_fminmax : tyCheck { fpTakes with sat := false, rm := false } .f32 fpTypes (aw 1 2 3 0 (some (mod 14))) = .ok .bf16 := by decide
theorem witness_fcmp : tyCheck { fpTakes with sat := false, rm := false } .f32 [.f32, .f64] (aw 1 2 89) = .ok .f32 ∧ (aw 1 2 89).d.toNat % 8 ≠ 0 ∧
    (aw 1 2 89).d.toNat / 8 < 12 := by decide
theorem witness_fclass : tyCheck { ty := true } .f32 fpTypes (aw 1 112 3) = .ok .f32 ∧ vregOk m.g.regs false 3 = true := by decide
theorem witness_fscale : tyCheck { fpTakes with bMods := false } .f32 fpTypes (aw 2 4 14 0 (some (mod 11))) = .ok .f64 ∧ abd (aw 2 4 14) m true true = true := by decide
theorem witness_frnd : tyCheck { fpTakes1 with sat := false } .f32 fpTypes (aw 1 112 3 0 (some (mod 13 0 6))) = .ok .f16 := by decide
theorem witness_fsum4 : tyCheck fpTakes .f16 [.f16, .bf16] (aw 1 2 3) = .ok .f16 := by decide

theorem witness_cvt : tyPair cvtTakes .f32 .i32 (fun _ _ => true) (aw 1 112 3 0 (some (mod 15 12))) = .ok (.e4m3, .f32) ∧ okA 16 true false 1 = true ∧
    112 ≤ (aw 1 112 3).b.toNat ∧ laneB32 (aw 1 112 3) m 0 % 8 = 0 ∧ laneB32 (aw 1 112 3) m 0 / 8 < 8 := by decide
theorem witness_cvt_parts : laneB32 (aw 1 124 3) m 0 % 8 = 0 ∧ laneB32 { aw 1 124 3 with lb := some 3 } m 0 % 8 * tyBits .e4m3 < 32 ∧
    laneB32 { aw 1 124 3 with lb := some 24 } m 0 / 8 * tyBits .e4m3 < 32 := by decide
theorem witness_cvt_sr : ∀ x, (aw 1 112 3 0 (some (mod 15 12 6))).pre = some x → x.rm = 0 ∨ x.rm = 6 := by intro x h; cases h; decide
theorem witness_pack : tyPair cvtTakes .f16 .f32 packOk (aw 1 2 3) = .ok (.f16, .f32) := by decide
theorem witness_unpack : tyPair { ty := true, sty := true } .f32 .f16 unpackOk (aw 1 113 3) = .ok (.f32, .f16) ∧ 112 ≤ (aw 1 113 3).b.toNat ∧
    laneB32 (aw 1 113 3) m 0 < 2 := by decide
theorem witness_qdeq : pickTy .qa4 [.qa4, .qa8] (stypeCode (aw 1 2 3 0 (some (mod 12 19))).pre) = some .qa8 ∧ typeCode (aw 1 2 3 0 (some (mod 12 19))).pre = 12 := by decide
theorem witness_qenc : modOk { ty := true, sty := true, rm := true } (some (mod 19 12 6)) = true ∧ pickTy .qa4 [.qa4, .qa8] 19 = some .qa8 := by decide
theorem witness_bexp : modOk { ty := true } (some (mod 22)) = true ∧ pickTy .fx8 [.fx8, .fx4, .ix8] 22 = some .ix8 ∧ abd (aw 1 112 3) m false false = true := by decide
theorem witness_bscale : modOk { ftz := true, rm := true } (some (mod 0 0 5)) = true ∧ abd (aw 1 2 3) m false false = true := by decide

/-! ## Witnesses: lanes, masks, registers -/

theorem witness_shuffles : vecLegal .b32 bitTypes true (aw 14 1 12 0 (some (mod 10))) m .b64 := by decide
theorem witness_vote_any : voteLegal (aw 1 114 1) m .b32 ∧ (aw 1 114 1).d.toNat % 8 ≠ 0 ∧ (aw 1 114 1).d &&& 0x38 = 0 ∧ (aw 1 114 1).d.getLsbD 6 = false := by decide
theorem witness_vote_all : voteLegal (aw 1 114 65) m .b32 ∧ (aw 1 114 65).d.toNat % 8 ≠ 0 ∧ (aw 1 114 65).d &&& 0x38 = 0 := by decide
theorem witness_vote_cnt : voteLegal (aw 2 115 63 0 (some (mod 10))) m .b64 ∧ (aw 2 115 63).d.getLsbD 6 = false := by decide
theorem witness_scan : vecLegal .i32 intTypes false (aw 1 112 3) m .i32 := by decide
theorem witness_match : tyCheck { ty := true } .b32 bitTypes (aw 2 112 3 0 (some (mod 10))) = .ok .b64 ∧ okA m.g.regs true true 2 = true := by decide
theorem witness_reduce : lredCheck (aw 1 112 3) m true = .ok .i32 ∧ lredCheck (aw 2 112 3 0 (some (mod 8))) m false = .ok .n64 := by decide
theorem witness_reduce_float : lredCheck (aw 1 112 3 0 (some (mod 12))) m true = .ok .f32 ∧ lredCheck (aw 1 112 3 0 (some (mod 12))) m false = .ok .f32 := by decide
theorem witness_masks : (∀ p ∈ maskOps, (if p.2.1 then (aw 7 0 7).b.toNat < 8 else (aw 7 0 7).b = 0)) ∧ (aw 7 0 7).a.toNat < 8 ∧ (aw 7 0 7).d &&& 0x08 = 0 ∧
    (aw 7 0 7).d.toNat % 8 ≠ 0 := by decide
theorem witness_mask_illegal : 8 ≤ (aw 8 0 7).a.toNat ∧ 8 ≤ (aw 7 8 7).b.toNat ∧ (aw 7 1 7).b ≠ 0 ∧ (aw 7 0 15).d &&& 0x08 ≠ 0 ∧ (aw 7 0 8).d.toNat % 8 = 0 ∧
    (aw 127 0 1).a.toNat < 128 ∧ 224 ≤ (aw 224 0 1).a.toNat ∧ (aw 128 0 1).d &&& 0x38 = 0 ∧ modOk {} (some (mod 8)) = false := by decide
theorem witness_mask_codes : ∀ p ∈ [(0xAC, 2), (0xAD, 1), (0xAE, 7), (0xAF, 7)],
    let x : Word := .ofNat 32 (p.1 * 4 + p.2 * 2 ^ 14)
    x.extractLsb' 17 8 ≠ 240 ∧ x.extractLsb' 25 7 ≠ 124 ∧ x.extractLsb' 2 8 = .ofNat 8 p.1 ∧ (x.extractLsb' 14 3).toNat = p.2 := by decide
theorem witness_mask_counts : modOk {} (aw 0 0 3).pre = true ∧ (aw 0 0 3).a.toNat < 8 ∧ (aw 0 0 3).b = 0 := by decide
theorem witness_s2k : 128 ≤ (aw 223 0 7).a.toNat ∧ (aw 223 0 7).a.toNat < 224 ∧ (aw 223 0 7).b = 0 ∧ (aw 223 0 7).d &&& 0x38 = 0 ∧ (aw 223 0 7).d.toNat % 8 ≠ 0 := by decide

theorem witness_registers : (0 : Nat) < 32 ∧ (31 : Nat) < 32 ∧ tableWf zeros gang.v = true ∧ tableWf zeros gang.s = true ∧ tableWf zeros gang.k = true ∧ [0, 31].Nodup := by decide

/-! ## Witnesses: exits, thread control, sleeps and traps -/

/-- The same gang in a clause with exit kind EXK, and a KC register that holds lanes 0–15. -/
def exk (e : Nat) : State := { m with g := { gang with k := [(1, all), (4, 0xFFFF)], cl := { gang.cl with hdr := .ofNat 32 (0x0010000F + 32768 * e) } } }

theorem witness_exits : ∀ e ∈ [1, 2, 3, 4, 5, 7], (exk e).g.inH = false ∧ exitLanes (exk e).g 2 ≠ 0 ∧ exitLanes (exk e).g 3 ≠ 0 ∧ hdrExk (exk e).g.cl.hdr = e ∧ (exk e).g.cl.loop = none ∧
    tableWf zeros (exk e).g.pc = true ∧ tableWf zeros (exk e).g.lk = true := by decide
theorem witness_exit_indirect : (lanesOf (exitLanes (exk 5).g 1)).all (fun l => decide ((pairGet (exk 5).g (field (exk 5).g.cl.hdr.toNat 24 18) l).toNat % 4 = 0)) = true ∧
    (let s := { exk 5 with g := { (exk 5).g with v := [(128, 2)] } }
     (lanesOf (exitLanes s.g 1)).all (fun l => decide ((pairGet s.g (field s.g.cl.hdr.toNat 24 18) l).toNat % 4 = 0)) = false) := by decide
theorem witness_past_a_word : gang.cl.x ≠ 0 ∧ gang.cl.set ≠ 0 ∧ gang.cl.x + 14 ≤ hdrN gang.cl.hdr ∧ hdrN gang.cl.hdr < gang.cl.x + 15 ∧ gang.inH = false := by decide
theorem witness_past_the_last_lane : ({ gang.cl with set := 0 } : ClauseState).x ≠ 0 ∧ ({ gang.cl with set := 0 } : ClauseState).set = 0 := by decide

theorem witness_nop_yield : mayExit m (aw 192 112 0 1).nxt = true ∧ bare (aw 192 112 0 1) := by decide
theorem witness_setlc : (aw 223 112 0).pre = none ∧ (aw 223 112 0).b = 112 ∧ (aw 223 112 0).d = 0 ∧ okA m.g.regs false false 223 = true := by decide
theorem witness_meet_here : (-8192 : Int) ≤ (0xFFFFE000 : Word).toInt ∧ clauseAddr (0x100000 + ((0xFFFFE000 : Word).signExtend 64 <<< 2)) = true := by decide
theorem witness_meet_register : (aw 129 112 64).d.getLsbD 6 = true ∧ 128 ≤ (aw 129 112 64).a.toNat ∧ (aw 129 112 64).a.toNat < 192 ∧ clauseAddr 0x1FC = true := by decide
theorem witness_exit_word : bare (aw 192 112 0) ∧ (aw 192 112 0).nxt = 0 ∧ m.g.cl.x ≠ 0 := by decide
theorem witness_compact : (aw 14 112 0).a.toNat < 128 ∧ vregOk m.g.regs true 14 = true ∧ m.g.prio = false ∧
    (∀ l ∈ lanesOf m.g.cl.set, (pairGet m.g 14 l).toNat % 4 = 0) ∧ (m.teams.any (·.uid == m.g.team)) = true := by decide

/-- The context has a trap handler. -/
def handled (s : State) : State := regSet s 0x012 1 0x8000

/-- s1 holds a value; CLK stands at 100. -/
def atClk (x : DWord) (s : State) : State := { s with clk := 100, g := { s.g with s := if x = 0 then [] else [(1, x)] } }

theorem witness_sleep_until : (sGet (atClk 100 m).g 1).toNat ≤ (atClk 100 m).clk ∧ (atClk 101 m).clk < (sGet (atClk 101 m).g 1).toNat := by decide
theorem witness_sleep_r : promiseCome (atClk (65536 * 100 + 3) m) (sGet (atClk (65536 * 100 + 3) m).g 1) = true ∧ ticketDone (myTeam m) (65536 * 100 + 3) = true ∧
    promiseCome (atClk (65536 * 101 + 3) m) (sGet (atClk (65536 * 101 + 3) m).g 1) = false := by decide
theorem witness_brk : mayTrap (handled m) ∧ (handled m).g.cl.x < 16 ∧ bare (aw 192 112 0) := by decide
theorem witness_trap : mayTrap (handled m) ∧ (aw 207 112 0).a.toNat = 192 + 15 ∧ ({ aw 240 112 0 with la := some 255 } : AWord).la = some (BitVec.ofNat 32 255) := by decide
theorem witness_promise_missed :
    let s := handled { atClk (65536 * 100 + 3) m with teams := [{ uid := 1, task := 1, ctx := 1, place := .running, begun := true, outst := [3] }] }
    mayTrap s ∧ takeExit 0 s = .ok s ∧ promiseCome s (sGet s.g 1) = true ∧ ticketDone (myTeam s) (sGet s.g 1) = false := by decide

/-! ## Witnesses: memory words -/

/-- A leaf: OPEN, readable, writable, executable, its frame at 65,536·f. -/
def leaf (bulk : Bool) (f : Nat) : DWord := .ofNat 64 (2 ^ 63 + 2 ^ 62 + 2 * 2 ^ 60 + (if bulk then 2 ^ 59 else 0) + 7 * 2 ^ 55 + f * 2 ^ 16)

/-- The gang with lane 0 alone, s2 at an ORDERED page, s3 at a BULK one: both known to the core's TLB; the context translates and has its key, the task declares both pages. -/
def mm : State :=
  { m with g := { gang with s := [(1, 9), (2, 0x10000), (3, 0x20000)], cl := { gang.cl with set := 1 } }
           tasks := [{ id := 1, ctx := 1, stage := .running, tx := 32, regs := 16, scr := 4096, gx := 1, gy := 1, gz := 1, ranges := [⟨0x10000, 0x20000, true, true, true⟩] }]
           ctxs := [{ id := 1, key := true }], sysregs := [(regKey 0x010 1, 0x8000000000000000)]
           tlb := [⟨0, 1, 0x10000, 65536, leaf false 5⟩, ⟨0, 1, 0x20000, 65536, leaf true 6⟩] }

/-- The same with no lane in the set. -/
def none' (s : State) : State := { s with g := { s.g with cl := { s.g.cl with set := 0 } } }

/-- A form whose lanes pass their checks, with a property of their requests that evaluates. -/
theorem passes_of {n : Need} {acc : Nat} {w : MWord} {s : State} (p : List (LaneReq × LineReq) → Bool)
    (h : (match checkLanes (looked w s) n acc (size w) (accesses w s) with
      | .ok rs => !lineWaits (looked w s) (distinctLines rs) && p rs
      | .error _ => false) = true) : ∃ rs, passes n acc w s rs ∧ p rs = true := by
  unfold passes
  split at h
  · rename_i rs e
    simp at h
    exact ⟨rs, ⟨e, h.1⟩, h.2⟩
  · simp at h

/-- A result of checks that evaluates to one that has a property. -/
theorem ok_of {ε α : Type} {r : Except ε α} (p : α → Bool) (h : (match r with | .ok a => p a | .error _ => false) = true) : ∃ a, r = .ok a ∧ p a = true := by
  split at h
  · exact ⟨_, rfl, h⟩
  · simp at h

theorem some_of {ε α : Type} {r : Except ε (Option α)} (p : α → Bool) (h : (match r with | .ok (some a) => p a | _ => false) = true) :
    ∃ a, r = .ok (some a) ∧ p a = true := by
  split at h
  · exact ⟨_, rfl, h⟩
  · simp at h

/-- Checks of one lane that pass, with a property of its request that evaluates. -/
theorem single_of {ε α β : Type} {r : Except ε (List (α × β))} (p : α → β → Bool) (h : (match r with | .ok [(a, b)] => p a b | _ => false) = true) :
    ∃ a b, r = .ok [(a, b)] ∧ p a b = true := by
  split at h
  · exact ⟨_, _, rfl, h⟩
  · simp at h

theorem witness_ld : mayExit mm 0 = true ∧ ldLegal (mw 4 130 12 0) mm ∧ active mm.g ≠ 0 ∧
    ∃ rs, passes { r := true } 0 (mw 4 130 12 0) mm rs ∧ (rs.length == 1) = true := ⟨rfl, by decide, by decide, passes_of _ (by decide)⟩
theorem witness_ld_no_lane : ldLegal (mw 4 130 12 0) (none' mm) ∧ active (none' mm).g = 0 := by decide
theorem witness_ldu : loadTyOk (mw 3 130 63 0) true = true ∧ uniAddrOk (mw 3 130 63 0) = true ∧ (mw 3 130 63 0).data.getLsbD 6 = false ∧
    let u := fillPages [addrOf (mw 3 130 63 0) mm 0] mm
    ∃ rs, checkLanes u { r := true } 0 (size (mw 3 130 63 0)) [(lowest (active mm.g), addrOf (mw 3 130 63 0) mm 0)] = .ok rs ∧
      (!lineWaits u (distinctLines rs) false) = true := ⟨rfl, rfl, rfl, ok_of _ (by decide)⟩
theorem witness_pref : modOk {} (mw 0 130 0 0).pre = true ∧ laneAddrOk (mw 0 130 0 0) mm = true ∧ (mw 0 130 0 0).data = 0 ∧ (mw 0 130 0 0 0xFF 1).hint.toNat < 2 ∧
    ∃ rs, checkLanes (looked (mw 0 130 0 0) mm) { r := true } 0 1 ((accesses (mw 0 130 0 0) mm).filter fun l => (checkLane (looked (mw 0 130 0 0) mm) { r := true } l.2 1).toBool) = .ok rs ∧
      (rs.length == 1 && !lineWaits (looked (mw 0 130 0 0) mm) ((distinctLines rs).map fun r => { r with lo := 0, hi := 128 }) && rs.all fun r => !lineOwned (looked (mw 0 130 0 0) mm) r.2.line) = true :=
  ⟨by decide, by decide, by decide, by decide, ok_of _ (by decide)⟩

/-- A refused write-back of line 2560, in the core of the gang. -/
def deniedAt (s : State) : State := { s with refused := [⟨0, { remote := false, holder := 0, line := 2560, ctx := 1, bulk := true, cls := 2, dm := false, dom := 0, va := 0x10000, bytes := [], dirty := [(0, 0xFF)] }⟩] }
theorem witness_ld_refused : ∃ rs, checkLanes (looked (mw 4 130 12 0) (deniedAt mm)) { r := true } 0 16 (accesses (mw 4 130 12 0) (deniedAt mm)) = .ok rs ∧
    lineWaits (looked (mw 4 130 12 0) (deniedAt mm)) (distinctLines rs) true = true := ok_of (fun rs => lineWaits _ (distinctLines rs)) (by decide)
theorem witness_lds : mayExit mm 0 = true ∧ loadTyOk (mw 2 192 4 4092) false = true ∧ scrAddrOk (mw 2 192 4 4092) mm = true ∧ groupOk mm.g.regs 2 4 = true ∧
    scrPasses false (mw 2 192 4 4092) mm ∧ (∀ l ∈ accesses (mw 2 192 4 4092) mm, scrOwned mm (myTeam mm).uid l.2.toNat 4 = false) := by decide
theorem witness_sts : modOk {} (mw 4 192 12 4080).pre = true ∧ scrAddrOk (mw 4 192 12 4080) mm = true ∧ groupOk mm.g.regs 4 12 = true ∧
    scrPasses true (mw 4 192 12 4080) mm := by decide
theorem witness_scratch : (mm.teams.any (·.uid == 1)) = true ∧ tableWf zeros (teamOf mm 1).scratch = true ∧ (∀ l ∈ mm.laterals, l.pub ≠ 1) := by decide

/-- Line 1024 of the context's addresses, at 3072: its first byte is dirty in the gang's cluster. -/
def dirtyCopy : Copy := { remote := false, holder := 0, line := 3072, ctx := 1, bulk := true, cls := 2, dm := false, dom := 0, va := 0x20000, bytes := [(0, 7)], dirty := [(0, 0xFF)] }
def cached (s : State) : State := { s with copies := [dirtyCopy] }

theorem witness_st_ordered : modOk {} (mw 4 130 12 0).pre = true ∧ laneAddrOk (mw 4 130 12 0) mm = true ∧ groupOk mm.g.regs 4 12 = true ∧
    ∃ rs, passes { w := true } 1 (mw 4 130 12 0) mm rs ∧ (!rs.isEmpty && rs.all fun r => !r.2.bulk) = true := ⟨rfl, rfl, rfl, passes_of _ (by decide)⟩
theorem witness_st_bulk : ∃ rs, passes { w := true } 1 (mw 4 131 12 0) mm rs ∧
    (!rs.isEmpty && (rs.all fun r => r.2.bulk) && storeRoom 0 1 (distinctLines (rs.map (dataOf (mw 4 131 12 0) mm))) (looked (mw 4 131 12 0) mm) == some (looked (mw 4 131 12 0) mm)) = true :=
  passes_of _ (by decide +kernel)

/-- A cluster cache of four banks that is full of quarantined lines. -/
def cacheStuck : State := { regSet mm 0x020 0 0x5555555555555500 with copies := List.replicate 1024 { dirtyCopy with line := 9, quarantined := true } }
/-- A cluster whose lines cannot leave has no room for lines more than it takes. -/
theorem stuck {cl ctx : Nat} {ls : List LineReq} {s : State}
    (e : (copiesIn s cl).filter (fun c => mayLeave s c && !(ls.any (·.line == c.line))) = [])
    (a : cacheTakes s cl (ls.countP fun l => l.bulk && (copyOf s cl ctx l.line).isNone) = false) : storeRoom cl ctx ls s = none := by
  have b : ∀ n, cacheTakes { s with fresh := s.fresh + 1 } cl n = cacheTakes s cl n := fun _ => rfl
  simp only [storeRoom, cacheRoom, e, a, b, List.drop_nil, List.take_nil, List.append_nil, List.foldl_nil, Bool.false_eq_true, if_false]

def bulkLine (l : Nat) : LineReq := { line := l, bulk := true, cls := 2, dm := false, dom := 0 }
theorem witness_st_stuck : (∃ rs, passes { w := true } 1 (mw 4 131 12 0) { cacheStuck with tlb := mm.tlb } rs ∧ (distinctLines (rs.map (dataOf (mw 4 131 12 0) mm)) == [{ bulkLine 3072 with va := 1024, lo := 0, hi := 16 }]) = true) ∧
    storeRoom 0 1 [{ bulkLine 3072 with va := 1024, lo := 0, hi := 16 }] (looked (mw 4 131 12 0) cacheStuck) = none :=
  ⟨passes_of _ (by decide +kernel), stuck (by decide +kernel) (by decide +kernel)⟩
theorem witness_store_copy : 124 + [1, 2, 3, 4].length ≤ 128 ∧ (∀ c ∈ (cached mm).copies, tableWf zeros c.bytes = true ∧ tableWf zeros c.dirty = true) ∧
    (copyOf (cached mm) 0 1 3072).any (fun k => !k.quarantined) = true ∧ (copyOf { mm with copies := [{ dirtyCopy with quarantined := true }] } 0 1 3072).any (fun k => k.bulk && k.quarantined) = true := by decide

theorem witness_atomics : ∀ p ∈ atomics, modOk { ty := true } (mw 3 130 4 0).pre = true ∧ p.2.2.2 3 0 = true ∧
    laneAddrOk (mw 3 130 4 0) mm = true ∧ atomGroupOk (mw 3 130 4 0) mm p.2.2.1 = true := by decide
theorem witness_atomics_pass : (∃ rs, passes { r := true, w := true } 2 (mw 3 130 4 0) mm rs ∧ (rs.length == 1 && mayYield (looked (mw 3 130 4 0) mm) (distinctLines rs)) = true) ∧ active mm.g ≠ 0 ∧ active (none' mm).g = 0 :=
  ⟨passes_of _ (by decide), by decide, by decide⟩
theorem witness_st_acc : laneAddrOk (mw 3 130 4 0) mm = true ∧ atomGroupOk (mw 3 130 4 0) mm true = true ∧
    ∃ rs, passes { w := true } 6 (mw 3 130 4 0) mm rs ∧ (rs.length == 1) = true := ⟨rfl, rfl, passes_of _ (by decide)⟩
theorem witness_atomic_words : ((0x80000000 : BitVec 32).slt 1) = true ∧ ((1 : BitVec 32).ult 0x80000000) = true ∧ lowest (~~~(-1#64) &&& 5#64) = 64 := by decide

/-- The line that s2 names is in its slice. -/
def inSlice (s : State) : State := { s with sc := [{ line := 2560, slice := 5, cls := 2, dm := false, dom := 0, ctx := 1, va := 512 }] }

/-- Operation 9 of the gang on pool 0. -/
def poolOp (k : OpKind) (lanes : List LaneReq) : Op :=
  { id := 9, gang := 1, kind := k, ctx := 1, cpc := 0x1000, cwi := 1, la := 0, seq := 0, dst := 7, lanes := lanes }

def withOp (o : Op) (s : State) : State := { s with ops := [o], obj := (9, 0) }

/-- A one-word `weir` of 8 bytes at s2, on the condition sc of its word and s`d`. -/
def weirWord (sc d : Nat) : MWord := mw 3 130 d 0 0xFF 0 sc

theorem witness_weir :
    let s := inSlice mm
    let u := fillPages [addrOf (weirWord 0 0) s 0] s
    ∃ l q, checkLanes u { r := true } 0 8 [(lowest (active s.g), addrOf (weirWord 0 0) s 0)] = .ok [(l, q)] ∧
      (allDone u && !lineOwned u q.line && !refusedLine u 1 q.line && !readBehind u 0 (ofBlock q l.pa 8) && sliceOf u q.dom q.line == homeOf u q.dom q.line && Machine.holds u (ofBlock q l.pa 8) &&
        (leafOf (countAccess (ofBlock q l.pa 8) 1 u) 0 1 (addrOf (weirWord 0 0) s 0).toNat).toBool &&
        weirTrue 0 false 64 (leNat (homeBytes u l.pa 8)) 0 && !weirTrue 1 false 64 (leNat (homeBytes u l.pa 8)) 0) = true :=
  single_of _ (by decide +kernel)

theorem witness_fences : fenceCheck (mw 4 192 0 0) (none' mm) 5 false = .ok none ∧ fenceCheck (mw 0 130 9 0 0xFF 1) (none' mm) 1 true = .ok none ∧
    fenceCheck (mw 0 130 9 0 0xFF 1) (none' mm) 1 false = .ok none := by decide

theorem witness_fence_rel : ∃ c, fenceCheck (mw 4 192 0 0) (cached mm) 5 false = .ok (some c) ∧
    ((dirtyIn (cached mm) c == [dirtyCopy]) && (dirtyIn (cached mm) c).all (fun k => !refusedWb (cached mm) 0 k) && (heldEntries (cached mm)).isEmpty &&
      !(opsOf (cached mm) 1).any (·.kind == .stn)) = true :=
  some_of _ (by decide +kernel)

/-- The fence that `fence.rel` or `fence.acq` leaves out. -/
def fence (code w : Nat) : Op := { poolOp .fence [] with id := 10, w := w, code := code }
theorem witness_fence_done : (∀ b ∈ [0xC5, 0xC6], ∀ w ∈ [1, 4], (∀ p ∈ mm.ops, p.kind ≠ .fence ∧ p.id < mm.nextId) ∧ (fence b w).id = mm.nextId ∧
      fenceDone (addOp (fence b w) mm) (fence b w) = true) ∧
    (let s := addOp (fence 0xC5 1) (withOp { poolOp .store [] with id := 9 } mm)
     fenceDone s (fence 0xC5 1) = false ∧ fenceDone s (fence 0xC6 1) = true ∧ fenceHolds 0xC5 0xB1 (mw 0 0 0 0) = true ∧ fenceHolds 0xC5 0xB0 (mw 0 0 0 0) = false ∧ (fence 0xC5 1).wr = false) := by decide +kernel
theorem witness_maintenance : ∃ c, fenceCheck (mw 0 131 9 0 0xFF 1) mm 1 true = .ok (some c) ∧
    (fenceCheck (mw 0 131 9 0 0xFF 1) mm 1 false == .ok (some c) && !storesOut mm && (dirtyIn mm c).isEmpty) = true := some_of _ (by decide +kernel)
theorem witness_maintenance_dirty : ∃ c, fenceCheck (mw 0 192 0 0) (cached mm) 1 false = .ok (some c) ∧
    (!storesOut (cached mm) && dirtyIn (cached mm) c == [dirtyCopy] && (dirtyIn (cached mm) c).all fun k => !refusedWb (cached mm) 0 k) = true :=
  some_of _ (by decide +kernel)

/-- The dirty line of the cluster may not be written back: its page has become read-only. -/
def readOnly : State := { cached mm with tlb := [⟨0, 1, 0x20000, 65536, leaf true 6 &&& ~~~(2 ^ 56 : DWord)⟩] }
theorem witness_denied : (∃ c, fenceCheck (mw 4 192 0 0) readOnly 5 false = .ok (some c) ∧ ((dirtyIn readOnly c).any (refusedWb readOnly 0) && !(opsOf readOnly 1).any (·.kind == .stn)) = true) ∧
    (∃ c, fenceCheck (mw 0 192 0 0) readOnly 1 false = .ok (some c) ∧ ((dirtyIn readOnly c).any (refusedWb readOnly 0) && !storesOut readOnly) = true) ∧
    (∃ c, fenceCheck (mw 0 192 0 0) (deniedAt mm) 5 false = .ok (some c) ∧ (!(heldEntries (deniedAt mm)).isEmpty) = true) :=
  ⟨some_of _ (by decide +kernel), some_of _ (by decide +kernel), some_of _ (by decide +kernel)⟩

/-- Pool 0 of context 1 stands at the page of s2, in chunks of 512 bytes. -/
def pooled : State := regSet (regSet mm 0x018 16 0x10000) 0x019 16 0x8000000000000001

theorem witness_stn_no_lane : stnFields (mw 4 130 12 0 135) = true ∧ active (none' mm).g = 0 ∧ groupOk mm.g.regs 4 12 = true := by decide
theorem witness_stn : poolCheck pooled (sGet pooled.g 2) true = .ok 0 ∧ active pooled.g ≠ 0 := by decide
theorem witness_stn_blk : stnFields (mw 0 130 5 0 135) = true ∧ poolCheck pooled (sGet pooled.g 2) false = .ok 0 ∧ (sGet pooled.g 5).toNat % 32 = 0 ∧
    (sGet pooled.g 5).toNat + poolChunk pooled 1 0 ≤ (myTeam pooled).scr ∧ scrOwned pooled 1 0 512 = false := by decide
theorem witness_rlq : laneAddrOk (mw 0 130 0 512) pooled = true ∧ (accesses (mw 0 130 0 512) pooled).filter (·.2 != 0) ≠ [] ∧
    (∀ l ∈ (accesses (mw 0 130 0 512) pooled).filter (·.2 != 0),
      rlqLane (fillPages (((accesses (mw 0 130 0 512) pooled).filter (·.2 != 0)).map (·.2)) pooled) l.1 l.2 = .ok (0, 1)) ∧
    (accesses (mw 0 192 0 0) pooled).filter (·.2 != 0) = [] := by decide
theorem witness_choice : chooseChunk pooled 1 0 0 0x10000 1024 512 = some (0, 0x10000) := by decide

theorem witness_name_choice :
    let o := poolOp .stn ((List.range 4).map fun i => ⟨0, 0, 128 * i, 128, [], 0xFF, 0x10000, 1024, [], []⟩)
    opOf (withOp o pooled) 9 = some o ∧ earlierDone (withOp o pooled) o = true ∧ (∀ l ∈ o.lanes, l.g0 = 0x10000 ∧ l.g1 = 1024) ∧
    chooseChunk (withOp o pooled) 1 0 0 0x10000 1024 512 = some (0, 0x10000) ∧
    chooseChunk (withOp o { pooled with ctxs := [{ id := 1, key := true, taken := [(0, 2, [0, 1])] }] }) 1 0 0 0x10000 1024 512 = none := by decide
/-- A nameless store of one line into a pool in a BULK page. -/
def bulkName (s : State) : State := withOp (poolOp .stn [⟨0, 0, 0, 128, [], 0xFF, 0x20000, 1024, [], []⟩]) s
theorem witness_name_choice_bulk :
    (chooseChunk (bulkName pooled) 1 0 0 0x20000 1024 128 = some (0, 0x20000) ∧ ((bulkName pooled).refused = []) ∧ storeRoom 0 1 [bulkLine 3072] (bulkName pooled) = some (bulkName pooled)) ∧
    (chooseChunk (bulkName cacheStuck) 1 0 0 0x20000 1024 128 = some (0, 0x20000) ∧ storeRoom 0 1 [bulkLine 3072] (bulkName cacheStuck) = none) :=
  ⟨by decide +kernel, by decide +kernel, stuck (by decide +kernel) (by decide +kernel)⟩
theorem witness_name_return : opOf (withOp (poolOp .stn []) pooled) 9 = some (poolOp .stn []) ∧ (poolOp .stn []).code ≠ 1 ∧
    (∀ p ∈ (withOp (poolOp .stn []) pooled).ops, p.gang = 1 → p.kind = .stn → 9 ≤ p.id) ∧ (gangOf (withOp (poolOp .stn []) pooled) 1).isSome = true := by decide
theorem witness_rlq_apply :
    let o := poolOp .rlq [⟨0, 0, 0, 1, [], 0xFF, 0, 1, [], []⟩]
    let s := withOp o { pooled with ctxs := [{ id := 1, key := true, taken := [(0, 2, [0, 1])] }] }
    opOf s 9 = some o ∧ earlierDone s o = true ∧ poolOn s 1 0 = true ∧ (∀ l ∈ o.lanes, l.g1.toNat ∈ takenOf s 1 l.g0.toNat) ∧
    (∀ l ∈ o.lanes, l.g1.toNat ∉ takenOf (withOp o pooled) 1 l.g0.toNat) ∧ gang.place ≠ .ended := by decide

/-- A slot of 32 words of 32 bits, one after another, without a second base. -/
def slot (res : Nat) (base : DWord) (esz : Nat := 3) : Slot := ⟨0, esz, 1, res, false, false, [32], base, 0, [1, 2, 4, 8, 16], 0⟩

/-- Slot 4 of context 1 holds x. -/
def slotted (x : Slot) (s : State := mm) : State := { s with ctxs := [{ id := 1, key := true, slots := [(4, x)] }] }

/-- Lane 0's index stands in v0, the slot's number in OFS. -/
def elt (d : Nat := 12) (ofs : Nat := 4) : MWord := mw 0 0 d ofs

theorem witness_ldt : ∀ b ∈ [(0, 0x10000), (1, 64), (2, 3)],
    let s := slotted (slot b.1 (BitVec.ofNat 64 b.2))
    elemSlot (elt) s 0 = .ok (4, slot b.1 (BitVec.ofNat 64 b.2)) ∧ elemWaits s 1 4 false = false ∧ elemLanes elt 4 (slot b.1 (BitVec.ofNat 64 b.2)) false s = .ok [(0, 0)] ∧
      scrOwned s 1 64 4 = false := by decide
theorem witness_ldt_memory :
    let s := slotted (slot 0 0x10000)
    let u := fillPages (([(0, 0)] : List (Nat × Nat)).map fun l => (elemReq (slot 0 0x10000) l.1 l.2).va) s
    lineWaits u (distinctLines (elemReqs u (slot 0 0x10000) [(0, 0)])) = false ∧ elemReqs u (slot 0 0x10000) [(0, 0)] ≠ [] ∧
      (∀ r ∈ elemReqs u (slot 0 0x10000) [(0, 0)], r.2.bulk = false) ∧ elemReqs u (slot 0 0x10000) [] = [] := by decide
theorem witness_stt : ∀ b ∈ [(0, 0x10000, 3), (1, 64, 3), (1, 64, 0), (2, 3, 3)],
    let s := slotted (slot b.1 (BitVec.ofNat 64 b.2.1) b.2.2)
    elemSlot elt s 1 = .ok (4, slot b.1 (BitVec.ofNat 64 b.2.1) b.2.2) ∧ elemWaits s 1 4 true = false ∧
      elemLanes elt 4 (slot b.1 (BitVec.ofNat 64 b.2.1) b.2.2) true s = .ok [(0, 0)] ∧ regLocked s 1 3 = false ∧ regAwaited s 3 = false ∧ regOwned s 1 3 = false := by decide
/-- Element 0 of the slot, with the bytes stored. -/
def stored (u : State) (a : DWord) : List (LaneReq × LineReq) := (elemReqs u (slot 0 a) [(0, 0)]).map fun r =>
  ({ r.1 with bytes := (elemBytes mm.g (slot 0 a) 12 r.1.lane r.1.g0.toNat).1, mask := (elemBytes mm.g (slot 0 a) 12 r.1.lane r.1.g0.toNat).2 }, r.2)
theorem witness_stt_room :
    (let u := fillPages [0x10000] (slotted (slot 0 0x10000))
     lineWaits u (distinctLines (elemReqs u (slot 0 0x10000) [(0, 0)])) = false ∧ storeRoom (clusterOfGang u) 1 (distinctLines (stored u 0x10000)) u = some u) ∧
    (let u := fillPages [0x20000] (slotted (slot 0 0x20000) cacheStuck)
     lineWaits u (distinctLines (elemReqs u (slot 0 0x20000) [(0, 0)])) = false ∧ storeRoom (clusterOfGang u) 1 (distinctLines (stored u 0x20000)) u = none) :=
  ⟨by decide +kernel, by decide +kernel, stuck (by decide +kernel) (by decide +kernel)⟩
theorem witness_register_elements : (slot 2 3).eszc ≤ 4 ∧ tableWf zeros gang.v = true ∧ 5 < 2 ^ (slot 2 3).eltBits := by decide

/-- The descriptor of such a slot. -/
def desc (x : Slot) : List Byte := slotBytes x false

/-- A team's scratch with some bytes at 0. -/
def inScratch (bs : List Byte) (s : State := mm) : State :=
  { s with teams := [{ uid := 1, task := 1, ctx := 1, place := .running, begun := true, scr := 4096, scratch := writeBytes [] 0 bs }] }

theorem witness_lay_set :
    let s := inScratch (desc (slot 1 1024))
    let w := mw 0 192 4 0 0xFF 1
    blockFields w = true ∧ slotOperand w s = .ok 4 ∧ descAt w s = .ok (some (s, desc (slot 1 1024))) ∧ writeBusy s 1 4 = false ∧ readBusy s 1 4 = false ∧
      descOk (desc (slot 1 1024)) 16 4096 = true ∧ rankOf (descSlot (desc (slot 1 1024))).n (descSlot (desc (slot 1 1024))).cols = (descSlot (desc (slot 1 1024))).n ∧
      scrOwned s 1 0 64 = false ∧ descLen (scrRead s 1 0 64) = 104 ∧ (addrOf w s 0).toNat + 104 ≤ (myTeam s).scr := by decide +kernel
theorem witness_lay_free : slotOperand (mw 0 0 4 0 0) mm = .ok 4 ∧ (mw 0 0 4 0 0).idx = 0 ∧ modOk {} (mw 0 0 4 0 0).pre = true := by decide
theorem witness_lay_get : ∃ t, blockStore (mw 0 192 4 64 0xFF 1) (List.replicate 64 0) mm = .ok (some t) ∧ lockedScr mm 1 64 64 = none ∧ cacheTakes mm 0 0 = true := ⟨_, rfl, by decide, by decide⟩
theorem witness_lay_get_memory : ∃ t, blockStore (mw 0 130 4 0) (List.replicate 64 0) mm = .ok (some t) := ⟨_, rfl⟩
theorem witness_lay_chk : blockFields (mw 1 192 5 0 0xFF 1) = true ∧ (mw 1 192 5 0 0xFF 1).data.getLsbD 6 = false := by decide
theorem witness_lay_place : ∀ b ∈ [(0, 0x10000), (1, 64), (2, 3)],
    let s := slotted (slot b.1 (BitVec.ofNat 64 b.2))
    slotByIdx (elt) s = .ok 4 ∧ vregOk 16 true 12 = true ∧ slotOf s 1 4 = some (slot b.1 (BitVec.ofNat 64 b.2)) ∧ (slot b.1 (BitVec.ofNat 64 b.2)).rank ≤ 16 ∧
      ((slot b.1 (BitVec.ofNat 64 b.2)).res = 2 → (slot b.1 (BitVec.ofNat 64 b.2)).regFits 16 = true) ∧
      ((slot b.1 (BitVec.ofNat 64 b.2)).res = 1 → (slot b.1 (BitVec.ofNat 64 b.2)).scrFits 4096 = true) ∧ (slot 1 4000).scrFits 4096 = false ∧
      ∀ l ∈ lanesOf (active s.g), inside [32] (laneIndices s.g 0 1 l) = true := by decide
theorem witness_lay_place_beyond : (slot 2 16).res = 2 ∧ (slot 2 16).regFits 16 = false ∧ slotByIdx elt (slotted (slot 2 16)) = .ok 4 := by decide
theorem witness_lay_place_page : (checkLane (fillPages [0x10000] (slotted (slot 0 0x10000))) { r := true } 0x10000 1).toBool = true := by decide
theorem witness_slots : (mm.ctxs.any (·.id == 1)) = true := by decide

/-! ## Witnesses: engines -/

/-- A team with headrace 2 of 3 units. -/
def raced (s : State) : State := { s with teams := [{ uid := 1, task := 1, ctx := 1, place := .running, begun := true, scr := 4096, races := [⟨2, 3, [], [0, 1, 2]⟩] }] }

/-- Bank 0 of cluster 0 holds FIFO units. -/
def fifo (s : State) : State := regSet s 0x020 0 2

theorem witness_hr_bind : raceForm (mw 0 192 2 3) = true ∧ placed (fifo mm) ∧ (∀ r ∈ (myTeam (fifo mm)).races, r.num ≠ 2) ∧ 3 ≤ fifoFree (fifo mm) 0 := by decide
theorem witness_hr_free : raceForm (mw 0 192 2 0) = true ∧ (∃ r ∈ (myTeam (raced mm)).races, r.num = 2) ∧ raceBusy (raced mm) 1 2 = false ∧
    raceBusy { raced mm with mmas := [{ id := 1, gang := 1, team := 1, core := 0, form := 0, op := 1, p := { ha := 2, hb := 2 } }] } 1 2 = true := by decide
theorem witness_headrace_units : tableWf zeros ([(0, 5)] : Table 8) = true ∧ tableWf zeros ([(0, 2)] : Table 64) = true ∧ ([0, 1, 2] : List Nat)[0]? = some 0 ∧ ([0, 1, 2] : List Nat).Nodup ∧ unitKey 0 0 = 0 ∧
    get0 (unitBytes { mm with fifo := [(0, 5)], fifoCtx := [(0, 2)] } 1 0 [0]) 0 = 5 ∧ get0 (unitBytes { mm with fifo := [(0, 5)], fifoCtx := [(0, 2)] } 2 0 [0]) 0 = 0 := by decide
theorem witness_headrace_release : gangOf { mm with g := { mm.g with wait := .hrFree 2 }, obj := (1, 0) } 1 = some { mm.g with wait := .hrFree 2 } := by decide

/-- A parameter block: f64 in headrace 2 for A and for B, a tile of 32 × 32 sums of one chunk at the page of s2; for `mma.thin` i8 and i32; for `mma.q`
e4m3 and qa8. -/
def mmaBlock (form : Nat) : List Byte :=
  let c := match form with | 0 => 11 + 11 * 32 + 1024 | 1 => 1 + 32 + 2048 | _ => 15 + 19 * 32
  leBytes 8 (c + 2 * 65536 + 2 * 2 ^ 20) ++ leBytes 8 1 ++ leBytes 8 0x10000 ++ leBytes 8 256 ++ List.replicate 32 0

/-- The block in scratch, headrace 2 bound. -/
def mmaReadyState (form : Nat) : State := { mm with teams := [{ uid := 1, task := 1, ctx := 1, place := .running, begun := true, scr := 4096, scratch := writeBytes [] 0 (mmaBlock form), races := [⟨2, 3, [], [0, 1, 2]⟩] }] }

theorem witness_mma_no_lane : modOk {} (mw 0 192 0 0).pre = true ∧ baseOk (mw 0 192 0 0) = true ∧ active (none' mm).g = 0 := by decide
theorem witness_mma : mmaReady 0 0 0 0 (mw 0 192 0 0) (mmaReadyState 0) 0 (mmaBlock 0) := by decide +kernel
theorem witness_mma_thin : mmaReady 1 0 0 0 (mw 0 192 0 0) (mmaReadyState 1) 0 (mmaBlock 1) := by decide +kernel
theorem witness_mma_q : mmaReady 2 3 5 1 (mw 0 192 3 0 5 0 1) (mmaReadyState 2) 0 (mmaBlock 2) := by decide +kernel

/-- One matrix operation, accepted and computed as said. -/
def mmaAt (acc comp : Bool) (p : MParams := { fa := 1, fb := 5, act := 2, nch := 1 }) : State :=
  { mm with mmas := [{ id := 7, gang := 1, team := 1, core := 0, form := 0, op := 7, p := p, accepted := acc, computed := comp }], obj := (7, 0) }

theorem witness_mma_steps : ∀ b ∈ [(false, false), (true, false), (true, true)], ∃ m, (mmaAt b.1 b.2).mmas.find? (·.id == 7) = some m ∧ m.accepted = b.1 ∧
    m.computed = b.2 ∧ badScale (mmaAt b.1 b.2) m = none ∧ (∀ o ∈ (mmaAt b.1 b.2).mmas, o.core = m.core → m.id ≤ o.id) ∧ m.refused = [] ∧
    (∀ c ∈ (mmaAt b.1 b.2).contribs, c.mma = true → c.op ≠ m.id) ∧ gangOf (mmaAt b.1 b.2) m.gang = some mm.g := by
  intro b hb; fin_cases hb <;> exact ⟨_, rfl, by decide⟩
theorem witness_mma_window : (∀ x ∈ (mmaAt false false).mmas, x.gang = 1 ∧ x.accepted = false ∧ x.seq + x.la < ({ gang with issued := 1 } : Gang).issued ∧
    scrOwned (mmaAt false false) x.team x.blk 64 = false) ∧
    (let s : State := { mm with g := { mm.g with cl := { mm.g.cl with words := encode (.add (aw 1 2 5)) } }, mmas := [{ id := 7, gang := 1, team := 1, core := 0, form := 2, op := 7, la := 3, reads := [5] }] }
     5 ∈ (nextNames s).w ∧ ∃ x ∈ s.mmas, 5 ∈ x.reads) := by decide +kernel
theorem witness_mma_integers : (mmaAt true false).mmas.all (fun m => decide (m.p.act = 2 ∧ m.p.fa = 1 ∧ m.p.fb = 5 ∧ m.p.nch ≠ 0)) = true := by decide

/-- A merge block: EXACT f32 sums of two contributions each, one row of 32 columns at the page of s2. -/
def mergeBlock : List Byte := leBytes 8 (2 * 65536) ++ leBytes 8 0x10000 ++ leBytes 4 128 ++ leBytes 2 1 ++ leBytes 2 32 ++ leBytes 8 0 ++ List.replicate 32 0

theorem witness_acc_no_lane : blockForm (mw 0 192 0 0) = true ∧ uniAddrOk (mw 0 130 0 0) = true := by decide
theorem witness_acc_init :
    let s := inScratch mergeBlock
    objectAt (mw 0 192 0 0) s 64 7 64 = .ok 0 ∧ scrOwned s 1 0 64 = false ∧ mergeBlockOk (scrRead s 1 0 64) = true ∧
      entryLines 0x10000 128 1 32 4 = [0x10000] ∧ checkAccPages s ([(0x10000, 128)] ++ []) = .ok () ∧ storesOut (fillPages [0x10000] s) = false ∧
      (match lineReq (fillPages [0x10000] s) 0 1 0x10000 with | some l => !homeMoves (fillPages [0x10000] s) l.1.dom l.1.line && !refusedLine (fillPages [0x10000] s) 1 l.1.line | none => false) = true := by decide

/-- The entry's line, at slice 5. -/
def mergeLine (granted : Bool) : LineReq := { line := 2560, va := 512, bulk := false, cls := 2, dm := false, dom := 0, granted := granted }

/-- An entry of that block, at slice 5. -/
def entry : Merge :=
  { id := 8, gang := 1, ctx := 1, caddr := 0x10000, etype := 0, mode := 0, init := false, nc := 2, donea := 0, lines := [mergeLine false],
    homes := [(2560, 5)], replies := [], waiting := [5] }
def merging (e : Merge) : State := { mm with merges := [e], obj := (8, 0), nextId := 20 }
/-- The entry, open. -/
def opened (count : Nat) : Merge :=
  { entry with waiting := [], isOpen := true, replies := [(2560, none)], lines := [mergeLine true]
               elems := (List.range 32).map fun i => { pa := 327680 + 4 * i, count := count } }

theorem witness_acc_init_slice : mergeOf (merging entry) 8 = some entry ∧ (5 : Nat) ∈ entry.waiting ∧ homeOf (merging entry) 0 2560 = 5 ∧ elemBuffer entry * 32 ≤ 2 ^ 20 ∧
    engineOwned (merging entry) 2560 = false ∧ sliceOf (merging entry) 0 2560 = 5 := by decide
theorem witness_acc_init_refused :
    ((({ merging entry with merges := [entry, { opened 0 with id := 9 }] } : State).merges.any fun o => o.id != 8 && o.lines.any fun k => k.line == 2560 && k.granted)) = true := by decide
theorem witness_acc_behind : (∀ e ∈ [entry, { opened 0 with dropping := true, waiting := [5] }], ({ e with sentAt := 15 } : Merge).behind
      { merging { e with sentAt := 15 } with contribs := [{ id := 30, op := 7, mma := true, line := 2560, ctx := 1, width := 4, act := some 0, split := [0], t := 0, elems := [], sentAt := 11 }] } 5 = true) ∧
    entry.behind (merging entry) 5 = false ∧ ({ opened 0 with dropping := true, waiting := [5] } : Merge).behind (merging { opened 0 with dropping := true, waiting := [5] }) 5 = false ∧ storedLine 2560 = false := by decide
theorem witness_acc_init_moved : homeOf (merging { entry with homes := [(2560, 6)], waiting := [6] }) 0 2560 ≠ 6 ∧
    ({ entry with homes := [(2560, 6)], waiting := [6] } : Merge).home (mergeLine false) = 6 ∧ refusedLine (merging entry) 1 2560 = false ∧
    collectable (merging entry) 0 1 2560 = true := by decide
theorem witness_acc_init_full : bufferAt { opened 0 with mode := 1, nc := 8191 } 5 = 2 ^ 20 ∧ 1 * (128 / etypeSize entry.etype) * elemBuffer entry = 1536 := by decide
theorem witness_acc_drop_slice : mergeOf (merging { opened 0 with dropping := true, waiting := [5] }) 8 = some { opened 0 with dropping := true, waiting := [5] } := by decide
theorem witness_acc_init_reply : { entry with waiting := [], replies := [(2560, none)] }.isOpen = false ∧ { entry with waiting := [], replies := [(2560, none)] }.events = [] ∧
    (∀ r ∈ { entry with waiting := [], replies := [(2560, none)] }.replies, r.2 = none) := by decide
theorem witness_acc_init_denied : let e := { entry with waiting := [], replies := [(2560, some .mergeSpace)] }
    mergeOf (merging e) 8 = some e ∧ e.events = [] ∧ mergeLine false ∈ e.lines ∧ refusalOf e (mergeLine false) = some .mergeSpace ∧ (∀ k ∈ e.lines, k = mergeLine false) ∧ gangOf (merging e) 1 = some mm.g := by decide
theorem witness_acc_drop : (checkLanes mm { w := true } 1 1 [(lowest (active mm.g), addrOf (mw 0 130 0 0) mm 0)]).toBool = true ∧ uniAddrOk (mw 0 130 0 0) = true ∧
    mm.merges.find? (fun m => m.isOpen && !m.dropping && m.ctx == 1 && m.caddr == 0x10000) = none ∧
    (merging (opened 0)).merges.find? (fun m => m.isOpen && !m.dropping && m.ctx == 1 && m.caddr == 0x10000) = some (opened 0) := by decide

/-- A contribution of 1.0 to the entry's first element. -/
def contrib (arrived : Bool) : ContribReq :=
  { id := 30, op := 7, mma := true, line := 2560, ctx := 1, width := 4, act := some 0, split := [0], t := 0, elems := [⟨0, 327680, 0x10000, 0x3F800000⟩], arrived := arrived }
def contributing (ms : List Merge) (arrived : Bool) : State := { mmaAt true true with merges := ms, contribs := [contrib arrived], obj := (30, 0) }

theorem witness_contribution : (contributing [] false).contribs.find? (·.id == 30) = some (contrib false) ∧
    (contributing [opened 0] false).merges.find? (fun m => m.lines.any fun l => l.line == 2560 && l.granted) = some (opened 0) ∧
    mergeOf (contributing [opened 0] false) 8 = some (opened 0) ∧ (opened 0).elems.find? (·.pa == 327680) = some { pa := 327680 } ∧
    refuse (opened 0) { pa := 327680 } (contrib false) 0 = none ∧ ({ pa := 327680 } : MergeElem).count + 1 < (opened 0).nc ∧ 2560 ∉ (opened 0).written := by decide
theorem witness_contribution_first : (contrib false).came = false ∧ behindAt (contributing [opened 0] false) 0 (5, false) 0 = false ∧ homeOf (contributing [opened 0] false) 0 2560 = 5 ∧
    (contributing [opened 0] false).obj.1 ≠ 0 ∧ (∀ x ∈ (contributing [{ opened 0 with isOpen := false }] false).merges, x.isOpen = false ∧ ∃ l ∈ x.lines, l.line = 2560 ∧ l.granted = true) := by decide
theorem witness_finish : (opened 2).elems.any (·.pa / 128 == 2560) = true ∧ (∀ e ∈ (opened 2).elems, e.pa / 128 = 2560 → (opened 2).nc ≤ e.count) ∧
    ((opened 2).elems.filter (·.pa / 128 == 2560)).map (·.pa) = (List.range 32).map (fun i => 128 * 2560 + 4 * i) ∧ tableWf zeros mm.mem = true := by decide
theorem witness_contribution_reply : (contributing [] true).contribs.find? (·.id == 30) = some (contrib true) ∧
    ((contributing [] true).mmas.find? (·.id == 7)).isSome = true ∧
    opOf (withOp { poolOp .stAcc [] with id := 7 } mm) 7 = some { poolOp .stAcc [] with id := 7 } := by decide
theorem witness_contribution_refused :
    let q : ContribReq := { contrib true with mma := false, refused := [(3, 0x10000, .mergeAbsent)] }
    let o : Op := { poolOp .stAcc [] with id := 7 }
    let s : State := { mm with ops := [o], contribs := [q], obj := (30, 0) }
    s.contribs.find? (·.id == 30) = some q ∧ q.arrived = true ∧ opOf s 7 = some o ∧ (s.contribs.filter (·.id != 30)).any (fun c => c.op == 7 && c.mma == false) = false ∧
      (∀ r ∈ o.refused ++ q.refused, r = (3, 0x10000, .mergeAbsent)) ∧ gangOf s 1 = some mm.g ∧ mm.g.place ≠ .ended := by decide
/-! ## Witnesses: cisterns, relays, barriers, messages, canals, laterals -/

theorem witness_cistern_fields : cisFields (mw 0 192 4 16 0xC4) = true ∧ (idxNum (mw 0 192 4 16 0xC4) mm).isSome = true ∧ isS (mw 0 192 0 16 0x81).idx.toNat = true ∧
    objectAt (mw 0 192 4 16 0xC4) mm 16 = .ok 16 ∧ scrOwned mm 1 16 16 = false ∧ placed mm := by decide
theorem witness_cistern : cisAmount (mw 0 192 4 16 0xC4) mm = .ok 4 ∧ (readCis mm 1 16).ovf = false ∧ ((readCis mm 1 16).arm 4 true).isSome = true ∧
    ((readCis mm 1 16).arm 0 false).isSome = true ∧ (readCis mm 1 16).armed = false ∧ (readCis mm 1 16).phase = 0 ∧
    (readCis mm 1 16).phase ≠ (sGet mm.g 1).toNat % 2 ^ 16 ∧ (readCis mm 1 16).phase = (sGet mm.g 0).toNat % 2 ^ 16 := by decide
theorem witness_cistern_armed : (cisOf (leBytes 16 (2 ^ 40 + 5))).armed = true ∧ (cisOf (leBytes 16 (2 ^ 40 + 5))).ovf = false ∧
    (cisOf (leBytes 16 (2 ^ 40 + 5))).count = 5 ∧ cisRange (cisOf (leBytes 16 (2 ^ 40 + 5))) ∧ scratchWf mm := by decide

/-- A slot with two bases in scratch. -/
def pingPong : Slot := ⟨0, 3, 1, 1, false, true, [32], 1024, 2048, [1, 2, 4, 8, 16], 0⟩

/-- A relay's block at scratch offset 0; slot 4 has two bases, slot 5 another place. -/
def relayState (bs : List Byte) : State :=
  { inScratch bs with ctxs := [{ id := 1, key := true, slots := [(4, pingPong), (5, slot 1 512), (6, slot 1 1024)] }] }
/-- The block of `relay.mv` that exchanges the two low index bits of slot 4. -/
def mvBlock : List Byte := leBytes 8 4 ++ List.replicate 56 0 ++ [2, 1, 4, 8, 16].flatMap (leBytes 8)
/-- The block that copies slot 6 into slot 5. -/
def cpBlock : List Byte := leBytes 8 (6 + 5 * 256) ++ List.replicate 56 0
/-- The block that gathers rows of slot 6 into slot 5, its table at scratch offset 256. -/
def gxBlock : List Byte := leBytes 8 (6 + 5 * 256 + 2 ^ 17) ++ leBytes 8 0 ++ leBytes 8 256 ++ List.replicate 40 0

def relayWord : MWord := mw 0 192 6 0 0xFF 1

theorem witness_relay_fields : blockFields relayWord = true ∧ relayWord.data.getLsbD 6 = false ∧ storesOut (relayState mvBlock) = false := by decide
theorem witness_relay_mv : ∃ t bs evs r, blockAt relayWord (64 + 8 * (((slotOf (relayState mvBlock) 1 4).map Slot.n).getD 0)) (relayState mvBlock) = .ok (some (t, bs, evs)) ∧
    checkMv relayWord bs (relayState mvBlock) = .ok r ∧ r.passes = [[2, 1, 4, 8, 16]] := ⟨_, _, _, _, rfl, rfl, by decide +kernel⟩
theorem witness_relay_awaits : ∃ r, checkMv relayWord mvBlock (relayState mvBlock) = .ok r ∧ (!relayAwaits (relayState mvBlock) r) = true := ok_of _ (by decide +kernel)
/-- The same slot in the gang's registers, which a load has yet to write. -/
def awaiting : State := { relayState cpBlock with ctxs := [{ id := 1, key := true, slots := [(5, slot 2 3), (6, slot 1 1024)] }], ops := [{ poolOp .load [] with dst := 3, w := 2, wr := true }] }
theorem witness_relay_awaited : ∃ r, checkCopy false relayWord cpBlock awaiting = .ok r ∧ relayAwaits awaiting r = true := ok_of (relayAwaits awaiting) (by decide +kernel)
theorem witness_relay_cp : ∃ r, checkCopy false relayWord cpBlock (relayState cpBlock) = .ok r ∧ r.src = 6 ∧ r.dst = 5 := ⟨_, rfl, rfl, rfl⟩
theorem witness_relay_gx : ∃ r, checkCopy true relayWord gxBlock (relayState gxBlock) = .ok r ∧ r.tscr = true := ⟨_, rfl, rfl⟩
theorem witness_relay_block : (addrOf relayWord (relayState cpBlock) 0).toNat % 64 = 0 ∧ (addrOf relayWord (relayState cpBlock) 0).toNat + 64 ≤ (myTeam (relayState cpBlock)).scr ∧
    blockAt relayWord 64 (relayState cpBlock) = .ok (some (relayState cpBlock, cpBlock, [])) := ⟨by decide, by decide, rfl⟩
/-- The block of `relay.mv` that moves nothing: the identity. -/
def idBlock : List Byte := leBytes 8 4 ++ List.replicate 56 0 ++ [1, 2, 4, 8, 16].flatMap (leBytes 8)
theorem witness_relay_no_pass : (relayState idBlock).relays.length < 64 ∧ ∃ r, checkMv relayWord idBlock (relayState idBlock) = .ok r ∧ r.passes.isEmpty = true :=
  ⟨by decide, ok_of _ (by decide +kernel)⟩
theorem witness_relay_wait :
    let s := fun (l : List Nat) => { atClk (65536 * 100 + 3) mm with teams := [{ uid := 1, task := 1, ctx := 1, place := .running, begun := true, outst := l }] }
    modOk {} (mw 0 129 0 0 0).pre = true ∧ isS (mw 0 129 0 0 0).base.toNat = true ∧ ticketDone (myTeam (s [])) (sGet (s []).g 1) = true ∧
      ticketDone (myTeam (s [3])) (sGet (s [3]).g 1) = false := by decide

/-- A relay of the gang on those slots. -/
def relay (k : RelayKind) (acc : Bool) (sector : Nat) (passes : List (List Nat)) : Relay :=
  { id := 9, gang := 1, team := 1, ctx := 1, kind := k, op := 10, src := if k = .mv then 4 else 6, dst := if k = .mv then 4 else 5, passes := passes, accepted := acc,
    sector := sector, tscr := k == .gx, tbl := 256 }
def relaying (r : Relay) : State := { relayState [] with relays := [r], obj := (9, 0) }

theorem witness_relay_accept : relayOf (relaying (relay .mv false 0 [[2, 1, 4, 8, 16]])) 9 = some (relay .mv false 0 [[2, 1, 4, 8, 16]]) ∧
    relayClash (relaying (relay .mv false 0 [[2, 1, 4, 8, 16]])) (relay .mv false 0 [[2, 1, 4, 8, 16]]) = false ∧
    relayClash { relaying (relay .mv false 0 [[2, 1, 4, 8, 16]]) with relays := [relay .mv false 0 [[2, 1, 4, 8, 16]], { relay .mv true 0 [] with id := 11 }] }
      (relay .mv false 0 [[2, 1, 4, 8, 16]]) = true ∧ (teamOf (relayState []) 1).outst.length < 65536 ∧ gangOf (relayState []) 1 = some mm.g ∧ tableWf zeros mm.g.s = true := by decide +kernel
theorem witness_relay_lines : (∀ q ∈ destLines (relaying (relay .cp false 0 [[]])) (relay .cp false 0 [[]]), storedLine q.line = false ∧ engineReads mm 0 1 q = true) ∧
    (let s := { slotted (slot 0 0x10000) (deniedAt mm) with relays := [{ relay .cp false 0 [[]] with dst := 4 }], obj := (9, 0) }
     ∃ q ∈ destLines s { relay .cp false 0 [[]] with dst := 4 }, engineReads s 0 1 q = false) ∧ (relayState []).teams.any (·.uid == 1) = true := by decide +kernel
theorem witness_relay_land : ∀ k ∈ [RelayKind.mv, .cp, .gx],
    let r := relay k true 3 [[2, 1, 4, 8, 16]]
    slotOf (relaying r) 1 r.dst = some (if k = .mv then pingPong else slot 1 512) ∧ 32 * r.sector < pingPong.foot ∧
      engineMay (relaying r) r [] = true ∧ tableVas r (slot 1 512) [] [0] = [] := by decide +kernel
theorem witness_relay_pass : pingPong.foot ≤ 32 * (relay .mv true 4 [[2, 1, 4, 8, 16]]).sector ∧ slotOf (relaying (relay .mv true 4 [])) 1 4 = some pingPong := by decide
theorem witness_relay_done : relayOf (relaying (relay .mv true 0 [])) 9 = some (relay .mv true 0 []) ∧ (relay .mv true 0 []).events = [] := by decide

/-- A barrier object of n gangs at scratch offset 32. -/
def barState (n arrv : Nat) : State := { mm with teams := [{ uid := 1, task := 1, ctx := 1, place := .running, begun := true, scr := 4096, scratch := writeBytes [] 32 (leBytes 32 (n + arrv * 2 ^ 64)), cohorts := [(2, false)] }]
                                                 tasks := mm.tasks.map fun k => { k with cba := 0x10000 } }

theorem witness_bar_init : idxNum (mw 0 192 0 32 0xC4) mm = some 4 ∧ objectAt (mw 0 192 0 32 0xC4) mm 32 = .ok 32 ∧
    (∀ x ∈ gangsOf mm 1, ∀ p, x.wait = .barrier 32 p → x.wake ≠ none) ∧ scrOwned mm 1 32 32 = false ∧ lockedScr mm 1 32 32 = none := by
  refine ⟨rfl, rfl, ?_, rfl, rfl⟩
  intro x hx p hp; have : x = mm.g := by simpa [gangsOf, allGangs, mm, m, gang, State.reset] using hx
  subst this; exact absurd hp (by simp [mm, m, gang])
theorem witness_bar_arrive : ∀ n ∈ [1, 2], objectAt (mw 0 192 4 32) (barState n 0) 32 = .ok 32 ∧ mayArrive (barState n 0) 32 ∧
    (readBar (barState n 0) 1 32).invalid = false ∧ (readBar (barState n 0) 1 32).exp = n ∧ (readBar (barState n 0) 1 32).arrv = 0 ∧ (readBar (barState n 0) 1 32).drop = 0 ∧
    popc ((readBar (barState n 0) 1 32).arrv ||| (1#32 <<< (barState n 0).g.num)) = 1 ∧ (∀ l ∈ (barState n 0).laterals, l.pub ≠ 1) := by decide +kernel
theorem witness_bar_fields : barFields (mw 0 192 4 32) 0 = true ∧ barFields (mw 1 192 0x40 32) 1 = true ∧ barRange (barOf (leBytes 32 4)) ∧
    (readBar (barState 2 0) 1 32).ndrop ≤ (readBar (barState 2 0) 1 32).exp := by decide +kernel
theorem witness_bar_c : idxNum (mw 0 192 4 32 0xC2) (barState 2 0) = some 2 ∧ (2, false) ∈ (myTeam (barState 2 0)).cohorts ∧ (2, true) ∉ (myTeam (barState 2 0)).cohorts ∧
    (myTask (barState 2 0)).cba ≠ 0 ∧ (myTeam (barState 2 0)).msgr = false := by decide

/-- A team's arrival on its way to its cohort's entry, which expects n. -/
def cohortState (n : Nat) : State :=
  inSlice { mm with tasks := mm.tasks.map (fun k => { k with cba := 0x10000 }), cohorts := [⟨1, 1, 0, 32, 7, false, false, none⟩], obj := (1, 32), mem := writeBytes [] 327680 (leBytes 4 n) }
theorem witness_cohort_arrival : ∀ n ∈ [0, 1, 2],
    (match (flushTeam 1 (cohortState n)).bind (sliceAtomic 0 1 0x10000 32 7 (entryNew ⟨1, 1, 0, 32, 7, false, false, none⟩)) with
      | some (_, v) => v == n | none => false) = true := by decide +kernel
theorem witness_slice_atomic : ∃ r pa, lineReq (cohortState 2) 0 1 0x10000 = some (r, pa) ∧ (lineFree (cohortState 2) r && Machine.holds (cohortState 2) r && decide (pa % 128 + 32 ≤ 128)) = true :=
  ⟨_, _, rfl, by decide +kernel⟩
theorem witness_cohort_entry : (entryArrive 1 7 false).2 = some 7 ∧ (entryArrive 2 7 true).2 = none := by decide
theorem witness_cohort_delivery : ((⟨1, 1, 0, 32, 7, false, true, some 7⟩ : CohortArr).complete).isSome = true ∧ (mm.teams.any (·.uid == 1)) = true := by decide

/-- Messages of the context are on; s1 names core 0, s2 a clause; 8 bytes of v2 and v3. -/
def mailed (ps : List Post) : State := { regSet mm 0x017 1 0x80000000 with g := { mm.g with s := [(2, 0x10000), (4, 0x100000000000)] }, posts := ps, obj := (0, 0), nextId := 30 }
def msg (send : Bool) : Msg :=
  { send := send, core := 0, team := 0, ctx := 1, task := 1, op := 0, target := 0, ctl := if send then 0x10000 else 0xFFFF00000040, gts := 5, bytes := [1, 2, 3, 4, 5, 6, 7, 8] }

theorem witness_message : vregOk 16 true 2 = true ∧ sendOk (mailed []) (sGet (mailed []).g 1) (sGet (mailed []).g 2) 8 ∧
    payOk (mailed []) (sGet (mailed []).g 1) 0xFFFF00000040 8 ∧ postsOk (mailed []) ∧ (postOf (mailed []) 0).unsent.length < 16 := by decide
theorem witness_message_send : (postOf (mailed [⟨0, [msg true], [], []⟩]) 0).unsent.find? (mayGo (mailed [⟨0, [msg true], [], []⟩])) = some (msg true) ∧
    postsOk (mailed [⟨0, [msg true], [], []⟩]) := by decide
theorem witness_peer_accept : (postOf (mailed [⟨0, [], [{ msg true with target := 0x8000 }], []⟩]) 0).sent.find? Msg.far = some { msg true with target := 0x8000 } := by decide
theorem witness_inbox_accept : ∀ b ∈ [true, false],
    ((postOf (mailed [⟨0, [], [msg b], []⟩]) 0).sent.filter fun m => !m.far).find? (goalOpen (mailed [⟨0, [], [msg b], []⟩])) = some (msg b) ∧
    (payTeam (mailed []) (msg b)).isSome = true := by decide
theorem witness_inbox_behind :
    let s := mailed [⟨0, [], [msg false], []⟩, ⟨7, [], [], [msg false]⟩]
    ((postOf s 0).sent.filter fun m => !m.far).find? (goalOpen s) = some (msg false) ∧ (payTeam s (msg false)).isSome = true ∧ (postOf s 7).inbox = [msg false] ∧
      (s.posts.all fun p => p.core == 7 || p.inbox.isEmpty) = true := by decide
theorem witness_inbox_held :
    let s := mailed [⟨0, [], [msg false], []⟩, ⟨heldPost, [], [], [msg false]⟩]
    ((postOf s 0).sent.filter fun m => !m.far).find? (goalOpen s) = some (msg false) ∧ (payTeam s (msg false)).isSome = true ∧
      (s.posts.all fun p => p.core == heldPost || p.inbox.isEmpty) = true := by decide
theorem witness_peer_message : (regGet (regSet mm 0x050 0 0x8200000000000000) 0x050 0).getLsbD 63 = true ∧ (regGet mm 0x050 0).getLsbD 63 = false := by decide
theorem witness_peer_payload :
    let s := regSet { mm with tasks := mm.tasks.map fun k => { k with taskid := 77 } } 0x051 0 77
    ((s.tasks.find? fun k => k.taskid == regGet s 0x051 0 && k.stage == .running).map (·.id)) = some 1 ∧ ((payTeam s (msg false)).map (·.place)) = some .running ∧
      (postOf s heldPost).inbox = [] := by decide
/-- A team that a migration offer has drawn and that no core has begun. -/
def drawn : State := { mailed [] with teams := [{ uid := 1, task := 1, ctx := 1, place := .moving, begun := false, scr := 4096 }] }
theorem witness_payload_held : payTeam drawn (msg false) = none ∧ notPlaced drawn (msg false) = true ∧ notPlaced (mailed []) { msg false with target := 5 } = false ∧
    (∀ x, payTeam { mailed [] with teams := [{ uid := 1, task := 1, ctx := 1, place := .saved, begun := true }] } (msg false) = some x → x.place ≠ .running) := by decide
theorem witness_payload : payTeam (mailed [⟨0, [], [], [msg false]⟩]) (msg false) = (mm.teams.head?) ∧
    (∃ u, deliver (myTeam mm) (msg false) mm = some u) ∧ lockedScr mm 1 64 8 = none ∧ payTeam (mailed []) { msg false with target := 5 } = none := ⟨by decide, ⟨_, rfl⟩, by decide, by decide⟩
theorem witness_payload_race : (teamOf (raced mm) 1).races.find? (·.num == 2) = some ⟨2, 3, [], [0, 1, 2]⟩ ∧ lockedRace (raced mm) 1 2 0 32 = false := by decide
theorem witness_handler :
    let s := { mailed [⟨0, [], [], [msg true]⟩] with sysregs := (setRuns 0 (some 1) (regSet (regSet mm 0x017 1 0x80000000) 0x020 0 1)).sysregs }
    (postOf s 0).inbox = [msg true] ∧ (∀ g ∈ handlers s 0, g.quarter ≠ 0) ∧ runs s 0 = some 1 ∧ (mpc s 1).testBit 31 = true ∧ 256 * (mpc s 1 % 32) ≤ scrFree s 0 ∧
      (∀ p ∈ s.gangs, p.gid ≠ s.nextId) ∧ s.g.gid ≠ s.nextId ∧ (∀ t ∈ s.teams, t.uid ≠ s.nextId) ∧ (taskOf s 1).stage ≠ .ended ∧ (taskOf s 1).stage ≠ .done := by decide

/-- Canal 3 of context 1: 4 slots of 32 bytes at the page of s3, free ones from TAIL. -/
def canal (free tail head : Nat) (st : Table 2) : State :=
  { setCns 3 free tail head (regSet (regSet mm 0x024 3 0x20000) 0x025 3 0x8200000100000004) with canals := st }

theorem witness_canal : (∀ wc ∈ [0, 1], canalMay (mw wc 192 4 3) wc (canal 4 0 0 []) 3) ∧ canalLegal (canal 4 0 0 []) 3 ∧ canalLegal (canal 0 0 0 []) 3 ∧
    cnlFree (canal 0 0 0 []) 3 = 0 ∧ cnlFree (canal 4 0 0 []) 3 ≠ 0 := by decide
theorem witness_canal_take : slotState (canal 3 1 0 [(6144, 2)]) 3 (cnlHead (canal 3 1 0 [(6144, 2)]) 3) = 2 ∧ slotState (canal 4 0 0 []) 3 (cnlHead (canal 4 0 0 []) 3) ≠ 2 := by decide
theorem witness_canal_slots : ∀ st ∈ [1, 3], slotNamed (canal 3 1 0 [(6144, st)]) 3 0x20000 = some 0 ∧ slotState (canal 3 1 0 [(6144, st)]) 3 0 = st.toNat := by decide
theorem witness_canal_waiter :
    let x : Gang := { gang with gid := 2, wait := .canal 3 4 }
    let s := { canal 3 1 0 [(6144, 1)] with gangs := [x], takers := [(3, 2)] }
    gangOf s 2 = some x ∧ cnlHead s 3 = 0 ∧ x.wake = none ∧ tableWf zeros x.s = true ∧ canalNow s 3 + 1 < 2 ^ 64 ∧ s.takers = [(3, 2)] := by decide
theorem witness_canal_enable : cnlOn mm 3 = false ∧ canonical (cnlBase mm 3) = true ∧ tableWf regReset mm.sysregs = true ∧ (0x8200000100000004 : DWord).getLsbD 63 = true := by decide

/-- Two teams of a launch of two, both in cohort 2. -/
def pair : State :=
  { m with teams := [{ uid := 1, task := 1, ctx := 1, place := .running, begun := true, scr := 4096, scratch := writeBytes [] 0 (leBytes 4 0 ++ leBytes 4 1 ++ leBytes 4 0 ++ leBytes 4 64 ++ leBytes 4 32 ++ leBytes 4 2) },
                     { uid := 2, task := 1, ctx := 1, idx := 1, place := .running, begun := true, scr := 4096 }]
           tasks := m.tasks.map fun k => { k with gx := 2, cohorts := [(2, [0, 1])] } }
def lateral (batch : Option Batch) (closed : List Batch) : Lateral := ⟨2 ^ 32 + 5, 1, 1, 2, 0, 64, 32, batch, closed⟩
def batch : Batch := ⟨0, [(3, 0x1AB)], 0, 0⟩

theorem witness_lat_sub : objectAt (mw 0 192 4 0) pair 32 = .ok 0 ∧ scrOwned pair 1 0 32 = false ∧ subBlockOk pair (scrRead pair 1 0 32) = true := by decide +kernel
theorem witness_lat_sub_reply : (teamAt pair 1 0).isSome = true ∧ (teamAt pair 1 1).isSome = true ∧ (∀ p, teamAt pair 1 0 = some p → tableLoad pair p < 16) ∧
    ({ gang with wait := .reply 1 } : Gang).wait ≠ .none := by
  refine ⟨by decide, by decide, ?_, by decide⟩; intro p h; simp [tableLoad, pair, m, State.reset]
theorem witness_lat_sub_full : ∀ p, teamAt { pair with laterals := List.replicate 16 (lateral none []) } 1 0 = some p →
    16 ≤ tableLoad { pair with laterals := List.replicate 16 (lateral none []) } p := by
  intro p h; cases h; decide
theorem witness_lat_batches :
    let s := fun (c : Nat) => { pair with laterals := [lateral (some batch) [batch]], clk := c, obj := (2 ^ 32 + 5, 0) }
    (s 0).laterals.find? (·.handle == 2 ^ 32 + 5) = some (lateral (some batch) [batch]) ∧ batch.opened + 64 ≤ (s 64).clk ∧ (s 63).clk < batch.opened + 64 ∧
      batchLocked (s 0) (lateral (some batch) [batch]) batch = false ∧ tableWf zeros batch.bytes = true := by decide
theorem witness_lat_behind :
    let l := lateral none [{ batch with no := 3 }]
    let s := { pair with laterals := [l, { l with handle := 2 ^ 32 + 6, closed := [{ batch with no := 2 }] }] }
    (pairBatches s l).any (fun e => decide (e.2.no < 3)) = true ∧ (pairBatches { pair with laterals := [l] } l).any (fun e => decide (e.2.no < 3)) = false := by decide
theorem witness_lat_write : (0 : Nat) ≤ 31 ∧ 31 < (lateral none []).po + (lateral none []).len ∧ (lateral none []).batch = none := by decide
theorem witness_lat_end :
    let s := { pair with laterals := [lateral (some batch) []], g := { pair.g with s := [(4, 5)] } }
    ∃ l' u, s.laterals.find? (·.handle == 2 ^ 32 + 5) = some (lateral (some batch) []) ∧
      (closeBatch (lateral (some batch) []) s).laterals.find? (·.handle == 2 ^ 32 + 5) = some l' ∧ flushEntry (closeBatch (lateral (some batch) []) s) l' = some u :=
  ⟨_, _, rfl, rfl, rfl⟩

/-! ## Witnesses: the SYS class -/

/-- The context was created with the supervisor flag. -/
def super (s : State) : State := { s with ctxs := s.ctxs.map fun c => { c with sup := true } }

/-- `sysrd` (w 0), `syswr` (w 1) of register n, instance by inline constant. -/
def sysWord (w n i : Nat) : MWord := mw w 192 2 n (192 + i)

theorem witness_sysrd : ∀ n ∈ [0x000, 0x003, 0x012, 0x025, 0x043], sysFields (sysWord 0 n 0) 0 = true ∧ instanceOk (regNum (sysWord 0 n 0)) (regInst (sysWord 0 n 0) (super mm)) = true ∧
    supervisor (super mm) = true ∧ registerWaits n (super mm) = false := by decide
theorem witness_sysrd_task : taskReads mm (regNum (sysWord 0 0x012 1)) (regInst (sysWord 0 0x012 1) mm) = true ∧ taskReads mm 0x012 0 = false := by decide
theorem witness_syswr : ∀ n ∈ [0x001, 0x003, 0x004, 0x012], sysFields (sysWord 1 n 0) 1 = true ∧ instanceOk n (regInst (sysWord 1 n 0) (super mm)) = true ∧
    clauseAddr (sGet (super mm).g 2) = true ∧ taskWrites mm 1 = true := by decide
theorem witness_privileged : supervisor mm = false ∧ taskWrites mm (regNum (sysWord 1 0x012 1)) = false ∧ statusFields (mw 0 129 4 0x100) 0 = true ∧
    statusFields (mw 1 129 4 0 130) 1 = true ∧ statusFields (mw 2 129 4 0) 2 = true ∧ budgetFields (mw 0 192 4 0 129) 0 = true ∧ budgetFields (mw 1 192 4 0) 1 = true := by decide

/-! ## Witnesses: traps -/

/-- The gang in its handler, or at trap priority in it. -/
def inHandler (te : Nat) : State :=
  { m with g := { gang with prio := true, inH := true, k := [(1, all)], kept := { gang.cl with x := 3 }, area := { dw0 := .ofNat 64 (0x40 + te + 3 * 2 ^ 24), dw1 := 0, dw2 := 0x1000, dw3 := 0xF }
                            cl := { gang.cl with hdr := 0x0016000F } } }

theorem witness_trap_entry : mayTrap (handled m) ∧ (handled m).g.cl.x < 16 := by decide
theorem witness_trap_ends_task : placed (inHandler 0) ∧ underWay (inHandler 0) 1 ∧ (inHandler 0).g.prio = true ∧ m.g.prio = false ∧ regGet m 0x012 1 = 0 ∧ underWay m 1 := by decide
theorem witness_tret : mayExit (inHandler 0) 0 = true ∧ (mw 0 192 0 0).nxt = 0 ∧ active (inHandler 0).g ≠ 0 ∧ (inHandler 0).g.area.dw0.getLsbD 7 = false ∧
    (inHandler 128).g.area.dw0.getLsbD 7 = true ∧ underWay (inHandler 128) 1 := by decide
theorem witness_tret_exit : hdrExk (inHandler 0).g.cl.hdr = 4 ∨ hdrExk (inHandler 0).g.cl.hdr = 5 ∨ hdrExk ({ (inHandler 0).g.cl with hdr := 0x0003000F } : ClauseState).hdr = 6 := by decide
theorem witness_trec : (mw 0 192 8 0).data.toNat % 4 = 0 ∧ tableWf zeros (inHandler 0).g.s = true ∧
    ((0 : DWord) + (mw 0 192 8 32).ofs.signExtend 64).toNat ≤ 32 := by decide

theorem witness_bank : statusFields (mw 0 129 4 0x101) 0 = true ∧ (mw 0 129 4 0x101).ofs.toNat = 1 + 256 * 1 ∧ (sGet (super mm).g 0).toNat < 1024 ∧
    (∀ x ∈ (super mm).banks, x.cluster ≠ 0 ∨ x.bank ≠ 1) ∧ bankStatus (super mm) 0 1 1 = 0 ∧ bankMode (super mm) 0 1 = 0 ∧
    bankMode (regSet (super mm) 0x020 0 8) 0 1 ≠ 0 ∧ bankStatus (regSet (super mm) 0x020 0 8) 0 1 1 = 0 ∧
    bankStatus (regSet (super mm) 0x020 0 (.ofNat 64 (0x5555555555555555 % 2 ^ 56))) 0 28 1 = 1 := by decide +kernel
theorem witness_key : (∃ x ∈ (super mm).ctxs, x.id = 1) ∧ (ctxOf (super mm) 1).key = true ∧ (ctxOf (super m) 1).key = false ∧ (∀ x ∈ (super mm).ctxs, x.id ≠ 0) ∧
    (∀ d ∈ (super mm).keyDels, d.ctx ≠ 1) := by decide
theorem witness_budget : budgetFields (mw 1 192 4 0) 1 = true ∧ budgetCtx (mw 1 192 4 0) mm = 1 ∧ budgetFields (mw 0 192 4 0) 0 = true := by decide

/-- Queue 0 is fed by `launch` in context 1, with one slot; it holds n records. -/
def fed (n : Nat) : State := regSet (regSet (super mm) 0x043 0 0x8300000000000000) 0x044 0 (.ofNat 64 (n * 2 ^ 32))

theorem witness_launch : qDev (fed 0) 0 = true ∧ qCtx (fed 0) 0 = 1 ∧ qOn (fed 0) 0 = true ∧ ahead (qTail (fed 0) 0) (qHead (fed 0) 0) < qSlots (fed 0) 0 ∧
    qSlots (fed 1) 0 ≤ ahead (qTail (fed 1) 0) (qHead (fed 1) 0) ∧ checkBlock (fed 0) { r := true } 0 0x10000 1024 = .ok () ∧
    qOn (regSet (fed 0) 0x043 0 0x0300000000000000) 0 = false ∧ tableWf regReset (fed 0).sysregs = true := by decide +kernel
theorem witness_launch_block : ∃ r, readBlock 0x10000 1024 (fed 0) = some r := ⟨_, rfl⟩
/-- Core 0 runs context 1, whose save area is one page. -/
def running (s : State) : State := regSet (setRuns 0 (some 1) s) 0x016 1 1

theorem witness_ctx_save : saveStatus (running (super mm)) 0 = 0 ∧ saveStatus (regSet (super mm) 0x022 0 (.ofNat 64 (2 ^ 35))) 0 ≠ 0 ∧ (sGet (super mm).g 0).toNat = (myTeam (super mm)).core ∧
    (sGet (running (super mm)).g 1).toNat ≠ (myTeam (running (super mm))).core ∧ (∃ u, takeExit 0 { super mm with g := sSet (super mm).g 4 0 } = .ok u) := ⟨by decide, by decide, by decide, by decide, ⟨_, rfl⟩⟩
theorem witness_ctx_load : sbsState (super mm) 0 = 0 ∧ sbsState (regSet (super mm) 0x022 0 (.ofNat 64 (2 ^ 35))) 0 ≠ 0 ∧ (∀ x ∈ (super mm).ctxs, x.id ≠ 0) ∧
    (∃ x ∈ (super mm).ctxs, x.id = 1) := by decide
theorem witness_swap : (∀ g ∈ allGangs mm, nextPending g = none ∨ atRest g = false) ∧ ∀ x ∈ mm.teams, x.core = 0 → x.place = .running → ∀ y ∈ mm.teams, y.uid = x.uid → y = x := by
  refine ⟨by decide, ?_⟩
  intro x hx _ _ y hy _; simp [mm, m] at hx hy; rw [hx, hy]
/-! ## Witnesses: gangs -/

/-- The gang between clauses, its code at 0x10000 (a page of the task's), pc of every lane there; one more gang of the team as said. -/
def between (h w1 : Nat) (more : List Gang := []) : State :=
  { mm with g := { gang with pc := (List.range 32).map fun l => (l, 0x10000), cl := {} }, mem := writeBytes [] 327680 (leBytes 4 h ++ leBytes 4 w1), gangs := more }

theorem witness_gids : gidsOk m ∧ gidsOk (between 0 0 [{ gang with gid := 2 }]) := by decide
theorem witness_fill :
    let s := { m with g := { gang with active := false }, obj := (0, 0) }
    (inQuarter s 0 0).countP (·.active) < 8 ∧ (∀ y ∈ inQuarter s 0 0, y.prio = true → y.active = true) ∧ (∃ y ∈ inQuarter s 0 0, pendingReady s y = true) ∧ justEntered s (inQuarter s 0 0) 1 = false ∧
      justEntered { s with gangs := [{ gang with gid := 2, entered := 1, entry := 1 }] } (inQuarter { s with gangs := [{ gang with gid := 2, entered := 1, entry := 1 }] } 0 0) 1 = true ∧
      (let u := { s with g := { s.g with prio := true } }
       (inQuarter u 0 0).countP (·.active) < 8 ∧ ∃ y ∈ inQuarter u 0 0, y.prio = true ∧ y.active = false) := by decide +kernel
/-- Eight active gangs besides the moving one, at trap priority or not. -/
def crowd (p : Bool) : State := { m with g := { gang with active := false }, gangs := (List.range 8).map fun i => { gang with gid := i + 2, prio := p } }
theorem witness_pin_trap : ∀ p ∈ [true, false], gidsOk (crowd p) ∧ gangOf (crowd p) 1 = some (crowd p).g ∧ (crowd p).g.active = false ∧
    8 ≤ (besides (crowd p) (crowd p).g).countP (·.active) ∧ (∃ y ∈ besides (crowd p) (crowd p).g, y.active = true ∧ y.prio = p) ∧
    (p = true → ∀ y ∈ besides (crowd p) (crowd p).g, y.active = true → y.prio = true) ∧ (besides m gang).countP (·.active) < 8 := by decide +kernel
theorem witness_long_latency :
    let s := { m with g := { gang with issued := 1 }, ops := [{ poolOp .load [] with wr := true }], clk := 32, gangs := [{ gang with gid := 2, active := false }], obj := (1, 0) }
    gidsOk s ∧ gangOf s 1 = some s.g ∧ s.g.active = true ∧ s.g.prio = false ∧ stalled s s.g = true ∧ s.g.waitFrom + 32 ≤ s.clk ∧
      (∃ y ∈ besides s s.g, pendingReady s y = true) ∧ ∃ y ∈ s.gangs, standsBy s y := by decide +kernel
theorem witness_starvation :
    let s := { m with clk := 16, obj := (1, 0), g := { gang with readyFrom := some 0 } }
    gidsOk s ∧ gangOf s 1 = some s.g ∧ s.g.prio = false ∧ readyGang s 1 = true ∧ s.g.readyFrom = some 0 ∧ 0 + 16 ≤ s.clk := by decide +kernel
theorem witness_exchange :
    let s := { m with clk := 256, gangs := [{ gang with gid := 2, active := false, readyFrom := some 0 }], obj := (0, 0) }
    (∃ x ∈ inQuarter s 0 0, pendingReady s x = true ∧ x.readyFrom.getD 256 + 256 ≤ s.clk) ∧ (∃ y ∈ inQuarter s 0 0, y.active = true ∧ y.prio = false) ∧ justEntered s (inQuarter s 0 0) 2 = false ∧
      justEntered { s with g := { s.g with entered := 257, entry := 2 } } (inQuarter { s with g := { s.g with entered := 257, entry := 2 } } 0 0) 2 = true := by decide +kernel

theorem witness_choose : ∃ c, choose (between 0 0).g 0 = some c ∧ c.pc = 0x10000 ∧ (∀ l ∈ [0, 31], candidate (between 0 0).g 0 l = true) := ⟨_, rfl, rfl, by decide⟩
theorem witness_unassigned : (∀ n ∈ [0, 0x1D, 0x1F, 0x3F, 0x5F, 0x73, 0x8F, 0x98, 0x9F, 0xDC, 0xDF, 0xEF, 0xF8, 0xFD, 0xFF], unassigned n) ∧
    ∀ n ∈ [1, 0x1C, 0x20, 0x3E, 0x60, 0x72, 0x90, 0x97, 0xA0, 0xDB, 0xE0, 0xEE, 0xF0, 0xF7, 0xFE], ¬unassigned n := by decide
theorem witness_word_passed : ∀ (p : Nat × Nat) , p ∈ [(0x20, 0), (0xE1, 3), (0xF2, 5)] →
    let x : Word := .ofNat 32 (p.1 * 4)
    opcodeOf x ≠ 0xFE ∧ opClass (opcodeOf x) = some p.2 ∧ wordLen x ≤ [(0 : Word)].length + 1 := by decide
theorem witness_fetch : ∃ e z, checkPage (between 0 0) (taskOf (between 0 0) 1) 0 { x := true } 0x10000 = .ok (e, z) ∧ inStorage e = false ∧ paOf e z 0x10000 % 4 = 0 ∧
    (∀ x ∈ (between 0 0).icache, x.1 ≠ 0) := ⟨_, _, rfl, by decide⟩
/-- A clause of one word `exit`, its header of exit kind 0: the gang picks it, and reads its two words. -/
theorem witness_clause : (∃ c, picks (between 0x00000001 0xE180005C) c ∧ c.pc = 0x10000) ∧
    ((fetchWords 0x10000 1 (between 0x00000001 0xE180005C)).toOption.bind fun r => (fetchWords 0x10004 1 r.1).toOption.map fun q => (r.2, q.2, waitDone q.1 r.1.g 1)) =
      some ([1], [0xE180005C], true) ∧
    codeStored (between 0x00000001 0xE180005C) 0x10000 = false ∧ ((fetchWords 0x10000 1 (between 0x00000001 0xE180005C)).toOption.map fun r => codeStored r.1 0x10004) = some false ∧
    headerOk 1 = true ∧ hdrN 1 = 1 ∧ checkWords (hdrEng 1) (hdrN 1 + 1) 1 [0xE180005C] = none ∧ hdrExk 1 ≠ 5 :=
  ⟨⟨_, ⟨rfl, by decide, fun h => absurd h (by decide), fun _ => rfl⟩, rfl⟩, by decide +kernel⟩
/-- A leaf of a page that the host keeps in storage, under handle 5. -/
def storedLeaf : DWord := leaf false 5 ||| (3 <<< 53) ||| (1 <<< 52)
/-- The code's page, or that of the clause's second word, lies in storage. -/
def inStore : State := { between 0 0 with tlb := [⟨0, 1, 0x10000, 65536, storedLeaf⟩] }
def acrossStore : State :=
  { mm with g := { gang with pc := (List.range 32).map fun l => (l, 0x1FFFC), cl := {} }, mem := writeBytes [] (327680 + 0xFFFC) (leBytes 4 1)
            tlb := [⟨0, 1, 0x10000, 65536, leaf false 5⟩, ⟨0, 1, 0x20000, 65536, storedLeaf⟩] }
theorem witness_clause_stored : (∃ c, picks inStore c ∧ c.pc = 0x10000) ∧ codeStored inStore 0x10000 = true ∧
    (∃ c, picks acrossStore c ∧ c.pc = 0x1FFFC) ∧ codeStored acrossStore 0x1FFFC = false ∧
    ((fetchWords 0x1FFFC 1 acrossStore).toOption.map fun r => (r.2, codeStored r.1 (0x1FFFC + BitVec.ofNat 64 (4 * hdrN 1)))) = some ([1], true) :=
  ⟨⟨_, ⟨rfl, by decide, fun h => absurd h (by decide), fun _ => rfl⟩, rfl⟩, by decide +kernel,
   ⟨_, ⟨rfl, by decide, fun h => absurd h (by decide), fun _ => rfl⟩, rfl⟩, by decide +kernel, by decide +kernel⟩
theorem witness_clause_refused : headerOk 0 = false ∧ checkWords (hdrEng 1) (hdrN 1 + 1) 1 [0xFF000000] = some (.opcode, 1) ∧ hdrExk 0x0012800F = 5 ∧
    vregOk 16 true ((0x00FE800F : Word).toNat / 2 ^ 18 % 2 ^ 7) = false := by decide +kernel
theorem witness_fetch_fails : ∃ va e, fetchWords 0x40000 1 (between 0 0) = .error (va, e) := ⟨_, _, rfl⟩

theorem witness_sleep_wake : promiseCome (atClk (65536 * 100 + 3) m) (65536 * 100 + 3) = true ∧ ticketDone (teamOf m 1) (65536 * 100 + 3) = true ∧
    (100 : DWord).toNat ≤ (atClk 0 m).clk := by decide
theorem witness_promise_missed_late :
    let s := handled { atClk (65536 * 100 + 3) m with teams := [{ uid := 1, task := 1, ctx := 1, place := .running, begun := true, outst := [3] }], obj := (1, 0), g := { gang with wait := .sleepR (65536 * 100 + 3) } }
    promiseCome s (65536 * 100 + 3) = true ∧ ticketDone (teamOf s 1) (65536 * 100 + 3) = false ∧ s.g.place = .running ∧ (takeExit (switchTo s 1).g.waitNxt (switchTo s 1)).toBool = true ∧
      (switchTo s 1).g.inH = false ∧ (switchTo s 1).g.cl.x < 16 ∧ mayTrap (finishWait (switchTo s 1)) := by decide +kernel
theorem witness_late_cause : ∀ i ∈ [3, 19],
    let s := handled { m with g := { gang with pending := [{ cause := .rlqFree, cwi := i }] }, obj := (1, 0) }
    gangOf s 1 = some s.g ∧ s.g.place = .running ∧ atRest s.g = true ∧ (i < 16 → (∀ y ∈ s.g.pending, y.cwi < 16) ∧ mayTrap (switchTo s 1)) ∧ (16 ≤ i → placed (switchTo s 1) ∧ underWay (switchTo s 1) 1) := by decide
theorem witness_orphan : ∀ st ∈ [0, 3], ∃ k : Task, k.status = st ∧ k.orphans = [{ cause := .rlqFree }] ∧ ({ m with tasks := [k] } : State).tasks.find? (·.id == 1) = some k := by
  intro st _; exact ⟨{ id := 1, status := st, orphans := [{ cause := .rlqFree }] }, rfl, rfl, rfl⟩
theorem witness_watchdog :
    let s := { regSet (handled m) 0x013 1 1 with g := { gang with wait := .cistern 0 0 }, clk := 1001, obj := (1, 0), tasks := [{ id := 1, ctx := 1, stage := .running }] }
    gidsOk s ∧ 1000 * (regGet s 0x013 1).toNat ≠ 0 ∧ (teamOf s s.g.team).ctx = 1 ∧ (waitKind s s.g).isSome = true ∧ s.g.waitFrom + 1000 < s.clk ∧ external s s.g = false ∧
      (∀ x ∈ allGangs s, x.gid = 1) ∧ (∀ k ∈ s.tasks, k.ctx = 1 → k.stage = .running → gridSize k ≤ k.next) ∧ (∀ t ∈ s.teams, t.ctx = 1 → (t.place = .undispatched ∨ t.place = .moving) → t.begun = true) ∧ s.g.prio = false ∧ s.g.cl.x < 16 ∧
      regGet s 0x012 1 ≠ 0 := by decide +kernel
theorem witness_ext_timeout :
    let s := { regSet (handled m) 0x014 1 1 with g := { gang with wait := .cistern 16 0 }, clk := 1001, obj := (1, 0), teams := [{ uid := 1, task := 1, ctx := 1, place := .running, begun := true, scr := 4096, scratch := writeBytes [] 16 (leBytes 8 (2 ^ 41)) }] }
    (∃ k, waitKind s s.g = some k) ∧ external s s.g = true ∧ 1000 * (regGet s 0x014 1).toNat ≠ 0 ∧ s.g.waitFrom + 1000 < s.clk ∧ mayTrap (switchTo s 1) :=
  ⟨⟨_, rfl⟩, by decide +kernel⟩

theorem witness_gang_end : ∀ p ∈ [true, false],
    let x : Gang := { gang with live := 0, prio := p, area := { dw0 := 0x80 }, pending := [{ cause := .rlqFree }] }
    gangOf { m with g := x, obj := (1, 0) } 1 = some x ∧ x.place ≠ .ended ∧ (∀ o ∈ opsOf m 1, o.wr = false) ∧ (m.tasks.any (·.id == 1)) = true ∧
      (x.prio && x.area.dw0.getLsbD 7) = p := by decide
theorem witness_team_end :
    let s := { m with g := { gang with place := .ended }, obj := (1, 0) }
    (∀ g ∈ allGangs s, g.team = 1 → g.place = .ended) ∧ flushTeam 1 (closeTeam 1 { s with laterals := s.laterals.filter (·.sub != 1) }) = some s := by decide
theorem witness_compact_repack :
    let s := { m with g := { gang with live := 5 }, obj := (1, 0), teams := [{ uid := 1, task := 1, ctx := 1, place := .running, begun := true, arrivals := [⟨1, 0, 0x2000⟩, ⟨1, 2, 0x1000⟩] }] }
    let gs := gangsOf s 1
    gidsOk s ∧ (teamOf s 1).arrivals ≠ [] ∧ (teamOf s 1).place = .running ∧ (gs.map (·.num)).Nodup ∧ (∀ g ∈ gs, g.num < 32 ∧ g.prio = false ∧ tableWf zeros g.v = true ∧ tableWf zeros g.k = true) ∧
      ((teamOf s 1).arrivals.map fun a => (a.gang, a.lane)).Nodup ∧ (∀ a ∈ (teamOf s 1).arrivals, a.lane < 32) ∧
      (∀ g ∈ gs, ∀ l < 32, g.live.getLsbD l = true → ∃ a ∈ (teamOf s 1).arrivals, a.gang = g.gid ∧ a.lane = l) := by decide +kernel

/-! ## Witnesses: homes, pages, the host, Headgate, launches -/

/-- A request of operation 9 to the line that s2 names, and the line's row of its operation. -/
def row (bulk granted : Bool) : LineReq := { line := 2560, va := 512, bulk := bulk, cls := 2, dm := false, dom := 0, granted := granted }
def req (k : OpKind) (bulk granted : Bool) : Op :=
  { poolOp k [⟨0, 0x10000, 327680, 4, [1, 2, 3, 4], 0xFF, 5, 6, [1, 2, 3, 4], []⟩] with lines := [row bulk granted], code := if k = .atomic then 0xB6 else 0, w := 2, wr := true, sent := true }
def homed (k : OpKind) (bulk granted : Bool) : State := { withOp (req k bulk granted) (inSlice mm) with obj := (9, 2560) }

theorem witness_home : ∀ k ∈ [OpKind.load, .store, .atomic], ∀ b ∈ [false, true], arrives (homed k b false) (req k b false) (row b false) ∧
    performable (homed k b false) (req k b false) (row b false) ∧ inLine (req k b false) (row b false) ≠ [] ∧ copyOf (homed k b false) 0 1 2560 = none := by decide +kernel
/-- The line is not in its slice; or, while a reshape runs, in another one. -/
def away (sl : Option Nat) : State :=
  { regSet (homed .load false false) 0x03A 0 0x40000000 with sc := (sl.map fun n => ({ line := 2560, slice := n, cls := 2, dm := false, dom := 0, ctx := 1, va := 512 } : ScLine)).toList }

theorem witness_home_room : cacheTakes (homed .load true false) 0 1 = true ∧ (∀ l ∈ (req .load true false).lanes, l.pa / 128 = 2560 → 0 ≤ l.pa % 128 ∧ l.pa % 128 + l.size ≤ 128) ∧
    Claims.found (homed .load true false) ⟨0, 0x10000, 327680, 4, [], 0xFF, 0, 0, [], [(0xAB, 0x0F)]⟩ = [0x0B, 0, 0, 0] := by decide +kernel
theorem witness_home_moved : sliceOf (away (some 6)) 0 2560 ≠ homeOf (away (some 6)) 0 2560 ∧ sliceOf (away none) 0 2560 = homeOf (away none) 0 2560 ∧ inSc (away none) 2560 = false ∧
    lineOwned (away none) 2560 = false := by decide +kernel
theorem witness_fetched : checkLine (away none) 2 2560 = 0 ∧ checkLine { away none with flips := [(2560 * 256, 1)], lineCode := [(2560, 1)] } 0 2560 = 1 ∧
    checkLine (away none) 0 2560 = 2 := by decide +kernel
theorem witness_load_reply : (∀ r ∈ (req .load false true).lines, r.granted = true) ∧ earlierDone (homed .load false true) (req .load false true) = true ∧
    (req .load false true).split = 0 ∧ (∀ r ∈ (req .load false true).lines, r.bulk = false → mm.g.gts ≤ r.lease) ∧
    (∃ r ∈ (req .load false true).lines, r.bulk = false ∧ r.lease < ({ mm.g with gts := 1 } : Gang).gts) := by decide
theorem witness_monitor : ∀ c ∈ [0, 1],
    let w : Wait := .weir 327680 4 c false 0 false false 0x10000
    let s := { inSlice mm with g := { mm.g with wait := w }, monitors := [⟨1, 327680, 4, 5, 0⟩], obj := (1, 0) }
    gangOf s 1 = some s.g ∧ weirTrue c false 32 (leNat (homeBytes (pokeBytes 327680 [0, 0, 0, 0] 0xFF 7 s) 327680 4)) 0 = (c == 0) ∧
      weirTrue c false 32 (leNat (homeBytes s 327680 4)) 0 = (c == 0) ∧ lineOwned s 2560 = false ∧ inSc s 2560 = true := by decide +kernel
theorem witness_weir_poll : ∃ lf, leafOf (inSlice mm) 0 1 0x10000 = .ok lf ∧ (reqOf (inSlice mm) lf.1 327680 0x10000).line = 2560 ∧ readBehind (inSlice mm) 0 (reqOf (inSlice mm) lf.1 327680 0x10000) = false := ⟨_, rfl, by decide⟩

/-- A cluster's BULK copy of the line, with byte 3 written. -/
def held (dirty : List Nat) : Copy := { remote := false, holder := 0, line := 2560, ctx := 1, bulk := true, cls := 2, dm := false, dom := 0, va := 0x10000, bytes := [(3, 9)], dirty := dirty.map (·, 0xFF) }
def holding (dirty : List Nat) (o : Nat) : State := { inSlice mm with copies := [held dirty], obj := (o, 2560) }

theorem witness_writeback : copyOf (holding [3] 1) (1 / 4096) (1 % 4096) 2560 = some (held [3]) ∧ mayGoHome (holding [3] 1) (held [3]) ∧ refusedWb (holding [3] 1) 0 (held [3]) = false := by decide +kernel
theorem witness_eviction : (∀ d ∈ [[], [3]], ((holding d 0).copies.filter fun x => !x.remote && x.holder == 0 && x.line == 2560) = [held d] ∧ (held d).quarantined = false) ∧
    mayGoHome (holding [3] 0) (held [3]) := by decide +kernel
theorem witness_eviction_refused : wbReady { holding [3] 0 with ctxs := [{ id := 1 }] } (held [3]) = true ∧ refusedWb { holding [3] 0 with ctxs := [{ id := 1 }] } 0 (held [3]) = true := by decide
theorem witness_slice_eviction : ∃ x, scOf (inSlice mm) 2560 = some x ∧ x.slice = 1024 + 5 - 1024 ∧ pinned (inSlice mm) x = false ∧ tableWf zeros mm.mt = true := ⟨_, rfl, rfl, by decide⟩

theorem witness_pin : pinFields (mw 0 130 1 0 7) ∧ reshaping mm = false ∧ (sGet mm.g 1).toNat = 9 ∧ checkBlock mm { r := true } 0 0x10000 128 = .ok () ∧
    ((ctxOf mm 1).pins.filter (·.die == 0)).length < 16 := by decide +kernel
theorem witness_unpin : unpinFields (mw 1 130 0 0) := by decide

/-- A page table of context 1 at 0x100000: one 64 KiB leaf of the address 0x10000 in a tier, device-managed and OPEN, its frame at 65,536·f. -/
def table (tier f : Nat) : Table 8 :=
  let node := fun (a : Nat) => leBytes 8 (2 ^ 63 + a)
  let m := writeBytes [] 0x100000 (node 0x101000)
  let m := writeBytes m 0x101000 (node 0x102000)
  let m := writeBytes m 0x102000 (node 0x103000)
  let m := writeBytes m 0x103000 (node 0x104000)
  writeBytes m (0x104000 + 8) (leBytes 8 (2 ^ 63 + 2 ^ 62 + 2 * 2 ^ 60 + 7 * 2 ^ 55 + tier * 2 ^ 53 + 2 ^ 52 + f * 2 ^ 16))
def paged (tier f : Nat) : State := { regSet mm 0x010 1 (.ofNat 64 (2 ^ 63 + 0x100000)) with mem := table tier f, tlb := [] }

theorem witness_leaf : ∀ t ∈ [0, 1, 2, 3], ∃ e, leafAt (paged t 32) 1 0x10000 = some (0x104008, e, 65536) ∧ pteDm e = true ∧ pteTier e = t := by
  intro t ht; fin_cases ht <;> exact ⟨_, rfl, by decide +kernel, by decide +kernel⟩

/-- Context 1's page in a tier with some frames given out. Every tier has room: CAP is 2^20 units, tier 0's LOW and HIGH are as said. -/
def pages (tier low : Nat) (fs : List Frame) (o : Nat × Nat) : State :=
  let cap : DWord := 0x0010000080000000
  { paged tier 32 with frames := fs, obj := o, sysregs := [(1048577, 0x8000000000100000)] ++ ((List.range 8).map fun d => (3342336 + d, cap + .ofNat 64 (low * 1025))) ++
      ((List.range 8).map fun d => (3407872 + d, cap)) ++ [(3473408, cap), (6029312, 0x0004000000000000)] }

theorem some_of_head {α : Type} {p : α → Bool} {x : α} {l : List α} (h : p x = true) : (x :: l).find? p = some x := by simp [List.find?, h]

theorem find_range {α : Type} (f : Nat → α) (p : α → Bool) (n : Nat) (hn : 0 < n) (h : p (f 0) = true) : ((List.range n).map f).find? p = some (f 0) := by
  obtain ⟨k, rfl⟩ : ∃ k, n = k + 1 := ⟨n - 1, by omega⟩
  rw [List.range_succ_eq_map, List.map_cons, some_of_head h]

/-- A page of 64 KiB finds a frame in tier 0, at an address of its colour, where none there is given out. -/
theorem allocate_near (s : State) (m : Mark) (h : ∀ f ∈ s.frames, 2 ^ 49 ≤ f.pa) (hs : s.storage = []) (hm : ∀ d ∈ List.range 8, m.admits s 0 d 32 = true) (va : Nat) :
    ∃ pa, allocate s va 65536 2 0 m = some pa ∧ pa % 2 ^ 30 = va % 2 ^ 30 / 65536 * 65536 ∧ pa < 2 ^ 49 := by
  let j := Config.frameChoice s.fresh 0 va
  refine ⟨j % 2 * 2 ^ 48 + j / 2 % 2 ^ 18 * 2 ^ 30 + va % 2 ^ 30 / 65536 * 65536, ?_, by omega, by omega⟩
  simp only [allocate, hs]
  rw [show 16 * (s.frames.length + [].length + 1) = (16 * s.frames.length + 15) + 1 by simp; omega, List.range_succ_eq_map, List.map_cons, some_of_head]
  · rfl
  · have hf : frameFree s 0 (j % 2 * 2 ^ 48 + j / 2 % 2 ^ 18 * 2 ^ 30 + va % 2 ^ 30 / 65536 * 65536) 65536 = true := by
      simp only [frameFree, List.all_eq_true, disjoint, Bool.or_eq_true, decide_eq_true_eq]
      intro f hf
      have := h f (by simpa using hf); omega
    have hd : ∀ d < 8, m.admits s 0 d 32 = true := fun d hd => hm d (List.mem_range.mpr hd)
    have hk : ([4 * (j % 2), 4 * (j % 2) + 1, 4 * (j % 2) + 2, 4 * (j % 2) + 3].all fun d => m.admits s 0 d (rawOf 65536 2 / 4)) = true := by
      simp only [List.all_cons, List.all_nil, Bool.and_true, Bool.and_eq_true]
      exact ⟨hd _ (by omega), hd _ (by omega), hd _ (by omega), hd _ (by omega)⟩
    simp only [Nat.add_zero, Bool.and_eq_true]; exact ⟨hk, hf⟩

/-- One finds a frame in tier 2, where none there is given out. -/
theorem allocate_host (s : State) (m : Mark) (h : ((s.frames ++ initialFrames s).all fun f => decide (f.pa + f.size ≤ 2 ^ 50)) = true) (hs : s.storage = [])
    (h2 : m.admits s 2 0 128 = true) (hb : regGet s 0x05C 0 = .ofNat 64 (2 ^ 50)) (hc : regField s 0x035 0 63 32 = 2 ^ 20) (va : Nat) :
    ∃ pa, allocate s va 65536 2 2 m = some pa ∧ pa % 65536 = 0 ∧ 2 ^ 50 ≤ pa := by
  let j := Config.frameChoice s.fresh 2 va
  refine ⟨2 ^ 50 + j % 2 ^ 20 * 65536, ?_, by omega, by omega⟩
  have hf : frameFree s 2 (2 ^ 50 + j % 2 ^ 20 * 65536) 65536 = true := by
    simp only [frameFree, List.all_eq_true, disjoint, Bool.or_eq_true, decide_eq_true_eq]
    intro f hf
    have := List.all_eq_true.mp h f (by simpa [fetchFrames, hs] using hf)
    simp only [decide_eq_true_eq] at this; omega
  simp only [allocate, hb, hc]
  rw [show ((field (BitVec.ofNat 64 (2 ^ 50)).toNat 51 16 * 65536 + 65536 * 2 ^ 20 - ceilDiv (field (BitVec.ofNat 64 (2 ^ 50)).toNat 51 16 * 65536) 65536 * 65536) / 65536) = 2 ^ 20 by decide,
    show ceilDiv (field (BitVec.ofNat 64 (2 ^ 50)).toNat 51 16 * 65536) 65536 * 65536 = 2 ^ 50 by decide]
  rw [find_range _ _ _ (by norm_num)]
  · rfl
  · simp only [Nat.add_zero, List.all_cons, List.all_nil, Bool.and_true, Bool.and_eq_true]; exact ⟨h2, hf⟩

/-- A page that leaves tier 0 finds a frame in the next tier, where all frames given out are tier 0's. -/
theorem allocate_next (s : State) (m : Mark) (h : ((s.frames ++ initialFrames s).all fun f => decide (f.pa + f.size ≤ 2 ^ 49)) = true) (hs : s.storage = [])
    (h1 : ∀ d ∈ List.range 8, m.admits s 1 d 128 = true) (h2 : m.admits s 2 0 128 = true) (hb : regGet s 0x05C 0 = .ofNat 64 (2 ^ 50))
    (hc : regField s 0x035 0 63 32 = 2 ^ 20) (va : Nat) :
    ∃ pa, allocate s va 65536 2 (if Config.moduleForm = true then 1 else 2) m = some pa ∧ pa % 65536 = 0 ∧ 2 ^ 49 ≤ pa := by
  have hall : ∀ f ∈ s.frames ++ initialFrames s, f.pa + f.size ≤ 2 ^ 49 := fun f hf => by simpa using List.all_eq_true.mp h f hf
  by_cases hm : Config.moduleForm = true
  · let j := Config.frameChoice s.fresh 1 va
    refine ⟨2 ^ 49 + j % 8 * 2 ^ 46 + j / 8 % 2 ^ 16 * 2 ^ 30 + va % 2 ^ 30 / 65536 * 65536, ?_, by omega, by omega⟩
    simp only [hm, if_true, allocate, hs]
    rw [if_neg (by simp), show 16 * (s.frames.length + [].length + 1) = (16 * s.frames.length + 15) + 1 by simp; omega, List.range_succ_eq_map, List.map_cons, some_of_head]
    · rfl
    · have hf : frameFree s 1 (2 ^ 49 + j % 8 * 2 ^ 46 + j / 8 % 2 ^ 16 * 2 ^ 30 + va % 2 ^ 30 / 65536 * 65536) 65536 = true := by
        simp only [frameFree, List.all_eq_true, disjoint, Bool.or_eq_true, decide_eq_true_eq]
        intro f hf
        have := hall f (by simp at hf; simp [hf]); omega
      simp only [Nat.add_zero, List.all_cons, List.all_nil, Bool.and_true, Bool.and_eq_true]
      exact ⟨h1 (j % 8) (List.mem_range.mpr (by omega)), hf⟩
  · obtain ⟨pa, h1, h2, h3⟩ := allocate_host s m (List.all_eq_true.mpr fun f hf => by have := hall f hf; simp; omega) hs h2 hb hc va
    exact ⟨pa, by simpa [hm] using h1, h2, by omega⟩

/-- The leaf of `paged`. -/
def leafIn (tier : Nat) : Nat := 2 ^ 63 + 2 ^ 62 + 2 * 2 ^ 60 + 7 * 2 ^ 55 + tier * 2 ^ 53 + 2 ^ 52 + 32 * 2 ^ 16

theorem witness_page_leaf : ∀ t ∈ [0, 1, 2, 3], leafAt (pages t 0 [] (0, 0)) 1 0x10000 = some (0x104008, leafIn t, 65536) ∧ pteDm (leafIn t) = true ∧ pteTier (leafIn t) = t := by decide +kernel

theorem may_move (t : Nat) (ht : t < 3) (cls low : Nat) (fs : List Frame) (o : Nat × Nat) (pa : Nat) (h : pa % 65536 = 0) (hp : pa + 65536 ≤ 0x104008 ∨ 2 ^ 30 ≤ pa) :
    mayMove (pages t low fs o) 1 cls (0x104008, leafIn t, 65536) pa := by
  have h1 : tableWf zeros (table t 32) = true ∧ pteFrame (leafIn t) = 0x200000 ∧ pteTier (leafIn t) < 3 := by
    rcases show t = 0 ∨ t = 1 ∨ t = 2 by omega with rfl | rfl | rfl <;> decide +kernel
  refine ⟨h1.1, rfl, Nat.mod_self 65536, h, by show pteFrame (leafIn t) % 65536 = 0; rw [h1.2.1], h1.2.2, ?_, ?_, ?_, rfl, rfl, fun l _ => .inl rfl, fun y hy => absurd hy (by simp [pages, paged, mm, m, State.reset, regSet])⟩ <;>
    simp only [h1.2.1, disjoint, Bool.or_eq_true, decide_eq_true_eq] <;> omega

/-- A frame of context 1's page, of a tier under a class. -/
def frm (tier cls : Nat) (pa : Nat) : Frame := { ctx := 1, va := 0x10000, pa := pa, size := 65536, cls := cls, tier := tier }

/-- The row of the page's leaf. -/
def leafRow (t : Nat) : Nat × Nat × Nat := (0x104008, leafIn t, 65536)

theorem witness_marks : ∀ x ∈ [(0, 4, 1), (512, 1, 0x10000)], ∀ d ∈ List.range 8, (Mark.stays.admits (pages 2 x.1 [] x.2) 0 d 32 && Mark.none.admits (pages 2 x.1 [] x.2) 0 d 32) = true := by decide +kernel

theorem witness_page_move : ∃ pa, let s := pages 2 0 [] (4, 1)
    leafAt s (s.obj.1 / 4) (65536 * s.obj.2) = some (leafRow 2) ∧ mayMove s 1 (frameCls s (leafIn 2)) (leafRow 2) pa ∧ pteDm (leafIn 2) = true ∧ s.obj.1 % 4 < 2 ∧
      pteTier (leafIn 2) ≠ s.obj.1 % 4 ∧ poolTier s 1 0x10000 65536 = none ∧ allocate s (65536 * s.obj.2) 65536 (frameCls s (leafIn 2)) (s.obj.1 % 4) .none = some pa := by
  obtain ⟨pa, h, hc, -⟩ := allocate_near (pages 2 0 [] (4, 1)) .none (by simp [pages]) rfl
    (fun d hd => by have := witness_marks (0, 4, 1) (by simp) d hd; simp only [Bool.and_eq_true] at this; exact this.2) 0x10000
  have hf : frameCls (pages 2 0 [] (4, 1)) (leafIn 2) = 2 := by decide +kernel
  exact ⟨pa, by decide +kernel, hf ▸ may_move 2 (by omega) _ _ _ _ _ (by omega) (by omega), by decide +kernel, by decide, by decide +kernel, by decide +kernel, by rw [hf]; exact h⟩
/-- A pool keeps its pages where they are. -/
theorem witness_page_move_pooled : let s := regSet (regSet (pages 2 0 [] (5, 1)) 0x018 18 0x10000) 0x019 18 0x8000000000000001
    leafAt s (s.obj.1 / 4) (65536 * s.obj.2) = some (leafRow 2) ∧ poolTier s 1 0x10000 65536 = some 0 ∧ s.obj.1 % 4 = 1 := by decide +kernel
/-- A window over a page of tier 0 keeps it there. -/
theorem witness_windowed : windowed { pages 0 0 [] (5, 1) with ctxs := [{ id := 1, pins := [⟨0, 512, 513, 0xFF, 0xFF, true⟩] }] } 1 0x10000 65536 = true ∧
    windowed (pages 0 0 [] (5, 1)) 1 0x10000 65536 = false := by decide

/-! The tables of `paged` map one page: reading them all, entry by entry, is too much for an evaluation. -/

theorem tget_none {n : Nat} {d : Nat → BitVec n} {k : Nat} : ∀ {t : Table n}, (∀ e ∈ t, e.1 ≠ k) → tget d t k = d k
  | [], _ => rfl
  | (k', _) :: _, h => by
    rw [tget, if_neg (fun e => h _ (List.mem_cons_self ..) e.symm)]
    exact tget_none fun e he => h e (List.mem_cons_of_mem _ he)

/-- No entry of the tables but the five stands in memory. -/
abbrev onlyEntries (s : State) : Prop := s.sc = [] ∧ s.flips = [] ∧ ∀ e ∈ s.mem, (0x100 ≤ e.1 / 4096 ∧ e.1 / 4096 ≤ 0x103 ∧ e.1 % 4096 < 8) ∨ e.1 / 8 = 0x20801

theorem entry_zero {s : State} (h : onlyEntries s) {a : Nat} (ha : ∀ k, (0x100 ≤ k / 4096 ∧ k / 4096 ≤ 0x103 ∧ k % 4096 < 8) ∨ k / 8 = 0x20801 → k < a ∨ a + 8 ≤ k) :
    leNat (homeBytes s a 8) = 0 := by
  have hb : ∀ i < 8, homeByte s (a + i) = 0 := fun i hi => by
    have h1 : get0 s.mem (a + i) = 0 := tget_none fun e he hk => by have := ha e.1 (h.2.2 e he); omega
    rw [homeByte_clean h.2.1, h1]
  have : homeBytes s a 8 = List.replicate 8 0 := List.ext_getElem (by simp [homeBytes]) fun i hi _ => by
    simp only [homeBytes, List.getElem_map, List.getElem_range, List.getElem_replicate]; exact hb i (by simpa [homeBytes] using hi)
  rw [this]; rfl

theorem flatMap_only {α : Type} {n k : Nat} {f : Nat → List α} (hk : k < n) (h : ∀ i < n, i ≠ k → f i = []) : (List.range n).flatMap f = f k := by
  induction n with
  | zero => omega
  | succ n ih =>
    rw [List.range_succ, List.flatMap_append, List.flatMap_singleton]
    by_cases hn : k = n
    · subst hn
      rw [show (List.range k).flatMap f = [] from List.flatMap_eq_nil_iff.mpr fun i hi => h i (by have := List.mem_range.mp hi; omega) (by have := List.mem_range.mp hi; omega), List.nil_append]
    · rw [ih (by omega) fun i hi hne => h i (by omega) hne, h n (by omega) (fun e => hn e.symm), List.append_nil]

theorem leaves_node {s : State} (h : onlyEntries s) (p : Nat → Bool) (l T e : Nat) (hT : 0x100 ≤ T ∧ T ≤ 0x103) (he : leNat (homeBytes s (4096 * T) 8) = e) (hv : pteV e = true)
    (hl : pteLeaf e = false) : leavesUnder s p (l + 1) (4096 * T) 0 = leavesUnder s p l (field e 51 12 * 4096) 0 := by
  rw [leavesUnder, flatMap_only (k := 0) (by omega)]
  · simp [he, hv, hl]
  · intro i hi hne
    rw [entry_zero h (a := 4096 * T + 8 * i) (by omega)]; rfl

theorem leaves_last {s : State} (h : onlyEntries s) (p : Nat → Bool) (e : Nat) (he : leNat (homeBytes s 0x104008 8) = e) :
    leavesUnder s p 0 (4096 * 0x104) 0 = [] ∨ leavesUnder s p 0 (4096 * 0x104) 0 = [(65536, e, 65536)] := by
  rw [leavesUnder, flatMap_only (k := 1) (by omega)]
  · simp only [show 4096 * 0x104 + 8 * 1 = 0x104008 from rfl, he]
    split
    · exact .inr rfl
    · exact .inl rfl
  · intro i hi hne
    rw [entry_zero h (a := 4096 * 0x104 + 8 * i) (by omega)]; rfl

/-- The one page of these tables, as a page of initial data. -/
def initialOne (e : Nat) : Frame := ⟨1, 65536, pteFrame e, 65536, pteCls e, 2⟩

theorem initial_one {s : State} (h : onlyEntries s) (e : Nat) (hr : ∀ c ∈ List.range 64, c ≠ 1 → (regGet s 0x010 c).toNat.testBit 63 = false)
    (h1 : field (regGet s 0x010 1).toNat 51 12 = 0x100)
    (hn : ∀ T ∈ [0x100, 0x101, 0x102, 0x103], leNat (homeBytes s (4096 * T) 8) = 2 ^ 63 + 4096 * (T + 1)) (he : leNat (homeBytes s 0x104008 8) = e) :
    initialFrames s = [] ∨ initialFrames s = [initialOne e] := by
  have hp : ∀ T ∈ [0x100, 0x101, 0x102, 0x103], pteV (2 ^ 63 + 4096 * (T + 1)) = true ∧ pteLeaf (2 ^ 63 + 4096 * (T + 1)) = false ∧
      field (2 ^ 63 + 4096 * (T + 1)) 51 12 * 4096 = 4096 * (T + 1) := by decide
  rw [initialFrames, flatMap_only (k := 1) (by omega) fun c hc hne => by simp [hr c (List.mem_range.mpr hc) hne]]
  simp only [h1]
  rw [show 0x100 * 4096 = 4096 * 0x100 from rfl,
    leaves_node h _ 3 0x100 _ (by omega) (hn 0x100 (by simp)) (hp 0x100 (by simp)).1 (hp 0x100 (by simp)).2.1, (hp 0x100 (by simp)).2.2,
    leaves_node h _ 2 0x101 _ (by omega) (hn 0x101 (by simp)) (hp 0x101 (by simp)).1 (hp 0x101 (by simp)).2.1, (hp 0x101 (by simp)).2.2,
    leaves_node h _ 1 0x102 _ (by omega) (hn 0x102 (by simp)) (hp 0x102 (by simp)).1 (hp 0x102 (by simp)).2.1, (hp 0x102 (by simp)).2.2,
    leaves_node h _ 0 0x103 _ (by omega) (hn 0x103 (by simp)) (hp 0x103 (by simp)).1 (hp 0x103 (by simp)).2.1, (hp 0x103 (by simp)).2.2]
  split
  · exact .inl rfl
  · rcases leaves_last h (fun e => pteDm e && pteTier e == 2) e he with hl | hl <;> rw [show 4096 * (0x103 + 1) = 4096 * 0x104 from rfl, hl]
    · exact .inl rfl
    · by_cases hq : (s.frames.any fun f => f.ctx == 1 && f.va == 65536) = true
      · exact .inl (by simp [hq])
      · exact .inr (by simp [hq, initialOne])

theorem paged_entries : ∀ t ∈ [0, 1, 2, 3], (∀ e ∈ table t 32, (0x100 ≤ e.1 / 4096 ∧ e.1 / 4096 ≤ 0x103 ∧ e.1 % 4096 < 8) ∨ e.1 / 8 = 0x20801) := by decide +kernel
theorem paged_nodes : ∀ t ∈ [0, 1, 2, 3], (∀ T ∈ [0x100, 0x101, 0x102, 0x103], leNat (homeBytes (pages t 0 [] (0, 0)) (4096 * T) 8) = 2 ^ 63 + 4096 * (T + 1)) ∧
    leNat (homeBytes (pages t 0 [] (0, 0)) 0x104008 8) = leafIn t := by decide +kernel

/-- A state that has these tables and CPTB, and no other context's. -/
abbrev hasTables (t : Nat) (s : State) : Prop :=
  s.mem = table t 32 ∧ s.sc = [] ∧ s.flips = [] ∧ s.storage = [] ∧ (∀ c ∈ List.range 64, c ≠ 1 → (regGet s 0x010 c).toNat.testBit 63 = false) ∧ field (regGet s 0x010 1).toNat 51 12 = 0x100

theorem initial_of {t : Nat} (ht : t ∈ [0, 1, 2, 3]) {s : State} (h : hasTables t s) :
    (initialFrames s = [] ∨ initialFrames s = [initialOne (leafIn t)]) ∧ (initialOne (leafIn t)).pa = 0x200000 ∧ (initialOne (leafIn t)).cls = 2 := by
  have hb : ∀ a n, homeBytes s a n = homeBytes (pages t 0 [] (0, 0)) a n := fun a n => by
    simp only [homeBytes, homeByte_clean h.2.2.1, homeByte_clean (s := pages t 0 [] (0, 0)) rfl, h.1]; rfl
  refine ⟨initial_one ⟨h.2.1, h.2.2.1, h.1 ▸ paged_entries t ht⟩ (leafIn t) h.2.2.2.2.1 h.2.2.2.2.2 (fun T hT => by rw [hb]; exact (paged_nodes t ht).1 T hT) (by rw [hb]; exact (paged_nodes t ht).2), ?_⟩
  fin_cases ht <;> decide +kernel

/-- Frames given out below tier 1, and the initial one, all lie below it. -/
theorem frames_low {t : Nat} (ht : t ∈ [0, 1, 2, 3]) {s : State} (h : hasTables t s) (hf : ∀ f ∈ s.frames, f.pa + f.size ≤ 2 ^ 49) :
    ((s.frames ++ initialFrames s).all fun f => decide (f.pa + f.size ≤ 2 ^ 49)) = true := by
  obtain ⟨hi, hp, -⟩ := initial_of ht h
  have hz : (initialOne (leafIn t)).size = 65536 := rfl
  simp only [List.all_append, List.all_eq_true, Bool.and_eq_true, decide_eq_true_eq]
  refine ⟨hf, fun f hm => ?_⟩
  rcases hi with hi | hi <;> rw [hi] at hm
  · simp at hm
  · rw [List.mem_singleton.mp hm]; omega

theorem frames_host {t : Nat} (ht : t ∈ [0, 1, 2, 3]) {s : State} (h : hasTables t s) (hf : ∀ f ∈ s.frames, f.pa + f.size ≤ 2 ^ 49) :
    ((s.frames ++ initialFrames s).all fun f => decide (f.pa + f.size ≤ 2 ^ 50)) = true :=
  List.all_eq_true.mpr fun f hm => by have := List.all_eq_true.mp (frames_low ht h hf) f hm; simp at this ⊢; omega

/-- Tier 2 has room while few frames are given out. -/
theorem host_room {t : Nat} (ht : t ∈ [0, 1, 2, 3]) {s : State} (h : hasTables t s) (hf : ((s.frames.filter (·.inTier 2 0)).map fun f => rawOf f.size f.cls).sum ≤ 1000)
    (hc : capRaw s 2 0 = 2 ^ 27) (hl : lowMark s 2 0 = 0) (m : Mark) : m.admits s 2 0 128 = true := by
  obtain ⟨hi, -, hcls⟩ := initial_of ht h
  have hu : usedRaw s 2 0 ≤ 1128 := by
    rw [usedRaw, framesIn]
    simp only [if_true, show ¬ (2 = 0) by omega, if_false, fetchFrames, h.2.2.2.1, List.filter_nil, List.map_nil, List.append_nil, List.filter_append, List.map_append, List.sum_append]
    rcases hi with hi | hi <;> rw [hi]
    · simp; omega
    · have hr : rawOf (initialOne (leafIn t)).size (initialOne (leafIn t)).cls = 128 := by rw [hcls]; exact show rawOf 65536 2 = 128 by decide
      rw [List.filter_cons]
      split <;> simp [hr] <;> omega
  have h0 : ∀ n, n ≤ 128 → marksOk s 2 0 n 0 = true := fun n hn => by simp [marksOk, hc]; omega
  cases m
  · exact h0 128 (by omega)
  · show marksOk s 2 0 128 (lowMark s 2 0) = true
    rw [hl]; exact h0 128 (by omega)
  · show (marksOk s 2 0 128 0 && marksOk s 2 0 0 (lowMark s 2 0)) = true
    rw [hl, h0 128 (by omega), h0 0 (by omega)]; rfl

theorem pages_tables : ∀ t ∈ [0, 1, 2, 3], (∀ c ∈ List.range 64, c ≠ 1 → (regGet (pages t 0 [] (0, 0)) 0x010 c).toNat.testBit 63 = false) ∧
    field (regGet (pages t 0 [] (0, 0)) 0x010 1).toNat 51 12 = 0x100 ∧ capRaw (pages t 0 [] (0, 0)) 2 0 = 2 ^ 27 ∧ lowMark (pages t 0 [] (0, 0)) 2 0 = 0 := by decide +kernel

theorem room_pages (t : Nat) (fs : List Frame) (o : Nat × Nat) (h : t ∈ [0, 1, 2, 3]) : capRaw (pages t 0 fs o) 2 0 = 2 ^ 27 ∧ lowMark (pages t 0 fs o) 2 0 = 0 := by
  have := pages_tables t h
  have e : (pages t 0 fs o).sysregs = (pages t 0 [] (0, 0)).sysregs := rfl
  simp only [capRaw, lowMark, regField, regGet, e] at this ⊢
  exact this.2.2

theorem hasTables_pages {t : Nat} (ht : t ∈ [0, 1, 2, 3]) (fs : List Frame) (o : Nat × Nat) : hasTables t (pages t 0 fs o) :=
  ⟨rfl, rfl, rfl, rfl, (pages_tables t ht).1, (pages_tables t ht).2.1⟩

theorem witness_class_change : ∃ pa, let f := frm 2 1 0x200000
    let s := pages 2 0 [f] (6, 1)
    leafAt s (s.obj.1 / 4) (65536 * s.obj.2) = some (leafRow 2) ∧ mayMove s 1 (frameCls s (leafIn 2)) (leafRow 2) pa ∧ s.obj.1 % 4 ≠ 3 ∧ pteDm (leafIn 2) = true ∧
      frameCls s (leafIn 2) ≠ s.obj.1 % 4 ∧
      Machine.pooled s (s.obj.1 / 4) (65536 * s.obj.2 / 65536 * 65536) 65536 = false ∧ (∀ k ∈ s.tasks, k.lease = false) ∧ frameCls s (leafIn 2) < 3 ∧
      allocate s (65536 * s.obj.2) 65536 (s.obj.1 % 4) (pteTier (leafIn 2)) .none = some pa := by
  obtain ⟨pa, h, hc, hp⟩ := allocate_host (pages 2 0 [frm 2 1 0x200000] (6, 1)) .none (frames_host (t := 2) (by simp) (hasTables_pages (by simp) _ _) (by simp [pages, frm])) rfl
    (host_room (t := 2) (by simp) (hasTables_pages (by simp) _ _) (by decide) (room_pages _ _ _ (by simp)).1 (room_pages _ _ _ (by simp)).2 _) (by decide +kernel) (by decide +kernel) 0x10000
  have hf : frameCls (pages 2 0 [frm 2 1 0x200000] (6, 1)) (leafIn 2) = 1 := by decide +kernel
  have ht : pteTier (leafIn 2) = 2 := by decide +kernel
  exact ⟨pa, by decide +kernel, hf ▸ may_move 2 (by omega) _ _ _ _ _ hc (by omega), by decide, by decide +kernel, by decide +kernel, by decide +kernel, by decide, by decide +kernel, by rw [ht]; exact h⟩

theorem witness_promotion : ∃ pa, let s := pages 2 512 [] (1, 0x10000)
    leafAt s s.obj.1 s.obj.2 = some (leafRow 2) ∧ pteDm (leafIn 2) = true ∧ pteTier (leafIn 2) = 2 ∧ mayMove s 1 (frameCls s (leafIn 2)) (leafRow 2) pa ∧
      Machine.pooled s s.obj.1 (s.obj.2 / 65536 * 65536) 65536 = false ∧ allocate s s.obj.2 65536 (frameCls s (leafIn 2)) 0 .stays = some pa := by
  obtain ⟨pa, h, hc, -⟩ := allocate_near (pages 2 512 [] (1, 0x10000)) .stays (by simp [pages]) rfl
    (fun d hd => by have := witness_marks (512, 1, 0x10000) (by simp) d hd; simp only [Bool.and_eq_true] at this; exact this.1) 0x10000
  have hf : frameCls (pages 2 512 [] (1, 0x10000)) (leafIn 2) = 2 := by decide +kernel
  exact ⟨pa, by decide +kernel, by decide +kernel, by decide +kernel, hf ▸ may_move 2 (by omega) _ _ _ _ _ (by omega) (by omega), by decide +kernel, by rw [hf]; exact h⟩
/-- The page lies in pool 2, whose pages stand in tier 0. -/
theorem witness_promotion_pooled : let s := regSet (regSet (pages 2 0 [] (1, 0x10000)) 0x018 18 0x10000) 0x019 18 0x8000000000000001
    poolTier s 1 0x10000 65536 = some 0 ∧ leafAt s 1 0x10000 = some (leafRow 2) := by decide +kernel

theorem witness_promotion_stored : ∃ pa, let s := pages 3 0 [] (1, 0x10000)
    leafAt s s.obj.1 s.obj.2 = some (leafRow 3) ∧ pteDm (leafIn 3) = true ∧ pteTier (leafIn 3) = 3 ∧ (∀ q ∈ s.storage, q.op ≠ 2) ∧
      allocate s s.obj.2 65536 (storedCls s (leafIn 3 / 65536 % 2 ^ 36) (leafIn 3)) 2 .none = some pa := by
  obtain ⟨pa, h, -⟩ := allocate_host (pages 3 0 [] (1, 0x10000)) .none (frames_host (t := 3) (by simp) (hasTables_pages (by simp) _ _) (by simp [pages])) rfl
    (host_room (t := 3) (by simp) (hasTables_pages (by simp) _ _) (by decide) (room_pages _ _ _ (by simp)).1 (room_pages _ _ _ (by simp)).2 _) (by decide +kernel) (by decide +kernel) 0x10000
  have hf : storedCls (pages 3 0 [] (1, 0x10000)) (leafIn 3 / 65536 % 2 ^ 36) (leafIn 3) = 2 := by decide +kernel
  exact ⟨pa, by decide +kernel, by decide +kernel, by decide +kernel, by decide, by rw [hf]; exact h⟩

/-- Tier 0 is full on die 0: CAP 1 under LOW 1023 with demotion on. -/
def full : State :=
  { pages 0 0 [frm 0 2 0x200000] (0, 0) with sysregs := [(1048577, 0x8000000000100000), (3342336, 0x00000001800003FF)] ++
      ((List.range 8).map fun d => (3407872 + d, 0x0010000080000000)) ++ [(3473408, 0x0010000080000000), (6029312, 0x0004000000000000)] }

theorem full_tables : hasTables 0 full := ⟨rfl, rfl, rfl, rfl, by decide +kernel, by decide +kernel⟩

theorem witness_demotion : ∃ pa, let s := full
    let f := frm 0 2 0x200000
    victim s s.obj.2 (s.obj.1 % 8) = some f ∧ leafAt s f.ctx f.va = some (leafRow 0) ∧ mayMove s 1 (frameCls s (leafIn 0)) (leafRow 0) pa ∧ s.obj.2 < 2 ∧
      (regGet s (0x033 + s.obj.2) (s.obj.1 % 8)).getLsbD 31 = true ∧ marksOk s s.obj.2 (s.obj.1 % 8) 0 (lowMark s s.obj.2 (s.obj.1 % 8)) = false ∧
      allocate s f.va f.size f.cls (if s.obj.2 = 0 ∧ Config.moduleForm then 1 else 2) .now = some pa := by
  obtain ⟨pa, h, hc, hp⟩ := allocate_next full .now (frames_low (t := 0) (by simp) full_tables (by simp [full, pages, frm])) rfl (by decide +kernel)
    (host_room (t := 0) (by simp) full_tables (by decide) (by decide +kernel) (by decide +kernel) _) (by decide +kernel) (by decide +kernel) 0x10000
  have hc' : frameCls full (leafIn 0) = 2 := by decide +kernel
  refine ⟨pa, by decide +kernel, by decide +kernel, hc' ▸ show mayMove (pages 0 0 [frm 0 2 0x200000] (0, 0)) 1 2 (leafRow 0) pa from may_move 0 (by omega) 2 0 _ _ _ hc (by omega), by decide, by decide +kernel, by decide +kernel, ?_⟩
  rw [show (if full.obj.2 = 0 ∧ Config.moduleForm then 1 else 2) = if Config.moduleForm = true then 1 else 2 by simp [full, pages]]; exact h

theorem witness_hot : ∃ pa, let f := frm 1 2 (2 ^ 49)
    let s := { pages 1 0 [f] (1, 0x10000) with counts := [(2 ^ 33, (65 : Word))] }
    (s.frames.find? fun f => f.ctx == s.obj.1 && f.va == s.obj.2 && f.tier == 1) = some f ∧ 64 < Machine.accesses s f ∧ Machine.pooled s f.ctx f.va f.size = false ∧
      leafAt s f.ctx f.va = some (leafRow 1) ∧ allocate s f.va f.size f.cls 0 .now = some pa ∧ mayMove s 1 (frameCls s (leafIn 1)) (leafRow 1) pa := by
  obtain ⟨pa, h, hc, -⟩ := allocate_near { pages 1 0 [frm 1 2 (2 ^ 49)] (1, 0x10000) with counts := [(2 ^ 33, 65)] } .now (by simp [pages, frm]) rfl (by decide +kernel) 0x10000
  have hf : frameCls { pages 1 0 [frm 1 2 (2 ^ 49)] (1, 0x10000) with counts := [(2 ^ 33, 65)] } (leafIn 1) = 2 := by decide +kernel
  exact ⟨pa, by decide +kernel, by decide +kernel, by decide +kernel, by decide +kernel, h,
    hf ▸ show mayMove (pages 1 0 [frm 1 2 (2 ^ 49)] (1, 0x10000)) 1 2 (leafRow 1) pa from may_move 1 (by omega) 2 0 _ _ _ (by omega) (by omega)⟩

/-- A recorded window over one line of the page. -/
def pinning (s : State) : State := { s with ctxs := [{ (ctxOf mm 1) with id := 1, pins := [⟨0, 512, 513, 0xFF, 0xFF, true⟩] }], obj := (1, 512) }

/-- The headworks knows the page's leaf; no table maps any page. -/
def pinned1 : State := { pinning mm with tlb := mm.tlb.map fun t => { t with core := 4096 } }

theorem witness_pin_promotion :
    (∃ p ∈ (ctxOf pinned1 1).pins, p.lo = 512 ∧ p.hi = 513 ∧ ∀ q ∈ (ctxOf pinned1 1).pins, q.lo = 512 → q.hi = p.hi) ∧ pinned1.flips = [] ∧ pinned1.lineKey = [] ∧
      tableWf zeros pinned1.mem = true ∧ (pinned1.sc.length + 1 ≤ localWays pinned1 5) ∧
      ((lineReq pinned1 4096 1 (128 * 512)).map fun r => (lineFree pinned1 r.1, checkLine pinned1 r.1.cls r.1.line r.1.dm)) = some (true, 0) := by
  refine ⟨⟨_, List.mem_singleton.mpr rfl, rfl, rfl, fun q hq _ => by rw [List.mem_singleton.mp hq]⟩, rfl, rfl, by decide, by decide +kernel, by decide +kernel⟩

theorem witness_pin_promotion_far : ∃ pa p, let s := pinning (pages 1 0 [] (1, 512))
    p ∈ (ctxOf s s.obj.1).pins ∧ p.lo = s.obj.2 ∧ p.hi = p.lo + 1 ∧ leafAt s s.obj.1 (65536 * (p.lo / 512)) = some (leafRow 1) ∧ pteDm (leafIn 1) = true ∧
      pteTier (leafIn 1) = 1 ∧ Machine.pooled s s.obj.1 0x10000 65536 = false ∧ allocate s (65536 * (p.lo / 512)) 65536 (frameCls s (leafIn 1)) 0 .none = some pa := by
  obtain ⟨pa, h, -⟩ := allocate_near (pinning (pages 1 0 [] (1, 512))) .none (by simp [pinning, pages]) rfl (by decide +kernel) 0x10000
  have hf : frameCls (pinning (pages 1 0 [] (1, 512))) (leafIn 1) = 2 := by decide +kernel
  exact ⟨pa, _, List.mem_singleton.mpr rfl, rfl, rfl, by decide +kernel, by decide +kernel, by decide +kernel, by decide +kernel, by rw [hf]; exact h⟩

/-- A FETCH under way keeps its frame, and the room it takes. -/
def fetching : State := { pages 3 0 [] (1, 0x10000) with storage := [{ op := 2, size := 0, ctx := 1, va := 0x10000, host := 0x7FF0000, handle := 32 }] }

theorem witness_fetch_frame : ∃ q ∈ fetching.storage, q.op = 2 ∧ ∃ f ∈ fetchFrames fetching, f.pa = 2 ^ 50 + q.host.toNat ∧ f.size = codeSize q.size :=
  ⟨_, List.mem_singleton.mpr rfl, by decide, _, List.mem_singleton.mpr rfl, rfl, rfl⟩

/-! ## Witnesses: registers that start work of the device -/

theorem witness_rwr : (∀ n ∈ [0, 4, 8], regsWf m ∧ n ≤ 8 ∧ (regGet m 0x021 511).getLsbD 31 = false) ∧ (regGet (regSet m 0x021 511 0x80000001) 0x021 511).getLsbD 31 = true ∧
    regsWf (inSlice mm) ∧ ((inSlice mm).sc.map (·.line)).Nodup := by decide +kernel
/-- The line stands in way 15 of slice 5, which reserves one way. -/
def leaving (owned : Bool) : State :=
  { regSet mm 0x021 5 1 with sc := [{ line := 2560, slice := 5, way := 15, cls := 2, dm := false, dom := 0, ctx := 1, va := 512 }], obj := (5, 0)
                             merges := if owned then [opened 0] else [] }
theorem witness_rwr_leaves : ∀ b ∈ [true, false], regsWf (leaving b) ∧ ((leaving b).sc.map (·.line)).Nodup ∧
    ∃ x ∈ (leaving b).sc, x.slice = 5 ∧ 16 - (regGet (leaving b) 0x021 5).toNat % 2 ^ 4 ≤ x.way ∧ pinned (leaving b) x = false ∧ lineOwned (leaving b) x.line = b := by decide +kernel
theorem witness_tinv : (regGet m 0x039 0).getLsbD 0 = false ∧ regsWf (regSet m 0x039 0 1) ∧ (regGet (regSet m 0x039 0 1) 0x039 0).getLsbD 0 = true ∧ (regSet m 0x039 0 1).ops = [] := by decide +kernel
/-- TINV covers all of context 1, or of context 2. -/
def flushing (ctx : Nat) : State :=
  { regSet (regSet (homed .load false false) 0x039 0 1) 0x038 0 (.ofNat 64 (1024 * ctx + 512)) with
    merges := [opened 0], mmas := [{ id := 10, gang := 1, team := 1, core := 0, form := 0, op := 0xA0, computed := true }] }
theorem witness_tinv_under_way : tinvPending (regGet (flushing 1) 0x038 0).toNat (flushing 1) = true := by decide +kernel
theorem witness_tinv_over : let s := flushing 2
    let v := (regGet s 0x038 0).toNat
    regsWf s ∧ (regGet s 0x039 0).getLsbD 0 = true ∧ (∀ o ∈ s.ops, o.kind ≠ .fence ∧ ∀ l ∈ o.lanes, tinvCovers v o.ctx l.va.toNat l.size = false) ∧ (∀ x ∈ s.merges, x.isOpen = true) ∧
      (∀ x ∈ s.mmas, x.computed = true) := by decide +kernel
theorem witness_tinv_fence : ∀ b ∈ [true, false], ∀ r ∈ ({ req .load false b with kind := .fence } : Op).lines, r.granted = true ∨ tinvCovers (1024 * (if b then 1 else 2) + 512) 1 (128 * r.va) 128 = false := by decide
theorem witness_tlb_walk : let s := { paged 1 32 with obj := (1, 0x10000) }
    (∀ x ∈ s.tlb, x.core ≠ s.obj.1 / 64) ∧ (walk s (s.obj.1 % 64) s.obj.2).1 = .ok (leafIn 1, 65536) := by decide +kernel
theorem witness_reshape : reshaping (inSlice mm) = false ∧ stagingOk (inSlice mm) = true ∧ (0x80000000 : Word).getLsbD 31 = true ∧
    (let s := { inSlice mm with staged := [(regKey 0x03B 1, 0x8001000000000001)] }
     regsWf s ∧ reshaping s = false ∧ stagingOk s = false) := by decide +kernel
theorem witness_handoff : let s := { away (some 6) with obj := (2560, 0) }
    reshaping s = true ∧ regsWf s ∧ (∃ x, scOf s 2560 = some x ∧ x.slice ≠ homeOf s x.dom 2560) ∧ lineOwned s 2560 = false ∧
      (s.sc.filter (·.slice == homeOf s 0 2560)).length < localWays s (homeOf s 0 2560) := ⟨by decide +kernel, by decide +kernel, ⟨_, rfl, by decide +kernel⟩, by decide +kernel, by decide +kernel⟩
/-- A monitor on a line that no slice holds goes to the line's new home. -/
theorem witness_strayed : ∀ b ∈ [true, false], let s := { away none with monitors := [⟨1, 327680, 4, 6, 0⟩], merges := if b then [opened 0] else [], obj := (2560, 0) }
    reshaping s = true ∧ lineOwned s s.obj.1 = b ∧ ∃ x ∈ s.monitors, x.pa / 128 = s.obj.1 ∧ strayed s x = true := by decide +kernel

/-- A queue's ring, tail and head in host memory, the queue enabled or not, of context 1. -/
def queued (q on : Nat) (s : State) : State :=
  [(0x040, 2 ^ 50), (0x041, 2 ^ 50 + 0x1000000), (0x042, 2 ^ 50 + 0x1000080), (0x043, on * 2 ^ 63 + 2 ^ 57 * 0 + 2 ^ 48 + 4)].foldl (fun s r => regSet s r.1 q (.ofNat 64 r.2)) s

theorem witness_queue_enable : (let s := queued 511 0 m
      regsWf s ∧ qOn s 511 = false ∧ ∀ n ∈ [0, 12], apart3 (regGet s 0x040 511).toNat (1024 * 2 ^ n) (regGet s 0x041 511).toNat (regGet s 0x042 511).toNat) ∧
    regsWf (queued 511 1 m) ∧ qOn (queued 511 1 m) 511 = true := by decide +kernel

/-- Pool 2 of context 1 is the page of `paged`, not yet enabled. -/
def poolSet : State := regSet (regSet (paged 2 32) 0x018 18 0x10000) 0x019 18 1

theorem witness_pool_enable : regsWf poolSet ∧ poolOn poolSet 1 2 = false ∧ (poolSet.ctxs.any (·.id == 1)) = true ∧
    mayEnablePool poolSet (regSet poolSet 0x019 18 0x9000000000000001) 18 0x9000000000000001 := by
  refine ⟨by decide +kernel, by decide +kernel, by decide +kernel, by decide, by decide, by decide +kernel, by decide, by decide, ?_, by decide +kernel⟩
  have h : poolPages (regSet poolSet 0x019 18 0x9000000000000001) 1 2 = [0x10000] ∧ (walk (regSet poolSet 0x019 18 0x9000000000000001) 1 0x10000).1 = .ok (leafIn 2, 65536) ∧
      pteR (leafIn 2) = true ∧ pteW (leafIn 2) = true ∧ pteCls (leafIn 2) = 2 := by decide +kernel
  intro a ha
  rw [show (18 : Nat) / 16 = 1 by decide, show (18 : Nat) % 16 = 2 by decide, h.1, List.mem_singleton] at ha
  subst ha
  exact ⟨_, _, h.2.1, h.2.2.1, h.2.2.2.1, h.2.2.2.2⟩
theorem witness_pool_disable : regsWf (regSet poolSet 0x019 18 0x9000000000000001) ∧ (0x1000000000000001 : DWord).getLsbD 63 = false ∧ 1023 < 1024 := by decide +kernel

/-- The storage ring and its acknowledgement word in host memory; PROD and ACK as given; one request for context 1's page. -/
def ringed (on prod ack : Nat) (q : StorageReq) (s : State) : State :=
  let s := [(0x058, 2 ^ 50), (0x059, on * 2 ^ 63 + 2 ^ 12), (0x05A, 2 ^ 50 + 0x1000000), (0x05C, 2 ^ 50), (0x05B, prod * 2 ^ 32 + ack)].foldl (fun s r => regSet s r.1 0 (.ofNat 64 r.2)) s
  { s with storage := [q] }

/-- The request for a page that its frame holds, or the storage object 7 does. -/
def asks (n : Option Nat) (op host : Nat) : StorageReq := { n := n, op := op, size := 0, host := .ofNat 64 host, handle := 7, ctx := 1, va := 0x10000 }

theorem witness_ring_enable : ∀ n ∈ [0, 12], let s := ringed 0 0 0 (asks none 1 0) m
    regsWf s ∧ (regGet s 0x059 0).getLsbD 63 = false ∧ spaceOf (regGet s 0x058 0).toNat = 2 ∧ spaceOf (regGet s 0x05A 0).toNat = 2 ∧ spaceOf (regGet s 0x05C 0).toNat = 2 ∧
      disjoint (regGet s 0x058 0).toNat (64 * 2 ^ n) (regGet s 0x05A 0).toNat 128 = true := by decide +kernel
theorem witness_ring_enabled : regsWf (ringed 1 0 0 (asks none 1 0) m) ∧ (regGet (ringed 1 0 0 (asks none 1 0) m) 0x059 0).getLsbD 63 = true := by decide +kernel
theorem witness_storage_write : ∀ p ∈ [(0, 0), (2 ^ 32 - 1, 2 ^ 32 - 2)], let s := ringed 1 p.1 p.2 (asks none 1 0x10000) m
    s.storage.find? (fun q => q.n.isNone && q.op == 1 && q.size == 0 && q.host == 0x10000 && q.handle == 7) = some (asks none 1 0x10000) ∧
      (p.1 + 2 ^ 32 - p.2) % 2 ^ 32 < 2 ^ 1 ∧ ((regGet s 0x058 0).toNat + 64 * (p.1 % 2 ^ 1)) % 64 = 0 ∧ regsWf s := by decide +kernel

/-- Storage object 7, all zero. -/
def object7 : Stored := ⟨7, 2, [], [], [], [], []⟩

/-- The host has acknowledged request 0, whose page is at pa, or is to be. -/
def acked (op tier f : Nat) : State :=
  let s := ringed 1 1 0 (asks (some 0) op (f * 65536)) (paged tier (2 ^ 34 + f))
  { s with mem := writeBytes s.mem (2 ^ 50 + 0x1000000) [1], stored := [object7], frames := [{ ctx := 1, va := 0x10000, pa := 2 ^ 50 + f * 65536, size := 65536, cls := 2, tier := 2 }] }

theorem witness_storage_ack : ∀ o ∈ [(1, 2), (2, 3), (3, 2)], let s := acked o.1 o.2 32
    acknowledged s (asks (some 0) o.1 0x200000) 0 ∧ s.flips = [] ∧ tableWf zeros s.mem = true ∧
      ∃ e, leafAt s 1 0x10000 = some (0x104008, e, 65536) ∧ disjoint (2 ^ 50 + 0x200000) 65536 0x104008 8 = true ∧ pteTier e = o.2 ∧ pteFrame e = 2 ^ 50 + 0x200000 ∧
        s.stored.find? (·.handle == 7) = some object7 ∧ object7.flips = [] ∧ tableWf zeros object7.bytes = true ∧ ∀ c ∈ s.copies, c.dirty = [] := by
  intro o ho
  obtain rfl | rfl | rfl : o = (1, 2) ∨ o = (2, 3) ∨ o = (3, 2) := by simpa using ho
  · exact ⟨by decide +kernel, rfl, by decide +kernel, leafIn 2 + 2 ^ 50, by decide +kernel⟩
  · exact ⟨by decide +kernel, rfl, by decide +kernel, leafIn 3 + 2 ^ 50, by decide +kernel⟩
  · exact ⟨by decide +kernel, rfl, by decide +kernel, leafIn 2 + 2 ^ 50, by decide +kernel⟩

/-! ## Witnesses: the host, the peers, Headgate -/

/-- The page's first line, in its slice. -/
def scLine : ScLine := { line := 16384, slice := 5, cls := 2, dm := false, dom := 0, ctx := 1, va := 512 }

/-- Window 15 shows the page of `paged` from its start to the host, the peers or both, and the page's first line is in its slice. -/
def windowed (host peer : Nat) (o : Nat × Nat) : State :=
  { regSet (regSet (paged 1 32) 0x048 15 0x10000) 0x049 15 (.ofNat 64 (2 ^ 63 + 2 ^ 57 + host * 2 ^ 56 + peer * 2 ^ 55 + 1)) with sc := [scLine], obj := o }

theorem witness_window_refused : windowAt (windowed 0 1 (15 * 2 ^ 40, 0)) false true false (15 * 2 ^ 40) = none ∧ windowAt (windowed 1 0 (0, 0)) true true true (15 * 2 ^ 40) = none ∧
    windowAt (windowed 1 0 (0, 0)) false false true (15 * 2 ^ 40 + 65536) = none ∧ windowAt (windowed 1 0 (0, 0)) false true false (16 * 2 ^ 40) = none := by decide +kernel
theorem witness_window : ∀ a ∈ [15 * 2 ^ 40, 15 * 2 ^ 40 + 64], ∃ r, windowAt (windowed 1 1 (a, 0)) false true false (a / 64 * 64) = some (1, r, 0x200000 + a % 128) ∧
    windowAt (windowed 1 1 (a, 0)) false false true a = some (1, r, 0x200000 + a % 128) ∧ windowAt (windowed 1 1 (a, 0)) true true true a = some (1, r, 0x200000 + a % 128) ∧
    mayTouch (windowed 1 1 (a, 0)) 1 r (0x200000 + a % 128) 64 false ∧ mayTouch (windowed 1 1 (a, 0)) 1 r (0x200000 + a % 128) 64 true ∧
    mayTouch (windowed 1 1 (a, 0)) 1 r (0x200000 + a % 128) 8 true ∧ a % 8 = 0 := by
  intro a ha
  obtain rfl | rfl : a = 15 * 2 ^ 40 ∨ a = 15 * 2 ^ 40 + 64 := by simpa using ha
  · exact ⟨reqOf m (leafIn 1) 0x200000 0x10000, by decide +kernel⟩
  · exact ⟨reqOf m (leafIn 1) 0x200040 0x10040, by decide +kernel⟩
theorem witness_snoop : ∀ a ∈ [2 ^ 50, 2 ^ 50 + 64], (a / 2 ^ 49 % 2 ^ 3 = 2 ∧ lineOwned { m with obj := (a, 0) } (a / 128) = false) := by decide +kernel
/-- A store of the host waits for the invalidation of its line, which waits for a merge line, or lands. -/
def snooping (owned : Bool) : State :=
  { m with obj := (2 ^ 50, 64), hostStores := [(2 ^ 50, [7])]
           merges := if owned then [{ opened 0 with lines := [{ mergeLine true with line := 2 ^ 43 }] }] else [] }
theorem witness_snoop_store : ∀ b ∈ [true, false], let s := snooping b
    s.obj.1 / 2 ^ 49 % 2 ^ 3 = 2 ∧ lineOwned s (s.obj.1 / 128) = b ∧ (s.hostStores.filter fun e => e.1 / 128 == s.obj.1 / 128) = [(2 ^ 50, [7])] ∧ lockedAt s (2 ^ 50) 1 = false ∧
      get0 s.lineKey (s.obj.1 / 128) = 0 ∧ inSc s (s.obj.1 / 128) = false ∧ ∀ x ∈ s.monitors, x.pa / 128 ≠ s.obj.1 / 128 := by decide +kernel
theorem witness_snoop_ack : let s := { ringed 1 0 0 (asks none 1 0) m with obj := (2 ^ 50 + 0x1000000, 0), hostLines := [(2 ^ 50 + 0x1000000) / 128] }
    s.obj.1 / 2 ^ 49 % 2 ^ 3 = 2 ∧ s.hostStores = [] ∧ s.obj.1 / 128 ∈ s.hostLines ∧ (regGet s 0x059 0).getLsbD 63 = true ∧ (regGet s 0x05A 0).toNat / 128 = s.obj.1 / 128 := by decide +kernel
theorem witness_snoop_sealed : ∀ b ∈ [true, false],
    let x : ScLine := { line := 2 ^ 43, slice := 5, dirty := 1, cls := 1, dm := true, dom := 0, ctx := 1, va := 512 }
    let s := { mm with ctxs := [{ id := 1, key := true, keyGen := 3 }], sc := if b then [x] else [], lineKey := if b then [] else [(2 ^ 43, 4)] }
    (2 ^ 50 + 64) % 64 = 0 ∧ (b = true → scOf s ((2 ^ 50 + 64) / 128) = some x ∧ keyMark s 1 ≠ 0 ∧ keyMark s 1 ≠ rawMark) ∧
      (b = false → get0 s.lineKey ((2 ^ 50 + 64) / 128) ≠ 0 ∧ get0 s.lineKey ((2 ^ 50 + 64) / 128) ≠ rawMark ∧ scOf s ((2 ^ 50 + 64) / 128) = none) := by decide
theorem witness_snoop_tail : let s := { queued 511 1 m with obj := (2 ^ 50 + 0x1000000, 0), hostLines := [(2 ^ 50 + 0x1000000) / 128] }
    qOn s 511 = true ∧ qDev s 511 = false ∧ (regGet s 0x041 511).toNat / 128 = s.obj.1 / 128 ∧ s.obj.1 / 128 ∈ s.hostLines := by decide +kernel

theorem witness_mail : mailReady m = true ∧ mailReady { m with hg := { m.hg with sts := 0 } } = false := by decide
theorem witness_mail_codes : ∀ c ∈ [(0x01, true), (0x30, true), (0x05, false), (0xFFFF, false)], decide (({ m with obj := (c.1, 0) } : State).obj.1 % 65536 ∈ mailCodes) = c.2 := by decide
theorem witness_ctx_create : mailReady m = true ∧ (∀ x ∈ m.ctxs, x.id ≠ 63) ∧ (∃ x ∈ m.ctxs, x.id = 1) := by decide
theorem witness_ctx_destroy : (({ m with obj := (1, 0) } : State).ctxs.any (·.id == 1)) = true ∧ m.keyDels = [] ∧ (({ m with obj := (2, 0) } : State).ctxs.any (·.id == 2)) = false := by decide
theorem witness_ctx_banks : (4095 : Nat) < 4096 ∧ ¬ (4096 : Nat) < 4096 ∧ (63 : Nat) < 64 ∧ (64 : Nat) ≤ 64 := by decide
theorem witness_log_read : ∀ o ∈ [(0, 1), (2 ^ 32 - 1, 1919)], o.1 < 2 ^ 32 ∧ 0 < o.2 ∧ o.2 ≤ 1919 := by decide
theorem witness_log_read_finds : asked { m.hg with log := [⟨5, 7, 1, 2⟩] } 0 1 = [⟨5, 7, 1, 2⟩] := by decide

/-- Headgate at bring-up, a part of an image staged. -/
def stagedHg (bank : Nat) (valid : List Bool) (part : List Byte) : Headgate := { m.hg with bank := bank, version := [3, 4], valid := valid, staged := part }

theorem witness_firmware : ∀ b ∈ [0, 1], banksOk (stagedHg b [true, true] [1]) ∧ (stagedHg b [true, true] [1]).valid[1 - b]? = some true ∧ (stagedHg b [false, false] [1]).valid[1 - b]? = some false ∧
    (stagedHg b [true, true] [1]).staged.length = 1 ∧ 1 + ([2] : List Byte).length < 3 ∧ 1 + ([2] : List Byte).length = 2 := by decide
theorem witness_attest : (List.replicate 48 (0 : Byte)).length = 48 ∧ tableWf zeros m.hg.buf = true := by decide
theorem witness_soft_error : tableWf zeros m.flips = true ∧ popc (0x80 : Byte) = 1 ∧ popc (0x81 : Byte) = 2 ∧ onlyCopy 5 1 (2560 * 128) (inSlice mm) = false ∧
    (2 ^ 60 + 5) / 2 ^ 60 = 1 ∧ gangOf mm 1 = some mm.g ∧ mm.g.place ≠ .ended ∧ (mm.ctxs.any (·.id == (teamOf mm mm.g.team).ctx)) = true ∧ tableWf zeros mm.g.v = true := by decide +kernel
theorem witness_soft_error_slice : let s := { mm with sc := (inSlice mm).sc.map fun x => { x with dirty := 1 } }
    (∃ x, scOf s ((2560 * 128 + 3) / 128) = some x ∧ x.dirty ≠ 0 ∧ (s.ctxs.any (·.id == x.ctx)) = true) ∧ tableWf zeros s.mem = true := ⟨⟨_, rfl, by decide⟩, by decide⟩
theorem witness_power : regsWf m ∧ (({ m with obj := (7, 0) } : State).obj.1 < 8) ∧ dieBusy { m with busy := [(65, 100)] } 1 = [(1, 100)] := by decide +kernel
/-- Two contexts share seven units of energy. -/
theorem witness_split : 3 < (([(0, 5), (63, 10)] : List (Nat × Nat)).map (·.2)).sum ∧ splitEnergy 7 15 3 0 [(0, 5), (63, 10)] = [(0, 2), (63, 5)] := by decide
/-- The last core runs context 63. -/
theorem witness_busy : let s := { m with sysregs := [(0x022 * 65536 + 4095, .ofNat 64 (2 ^ 37 + 63 * 2 ^ 38))], clk := 10, busyTo := 4 }
    runs s 4095 = some 63 ∧ s.busyTo < s.clk ∧ tableWf zeros s.busy = true := by decide +kernel
theorem witness_boot : bootBank (stagedHg 0 [true, false] []) = some 0 ∧ bootBank { stagedHg 0 [false, false] [] with rollback := 5 } = none := by decide
theorem witness_boot_stores : ∀ e ∈ [(2 ^ 50, [(7 : Byte)])], (∀ i < e.2.length, 2 ≤ (e.1 + i) / 2 ^ 49 % 2 ^ 3) ∧ (2 ^ 50 + 1 < e.1 ∨ e.1 + e.2.length ≤ 2 ^ 50 + 1) := by decide

/-! ## Witnesses: launches -/

/-- A launch record's bytes: one range, 32 threads, 16 registers, the entry at 0x8000, one team; its completion record at a. -/
def recBytes (cmpa regs edges : Nat) : Table 8 :=
  [(0, 1 + 256 + 65536 * edges), (8, 0x8000), (0x10, 32 + 65536 + 2 ^ 32 + 2 ^ 48 * regs), (0x20, 1 + 2 ^ 32 + 2 ^ 48), (0x48, cmpa), (0x100, 0x10007), (0x108, 0x10000)].foldl (fun m x => writeLe m x.1 8 x.2) []

/-- Queue 511 with a tail and a head of counts, its records from `qread` on unread, its tail line's word n. -/
def waiting (tail head read n : Nat) : State :=
  let s := queued 511 1 m
  let s := { s with qread := [(511, .ofNat 32 read)], mem := writeBytes [] (2 ^ 50 + 0x1000000) (leBytes 4 n), obj := (511, 0) }
  regSet s 0x044 511 (.ofNat 64 (tail * 2 ^ 32 + head))

theorem witness_queue_tail : ∀ n ∈ [5, 21, 22, 4], let s := waiting 5 5 5 n
    s.obj.1 < 512 ∧ regsWf s ∧ qOn s 511 = true ∧ qDev s 511 = false ∧ leNat (homeBytes s (regGet s 0x041 511).toNat 4) = n ∧ qSlots s 511 = 16 ∧
      (ahead n (qHead s 511) ≤ qSlots s 511 ↔ n ≠ 22 ∧ n ≠ 4) := by decide +kernel
theorem witness_record_fetch : ∀ p ∈ [(6, 5), (0, 2 ^ 32 - 1), (21, 5)], let s := waiting p.1 p.2 p.2 0
    qOn s 511 = true ∧ qDev s 511 = false ∧ tableWf zeros s.qread = true ∧ ahead (qTail s 511) (get0 s.qread 511).toNat ≠ 0 ∧
      ahead (qTail s 511) (get0 s.qread 511).toNat ≤ qSlots s 511 := by decide +kernel

/-- The record stands in queue 0, read and not started. -/
def recorded (cmpa regs : Nat) : State := { m with recs := [{ q := 0, n := 5, bytes := recBytes cmpa regs 0 }] }

theorem witness_record_start : ∀ c ∈ [0, 32, 64], let s := recorded c 16
    s.recs.find? (fun r => r.q == s.obj.1 && !r.started) = some { q := 0, n := 5, bytes := recBytes c 16 0 } ∧ (∀ k ∈ s.tasks, k.q = s.obj.1 → starting k = false) ∧
      (∀ k ∈ s.tasks, k.id ≠ s.nextId) ∧ readLe (recBytes c 16 0) 0x48 8 = c ∧ recordOk (recBytes c 16 0) = true ∧ recordOk (recBytes c 17 0) = false := by decide +kernel

/-- The request of the page's first line. -/
def oneLine : LineReq := { line := 16384, va := 512, bulk := false, cls := 2, dm := true, dom := pteDom (leafIn 2) }

/-- A task being launched, in a stage; page 0x10000 of context 1 is in memory, its first line in its slice. -/
def launching (stage : Stage) (f : Task → Task) (s : State := { paged 2 32 with sc := [scLine] }) : State :=
  { s with tasks := [f { id := 2, ctx := 1, stage := stage, tx := 32, regs := 16, gx := 1, gy := 1, gz := 1, ranges := [⟨0x10000, 0x10000, true, true, true⟩] }], obj := (2, 0) }

theorem witness_edges : ∀ b ∈ [false, true], ∃ k, itsTask (launching .edges fun k => { k with edgeBad := b }) k ∧ k.stage = .edges ∧ k.edges[k.seen]? = none ∧ k.edgeBad = b := by
  intro b hb; exact ⟨_, rfl, rfl, rfl, rfl⟩
theorem witness_edge_done :
    let s := launching .edges (fun k => { k with edges := [(0x10040, [])] }) { paged 2 32 with sc := [scLine], mem := writeBytes (table 2 32) 0x200040 [0, 0, 0, 0, 8, 0, 0, 0x80] }
    (s.tasks.map fun k => k.edges[k.seen]?) = [some (0x10040, [])] ∧ workLine s 1 0x10040 oneLine 0x200040 ∧ (homeByte s (0x200040 + 7)).getLsbD 7 = true := by decide +kernel
theorem witness_grid : ∀ p ∈ [(0, 0), (1, 0), (1, 8)], ∃ k, itsTask (launching .grid fun k => { k with gx := p.1, coha := .ofNat 64 p.2 }) k ∧ k.stage = .grid ∧ k.gmem = false ∧
    gridSize k = p.1 ∧ k.coha.toNat = p.2 ∧ k.cba = 0 := by
  intro p hp; fin_cases hp <;> exact ⟨_, rfl, by decide⟩
theorem witness_grid_word_unmapped :
    let s := launching .grid fun k => { k with gmem := true, gaddr := 0x20000 }
    ∃ k c, itsTask s k ∧ k.stage = .grid ∧ k.gmem = true ∧ checkPage s k heldPost { r := true } k.gaddr = .error c := ⟨_, _, rfl, rfl, rfl, rfl⟩

/-- A task whose grid word is at 0x10000, where x stands. -/
def gridWord (snt : Bool) (x : Nat) : State :=
  launching .grid (fun k => { k with gmem := true, gaddr := 0x10000, gsnt := snt, sent := 7 })
    { paged 2 32 with mem := writeLe (table 2 32) 0x200000 4 x, sc := [scLine] }

theorem witness_grid_word : ∀ x ∈ [0, 7, 2 ^ 31 - 1, 2 ^ 31], ∃ k, itsTask (gridWord true x) k ∧ k.stage = .grid ∧ k.gmem = true ∧ k.gsnt = true ∧ k.sent = 7 ∧ k.coha = 0 ∧ k.cba = 0 ∧
    checkPage (gridWord true x) k heldPost { r := true } k.gaddr = .ok (leafIn 2, 65536) ∧ pteBulk (leafIn 2) = false ∧ inStorage (leafIn 2) = false ∧
    workLine (gridWord true x) k.ctx k.gaddr.toNat oneLine 0x200000 ∧ 0x200000 = paOf (leafIn 2) 65536 k.gaddr.toNat ∧
    leNat (homeBytes (gridWord true x) 0x200000 4) = x := by
  intro x hx
  obtain rfl | rfl | rfl | rfl : x = 0 ∨ x = 7 ∨ x = 2 ^ 31 - 1 ∨ x = 2 ^ 31 := by simpa using hx
  all_goals exact ⟨_, rfl, by decide +kernel⟩
theorem witness_grid_word_bulk :
    let s := launching .grid (fun k => { k with gmem := true, gaddr := 0x10000 }) { paged 2 32 with mem := writeLe (table 2 32) 0x104008 8 (leafIn 2 + 2 ^ 59) }
    ∃ k, itsTask s k ∧ checkPage s k heldPost { r := true } k.gaddr = .ok (leafIn 2 + 2 ^ 59, 65536) ∧ pteBulk (leafIn 2 + 2 ^ 59) = true := ⟨_, rfl, by decide +kernel⟩

theorem witness_lease : ∀ p ∈ [(0x20000, 3), (0x10000, 1), (0x10000, 2)], let s := launching .lease fun k => { k with floorC := p.2, ranges := [⟨p.1, 0x10000, true, true, true⟩] }
    ∃ k, itsTask s k ∧ k.stage = .lease ∧ k.failed = false ∧ k.lease = false ∧ ((rangeLeaves s k).all (·.2.isSome) ↔ p.1 = 0x10000) ∧
      (p.1 = 0x10000 → rangeLeaves s k = [(0x10000, some (leafIn 2, 65536))] ∧ pageCls s (leafIn 2) = 2 ∧ rangePages s k = [(0x10000, leafIn 2, 65536)]) := by
  intro p hp
  obtain rfl | rfl | rfl : p = (0x20000, 3) ∨ p = (0x10000, 1) ∨ p = (0x10000, 2) := by simpa using hp
  all_goals exact ⟨_, rfl, by decide +kernel⟩
theorem witness_lease_failed : ∃ k, itsTask (launching .lease fun k => { k with failed := true }) k ∧ k.stage = .lease ∧ k.failed = true := ⟨_, rfl, rfl, rfl⟩
/-- The raw storage of tiers 0 and 1: at least tier 0's on die 0; none where no die's CAP is above 0. -/
theorem near_raw (s : State) : capRaw s 0 0 ≤ nearRaw s ∧ ((∀ d ∈ List.range 8, capRaw s 0 d = 0 ∧ capRaw s 1 d = 0) → nearRaw s = 0) := by
  constructor
  · simp only [nearRaw, List.range_succ_eq_map, List.map_cons, List.sum_cons]; omega
  · intro h
    have e : ((List.range 8).map fun d => capRaw s 0 d + if Config.moduleForm then capRaw s 1 d else 0) = (List.range 8).map fun _ => 0 :=
      List.map_congr_left fun d hd => by simp [h d hd]
    rw [nearRaw, e]; rfl

/-- The page fits; and, where the tiers have no storage, it does not. -/
theorem witness_lease_room : let p := [(0x10000, leafIn 2, 65536)]
    let s := launching .lease (fun k => { k with floorC := 2 }) (pages 2 0 [] (2, 0))
    let z := { s with sysregs := (1048577, 0x8000000000100000) :: (List.range 8).flatMap fun d => [(3342336 + d, 0), (3407872 + d, 0)] }
    (∃ k, itsTask s k ∧ rangePages s k = p ∧ (p.map fun p => rawOf p.2.2 (pageCls s p.2.1)).sum + heldRaw s k p ≤ nearRaw s) ∧
      ∃ k, itsTask z k ∧ rangePages z k = p ∧ ¬ (p.map fun p => rawOf p.2.2 (pageCls z p.2.1)).sum + heldRaw z k p ≤ nearRaw z := by
  refine ⟨⟨_, rfl, by decide +kernel, le_trans ?_ (near_raw _).1⟩, _, rfl, by decide +kernel, ?_⟩
  · decide +kernel
  · rw [(near_raw _).2 (by decide +kernel)]; decide +kernel
theorem witness_lease_near : let s := launching .lease (fun k => { k with lease := true }) (paged 1 32)
    ∃ k, itsTask s k ∧ k.stage = .lease ∧ k.failed = false ∧ k.lease = true ∧ ∀ p ∈ rangePages s k, pteTier p.2.1 < 2 := ⟨_, rfl, by decide +kernel⟩

/-- A task that has ended, its completion record at 0x10040. -/
def ending (stage : Stage) : State := launching stage fun k => { k with cmpa := 0x10040, next := 1 }

theorem witness_completion : ∀ g ∈ [Stage.ended, .running], ∃ k, itsTask (ending g) k ∧ (k.stage = .ended ∨ (k.stage = .running ∧ gridSize k ≤ k.next)) ∧ teamsLeft (ending g) k.id = false ∧
    workLeft (ending g) k = false ∧ dirtyOf (ending g) k = [] ∧ (∀ x ∈ (ending g).refused, x.copy.ctx ≠ k.ctx) ∧ workLine (ending g) k.ctx k.cmpa.toNat oneLine 0x200040 ∧
    0x200040 % 64 = 0 ∧ k.cmpa.toNat % 64 = 0 ∧ oneLine.line = 0x200040 / 128 ∧
    lineReq (ending g) heldPost k.ctx (k.cmpa.toNat + 8) = some (oneLine, 0x200040 + 8) ∧
    (∀ ea ∈ (walk (ending g) k.ctx k.cmpa.toNat).2 ++ (walk (ending g) k.ctx (k.cmpa.toNat + 8)).2, ea / 128 ≠ 0x200040 / 128) ∧ (∀ x ∈ (ending g).relays, x.ctx ≠ k.ctx) ∧
    ((ending g).ctxs.any (·.id == k.ctx)) = true ∧ (ending g).flips = [] ∧ tableWf zeros (ending g).mem = true ∧ (∀ i < 8, ((regGet (ending g) 0x042 k.q).toNat + i) / 128 ≠ 0x200040 / 128) := by
  intro g hg
  obtain rfl | rfl : g = .ended ∨ g = .running := by simpa using hg
  all_goals exact ⟨_, rfl, by decide +kernel⟩

/-! ## Witnesses: teams, and the step -/

/-- A task of two teams of which one is left; nothing else runs on die 0, whose weights are the reset ones. -/
def dispatching : State :=
  { m with teams := [], g := State.reset.g, tasks := [{ id := 1, ctx := 1, stage := .running, tx := 32, regs := 16, gx := 2, gy := 1, gz := 1, next := 1 }], visits := [⟨0, 0, 1⟩], nextId := 10 }

theorem witness_visit : regsWf dispatching ∧ tableWf zeros dispatching.classIn = true ∧ backlogged (takeClasses 0 dispatching) 0 = [0] ∧ weight dispatching 0 0 ≠ 0 ∧ paid dispatching 0 0 = weight dispatching 0 0 ∧ weight dispatching 0 0 < 256 := by decide +kernel
/-- A visit ends where its class's head team is blocked: no register slot of die 0 has room for its 2 gangs' worth of registers. -/
def blocked : State := { dispatching with tasks := [{ id := 1, ctx := 1, stage := .running, tx := 32, regs := 2000, gx := 2, gy := 1, gz := 1, next := 1 }] }
theorem witness_visit_ends : ∃ v t, blocked.visits.find? (·.die == blocked.obj.1) = some v ∧ v.cls < 16 ∧ headTeam blocked blocked.obj.1 v.cls = some t ∧ teamGangs blocked t = [] ∧ chooseCore blocked blocked.obj.1 t = none ∧ regsWf blocked :=
  ⟨_, _, rfl, by decide, rfl, by decide +kernel, by decide +kernel, by decide +kernel⟩
theorem witness_dispatch : ∃ v t, dispatching.visits.find? (·.die == dispatching.obj.1) = some v ∧ v.cls < 16 ∧ headTeam dispatching dispatching.obj.1 v.cls = some t ∧ teamGangs dispatching t = [] ∧ energyBlocked dispatching t.ctx = false ∧
    chooseCore dispatching 0 t = some 0 ∧ idsOk dispatching ∧ (dispatching.tasks.any (·.id == t.task)) = true ∧ v.left ≤ 1 := ⟨_, _, rfl, by decide, rfl, by decide +kernel⟩
/-- A suspended team has come to die 0 while a closed batch of a lateral is bound for it. -/
def subscribing : State :=
  { m with g := { gang with place := .saved, active := false, cl := {} }, visits := [⟨0, 0, 1⟩],
           tasks := [{ id := 1, ctx := 1, stage := .running, tx := 32, regs := 16, scr := 4096, gx := 1, gy := 1, gz := 1, next := 1 }], teams := [{ uid := 1, task := 1, ctx := 1, place := .undispatched, scr := 4096 }]
           laterals := [{ handle := 1, ctx := 1, pub := 1, sub := 1, po := 0, so := 0, len := 32, closed := [⟨0, [], 0, 0⟩] }] }
theorem witness_dispatch_waits : ∃ v t, subscribing.visits.find? (·.die == subscribing.obj.1) = some v ∧ v.cls < 16 ∧ headTeam subscribing subscribing.obj.1 v.cls = some t ∧
    teamGangs subscribing t ≠ [] ∧ batchesBound subscribing t.uid = true := ⟨_, _, rfl, by decide, rfl, by decide +kernel⟩
theorem witness_advertise : regsWf { m with obj := (7, 0) } ∧ tableWf zeros ({ m with obj := (7, 0) } : State).adv = true ∧ (7 : Nat) < 8 := by decide +kernel

/-- Die 0 offers, die 7 has room. -/
def offering : State := regSet (regSet { dispatching with obj := (0, 0), adv := [(7, 1)] } 0x032 0 0x80000000) 0x032 7 0x10000

theorem witness_offer : (regGet offering 0x032 0).getLsbD 31 = true ∧ offerable offering 0 ≠ [] ∧ (∃ d < 8, d ≠ 0 ∧ get0 offering.adv d ≠ 0) ∧ offering.offers = [] ∧
    offering.laterals = [] ∧ idsOk offering := by decide +kernel

/-- The one team of `m` in a place. -/
def teamAt (p : Place) (placed : Bool) (s : State := m) : State :=
  { s with teams := [{ uid := 1, task := 1, ctx := 1, place := p, placed := placed, scr := 4096 }], g := { s.g with place := p, active := false, cl := {} }, obj := (1, 0) }

theorem witness_arrival : ∃ x, (teamAt .moving false).teams.find? (·.uid == 1) = some x ∧ x.place = .moving := ⟨_, rfl, rfl⟩

/-- Core 0's shadow bank in a state. -/
def banked (st : Nat) (run : Option Nat) (s : State) : State := { setRuns 0 run (setSbs 0 36 34 st s) with obj := (0, 0) }

theorem witness_spill : let s := banked 3 (some 1) (teamAt .shadow true)
    regsWf s ∧ sbsState s 0 = 3 ∧ idsOk s ∧ shadowTeams s 0 ≠ [] ∧ (∀ g ∈ allGangs s, spillBusy s g = false) ∧ (∀ x ∈ shadowTeams s 0, partsBusy s x = false) := by decide +kernel
theorem witness_bank_fill : (∀ b ∈ [0, 1], ∀ r ∈ [none, some 2], let s := setSbs 0 33 33 b (banked 1 r (teamAt .shadow true))
    regsWf s ∧ sbsState s 0 = 1 ∧ idsOk s ∧ (regGet s 0x022 0).getLsbD 33 = (b == 1) ∧ runs s 0 = r) ∧
    (let s := banked 1 (some 2) m
     saveFits s 0 2 = false ∧ saveFits { regSet s 0x016 2 1 with ctxs := [{ id := 2, key := true }], teams := [] } 0 2 = true) := by decide +kernel
theorem witness_fill_waits : let l : Lateral := { handle := 1, ctx := 1, pub := 1, sub := 1, po := 0, so := 0, len := 32, closed := [⟨0, [], 0, 0⟩] }
    let s := { banked 1 none (teamAt .shadow true) with laterals := [l] }
    sbsState s 0 = 1 ∧ l ∈ s.laterals ∧ l.closed ≠ [] ∧ ∃ x ∈ shadowTeams s 0, x.uid = l.sub := by decide +kernel
theorem witness_placement : (∃ x, (teamAt .running false).teams.find? (·.uid == 1) = some x ∧ x.placed = false ∧ x.place = .running) ∧
    spaceFits (teamAt .running false) 0 { uid := 1, task := 1, ctx := 1, scr := 4096 } = true ∧
    spaceFits (teamAt .running false) 0 { uid := 1, task := 1, ctx := 1, scr := 917760 } = false := ⟨⟨_, rfl, rfl, rfl⟩, by decide +kernel, by decide +kernel⟩
theorem witness_bank_mode : let b : BankChange := { cluster := 1023, bank := 31, mode := 2, gang := 1, reg := 3 }
    let s := { m with banks := [b], obj := (1023, 31) }
    s.banks.find? (fun x => x.cluster == s.obj.1 && x.bank == s.obj.2) = some b ∧ regsWf s ∧ s.copies = [] := by decide +kernel
theorem witness_key_delete : ∀ b ∈ [false, true], let d : KeyDel := { ctx := 1, drain := b, gang := some 1, reg := 3 }
    let s := { inSlice mm with keyDels := [d], obj := (1, 0) }
    s.keyDels.find? (·.ctx == s.obj.1) = some d ∧ accessesOut s d.ctx = false ∧ s.copies = [] ∧ (∀ x ∈ s.sc, lineOwned s x.line = false) ∧ s.refused = [] ∧ (s.sc.map (·.line)).Nodup := by decide +kernel
theorem witness_key_delete_host : let d : KeyDel := { ctx := 1, drain := false, gang := none, reg := 0 }
    let s := { mm with keyDels := [d], obj := (1, 0) }
    s.keyDels.find? (·.ctx == s.obj.1) = some d ∧ d.gang = none ∧ ∃ k ∈ s.tasks, k.ctx = d.ctx := ⟨by decide, rfl, _, List.mem_singleton.mpr rfl, rfl⟩
theorem witness_released : ∃ x, gangOf { m with g := { gang with wait := .reply 5 } } 1 = some x ∧ x.wait ≠ .none ∧ tableWf zeros x.s = true := ⟨_, rfl, by decide, by decide⟩

/-- The gang of `m` at a word of its clause, or before a clause, the schedule naming it. -/
def scheduled (ws : List Word) (x : Nat) (w : Wait := .none) (wake : Option Nat := none) : State :=
  { m with g := { gang with wait := w, wake := wake, cl := { gang.cl with x := x, words := ws, set := if x = 0 then 0 else all } }, sched := [.issue 1, .tick 3] }

theorem witness_step : (scheduled [0xE20C1881] 1).power = true ∧ (scheduled [0xE20C1881] 1).g.longLat = false ∧ trapsWaiting (scheduled [0xE20C1881] 1) = [] ∧
    (∀ p ∈ [([0xE20C1881], 1), ([0], 1), ([0x60000384, 0x000000FF], 1), ([0x000003F9, 0xE20C1881], 1), ([0xE20C1881], 0)], let s := scheduled p.1 p.2
      gangOf (started s [.tick 3]) 1 = some (chosen s 1 [.tick 3]).g ∧ mayIssue (started s [.tick 3]) 1 = true ∧ s.g.wake = none ∧
        phasePassed (chosen s 1 [.tick 3]) (chosen s 1 [.tick 3]).g = false) ∧
    (let s := scheduled [0xE20C1881] 1 (.sleepUntil 0) (some 0)
     mayIssue (started s [.tick 3]) 1 = true ∧ s.g.wake.isSome = true) := by decide +kernel
theorem witness_step_words : (decode (bytesOf (wordsLeft (scheduled [0xE20C1881] 1)))).isOk = true ∧ decode (bytesOf (wordsLeft (scheduled [0] 1))) = .error .opcode ∧
    decode (bytesOf (wordsLeft (scheduled [0x000003F9, 0xE20C1881] 1))) = .error .form ∧
    decode (bytesOf (wordsLeft (scheduled [0x60000384, 0x000000FF] 1))) = .error .selector := by decide +kernel
theorem witness_step_events : ({ m with sched := [.due 1], agenda := [(.teamDispatch, 0, 0), (.loadReply, 5, 6)] } : State).agenda[1]? = some (.loadReply, 5, 6) ∧ isEvent .snpinv = true ∧
    ({ m with turn := true, agenda := [(.teamDispatch, 0, 0)] } : State).sched = [] ∧ ({ m with power := false } : State).sched = [] := by decide
theorem witness_encoding : Instr.WellFormed (.add (aw 1 2 3)) ∧ isEvent (.add (aw 1 2 3)) = false ∧ Instr.WellFormed (.ld (mw 2 130 4 0)) := by decide
/-- The machine of these tests meets the invariants, beside the state after reset, which a statement covers. -/
theorem witness_invariants : Memory.wf mm.mem = true ∧ tablesWf mm ∧ Memory.wf (table 1 32) = true ∧ tablesWf (scheduled [0xE20C1881] 1) :=
  ⟨by decide +kernel, ⟨by decide +kernel, by decide +kernel, by decide +kernel, by decide +kernel, by decide +kernel, by decide +kernel, by decide +kernel⟩,
    by decide +kernel, ⟨by decide +kernel, by decide +kernel, by decide +kernel, by decide +kernel, by decide +kernel, by decide +kernel, by decide +kernel⟩⟩
theorem witness_numbers : numbersOk mm := ⟨by decide, by simp [gidsOk, mm, m, gang, allGangs, State.reset], by decide, by decide, by simp [postsOk, mm, m, State.reset]⟩

/-! ## Terms that are not well formed -/

/-- An instruction of format A whose literal words, or whose selector, are not as the fields ask. -/
theorem smoke_format_a : ∀ i ∈ ([.add (aw 240 2 3), .add (aw 1 124 3), .add { aw 1 2 3 with la := some 5 }, .add { aw 1 2 3 with lb := some 5 },
    .add { aw 1 2 3 with lt := some 5 }, .lut3 (aw 1 2 3), .voteAny (aw 1 2 64), .voteAll (aw 1 2 3), .kand (aw 1 2 16), .kor (aw 1 2 0), .kxor (aw 1 2 16),
    .knot (aw 1 2 16), .kmov (aw 1 2 0), .kpop (aw 1 2 64), .kffs (aw 1 2 0), .k2s (aw 1 2 64), .s2k (aw 1 2 0)] : List Instr), i.wf = false := by decide

/-- One of format M whose selector is not its mnemonic's. -/
theorem smoke_format_m : ∀ i ∈ ([.pin (mw 1 130 0 0), .unpin (mw 0 130 0 0), .layGet (mw 1 130 0 0), .layChk (mw 0 130 0 0), .barArr (mw 1 130 0 0), .barArd (mw 0 130 0 0),
    .amsgSend (mw 1 130 0 0), .amsgPay (mw 0 130 0 0), .cnlRes (mw 1 130 0 0), .cnlPub (mw 0 130 0 0), .cnlTake (mw 1 130 0 0), .cnlRel (mw 0 130 0 0), .latSub (mw 1 130 0 0),
    .latEnd (mw 0 130 0 0), .sysrd (mw 1 130 0 0), .syswr (mw 0 130 0 0), .keyNew (mw 1 130 0 0), .keyDelDrain (mw 0 130 0 0), .keyDelScuttle (mw 1 130 0 0), .errbRd (mw 1 130 0 0),
    .errbSet (mw 0 130 0 0), .ctxSaveInstr (mw 1 130 0 0), .ctxLoadInstr (mw 0 130 0 0)] : List Instr), i.wf = false := by decide

/-- Events whose data no bus, register or mailbox can carry. -/
theorem smoke_events : ∀ i ∈ ([.memwr 1 (List.replicate 64 0), .memwr (2 ^ 52) (List.replicate 64 0), .memwr 0 [0], .memwrptl 1 (List.replicate 64 none), .memwrptl 0 [],
    .configRequest 0x1000 none, .msixTableAccess 0x8000 none, .msixTableAccess 2 none, .peerAccess 8 0 0 0 0 0 0 [none], .peerAccess 0 (2 ^ 46) 0 0 0 0 0 [none],
    .peerAccess 0 0 0 0 0 0 0 [], .peerAccess 0 127 0 0 0 0 0 [none, none], .stackLoadReport (List.replicate 65 0), .rwrWrite 512 0, .queueEnable 512 0, .poolEnable 1024 0,
    .poolDisable 1024 0, .canalEnable 2048 0, .canalDisable 2048 0, .ctxCreate 64 false, .ctxLoad 4096 0 false, .ctxLoad 0 64 false, .attest []] : List Instr), i.wf = false := by decide +kernel
theorem smoke_events_long : (Instr.peerMessage 8 true 0 0 0 0 0 []).wf = false ∧ (Instr.peerMessage 0 true 4096 0 0 0 0 []).wf = false ∧
    (Instr.peerMessage 0 true 0 0 0 0 0 (List.replicate 257 0)).wf = false ∧ (Instr.fwStage 1 0 (List.replicate 61441 0)).wf = false := by decide +kernel

/-! ## Every opcode's word

The words are laid out from the opcode table's match and mask (formats A and U) and from the map of R89 with the fields of R83 (format M): every field of
a word has a value of its own. -/

/-- B, A, D and NXT as they stand in a word. -/
def fieldsA (w : Word) : AWord := { b := w.extractLsb' 25 7, a := w.extractLsb' 17 8, d := w.extractLsb' 10 7, nxt := w.extractLsb' 0 2 }

def wordsA1 : List (Word × (AWord → Instr)) :=
  [ (0x4B263406, .sadd), (0x4B26340A, .ssub), (0x4B26340E, .smul), (0x4B263412, .smulh), (0x4B263416, .sand), (0x4B26341A, .sor),
    (0x4B26341E, .sxor), (0x4B263422, .sshl), (0x4B263426, .sshr), (0x4B26342A, .ssar), (0x4B26342E, .smin), (0x4B263432, .smax),
    (0x4B273436, .scmp), (0xE126343A, .smov), (0x4B26343E, .sbfx), (0xE1263442, .sclz), (0xE1263446, .spop), (0x4B26344A, .sld),
    (0xE127344E, .meet), (0xE1260052, .setlc), (0xE1800056, .nop), (0xE180005A, .yield), (0xE180005C, .exit), (0xE1260060, .compact),
    (0xE1260066, .sleepUntil), (0xE126006A, .sleepR), (0xE180006C, .brk), (0xE1260070, .trap), (0x4B273482, .add), (0x4B273486, .sub),
    (0x4B27348A, .adds), (0x4B27348E, .subs), (0x4B273492, .addc), (0x4B273496, .mulLo), (0x4B27349A, .mulHi), (0x4B27349E, .mad) ]
theorem test_decode_alu_1 : ∀ p ∈ wordsA1, decodeWords [p.1] = .ok (p.2 (fieldsA p.1), []) := by decide +kernel

def wordsA2 : List (Word × (AWord → Instr)) :=
  [ (0x4B2734A2, .min), (0x4B2734A6, .max), (0xE12734AA, .abs), (0x4B2734AE, .and), (0x4B2734B2, .or), (0x4B2734B6, .xor),
    (0xE12734BA, .not), (0x4B2734BE, .shl), (0x4B2734C2, .shr), (0x4B2734C6, .sar), (0x4B2734CA, .rot), (0x4B2734CE, .bfx),
    (0x4B2734D2, .bfi), (0xE12734D6, .popc), (0xE12734DA, .clz), (0xE12734DE, .ctz), (0xE12734E2, .brev), (0x4B2734E6, .sel),
    (0x4B2734EA, .cmp), (0x4B2734EE, .dot4), (0x4B2734F2, .dot2), (0x4B2734F6, .hmix), (0x4B273582, .fadd), (0x4B273586, .fsub),
    (0x4B27358A, .fmul), (0x4B27358E, .ffma), (0x4B273592, .fmin), (0x4B273596, .fmax), (0x4B27359A, .fcmp), (0x4B27359E, .fdiv),
    (0xE12735A2, .frcp), (0xE12735A6, .fsqrt), (0xE12735AA, .frsq), (0xE12735AE, .fexp2), (0xE12735B2, .flog2), (0xE12735B6, .fclass) ]
theorem test_decode_alu_2 : ∀ p ∈ wordsA2, decodeWords [p.1] = .ok (p.2 (fieldsA p.1), []) := by decide +kernel

def wordsA3 : List (Word × (AWord → Instr)) :=
  [ (0x4B2735BA, .fscale), (0xE12735BE, .frnd), (0xE12735C2, .ffrac), (0x4B2735C6, .fabsdiff), (0x4B2735CA, .fsum4), (0x4B273642, .cvt),
    (0x4B273646, .cvtSr), (0x4B27364A, .pack), (0x4B27364E, .unpack), (0x4B273652, .qdeq), (0x4B273656, .qenc), (0xE127365A, .bexp),
    (0x4B27365E, .bscale), (0x4B273682, .shflIdx), (0x4B273686, .shflXor), (0x4B27368A, .shflUp), (0x4B27368E, .shflDn), (0x4B261692, .voteAny),
    (0x4B271692, .voteAll), (0x4B261696, .voteBal), (0x4B26369A, .voteCnt), (0xE126369E, .lredAdd), (0xE12636A2, .lredMin), (0xE12636A6, .lredMax),
    (0xE12736AA, .lscanAdd), (0xE12736AE, .lmatch), (0x0A0616B2, .kand), (0x0A0656B2, .kor), (0x0A0696B2, .kxor), (0x000616B6, .knot),
    (0x000656B6, .kmov), (0x000636BA, .kpop), (0x000736BA, .kffs), (0x000636BE, .k2s), (0x012716BE, .s2k) ]
theorem test_decode_alu_3 : ∀ p ∈ wordsA3, decodeWords [p.1] = .ok (p.2 (fieldsA p.1), []) := by decide +kernel

/-- `lut3` takes its table from a literal word (R130). -/
theorem test_decode_lut3 : decodeWords [0x4B2734FA, 0xCA] = .ok (.lut3 { fieldsA 0x4B2734FA with lt := some 0xCA }, []) := by decide +kernel

/-- W of a word 0 of format M whose other fields are BASE 0x93, DATA 0x2D, LA 9 and NXT 1; word 1 is OFS 0x2A5A5, HINT 2, SC 5, IDX 0x6B. -/
def fieldsM (w : Nat) : MWord := { w := .ofNat 3 w, base := 0x93, data := 0x2D, la := 9, nxt := 1, ofs := 0x2A5A5, hint := 2, sc := 5, idx := 0x6B }

def wordsM1 : List (Word × Nat × (MWord → Instr)) :=
  [ (0xB26B66C1, 5, .ld), (0xB26B66C5, 5, .st), (0xB26B66C9, 5, .ldu), (0xB26B66CD, 5, .lds), (0xB26B66D1, 5, .sts),
    (0xB26B66D5, 5, .pref), (0xB26B66D9, 5, .atomAdd), (0xB26B66DD, 5, .atomMin), (0xB26B66E1, 5, .atomMax), (0xB26B66E5, 5, .atomAnd),
    (0xB26B66E9, 5, .atomOr), (0xB26B66ED, 5, .atomXor), (0xB26B66F1, 5, .atomXchg), (0xB26B66F5, 5, .atomCas), (0xB26B66F9, 5, .atomFadd),
    (0xB26B66FD, 5, .atomBinc), (0xB26B6701, 5, .atomBfins), (0xB26B6705, 5, .atomFfcs), (0xB26B6709, 5, .atomPlset), (0xB26B670D, 5, .stAcc),
    (0xB26B6711, 5, .weir), (0xB26B6715, 5, .fenceRel), (0xB26B6719, 5, .fenceAcq), (0xB26B671D, 5, .clean), (0xB26B6721, 5, .inval),
    (0xB26B6725, 5, .cleanDiscard), (0xB26B6729, 5, .stn), (0xB26B672D, 5, .stnBlk), (0xB26B6731, 5, .rlq), (0x126B6735, 0, .pin),
    (0x326B6735, 1, .unpin), (0xB26B6739, 5, .ldt), (0xB26B673D, 5, .stt), (0xB26B6741, 5, .hrBind), (0xB26B6745, 5, .hrFree),
    (0xB26B6749, 5, .mma), (0xB26B674D, 5, .mmaThin), (0xB26B6751, 5, .mmaQ), (0xB26B6755, 5, .accInit), (0xB26B6759, 5, .accDrop) ]
theorem test_decode_mem_1 : ∀ p ∈ wordsM1, decodeWords [p.1, 0x54B4B56B] = .ok (p.2.2 (fieldsM p.2.1), []) := by decide +kernel

def wordsM2 : List (Word × Nat × (MWord → Instr)) :=
  [ (0xB26B675D, 5, .cisArm), (0xB26B6761, 5, .cisSub), (0xB26B6765, 5, .cisWait), (0xB26B6769, 5, .cisRd), (0xB26B676D, 5, .cisRearm),
    (0xB26B6781, 5, .laySet), (0x126B6785, 0, .layGet), (0x326B6785, 1, .layChk), (0xB26B6789, 5, .layPlace), (0xB26B678D, 5, .layFree),
    (0xB26B6791, 5, .relayMv), (0xB26B6795, 5, .relayCp), (0xB26B6799, 5, .relayGx), (0xB26B679D, 5, .relayWait), (0xB26B67A1, 5, .barInit),
    (0x126B67A5, 0, .barArr), (0x326B67A5, 1, .barArd), (0xB26B67A9, 5, .barC), (0x126B67AD, 0, .amsgSend), (0x326B67AD, 1, .amsgPay),
    (0x126B67B1, 0, .cnlRes), (0x326B67B1, 1, .cnlPub), (0x126B67B5, 0, .cnlTake), (0x326B67B5, 1, .cnlRel), (0x126B67B9, 0, .latSub),
    (0x326B67B9, 1, .latEnd), (0x126B67C1, 0, .sysrd), (0x326B67C1, 1, .syswr), (0xB26B67C5, 5, .launch), (0xB26B67C9, 5, .tret),
    (0xB26B67CD, 5, .trec), (0xB26B67D1, 5, .bnkMode), (0x126B67D5, 0, .keyNew), (0x126B67D9, 0, .errbRd), (0x326B67D9, 1, .errbSet),
    (0x126B67DD, 0, .ctxSaveInstr), (0x326B67DD, 1, .ctxLoadInstr), (0x326B67D5, 1, .keyDelDrain), (0x526B67D5, 2, .keyDelScuttle) ]
theorem test_decode_mem_2 : ∀ p ∈ wordsM2, decodeWords [p.1, 0x54B4B56B] = .ok (p.2.2 (fieldsM p.2.1), []) := by decide +kernel

/-! ## One step each, with results worked out by hand

Lane 0 of v1 holds 5 and of v2 holds 7; the other lanes hold 0. -/

/-- Lane l of v3 after one instruction, in a state that follows it; none where none does. -/
def laneAfter (l : Nat) (i : Instr) (s : State := m) : Option Word := match exec i s with | .next t => some (vGet t.g 3 l) | _ => none
/-- s3 after one instruction. -/
def s3After (i : Instr) (s : State := m) : Option DWord := match exec i s with | .next t => some (sGet t.g 3) | _ => none
/-- Lane 0 of v1 and v2 as given. -/
def with2 (x y : Word) : State := { m with g := { gang with v := [(32, x), (64, y)] } }

theorem test_integer_words : ([.add (aw 1 2 3), .sub (aw 1 2 3), .mulLo (aw 1 2 3), .min (aw 1 2 3), .max (aw 1 2 3), .and (aw 1 2 3), .or (aw 1 2 3), .xor (aw 1 2 3), .not (aw 1 112 3),
    .shl (aw 1 2 3), .popc (aw 1 112 3), .clz (aw 1 112 3), .ctz (aw 1 112 3), .brev (aw 1 112 3)] : List Instr).map (laneAfter 0) =
    [12, 0xFFFFFFFE, 35, 5, 7, 5, 7, 2, 0xFFFFFFFA, 640, 2, 29, 0, 0xA0000000].map some := by decide +kernel
theorem test_add_wraps : laneAfter 0 (.add (aw 1 2 3)) (with2 0xFFFFFFFF 1) = some 0 ∧ laneAfter 0 (.mulHi (aw 1 2 3)) (with2 0x80000000 2) = some 0xFFFFFFFF := by decide +kernel
theorem test_shift_by_the_width : laneAfter 0 (.sar (aw 1 2 3)) (with2 0x80000000 31) = some 0xFFFFFFFF ∧ laneAfter 0 (.shr (aw 1 2 3)) (with2 0x80000000 31) = some 1 := by decide +kernel
/-- R131, R132: 1 + 2 = 3, 2 × 3 = 6, 6 / 2 = 3, the root of 4 is 2, 1 / 2 is 0.5; −0 is below +0 in a minimum. -/
theorem test_float_words : laneAfter 0 (.fadd (aw 1 2 3)) (with2 0x3F800000 0x40000000) = some 0x40400000 ∧ laneAfter 0 (.fmul (aw 1 2 3)) (with2 0x40000000 0x40400000) = some 0x40C00000 ∧
    laneAfter 0 (.fdiv (aw 1 2 3)) (with2 0x40C00000 0x40000000) = some 0x40400000 ∧ laneAfter 0 (.fsqrt (aw 1 112 3)) (with2 0x40800000 0) = some 0x40000000 ∧
    laneAfter 0 (.frcp (aw 1 112 3)) (with2 0x40000000 0) = some 0x3F000000 ∧ laneAfter 0 (.fmin (aw 1 2 3)) (with2 0 0x80000000) = some 0x80000000 := by decide +kernel
/-- R129: hmix(0, 1) as the manual prints it. -/
theorem test_hmix : laneAfter 0 (.hmix (aw 1 2 3)) (with2 0 1) = some 0x640CA17E := by decide +kernel
/-- R120: s1 holds 9; 9 + 1, 9 − 1, its leading zeros and its ones. -/
theorem test_scalar_words : s3After (.sadd (aw 129 113 3)) = some 10 ∧ s3After (.ssub (aw 129 113 3)) = some 8 ∧ s3After (.sclz (aw 129 112 3)) = some 60 ∧ s3After (.spop (aw 129 112 3)) = some 2 := by decide +kernel
/-- R143: the lane number in every lane, from the lane before it. -/
theorem test_shuffle : laneAfter 1 (.shflUp (aw 1 113 3)) = some 5 ∧ laneAfter 0 (.shflDn (aw 1 113 3)) = some 0 ∧ laneAfter 31 (.shflXor (aw 1 125 3)) ≠ none := by decide +kernel
/-- R207: a byte stored to scratch is the byte loaded from it; nothing else of the scratch changes. -/
theorem test_scratch_round_trip : (match exec (.sts (mw 0 192 1 16)) mm with
    | .next t => (match exec (.lds (mw 0 192 3 16)) { t with g := { t.g with cl := mm.g.cl } } with | .next u => some (vGet u.g 3 0, (teamOf u 1).scratch) | _ => none)
    | _ => none) = some (5, [(16, 5)]) := by decide +kernel
/-- R122: a breakpoint enters the handler: the threads stand there, in handler state. -/
theorem test_brk_enters_the_handler : (match exec (.brk (aw 192 112 0)) (handled m) with | .next t => some (t.g.pending.length + (if t.g.inH then 1 else 0)) | _ => none) = some 1 := by decide +kernel
/-- R122: `exit` ends the lanes of its set: none is live. -/
theorem test_exit_ends_lanes : (match exec (.exit (aw 192 112 0)) m with | .next t => some t.g.live | _ => none) = some 0 := by decide +kernel
/-- R312: CLK read into s9. -/
theorem test_sysrd_clk : (match exec (.sysrd (mw 0 192 9 0)) { m with clk := 77 } with | .next t => some (sGet t.g 9) | _ => none) = some 77 := by decide +kernel
/-- The first word after reset is the one placed there: `add v6, v6, #1` leaves 1 in every lane. -/
theorem test_first_word : (match step (State.reset.withFetchWord 32 0xE20C1880) with | .next t => some (vGet t.g 6 0, t.power) | _ => none) = some (1, true) := by decide +kernel
theorem test_table_word : decodeTableWord 32 0xE20C1880 = some (.add (aw 6 113 6)) := by decide +kernel
/-- R359: a write of 64 bytes through an enabled window stands in memory. -/
theorem test_memwr : (match exec (.memwr (15 * 2 ^ 40) (List.replicate 64 7)) (windowed 1 0 (0, 0)) with
    | .next t => some (get0 t.mem 0x200000, get0 t.mem 0x20003F, get0 t.mem 0x200040) | _ => none) = some (7, 7, 0) := by decide +kernel
/-- R379: without power nothing runs. -/
theorem test_power_loss : (match exec .powerLoss m with | .next t => some t.power | _ => none) = some false ∧
    (match step { m with power := false } with | .fault f => some f | _ => none) = some .noPower := by decide +kernel
/-- R377: the host reads STS through BAR0: only READY is set after reset. -/
theorem test_bar_read : (barRead 8 8 State.reset).answers.map (·.data) = [some [0, 0, 0, 0, 0, 0, 0, 0x80]] := by decide +kernel
/-- R377: a write to CMD with GO = 1 runs the command: code 0x7F names none, so it ends with result 1 and READY set. -/
theorem test_bar_write : (barWrite 0 [0x7F, 0, 0, 0, 0, 0, 0, 0x80] State.reset).hg.cmd = 0x7F := by decide +kernel
/-- R140: code 5 with z = 4 and the scale −1 gives −1; with z = 5 a zero of the scale's sign (log entry 90). -/
theorem test_qdeq : laneAfter 0 (.qdeq (aw 1 2 3)) (with2 5 0x0004BC00) = some 0xBF800000 ∧ laneAfter 0 (.qdeq (aw 1 2 3)) (with2 5 0x0005BC00) = some 0x80000000 := by decide +kernel

end Sys2Proof.Tests
end

section
/-! PROOFS. The integer functions of R119–R128 on codes, each as the operation on bit vectors that it computes. A lemma reads
`f n x.toNat y.toNat = (the operation on x and y).toNat`, for every width n. -/

namespace Sys2Proof.Claims

open Sys2Proof Machine

/-! ## Sums, products and logic (R126) -/

theorem addV_toNat {n : Nat} (x y : BitVec n) : addV n x.toNat y.toNat = (x + y).toNat := (BitVec.toNat_add x y).symm

theorem mulLoV_toNat {n : Nat} (x y : BitVec n) : mulLoV n x.toNat y.toNat = (x * y).toNat := (BitVec.toNat_mul x y).symm

theorem notV_toNat {n : Nat} (x : BitVec n) : notV n x.toNat = (~~~x).toNat := BitVec.toNat_not.symm

theorem madV_toNat {n : Nat} (d x y : BitVec n) : (d.toNat + x.toNat * y.toNat) % 2 ^ n = (d + x * y).toNat := by
  rw [BitVec.toNat_add, BitVec.toNat_mul, Nat.add_mod_mod]

/-! ## Signed and unsigned reading -/

/-- An integer modulo 2^n is the code of a bit vector. -/
theorem modPow_eq_toNat {n : Nat} (x : Int) : modPow x n = (BitVec.ofInt n x).toNat := (BitVec.toNat_ofInt x).symm

theorem subV_toNat {n : Nat} (x y : BitVec n) : subV n x.toNat y.toNat = (x - y).toNat := by
  rw [subV, modPow_eq_toNat, Int.sub_eq_add_neg, BitVec.ofInt_add, BitVec.ofInt_neg, ← BitVec.sub_eq_add_neg, BitVec.ofInt_natCast,
    BitVec.ofInt_natCast, BitVec.ofNat_toNat, BitVec.ofNat_toNat, BitVec.setWidth_eq, BitVec.setWidth_eq]

/-- The integer that a code stands for is the bit vector's, signed or not. -/
theorem intOf_toNat (sg : Bool) {n : Nat} (x : BitVec n) : intOf sg n x.toNat = if sg then x.toInt else x.toNat := by
  have hx := x.isLt
  cases sg with
  | false => simp [intOf, Nat.mod_eq_of_lt hx]
  | true =>
    cases n with
    | zero => rw [BitVec.eq_nil x]; decide
    | succ m =>
      have hp : 2 ^ (m + 1) = 2 * 2 ^ m := by rw [Nat.pow_succ, Nat.mul_comm]
      simp only [intOf, Nat.mod_eq_of_lt hx, BitVec.toInt_eq_toNat_cond, Bool.true_and, decide_eq_true_eq, Nat.add_sub_cancel, if_true]
      split <;> split <;> omega

/-- The code of that integer at another width is the bit vector extended, by its sign or by zeros. -/
theorem ofInt_intOf (sg : Bool) {n m : Nat} (x : BitVec n) :
    BitVec.ofInt m (intOf sg n x.toNat) = if sg then x.signExtend m else x.setWidth m := by
  rw [intOf_toNat]
  cases sg with
  | false => rw [if_neg Bool.false_ne_true, if_neg Bool.false_ne_true, BitVec.ofInt_natCast, BitVec.ofNat_toNat]
  | true => rfl

theorem intOf_le_iff (sg : Bool) {n : Nat} (x y : BitVec n) : intOf sg n x.toNat ≤ intOf sg n y.toNat ↔ leq sg x y = true := by
  rw [intOf_toNat, intOf_toNat]
  cases sg
  · simp [leq, BitVec.ule_iff_le, BitVec.le_def]
  · simp [leq, BitVec.sle_iff_toInt_le]

theorem minV_toNat (sg : Bool) {n : Nat} (x y : BitVec n) : minV sg n x.toNat y.toNat = (if leq sg x y then x else y).toNat := by
  simp only [minV, intOf_le_iff, apply_ite BitVec.toNat]

theorem maxV_toNat (sg : Bool) {n : Nat} (x y : BitVec n) : maxV sg n x.toNat y.toNat = (if leq sg y x then x else y).toNat := by
  simp only [maxV, ge_iff_le, intOf_le_iff, apply_ite BitVec.toNat]

/-- The high half of a 2n-bit code stands for the integer divided by 2^n. -/
theorem ofInt_high_half (n : Nat) (z : Int) : ((BitVec.ofInt (2 * n) z) >>> n).setWidth n = BitVec.ofInt n (z / (2 ^ n : Nat)) := by
  apply BitVec.eq_of_toNat_eq
  have hM : (0 : Int) < (2 ^ n : Nat) := by exact_mod_cast Nat.two_pow_pos n
  simp only [BitVec.toNat_setWidth, BitVec.toNat_ushiftRight, BitVec.toNat_ofInt, Nat.shiftRight_eq_div_pow, Nat.two_mul, Nat.pow_add,
    Nat.cast_mul]
  generalize (2 ^ n : Nat) = M at hM ⊢
  have hr : 0 ≤ z % (M * M) := Int.emod_nonneg z (by positivity)
  have hz : z / M = z % (M * M) / M + M * (z / (M * M)) := by
    conv_lhs => rw [← Int.emod_add_mul_ediv z (M * M), mul_assoc, Int.add_mul_ediv_left _ _ hM.ne']
  rw [hz, Int.add_mul_emod_self_left]
  zify
  rw [Int.toNat_of_nonneg hr, Int.toNat_of_nonneg (Int.emod_nonneg _ hM.ne')]

theorem mulHiV_toNat (sg : Bool) {n : Nat} (x y : BitVec n) : mulHiV sg n x.toNat y.toNat = (highHalf sg n x y).toNat := by
  rw [mulHiV, modPow_eq_toNat, ← ofInt_high_half, BitVec.ofInt_mul, ofInt_intOf, ofInt_intOf, highHalf]

/-! ## Shifts and the rotate (R127) -/

theorem shlV_toNat {n : Nat} (x : BitVec n) (b : Nat) : shlV n x.toNat b = (x <<< (b % 256)).toNat := by
  simp only [shlV, BitVec.toNat_shiftLeft, Nat.shiftLeft_eq]
  split
  · rename_i h
    rw [Nat.mod_eq_zero_of_dvd ((Nat.pow_dvd_pow 2 h).mul_left _)]
  · rfl

theorem shrV_toNat {n : Nat} (x : BitVec n) (b : Nat) : shrV n x.toNat b = (x >>> (b % 256)).toNat := by
  simp only [shrV, BitVec.toNat_ushiftRight, Nat.shiftRight_eq_div_pow]
  split
  · rename_i h
    rw [Nat.div_eq_of_lt (x.isLt.trans_le (Nat.pow_le_pow_right (by decide) h))]
  · rfl

/-- Shifted by its width or more, a signed number leaves its sign. -/
theorem toInt_shiftRight_of_le {n c : Nat} (x : BitVec n) (h : n ≤ c) : x.toInt >>> c = if x.toInt < 0 then -1 else 0 := by
  have hc : (2 ^ n : Int) ≤ 2 ^ c := pow_le_pow_right₀ (by decide) h
  have h1 := BitVec.two_mul_toInt_lt (x := x)
  have h2 := BitVec.le_two_mul_toInt (x := x)
  have hp : (0 : Int) < 2 ^ c := by positivity
  rw [Int.shiftRight_eq_div_pow]
  push_cast
  split
  · rw [Int.ediv_eq_iff_of_pos hp]
    omega
  · rw [Int.ediv_eq_zero_of_lt] <;> omega

theorem sarV_toNat {n : Nat} (x : BitVec n) (b : Nat) : sarV n x.toNat b = (x.sshiftRight (b % 256)).toNat := by
  simp only [sarV, intOf_toNat, modPow_eq_toNat, BitVec.sshiftRight, if_true]
  split
  · rename_i h
    rw [toInt_shiftRight_of_le x h]
  · rw [Int.shiftRight_eq_div_pow]

theorem rotV_toNat {n : Nat} (x : BitVec n) (b : Nat) : rotV n x.toNat b = (x.rotateLeft (b % 256)).toNat := by
  rw [rotV, BitVec.toNat_rotateLeft, Nat.shiftLeft_eq, Nat.shiftRight_eq_div_pow]

/-! ## Fields (R127) -/

/-- The field length of the model is that of the statements. -/
theorem fieldLen_eq_cut (n b : Nat) : fieldLen n b = cut n (b % 256) (b / 256 % 256) := rfl

/-- A field that is not empty ends within the width. -/
theorem add_cut_le {n pos len : Nat} (h : cut n pos len ≠ 0) : pos + cut n pos len ≤ n := by
  unfold cut at *
  split
  · rename_i hp
    exact absurd (if_pos hp) h
  · have : len.min (n - pos) ≤ n - pos := Nat.min_le_right len (n - pos)
    omega

theorem extract_empty {sg : Bool} {n pos len : Nat} {x : BitVec n} (h : cut n pos len = 0) : extract sg x pos len = 0 := if_pos h

theorem extract_field {sg : Bool} {n pos len : Nat} {x : BitVec n} (h : cut n pos len ≠ 0) : extract sg x pos len =
    if sg then (x.extractLsb' pos (cut n pos len)).signExtend n else (x.extractLsb' pos (cut n pos len)).setWidth n := if_neg h

theorem bfxV_empty {sg : Bool} {n a b : Nat} (h : fieldLen n b = 0) : bfxV sg n a b = 0 := if_pos h

theorem bfxV_field {sg : Bool} {n a b : Nat} (h : fieldLen n b ≠ 0) : bfxV sg n a b =
    if sg then modPow (intOf true (fieldLen n b) (a / 2 ^ (b % 256) % 2 ^ fieldLen n b)) n else a / 2 ^ (b % 256) % 2 ^ fieldLen n b := if_neg h

/-- `bfx` reads the field as a bit vector of its own length, which the type's sign extends. -/
theorem bfxV_toNat (sg : Bool) {n : Nat} (x : BitVec n) (b : Nat) :
    bfxV sg n x.toNat b = (extract sg x (b % 256) (b / 256 % 256)).toNat := by
  by_cases h0 : fieldLen n b = 0
  · rw [bfxV_empty h0, extract_empty h0]; rfl
  · have hkn : fieldLen n b ≤ n := (Nat.le_add_left _ _).trans (add_cut_le h0)
    rw [bfxV_field h0, extract_field h0, ← fieldLen_eq_cut, apply_ite BitVec.toNat, BitVec.toNat_setWidth_of_le hkn, ← Nat.shiftRight_eq_div_pow,
      ← BitVec.extractLsb'_toNat, modPow_eq_toNat, ofInt_intOf, if_pos rfl]

/-- The ones of a field. -/
def fieldMask (n pos len : Nat) : BitVec n := ((BitVec.allOnes (cut n pos len)).setWidth n) <<< pos

theorem getLsbD_fieldMask (n pos len i : Nat) :
    (fieldMask n pos len).getLsbD i = (decide (pos ≤ i) && decide (i - pos < cut n pos len)) := by
  have hk := add_cut_le (n := n) (pos := pos) (len := len)
  simp only [fieldMask, BitVec.getLsbD_shiftLeft, BitVec.getLsbD_setWidth, BitVec.getLsbD_allOnes]
  rw [Bool.eq_iff_iff]
  simp only [Bool.and_eq_true, Bool.not_eq_true', decide_eq_true_eq, decide_eq_false_iff_not]
  omega

/-- The bits of y under a field's mask, as a number, where those bits of y are the low bits of a. -/
theorem toNat_and_fieldMask {n pos len a : Nat} {y : BitVec n} (h : ∀ i < n, pos ≤ i → y.getLsbD i = a.testBit (i - pos)) :
    (y &&& fieldMask n pos len).toNat = a % 2 ^ cut n pos len * 2 ^ pos := by
  apply Nat.eq_of_testBit_eq
  intro i
  rw [Nat.testBit_mul_two_pow, Nat.testBit_mod_two_pow, BitVec.testBit_toNat, BitVec.getLsbD_and, getLsbD_fieldMask]
  by_cases hm : pos ≤ i ∧ i - pos < cut n pos len
  · have hk := add_cut_le (n := n) (pos := pos) (len := len) (by omega)
    simp [hm.1, hm.2, h i (by omega) hm.1]
  · rw [not_and] at hm
    by_cases hp : pos ≤ i
    · simp [hp, hm hp]
    · simp [hp]

theorem insert_eq {n pos len : Nat} (d x : BitVec n) :
    insert d x pos len = (d &&& ~~~(fieldMask n pos len)) ||| ((x <<< pos) &&& fieldMask n pos len) := rfl

/-- Bits chosen by a mask from one of two vectors: the two parts add up. -/
theorem toNat_masked_or {n : Nat} (a b m : BitVec n) : ((a &&& ~~~m) ||| (b &&& m)).toNat = (a &&& ~~~m).toNat + (b &&& m).toNat := by
  have hdisj : (a &&& ~~~m) &&& (b &&& m) = 0#n := by
    apply BitVec.eq_of_getLsbD_eq
    intro i hi
    cases hm : m.getLsbD i <;> simp [hm]
  rw [← BitVec.toNat_add_of_and_eq_zero hdisj, BitVec.add_eq_or_of_and_eq_zero _ _ hdisj]

theorem masked_or_self {n : Nat} (a m : BitVec n) : (a &&& ~~~m) ||| (a &&& m) = a := by
  rw [← BitVec.and_or_distrib_left, BitVec.not_or_self, BitVec.and_allOnes]

/-- `bfi` keeps the bits of d outside the field and takes those under it from x. -/
theorem bfiV_toNat {n : Nat} (d x : BitVec n) (b : Nat) :
    bfiV n d.toNat x.toNat b = (insert d x (b % 256) (b / 256 % 256)).toNat := by
  have hd : (d &&& fieldMask n (b % 256) (b / 256 % 256)).toNat = d.toNat / 2 ^ (b % 256) % 2 ^ fieldLen n b * 2 ^ (b % 256) :=
    toNat_and_fieldMask fun i _ hp => by rw [Nat.testBit_div_two_pow, Nat.sub_add_cancel hp, BitVec.testBit_toNat]
  have hx : ((x <<< (b % 256)) &&& fieldMask n (b % 256) (b / 256 % 256)).toNat = x.toNat % 2 ^ fieldLen n b * 2 ^ (b % 256) :=
    toNat_and_fieldMask fun i hi hp => by
      rw [BitVec.getLsbD_shiftLeft, decide_eq_true hi, decide_eq_false (Nat.not_lt.2 hp), BitVec.testBit_toNat]; rfl
  have hsplit := toNat_masked_or d d (fieldMask n (b % 256) (b / 256 % 256))
  rw [masked_or_self, hd] at hsplit
  rw [insert_eq, toNat_masked_or, hx, bfiV]
  by_cases h0 : fieldLen n b = 0
  · rw [if_pos h0]
    simpa [h0, Nat.mod_one] using hsplit
  · rw [if_neg h0]
    omega

/-! ## Counts and reversal (R126) -/

theorem popc_le {n : Nat} (x : BitVec n) : popc x ≤ n := by
  simpa [popc] using List.countP_le_length (p := x.getLsbD) (l := List.range n)

theorem popcV_toNat {n : Nat} (x : BitVec n) : popcV n x.toNat = (BitVec.ofNat n (popc x)).toNat := by
  rw [popcV, BitVec.ofNat_toNat, BitVec.setWidth_eq, BitVec.toNat_ofNat, Nat.mod_eq_of_lt ((popc_le x).trans_lt Nat.lt_two_pow_self)]

theorem lowest_le {n : Nat} (x : BitVec n) : lowest x ≤ n := by
  unfold lowest
  cases h : (List.range n).find? x.getLsbD with
  | none => simp
  | some i => exact (List.mem_range.1 (List.mem_of_find?_eq_some h)).le

theorem lowest_toNat_ofNat {n : Nat} (x : BitVec n) : (BitVec.ofNat n (lowest x)).toNat = lowest x := by
  rw [BitVec.toNat_ofNat, Nat.mod_eq_of_lt ((lowest_le x).trans_lt Nat.lt_two_pow_self)]

theorem ctzV_toNat {n : Nat} (x : BitVec n) : ctzV n x.toNat = (BitVec.ofNat n (lowest x)).toNat := (lowest_toNat_ofNat x).symm

/-- A set bit with none below it is the lowest. -/
theorem lowest_eq_of_bit {n i : Nat} {x : BitVec n} (hi : x.getLsbD i = true) (hz : ∀ j < i, x.getLsbD j = false) : lowest x = i := by
  have : (List.range n).find? x.getLsbD = some i :=
    List.find?_range_eq_some.2 ⟨hi, List.mem_range.2 (BitVec.lt_of_getLsbD hi), fun j hj => by rw [hz j hj]; rfl⟩
  rw [lowest, this, Option.getD_some]

@[simp] theorem lowest_zero (n : Nat) : lowest 0#n = n := by
  have : (List.range n).find? (0#n).getLsbD = none := List.find?_range_eq_none.2 fun i _ => by simp
  rw [lowest, this, Option.getD_none]

theorem zerosAbove_zero (n : Nat) : zerosAbove 0#n = n := by
  have : (0#n).reverse = 0#n := by
    apply BitVec.eq_of_getLsbD_eq
    intro i _
    rw [BitVec.getLsbD_reverse, BitVec.getMsbD_zero, BitVec.getLsbD_zero]
  rw [zerosAbove, this, lowest_zero]

/-- The zeros above the highest set bit, from the place of that bit. -/
theorem zerosAbove_of_ne_zero {n : Nat} {x : BitVec n} (hx : x ≠ 0#n) : zerosAbove x = n - 1 - x.toNat.log2 := by
  have h0 : x.toNat ≠ 0 := fun h => hx (BitVec.eq_of_toNat_eq h)
  have htop : x.toNat.log2 < n := (Nat.log2_lt h0).2 x.isLt
  apply lowest_eq_of_bit
  · have hi : n - 1 - (n - 1 - x.toNat.log2) = x.toNat.log2 := by omega
    have hlt : n - 1 - x.toNat.log2 < n := by omega
    rw [BitVec.getLsbD_reverse, BitVec.getMsbD_eq_getLsbD, hi, decide_eq_true hlt, Bool.true_and]
    exact Nat.testBit_log2 h0
  · intro j hj
    have hlt : x.toNat.log2 < n - 1 - j := by omega
    rw [BitVec.getLsbD_reverse, BitVec.getMsbD_eq_getLsbD, BitVec.getLsbD, Nat.testBit_lt_two_pow ((Nat.log2_lt h0).1 hlt), Bool.and_false]

theorem clzV_toNat {n : Nat} (x : BitVec n) : clzV n x.toNat = (BitVec.ofNat n (zerosAbove x)).toNat := by
  rw [zerosAbove, lowest_toNat_ofNat, ← zerosAbove, clzV]
  split
  · rename_i h
    rw [BitVec.eq_of_toNat_eq (y := 0#n) h, zerosAbove_zero]
  · rename_i h
    exact (zerosAbove_of_ne_zero fun hx => h (congrArg BitVec.toNat hx)).symm

theorem brevV_toNat {n : Nat} (x : BitVec n) : brevV n x.toNat = x.reverse.toNat := by
  rw [brevV, BitVec.ofNat_toNat, BitVec.setWidth_eq]

end Sys2Proof.Claims
end

section
/-! PROOFS. Integer words: the shapes they have in the model, and O2. -/

namespace Sys2Proof.Claims

open Sys2Proof Machine

/-! ## Checks in sequence -/

@[simp] theorem ok_bind {ε α β : Type} (a : α) (f : α → Except ε β) : (Except.ok a >>= f) = f a := rfl

@[simp] theorem error_bind {ε α β : Type} (e : ε) (f : α → Except ε β) : (Except.error e >>= f) = .error e := rfl

theorem bind_eq_ok {ε α β : Type} {x : Except ε α} {f : α → Except ε β} {b : β} : (x >>= f) = .ok b ↔ ∃ a, x = .ok a ∧ f a = .ok b := by
  cases x <;> simp

/-! ## Words that go on, words that are refused -/

theorem exit_not_refused {s : State} {nxt : BitVec 2} (h : mayExit s nxt = true) : exitRefused s.g nxt = false := by
  simpa [mayExit] using h

theorem runs_of_word {i : Instr} {len : Nat} {nxt : BitVec 2} {s t : State} {eff : Except Raised State}
    (hi : exec i s = word len nxt s eff) (hx : mayExit s nxt = true) (he : eff = .ok t) : Runs i len nxt s t := by
  have hword : ∀ u, takeExit nxt t = .ok u → exec i s = .next (goOn len s u) := fun u hu => hi.trans (word_eq (exit_not_refused hx) he hu)
  refine ⟨fun h0 => hword t ?_, hword⟩
  rw [h0, takeExit_stay]

/-- A word whose own checks fail raises ILLEGAL_OPERAND (R76). -/
theorem refused_of_word {i : Instr} {len : Nat} {nxt : BitVec 2} {s : State} {eff : Except Raised State}
    (hi : exec i s = word len nxt s eff) (hx : mayExit s nxt = true) (he : eff = .error bad) :
    exec i s = .next (raised (plain .illegalOperand) s) := hi.trans (word_raises (exit_not_refused hx) he)

/-! ## Types of a word -/

/-- A picked type is the default or one of those allowed (R87, R88). -/
theorem pickTy_mem {dflt t : Ty} {tys : List Ty} {c : Nat} (h : pickTy dflt tys c = some t) : t ∈ dflt :: tys := by
  unfold pickTy at h
  split at h
  · cases h
    exact List.mem_cons_self
  · rw [Option.filter_eq_some_iff] at h
    exact List.mem_cons_of_mem _ (List.contains_iff_mem.1 h.2)

theorem tyCheck_mem {takes : Takes} {dflt t : Ty} {tys : List Ty} {w : AWord} (h : tyCheck takes dflt tys w = .ok t) : t ∈ dflt :: tys := by
  obtain ⟨_, _, h⟩ := bind_eq_ok.1 h
  split at h
  · cases h
    exact pickTy_mem ‹_›
  · cases h

theorem uniCheck_mem {w : AWord} {s : State} {t : Ty} (h : uniCheck w s = .ok t) : t ∈ .i64 :: uniTypes := by
  obtain ⟨_, _, h⟩ := bind_eq_ok.1 h
  obtain ⟨_, hp, h⟩ := bind_eq_ok.1 h
  obtain ⟨_, _, h⟩ := bind_eq_ok.1 h
  cases h
  split at hp
  · cases hp
    exact pickTy_mem ‹_›
  · cases hp

/-- A list of types of 32 or 64 bits. -/
def Wide32Or64 (tys : List Ty) : Prop := ∀ t ∈ tys, tyBits t = 32 ∨ tyBits t = 64

theorem intTypes_width : Wide32Or64 (.i32 :: intTypes) := by unfold Wide32Or64; decide
theorem bitTypes_width : Wide32Or64 (.b32 :: bitTypes) := by unfold Wide32Or64; decide
theorem n32_intTypes_width : Wide32Or64 (.n32 :: intTypes) := by unfold Wide32Or64; decide
theorem uniTypes_width : Wide32Or64 (.i64 :: uniTypes) := by unfold Wide32Or64; decide

/-! ## Operands as numbers and as bit vectors -/

theorem laneA_eq (w : AWord) (s : State) (t : Ty) (l : Nat) : laneA w s t l = (aVal w s t l).toNat := by
  rw [aVal, BitVec.toNat_ofNat, laneA, Nat.mod_mod]

theorem laneB_eq (w : AWord) (s : State) (t : Ty) (l : Nat) : laneB w s t l = (bVal w s t l).toNat := by
  rw [bVal, BitVec.toNat_ofNat, laneB, Nat.mod_mod]

theorem uniA_eq (w : AWord) (s : State) (t : Ty) : uniA w s t = (ua w s t).toNat := by
  rw [ua, BitVec.toNat_ofNat, uniA, Nat.mod_mod]

/-- D of a 32-bit or 64-bit form: the register or the pair that the width asks for. -/
theorem laneD_eq {w : AWord} {s : State} {t : Ty} {l : Nat} (h : tyBits t = 32 ∨ tyBits t = 64) :
    laneD w s (tyBits t == 64) l = (dVal w s t l).toNat := by
  have hlt : laneD w s (tyBits t == 64) l < 2 ^ tyBits t := by
    rcases h with h | h <;> rw [h]
    · exact (vGet s.g w.d.toNat l).isLt
    · exact (pairGet s.g w.d.toNat l).isLt
  rw [dVal, BitVec.toNat_ofNat, Nat.mod_eq_of_lt hlt]

theorem putD_toNat {n : Nat} (w : AWord) (s : State) (wide : Bool) (x : Nat → BitVec n) :
    putD w s wide (fun l => (x l).toNat) = wroteV w s wide fun l => (x l).setWidth 64 := by
  simp only [putD, wroteV, BitVec.ofNat_toNat]

/-- A result in an s register is extended as R119 says. -/
theorem writeS_toNat {t : Ty} {d : Nat} {g : Gang} (h : tyBits t = 32 ∨ tyBits t = 64) (x : BitVec (tyBits t)) :
    writeS t d x.toNat g = sSet g d (extend t x) := by
  unfold writeS extend
  generalize tyBits t = n at h x
  rcases h with rfl | rfl <;> cases tySigned t <;> simp

/-! ## The shapes of integer words: what each computes on codes, as an operation on bit vectors -/

/-- The word i computes F of the old D, A and B. -/
def IsVec3 (dflt : Ty) (tys : List Ty) (i : AWord → Instr) (F : Bool → (n : Nat) → BitVec n → BitVec n → BitVec n → BitVec n) : Prop :=
  ∃ f : Bool → Nat → Nat → Nat → Nat → Nat, (∀ w s, exec (i w) s = vec3 w s dflt tys fun t => f (tySigned t) (tyBits t)) ∧
    ∀ sg n (d a b : BitVec n), f sg n d.toNat a.toNat b.toNat = (F sg n d a b).toNat

/-- The word i computes F of A. -/
def IsVec1 (dflt : Ty) (tys : List Ty) (i : AWord → Instr) (F : (n : Nat) → BitVec n → BitVec n) : Prop :=
  ∃ f : Nat → Nat → Nat, (∀ w s, exec (i w) s = vec1 w s dflt tys fun t => f (tyBits t)) ∧ ∀ n (a : BitVec n), f n a.toNat = (F n a).toNat

/-- The word i computes F of the old D, A and the two controls in B: bits 7 to 0 and bits 15 to 8 (R127). -/
def IsVecShift (dflt : Ty) (tys : List Ty) (i : AWord → Instr) (F : Bool → (n : Nat) → BitVec n → BitVec n → Nat → Nat → BitVec n) : Prop :=
  ∃ f : Bool → Nat → Nat → Nat → Nat → Nat, (∀ w s, exec (i w) s = vecShift w s dflt tys fun t => f (tySigned t) (tyBits t)) ∧
    ∀ sg n (d a : BitVec n) b, f sg n d.toNat a.toNat b = (F sg n d a (b % 256) (b / 256 % 256)).toNat

/-- The uniform word i computes F of A and the two controls in B (R127). -/
def IsUniShift (i : AWord → Instr) (F : Bool → (n : Nat) → BitVec n → Nat → Nat → BitVec n) : Prop :=
  ∃ f : Bool → Nat → Nat → Nat → Nat, (∀ w s, exec (i w) s = uniShift w s fun t => f (tySigned t) (tyBits t)) ∧
    ∀ sg n (a : BitVec n) b, f sg n a.toNat b = (F sg n a (b % 256) (b / 256 % 256)).toNat

section
variable {dflt : Ty} {tys : List Ty} {i : AWord → Instr} {w : AWord} {s : State} {t : Ty}

theorem IsVec3.runs {F : Bool → (n : Nat) → BitVec n → BitVec n → BitVec n → BitVec n} (h : IsVec3 dflt tys i F)
    (htys : Wide32Or64 (dflt :: tys)) (hx : mayExit s w.nxt = true) (hl : vecLegal dflt tys false w s t) :
    Runs (i w) (aLen w) w.nxt s (wroteV w s (tyBits t == 64) fun l => (F (tySigned t) _ (dVal w s t l) (aVal w s t l) (bVal w s t l)).setWidth 64) := by
  obtain ⟨f, hi, hf⟩ := h
  obtain ⟨ht, hd⟩ := hl
  rw [Bool.not_false, Bool.and_true] at hd
  have hw := htys t (tyCheck_mem ht)
  refine runs_of_word (hi w s) hx ?_
  simp only [ht, hd, ok_bind, need_true, laneD_eq hw, laneA_eq, laneB_eq, hf, putD_toNat]

theorem IsVec1.runs {F : (n : Nat) → BitVec n → BitVec n} (h : IsVec1 dflt tys i F) (hx : mayExit s w.nxt = true)
    (hl : vecLegal dflt tys false w s t) (hb : w.b = 112) :
    Runs (i w) (aLen w) w.nxt s (wroteV w s (tyBits t == 64) fun l => (F _ (aVal w s t l)).setWidth 64) := by
  obtain ⟨f, hi, hf⟩ := h
  obtain ⟨ht, hd⟩ := hl
  rw [Bool.not_false, Bool.and_true] at hd
  refine runs_of_word (hi w s) hx ?_
  simp only [ht, hd, hb, beq_self_eq_true, Bool.and_true, ok_bind, need_true, laneA_eq, hf, putD_toNat]

theorem IsVecShift.runs {F : Bool → (n : Nat) → BitVec n → BitVec n → Nat → Nat → BitVec n} (h : IsVecShift dflt tys i F)
    (htys : Wide32Or64 (dflt :: tys)) (hx : mayExit s w.nxt = true) (hl : vecLegal dflt tys false w s t) :
    Runs (i w) (aLen w) w.nxt s (wroteV w s (tyBits t == 64) fun l =>
      (F (tySigned t) _ (dVal w s t l) (aVal w s t l) (count w s l) (laneB32 w s l / 256 % 256)).setWidth 64) := by
  obtain ⟨f, hi, hf⟩ := h
  obtain ⟨ht, hd⟩ := hl
  rw [Bool.not_false, Bool.and_true] at hd
  have hw := htys t (tyCheck_mem ht)
  refine runs_of_word (hi w s) hx ?_
  simp only [ht, hd, ok_bind, need_true, laneD_eq hw, laneA_eq, hf, putD_toNat, count]

theorem IsVecShift.refused {F : Bool → (n : Nat) → BitVec n → BitVec n → Nat → Nat → BitVec n} (h : IsVecShift dflt tys i F)
    (hx : mayExit s w.nxt = true) (ht : tyCheck { ty := true } dflt tys w = .ok t) (hd : abd w s (tyBits t == 64) (tyBits t == 64) = false) :
    exec (i w) s = .next (raised (plain .illegalOperand) s) := by
  obtain ⟨f, hi, -⟩ := h
  refine refused_of_word (hi w s) hx ?_
  simp only [ht, hd, ok_bind, need_false, error_bind]

theorem IsUniShift.runs {F : Bool → (n : Nat) → BitVec n → Nat → Nat → BitVec n} (h : IsUniShift i F) (hx : mayExit s w.nxt = true)
    (hl : uniLegal w s t) :
    Runs (i w) (aLen w) w.nxt s (wroteS w s (extend t (F (tySigned t) _ (ua w s t) (uniB32 w s % 256) (uniB32 w s / 256 % 256)))) := by
  obtain ⟨f, hi, hf⟩ := h
  obtain ⟨ht, hd⟩ := hl
  refine runs_of_word (hi w s) hx ?_
  simp only [ht, hd, ok_bind, Bool.not_false, need_true, uniA_eq, hf, writeS_toNat (uniTypes_width t (uniCheck_mem ht)), wroteS]

end

/-! ## The tables of the statements -/

theorem intOps_are_vec3 : ∀ p ∈ intOps, IsVec3 .i32 intTypes p.1 p.2 := by
  simp only [intOps, List.forall_mem_cons]
  exact ⟨⟨fun _ n _ => addV n, fun _ _ => rfl, fun _ _ _ => addV_toNat⟩,
    ⟨fun _ n _ => subV n, fun _ _ => rfl, fun _ _ _ => subV_toNat⟩,
    ⟨fun _ n _ => mulLoV n, fun _ _ => rfl, fun _ _ _ => mulLoV_toNat⟩,
    ⟨fun sg n _ => mulHiV sg n, fun _ _ => rfl, fun sg _ _ => mulHiV_toNat sg⟩,
    ⟨fun _ n d a b => (d + a * b) % 2 ^ n, fun _ _ => rfl, fun _ _ => madV_toNat⟩,
    ⟨fun sg n _ => minV sg n, fun _ _ => rfl, fun sg _ _ => minV_toNat sg⟩,
    ⟨fun sg n _ => maxV sg n, fun _ _ => rfl, fun sg _ _ => maxV_toNat sg⟩, List.forall_mem_nil _⟩

theorem bitOps_are_vec3 : ∀ p ∈ bitOps, IsVec3 .b32 bitTypes p.1 fun _ n _ => p.2 n := by
  simp only [bitOps, List.forall_mem_cons]
  exact ⟨⟨fun _ _ _ a b => a &&& b, fun _ _ => rfl, fun _ _ _ a b => (BitVec.toNat_and a b).symm⟩,
    ⟨fun _ _ _ a b => a ||| b, fun _ _ => rfl, fun _ _ _ a b => (BitVec.toNat_or a b).symm⟩,
    ⟨fun _ _ _ a b => a ^^^ b, fun _ _ => rfl, fun _ _ _ a b => (BitVec.toNat_xor a b).symm⟩, List.forall_mem_nil _⟩

theorem bitUnary_are_vec1 : ∀ p ∈ bitUnary, IsVec1 .b32 bitTypes p.1 p.2 := by
  simp only [bitUnary, List.forall_mem_cons]
  exact ⟨⟨notV, fun _ _ => rfl, fun _ => notV_toNat⟩, ⟨popcV, fun _ _ => rfl, fun _ => popcV_toNat⟩, ⟨clzV, fun _ _ => rfl, fun _ => clzV_toNat⟩,
    ⟨ctzV, fun _ _ => rfl, fun _ => ctzV_toNat⟩, ⟨brevV, fun _ _ => rfl, fun _ => brevV_toNat⟩, List.forall_mem_nil _⟩

theorem shifts_are_vecShift : ∀ p ∈ shifts, IsVecShift .b32 bitTypes p.1 fun _ n _ a c _ => p.2 n a c := by
  simp only [shifts, List.forall_mem_cons]
  exact ⟨⟨fun _ n _ => shlV n, fun _ _ => rfl, fun _ _ _ => shlV_toNat⟩, ⟨fun _ n _ => shrV n, fun _ _ => rfl, fun _ _ _ => shrV_toNat⟩,
    ⟨fun _ n _ => sarV n, fun _ _ => rfl, fun _ _ _ => sarV_toNat⟩, ⟨fun _ n _ => rotV n, fun _ _ => rfl, fun _ _ _ => rotV_toNat⟩,
    List.forall_mem_nil _⟩

theorem bfx_is_vecShift : IsVecShift .n32 intTypes .bfx fun sg _ _ a pos len => extract sg a pos len :=
  ⟨fun sg n _ => bfxV sg n, fun _ _ => rfl, fun sg _ _ => bfxV_toNat sg⟩

theorem bfi_is_vecShift : IsVecShift .n32 intTypes .bfi fun _ _ d a pos len => insert d a pos len :=
  ⟨fun _ n => bfiV n, fun _ _ => rfl, fun _ _ => bfiV_toNat⟩

theorem uniShifts_are_uniShift : ∀ p ∈ uniShifts, IsUniShift p.1 p.2 := by
  simp only [uniShifts, List.forall_mem_cons]
  exact ⟨⟨fun _ => shlV, fun _ _ => rfl, fun _ _ => shlV_toNat⟩, ⟨fun _ => shrV, fun _ _ => rfl, fun _ _ => shrV_toNat⟩,
    ⟨fun _ => sarV, fun _ _ => rfl, fun _ _ => sarV_toNat⟩, ⟨bfxV, fun _ _ => rfl, fun sg _ => bfxV_toNat sg⟩, List.forall_mem_nil _⟩

/-- Settles O2: each word is of one shape, whose function on codes is the statement's operation on bit vectors. -/
theorem vectorIntegerWordsWriteTheirResult : Obligations.VectorIntegerWordsWriteTheirResult := by
  unfold Obligations.VectorIntegerWordsWriteTheirResult
  refine ⟨fun p hp w s t hx hl => ?_, fun p hp w s t hx hl => ?_, fun p hp w s t hx hl hb => ?_, fun p hp w s t hx hl => ?_,
    fun p hp w s t hx ht hd => ?_, fun w s t hx hl => ⟨?_, ?_⟩, fun p hp w s t hx hl => ?_⟩
  · exact (intOps_are_vec3 p hp).runs intTypes_width hx hl
  · exact (bitOps_are_vec3 p hp).runs bitTypes_width hx hl
  · exact (bitUnary_are_vec1 p hp).runs hx hl hb
  · exact (shifts_are_vecShift p hp).runs bitTypes_width hx hl
  · exact (shifts_are_vecShift p hp).refused hx ht hd
  · exact bfx_is_vecShift.runs n32_intTypes_width hx hl
  · exact bfi_is_vecShift.runs n32_intTypes_width hx hl
  · exact (uniShifts_are_uniShift p hp).runs hx hl

end Sys2Proof.Claims
end

section
/-! PROOFS. Mask words (R145): their checks, their results, their selectors, and O10. -/

namespace Sys2Proof.Claims

open Sys2Proof Machine

/-! ## A word of one check -/

theorem runs_of_check {i : Instr} {len : Nat} {nxt : BitVec 2} {s t : State} {c : Bool}
    (hi : exec i s = word len nxt s (do need bad c; .ok t)) (hx : mayExit s nxt = true) (hc : c = true) : Runs i len nxt s t :=
  runs_of_word hi hx (by rw [hc, need_true, ok_bind])

theorem refused_of_check {i : Instr} {len : Nat} {nxt : BitVec 2} {s t : State} {c : Bool}
    (hi : exec i s = word len nxt s (do need bad c; .ok t)) (hx : mayExit s nxt = true) (hc : c = false) :
    exec i s = .next (raised (plain .illegalOperand) s) :=
  refused_of_word hi hx (by rw [hc, need_false, error_bind])

/-! ## The checks -/

/-- The check of a form with a k destination and one or two k sources. -/
def maskKCheck (w : AWord) (two : Bool) : Bool :=
  modOk {} w.pre && decide (w.a.toNat < 8) && (if two then decide (w.b.toNat < 8) else w.b == 0) && (w.d &&& 0x08) == 0 && w.d.toNat % 8 != 0

/-- The check of a form with an s destination. -/
def maskSCheck (w : AWord) : Bool := modOk {} w.pre && decide (w.a.toNat < 8) && w.b == 0

/-- The check of `s2k`. -/
def s2kCheck (w : AWord) : Bool :=
  modOk {} w.pre && ((decide (128 ≤ w.a.toNat) && decide (w.a.toNat < 224)) || w.a.toNat == 240) && w.b == 0 && (w.d &&& 0x38) == 0 && w.d.toNat % 8 != 0

theorem maskKCheck_iff {w : AWord} {two : Bool} : maskKCheck w two = true ↔
    modOk {} w.pre = true ∧ w.a.toNat < 8 ∧ (if two then w.b.toNat < 8 else w.b = 0) ∧ w.d &&& 0x08 = 0 ∧ w.d.toNat % 8 ≠ 0 := by
  cases two <;> simp [maskKCheck, and_assoc]

theorem maskSCheck_iff {w : AWord} : maskSCheck w = true ↔ modOk {} w.pre = true ∧ w.a.toNat < 8 ∧ w.b = 0 := by
  simp [maskSCheck, and_assoc]

theorem s2kCheck_iff {w : AWord} : s2kCheck w = true ↔
    modOk {} w.pre = true ∧ ((128 ≤ w.a.toNat ∧ w.a.toNat < 224) ∨ w.a = 240) ∧ w.b = 0 ∧ w.d &&& 0x38 = 0 ∧ w.d.toNat % 8 ≠ 0 := by
  have ha : w.a.toNat = 240 ↔ w.a = 240 := BitVec.toNat_inj (y := 240#8)
  simp [s2kCheck, and_assoc, ha]

theorem maskKCheck_fails {w : AWord} {two : Bool} (h : modOk {} w.pre = false ∨ 8 ≤ w.a.toNat ∨ (two = true ∧ 8 ≤ w.b.toNat) ∨
    (two = false ∧ w.b ≠ 0) ∨ w.d &&& 0x08 ≠ 0 ∨ w.d.toNat % 8 = 0) : maskKCheck w two = false := by
  rw [Bool.eq_false_iff, Ne, maskKCheck_iff]
  rintro ⟨hm, ha, hb, hd, hk⟩
  rcases h with h | h | ⟨rfl, h⟩ | ⟨rfl, h⟩ | h | h
  · exact Bool.false_ne_true (h.symm.trans hm)
  · omega
  · rw [if_pos rfl] at hb
    omega
  · exact h hb
  · exact h hd
  · exact hk h

theorem maskSCheck_fails {w : AWord} (h : modOk {} w.pre = false ∨ 8 ≤ w.a.toNat ∨ w.b ≠ 0) : maskSCheck w = false := by
  rw [Bool.eq_false_iff, Ne, maskSCheck_iff]
  rintro ⟨hm, ha, hb⟩
  rcases h with h | h | h
  · exact Bool.false_ne_true (h.symm.trans hm)
  · omega
  · exact h hb

theorem s2kCheck_fails {w : AWord} (h : modOk {} w.pre = false ∨ w.a.toNat < 128 ∨ (224 ≤ w.a.toNat ∧ w.a ≠ 240) ∨ w.b ≠ 0 ∨
    w.d &&& 0x38 ≠ 0 ∨ w.d.toNat % 8 = 0) : s2kCheck w = false := by
  rw [Bool.eq_false_iff, Ne, s2kCheck_iff]
  rintro ⟨hm, ha, hb, hd, hk⟩
  rcases h with h | h | ⟨h, hn⟩ | h | h | h
  · exact Bool.false_ne_true (h.symm.trans hm)
  · rcases ha with ha | ha
    · omega
    · rw [ha] at h
      exact absurd h (by decide)
  · rcases ha with ha | ha
    · omega
    · exact hn ha
  · exact h hb
  · exact h hd
  · exact hk h

/-! ## The effects -/

/-- The lowest lane of a mask is its lowest set bit. -/
theorem lowLane_eq_lowest (m : Mask) : lowLane m = lowest m := by
  rw [lowLane, lanesOf, List.headD_eq_head?_getD, List.head?_filter, lowest]

theorem exec_maskOps : ∀ p ∈ maskOps, ∀ w s, exec (p.1 w) s = word (aLen w) w.nxt s (do
    need bad (maskKCheck w p.2.1)
    .ok { s with g := kSet s.g (w.d.toNat % 8) (p.2.2 (kGet s.g w.a.toNat) (kGet s.g w.b.toNat)) }) := by
  simp only [maskOps, List.forall_mem_cons]
  exact ⟨fun _ _ => rfl, fun _ _ => rfl, fun _ _ => rfl, fun _ _ => rfl, fun _ _ => rfl, List.forall_mem_nil _⟩

theorem exec_maskCounts : ∀ p ∈ maskCounts, ∀ w s, exec (p.1 w) s = word (aLen w) w.nxt s (do
    need bad (maskSCheck w)
    .ok (wroteS w s (BitVec.ofNat 64 (p.2 (kGet s.g w.a.toNat))))) := by
  simp only [maskCounts, List.forall_mem_cons, ← lowLane_eq_lowest]
  exact ⟨fun _ _ => rfl, fun _ _ => rfl, fun _ _ => rfl, List.forall_mem_nil _⟩

theorem exec_s2k (w : AWord) (s : State) : exec (.s2k w) s = word (aLen w) w.nxt s (do
    need bad (s2kCheck w)
    .ok { s with g := kSet s.g (w.d.toNat % 8) ((readA s (.int 32) w.la 0 w.a.toNat).truncate 32) }) := rfl

/-! ## The selectors (R90) -/

/-- A word is put together again from its fields. -/
theorem encAWord_aFields (pre : Option ModWord) (x : Word) : encAWord (x.extractLsb' 2 8) (aFields pre x) = x := by
  rw [encAWord, aFields, nxtOf, BitVec.extractLsb'_append_extractLsb'_eq_extractLsb' (show 25 = 17 + 8 from rfl),
    BitVec.extractLsb'_append_extractLsb'_eq_extractLsb' (show 17 = 10 + 7 from rfl),
    BitVec.extractLsb'_append_extractLsb'_eq_extractLsb' (show 10 = 2 + 8 from rfl),
    BitVec.extractLsb'_append_extractLsb'_eq_extractLsb' (show 2 = 0 + 2 from rfl)]
  exact field_all x

/-- A format A or U word that stands alone, with no MOD word before it and no literal after it, decodes to what its opcode and fields say. -/
theorem decodeWords_of_aInstr {x : Word} {op : BitVec 8} {i : Instr} {c : Nat} (rest : List Word) (hop : x.extractLsb' 2 8 = op)
    (ha : x.extractLsb' 17 8 ≠ 240) (hb : x.extractLsb' 25 7 ≠ 124) (hc : opClass op.toNat = some c) (hm : isM op.toNat = false)
    (hne : op.toNat ≠ 0xFE) (ht : op.toNat ≠ 0x3E) (hi : aInstr op.toNat (aFields none x) = some i) : decodeWords (x :: rest) = .ok (i, rest) := by
  have hw : wfA false (aFields none x) = true := by
    have ha' : ((aFields none x).a == 240) = false := beq_eq_false_iff_ne.2 ha
    have hb' : ((aFields none x).b == 124) = false := beq_eq_false_iff_ne.2 hb
    rw [wfA, ha', hb']
    rfl
  have henc : encA op (aFields none x) = [x] := by
    rw [← hop]
    exact congrArg (fun y => [y]) (encAWord_aFields none x)
  have h := decodeWords_encA rest hne hc hm hw (beq_eq_false_iff_ne.2 ht) hi
  rwa [henc] at h

theorem aInstr_binary {w : AWord} (h : w.d.toNat / 16 < 3) : aInstr 0xAC w =
    some (if w.d.toNat / 16 = 0 then .kand w else if w.d.toNat / 16 = 1 then .kor w else .kxor w) := by
  simp only [aInstr]
  generalize w.d.toNat / 16 = k at h
  interval_cases k <;> rfl

theorem aInstr_unary {w : AWord} (h : w.d.toNat / 16 < 2) : aInstr 0xAD w = some (if w.d.toNat / 16 = 0 then .knot w else .kmov w) := by
  simp only [aInstr]
  generalize w.d.toNat / 16 = k at h
  interval_cases k <;> rfl

/-- D[6:4], as the selector of the forms with a k destination names it. -/
theorem aFields_d_div (pre : Option ModWord) (x : Word) : (aFields pre x).d.toNat / 16 = (x.extractLsb' 14 3).toNat := by
  simp only [aFields, BitVec.extractLsb'_toNat, Nat.shiftRight_eq_div_pow]
  omega

/-- D[6], as the selector of the other mask forms names it. -/
theorem aFields_d_bit (pre : Option ModWord) (x : Word) : (aFields pre x).d.getLsbD 6 = x.getLsbD 16 := by
  simp [aFields]

/-- Settles O10: each word is one check and one write; its selector lies in D. -/
theorem maskWordsWriteTheirResult : Obligations.MaskWordsWriteTheirResult := by
  unfold Obligations.MaskWordsWriteTheirResult
  refine ⟨fun p hp w s hx hm ha hb hd hk => ?_, fun p hp w s hx hm ha hb => ?_, fun w s hx hm ha hb hd hk => ?_, fun g => rfl,
    fun p hp w s hx h => ?_, fun p hp w s hx h => ?_, fun w s hx h => ?_, fun x rest ha hb => ⟨fun hop hs => ?_, fun hop hs => ?_, fun hop => ?_, fun hop => ?_⟩⟩
  · exact runs_of_check (exec_maskOps p hp w s) hx (maskKCheck_iff.2 ⟨hm, ha, hb, hd, hk⟩)
  · exact runs_of_check (exec_maskCounts p hp w s) hx (maskSCheck_iff.2 ⟨hm, ha, hb⟩)
  · exact runs_of_check (exec_s2k w s) hx (s2kCheck_iff.2 ⟨hm, ha, hb, hd, hk⟩)
  · exact refused_of_check (exec_maskOps p hp w s) hx (maskKCheck_fails h)
  · exact refused_of_check (exec_maskCounts p hp w s) hx (maskSCheck_fails h)
  · exact refused_of_check (exec_s2k w s) hx (s2kCheck_fails h)
  · rw [← aFields_d_div none x] at hs ⊢
    exact decodeWords_of_aInstr rest hop ha hb rfl rfl (by decide) (by decide) (aInstr_binary hs)
  · rw [← aFields_d_div none x] at hs ⊢
    exact decodeWords_of_aInstr rest hop ha hb rfl rfl (by decide) (by decide) (aInstr_unary hs)
  · rw [← aFields_d_bit none x]
    exact decodeWords_of_aInstr rest hop ha hb rfl rfl (by decide) (by decide) rfl
  · rw [← aFields_d_bit none x]
    exact decodeWords_of_aInstr rest hop ha hb rfl rfl (by decide) (by decide) rfl

end Sys2Proof.Claims
end
